-- ==== Sys2Proof/Word.lean ====
section
/-! DEFINITION. The word types of the machine and their plainest arithmetic. Every multi-byte value is little-endian and bit 0 is the least significant bit (R4). -/

namespace Sys2Proof

/-- One byte of memory. -/
abbrev Byte := BitVec 8

/-- One register of the varying file in one lane (R10). -/
abbrev W32 := BitVec 32

/-- A uniform register, a 64-bit address or a control register (R10, R312). -/
abbrev W64 := BitVec 64

/-- A program counter: a 48-bit virtual byte address (R42). -/
abbrev Pc := BitVec 48

/-- One bit per lane of a convoy, bit l for lane l (R43). -/
abbrev Mask := BitVec 64

/-- The address of the next word (R44). -/
def Pc.next (p : Pc) : Pc := p + 8

end Sys2Proof
end

