-- ==== Sys2Proof/Config.lean ====
section
/-! DEFINITION. What an implementation fixes and the spec leaves open: constants without a body, so that no proof can see a value of them. -/

namespace Sys2Proof.Config

/-- The free choice of which agent moves after the n-th step: the spec orders the agents only where a rule says so (R68, R90, R94). Assumption log 1. -/
opaque freeTurn : Nat → Nat

/-- What a cycle adds, on a core, to the counts of interlock hold cycles and of matrix array busy cycles (R327, events 0x06 and 0x07): the model leaves durations free. By core and step. Assumption log 14. -/
opaque freeHeldCycles : Nat → Nat → Nat
opaque freeBusyCycles : Nat → Nat → Nat

/-- What a V cell of detection mode reads after an even number of its bits have flipped, which its parity does not see (R63). By step. Assumption log 36. -/
opaque freeCell : Nat → BitVec 32

/-- Which of its source elements a copy, and which row or chunk another engine, reads before its turn: the accesses of an engine have no order among themselves (R94, R103). By step. Assumption logs 22, 28 and 34. -/
opaque freeElement : Nat → Nat

/-- The module's serial number (R359, R361); the spec gives no value. Assumption log 6. -/
opaque serial : BitVec 64

/-- The 2,420 bytes of the ML-DSA-44 signature by the identity key over a message (R368, R370); neither the key nor the algorithm is in the spec. Assumption log 6. -/
opaque identitySignature : List (BitVec 8) → List (BitVec 8)

/-- The 1,312 bytes of the identity public key followed by the Soltuvar certificate as stored in flash (R370). Assumption log 6. -/
opaque identityKeyAndCertificate : List (BitVec 8)

/-- The first 16 bytes of the SHA3-256 of the signer's public key, by entry kind (R370). Assumption log 6. -/
opaque signerKeyDigest : Nat → List (BitVec 8)

/-- The mask that an implementation lays over the device-defined bytes of the context areas (R324, R325), by offset. Assumption log 8. -/
opaque contextMask : Nat → BitVec 8

/-- Does an image carry a valid ML-DSA-44 signature (R366, R368)? Neither keys nor image formats are in the spec. Assumption log 6. -/
opaque imageVerifies : List (BitVec 8) → Bool

/-- The version that an image carries (R370). Assumption log 6. -/
opaque imageVersion : List (BitVec 8) → Nat

/-- The microcode images that a firmware image loads into the hub (R368). Assumption log 6. -/
opaque imageMicrocode : List (BitVec 8) → List (List (BitVec 8))

/-- The image of the boot ROM, which the ROM measures first (R368). Assumption log 6. -/
opaque romImage : List (BitVec 8)

end Sys2Proof.Config
end

