-- ==== Sys2Proof/Syntax.lean ====
section
/-! DEFINITION. The instructions and events of spec/opcode_table.json: one constructor of Instr for each row. An instruction word keeps the fields of its format (R173 to R178) with every operand field decoded by R180; an event carries the numbers of the things it acts on. -/

namespace Sys2Proof

/-- A 9-bit operand field (R180). The nine patterns of the table, one constructor each: `res` is the reserved pattern 1_01_101xxx and `sp` a special, of which 0x3F is NONE. -/
inductive Opnd where
  | v (n : BitVec 8)
  | s (n : BitVec 6)
  | a (n : BitVec 5)
  | m (n : BitVec 3)
  | res (n : BitVec 3)
  | g (n : BitVec 3)
  | k (n : BitVec 3)
  | imm (n : BitVec 6)
  | sp (c : BitVec 6)
  deriving DecidableEq, Repr

/-- The fields that guarded formats have in common (R173, R179): stall count, yield hint, guard negate and guard register. -/
structure Hdr where
  stall : BitVec 4
  y : Bool
  gn : Bool
  gk : BitVec 3
  deriving DecidableEq, Repr

/-- Format F (R174). -/
structure FWord where
  hdr : Hdr
  d : Opnd
  x : Opnd
  y : Opnd
  z : Opnd
  mod : BitVec 8
  deriving DecidableEq, Repr

/-- MOVPC: format F with bits [34:8] one 27-bit displacement (R210). -/
structure MovpcWord where
  hdr : Hdr
  d : Opnd
  disp : BitVec 27
  mod : BitVec 8
  deriving DecidableEq, Repr

/-- Format I (R177). -/
structure IWord where
  hdr : Hdr
  d : Opnd
  imod : BitVec 4
  imm : BitVec 32
  deriving DecidableEq, Repr

/-- Format C (R178). -/
structure CWord where
  hdr : Hdr
  opr : Opnd
  aux : BitVec 14
  off : BitVec 24
  deriving DecidableEq, Repr

/-- The half opcodes of format P (R191). -/
inductive PairOp where
  | mov | iadd | isub | iand | ior | ixor | ishl | ishr | imin | imax
  | fadd | fmul | fmin | fmax | empty
  deriving DecidableEq, Repr

/-- One half of a format P word (R175). -/
structure Half where
  pop : PairOp
  d : BitVec 8
  x : Opnd
  hm : BitVec 4
  deriving DecidableEq, Repr

/-- Format P (R175): it has no guard. -/
structure PWord where
  stall : BitVec 4
  y : Bool
  h1 : Half
  h2 : Half
  deriving DecidableEq, Repr

/-- What a peer asks of a location of this module (R97): a read of n bytes, a write, or an atomic with the MOD[3:0] code of R273. -/
inductive PeerOp where
  | read (n : Nat)
  | write (bytes : List (BitVec 8))
  | atom (op : BitVec 4) (mmrg : Bool) (operand : List (BitVec 8))
  deriving DecidableEq, Repr

/-- An access that arrives over the avenues: the peer, the offset in this module's memory, and the operation (R97). -/
structure PeerReq where
  peer : Nat
  offset : Nat
  op : PeerOp
  deriving DecidableEq, Repr

/-- A chunk of a collective (R121): the communicator slot, the number of the collective in it, the sending rank, the sender's operation, combine, format, root and k as one number (R119), its place in its flow; the hop (0 for moved or final data, h for an operand of a node of hop h; 254 for the sender's descriptor, which opens its flow, 255 for the notice that no rank can complete, 253 for the notice that the sender has ended without completing), its chunk number, the first destination element of moved data, and its bytes (assumption log 28). -/
structure Chunk where
  slot : Nat
  number : Nat
  src : Nat
  desc : Nat
  flow : Nat
  hop : Nat
  seq : Nat
  first : Nat
  bytes : List (BitVec 8)
  deriving DecidableEq, Repr

/-- The rows of spec/opcode_table.json. -/
inductive Instr where
  /-- NOP (R196). -/
  | nop (w : CWord)
  /-- BRA (R197). -/
  | bra (w : CWord)
  /-- JMPT (R201). -/
  | jmpt (w : CWord)
  /-- CALL (R198). -/
  | call (w : CWord)
  /-- CALLT (R201). -/
  | callt (w : CWord)
  /-- RET (R199). -/
  | ret (w : CWord)
  /-- LPAD (R202). -/
  | lpad (w : CWord)
  /-- LOOP (R203). -/
  | loop (w : CWord)
  /-- LOOPBRK (R196). -/
  | loopbrk (w : CWord)
  /-- EXIT (R45). -/
  | exit (w : CWord)
  /-- YIELD (R196). -/
  | yield (w : CWord)
  /-- TRAP (R204). -/
  | trap (w : CWord)
  /-- BRK (R204). -/
  | brk (w : CWord)
  /-- ERET (R318). -/
  | eret (w : CWord)
  /-- PARK (R331). -/
  | park (w : CWord)
  /-- MOV (R205). -/
  | mov (w : FWord)
  /-- MAT (R206). -/
  | mat (w : FWord)
  /-- AFF (R207). -/
  | aff (w : FWord)
  /-- DEM (R208). -/
  | dem (w : FWord)
  /-- DEMA (R209). -/
  | dema (w : FWord)
  /-- MOVPC (R210). -/
  | movpc (w : MovpcWord)
  /-- ELECT (R211). -/
  | elect (w : FWord)
  /-- VOTE (R212). -/
  | vote (w : FWord)
  /-- KSET (R213). -/
  | kset (w : FWord)
  /-- KOP (R214). -/
  | kop (w : FWord)
  /-- IADD (R217). -/
  | iadd (w : FWord)
  /-- ISUB (R217). -/
  | isub (w : FWord)
  /-- IAND (R217). -/
  | iand (w : FWord)
  /-- IOR (R217). -/
  | ior (w : FWord)
  /-- IXOR (R217). -/
  | ixor (w : FWord)
  /-- IMIN (R217). -/
  | imin (w : FWord)
  /-- IMAX (R217). -/
  | imax (w : FWord)
  /-- IMUL (R219). -/
  | imul (w : FWord)
  /-- IMULH (R219). -/
  | imulh (w : FWord)
  /-- IMAD (R220). -/
  | imad (w : FWord)
  /-- ISHL (R221). -/
  | ishl (w : FWord)
  /-- ISHR (R221). -/
  | ishr (w : FWord)
  /-- ISAR (R221). -/
  | isar (w : FWord)
  /-- ICMP (R222). -/
  | icmp (w : FWord)
  /-- SEL (R223). -/
  | sel (w : FWord)
  /-- POPC (R224). -/
  | popc (w : FWord)
  /-- CLZ (R224). -/
  | clz (w : FWord)
  /-- BREV (R224). -/
  | brev (w : FWord)
  /-- BFE (R225). -/
  | bfe (w : FWord)
  /-- BFI (R225). -/
  | bfi (w : FWord)
  /-- LEA (R226). -/
  | lea (w : FWord)
  /-- IDOT4 (R227). -/
  | idot4 (w : FWord)
  /-- MOVI (R188). -/
  | movi (w : IWord)
  /-- IADDI (R188). -/
  | iaddi (w : IWord)
  /-- IANDI (R188). -/
  | iandi (w : IWord)
  /-- IORI (R188). -/
  | iori (w : IWord)
  /-- IXORI (R188). -/
  | ixori (w : IWord)
  /-- ICMPI (R188). -/
  | icmpi (w : IWord)
  /-- FMOVI (R188). -/
  | fmovi (w : IWord)
  /-- PAIR_WORD (R176). -/
  | pairWord (w : PWord)
  /-- FADD (R231). -/
  | fadd (w : FWord)
  /-- FSUB (R231). -/
  | fsub (w : FWord)
  /-- FMUL (R231). -/
  | fmul (w : FWord)
  /-- FFMA (R232). -/
  | ffma (w : FWord)
  /-- FMIN (R233). -/
  | fmin (w : FWord)
  /-- FMAX (R233). -/
  | fmax (w : FWord)
  /-- FCMP (R234). -/
  | fcmp (w : FWord)
  /-- FRCP (R235). -/
  | frcp (w : FWord)
  /-- FRSQ (R235). -/
  | frsq (w : FWord)
  /-- FSQRT (R235). -/
  | fsqrt (w : FWord)
  /-- FEXP2 (R235). -/
  | fexp2 (w : FWord)
  /-- FLOG2 (R235). -/
  | flog2 (w : FWord)
  /-- FSIN (R235). -/
  | fsin (w : FWord)
  /-- FCOS (R235). -/
  | fcos (w : FWord)
  /-- FTANH (R235). -/
  | ftanh (w : FWord)
  /-- FDIV (R235). -/
  | fdiv (w : FWord)
  /-- FRND (R236). -/
  | frnd (w : FWord)
  /-- F2I (R237). -/
  | f2i (w : FWord)
  /-- I2F (R238). -/
  | i2f (w : FWord)
  /-- FCVT (R239). -/
  | fcvt (w : FWord)
  /-- HADD2 (R240). -/
  | hadd2 (w : FWord)
  /-- HMUL2 (R240). -/
  | hmul2 (w : FWord)
  /-- HFMA2 (R240). -/
  | hfma2 (w : FWord)
  /-- FCLASS (R241). -/
  | fclass (w : FWord)
  /-- CVT8 (R243). -/
  | cvt8 (w : FWord)
  /-- CVT4 (R244). -/
  | cvt4 (w : FWord)
  /-- XPAND (R245). -/
  | xpand (w : FWord)
  /-- UNPK8 (R246). -/
  | unpk8 (w : FWord)
  /-- MXDOT (R247). -/
  | mxdot (w : FWord)
  /-- SCDEC (R249). -/
  | scdec (w : FWord)
  /-- SCENC (R250). -/
  | scenc (w : FWord)
  /-- SRND (R251). -/
  | srnd (w : FWord)
  /-- SHFL (R253). -/
  | shfl (w : FWord)
  /-- CMPX (R254). -/
  | cmpx (w : FWord)
  /-- SCAN (R256). -/
  | scan (w : FWord)
  /-- IRED (R256). -/
  | ired (w : FWord)
  /-- REDMAXI (R257). -/
  | redmaxi (w : FWord)
  /-- MATCH (R258). -/
  | matchLanes (w : FWord)
  /-- MINIT (R260). -/
  | minit (w : FWord)
  /-- MUPD (R261). -/
  | mupd (w : FWord)
  /-- MMRG (R262). -/
  | mmrg (w : FWord)
  /-- MRED (R263). -/
  | mred (w : FWord)
  /-- MDRAIN (R264). -/
  | mdrain (w : FWord)
  /-- MNORM (R265). -/
  | mnorm (w : FWord)
  /-- MLD (R266). -/
  | mld (w : FWord)
  /-- MST (R266). -/
  | mst (w : FWord)
  /-- MDECAY (R267). -/
  | mdecay (w : FWord)
  /-- LD (R271). -/
  | ld (w : FWord)
  /-- LDL (R271). -/
  | ldl (w : FWord)
  /-- ST (R272). -/
  | st (w : FWord)
  /-- STL (R272). -/
  | stl (w : FWord)
  /-- ATOM (R274). -/
  | atom (w : FWord)
  /-- ATOML (R274). -/
  | atoml (w : FWord)
  /-- FENCE (R275). -/
  | fence (w : FWord)
  /-- MWAIT (R276). -/
  | mwait (w : FWord)
  /-- MWAIT_REREAD (R276). -/
  | mwaitReread (n : Nat)
  /-- WAITSTAMP (R277). -/
  | waitstamp (w : FWord)
  /-- PREF (R278). -/
  | pref (w : FWord)
  /-- BARINIT (R76). -/
  | barinit (w : FWord)
  /-- BAR (R77). -/
  | bar (w : FWord)
  /-- BARARV (R77). -/
  | bararv (w : FWord)
  /-- BARWT (R77). -/
  | barwt (w : FWord)
  /-- BARL (R80). -/
  | barl (w : FWord)
  /-- CROSS (R281). -/
  | cross (w : FWord)
  /-- WAITEV (R282). -/
  | waitev (w : FWord)
  /-- SETEV (R282). -/
  | setev (w : FWord)
  /-- LAUNCH (R283). -/
  | launch (w : FWord)
  /-- LAUNCH_QUEUE_ENTRY (R332). -/
  | launchQueueEntry (n : Nat)
  /-- RSIG (R284). -/
  | rsig (w : FWord)
  /-- RWAIT (R144). -/
  | rwait (w : FWord)
  /-- ORDRD (R145). -/
  | ordrd (w : FWord)
  /-- ORDWR (R145). -/
  | ordwr (w : FWord)
  /-- ITQ (R286). -/
  | itq (w : FWord)
  /-- RAND (R287). -/
  | rand (w : FWord)
  /-- MILE (R288). -/
  | mile (w : FWord)
  /-- COPY (R290). -/
  | copy (w : FWord)
  /-- COPYP (R291). -/
  | copyp (w : FWord)
  /-- COPYM (R292). -/
  | copym (w : FWord)
  /-- SLOTFREE (R293). -/
  | slotfree (w : FWord)
  /-- BCCR (R294). -/
  | bccr (w : FWord)
  /-- COLL (R295). -/
  | coll (w : FWord)
  /-- MMA (R297). -/
  | mma (w : FWord)
  /-- MMAS (R297). -/
  | mmas (w : FWord)
  /-- AZERO (R298). -/
  | azero (w : FWord)
  /-- ACCLD (R298). -/
  | accld (w : FWord)
  /-- ACCST (R298). -/
  | accst (w : FWord)
  /-- ACCSTAT (R299). -/
  | accstat (w : FWord)
  /-- CSRR (R326). -/
  | csrr (w : FWord)
  /-- CSRW (R326). -/
  | csrw (w : FWord)
  /-- KILL_CSR_WRITE (R319). -/
  | killCsrWrite (w : FWord)
  /-- WDCTL_WRITE (R313). -/
  | wdctlWrite (w : FWord)
  /-- PERFSEL_WRITE (R327). -/
  | perfselWrite (w : FWord)
  /-- PERFR (R327). -/
  | perfr (w : FWord)
  /-- TLBINV (R328). -/
  | tlbinv (w : FWord)
  /-- CTXSV (R329). -/
  | ctxsv (w : FWord)
  /-- CTXLD (R329). -/
  | ctxld (w : FWord)
  /-- CACHEOP (R330). -/
  | cacheop (w : FWord)
  /-- FAIRNESS_TIMER_EXPIRY (R82). -/
  | fairnessTimerExpiry (core slot : Nat)
  /-- LIVELOCK (R84). -/
  | livelock (core slot : Nat)
  /-- WRITE_ACKNOWLEDGEMENT (R95). -/
  | writeAcknowledgement (id : Nat)
  /-- RETRY (R357). -/
  | retry (id : Nat)
  /-- PEER_REQUEST (R97). -/
  | peerRequest (r : PeerReq)
  /-- COPY_END (R106). -/
  | copyEnd (op : Nat)
  /-- COPY_TRANSLATION_FAULT (R114). -/
  | copyTranslationFault (op : Nat)
  /-- ENGINE_FAULT_RECORD (R354). -/
  | engineFaultRecord
  /-- FAULT_ACTION_RESUME (R354). -/
  | faultActionResume (op : Nat)
  /-- FAULT_ACTION_ABORT (R354). -/
  | faultActionAbort (op : Nat)
  /-- MATRIX_OPERATION_END (R118). -/
  | matrixOperationEnd (core : Nat)
  /-- AVENUE_CHUNK_RECEIVE (R121). -/
  | avenueChunkReceive (c : Chunk)
  /-- REDUCE_BLOCK_DISPATCH (R122). -/
  | reduceBlockDispatch (coll node : Nat)
  /-- COLLECTIVE_END (R124). -/
  | collectiveEnd (coll : Nat)
  /-- PORT_DOWN (R375). -/
  | portDown (p : Nat)
  /-- PEER_PATH_TIMEOUT (R375). -/
  | peerPathTimeout (id : Nat)
  /-- RING_RECORD_FETCH (R333). -/
  | ringRecordFetch (q : Nat)
  /-- LAUNCH_ADMISSION (R337). -/
  | launchAdmission (q : Nat)
  /-- BLOCK_PLACEMENT (R340). -/
  | blockPlacement (lid : Nat)
  /-- BLOCK_RELEASE (R69). -/
  | blockRelease (blk : Nat)
  /-- LAUNCH_COMPLETION (R341). -/
  | launchCompletion (lid : Nat)
  /-- SERVICE_BLOCK_DISPATCH (R344). -/
  | serviceBlockDispatch (sv : Nat)
  /-- MIGRATION_ARM (R356). -/
  | migrationArm (i : Nat) (v : BitVec 64)
  /-- MIGRATION_COPY_DONE (R356). -/
  | migrationCopyDone (i : Nat)
  /-- MIGRATION_DISARM (R356). -/
  | migrationDisarm (i : Nat) (v : BitVec 64)
  /-- TAIL (R333). -/
  | tail (q : Nat) (v : BitVec 64)
  /-- QCTL (R333). -/
  | qctl (q : Nat) (v : BitVec 64)
  /-- CONTROL_REGISTER_WRITE (R361). -/
  | controlRegisterWrite (off size : Nat) (v : BitVec 64)
  /-- MEMORY_WINDOW_READ (R360). -/
  | memoryWindowRead (off size : Nat)
  /-- MEMORY_WINDOW_WRITE (R360). -/
  | memoryWindowWrite (off : Nat) (bytes : List (BitVec 8))
  /-- SUMMARY (R367). -/
  | summary (seq : BitVec 16)
  /-- ATTEST (R370). -/
  | attest (seq : BitVec 16)
  /-- PEER_ATTEST_RESPONSE (R370). -/
  | peerAttestResponse (bytes : List (BitVec 8))
  /-- CHKPT (R372). -/
  | chkpt (seq : BitVec 16)
  /-- CHECKPOINT_QUIESCED (R372). -/
  | checkpointQuiesced
  /-- CHECKPOINT_STREAM_END (R373). -/
  | checkpointStreamEnd
  /-- RESTORE (R374). -/
  | restore (seq : BitVec 16)
  /-- RESTORE_END (R374). -/
  | restoreEnd
  /-- EVSET (R336). -/
  | evset (seq : BitVec 16)
  /-- EVCLR (R336). -/
  | evclr (seq : BitVec 16)
  /-- KILL (R319). -/
  | kill (seq : BitVec 16)
  /-- PARKCTL_RESUME (R331). -/
  | parkctlResume (seq : BitVec 16)
  /-- PARKCTL_TERMINATE (R331). -/
  | parkctlTerminate (seq : BitVec 16)
  /-- COMMSET (R366). -/
  | commset (seq : BitVec 16)
  /-- COMMCLR (R366). -/
  | commclr (seq : BitVec 16)
  /-- SVCSET (R366). -/
  | svcset (seq : BitVec 16)
  /-- WLSET (R336). -/
  | wlset (seq : BitVec 16)
  /-- DOMSET (R375). -/
  | domset (seq : BitVec 16)
  /-- PWRLIM (R376). -/
  | pwrlim (seq : BitVec 16)
  /-- FWLOAD (R366). -/
  | fwload (seq : BitVec 16)
  /-- PREEMPT (R344). -/
  | preempt (seq : BitVec 16)
  /-- REINSTATE (R344). -/
  | reinstate (seq : BitVec 16)
  /-- MBCMD_UNASSIGNED (R365). -/
  | mbcmdUnassigned (code : BitVec 8) (seq : BitVec 16)
  /-- POWER_GOOD (R363). -/
  | powerGood
  /-- FIRMWARE_MEASURE (R368). -/
  | firmwareMeasure
  /-- STAGE_B (R363). -/
  | stageB (fail : BitVec 8)
  /-- STAGE_C (R363). -/
  | stageC (fail : BitVec 8)
  /-- STAGE_D (R363). -/
  | stageD (fail : BitVec 8)
  /-- STAGE_E (R363). -/
  | stageE (fail : BitVec 8)
  /-- STAGE_DEADLINE_EXPIRY (R363). -/
  | stageDeadlineExpiry
  /-- THERMAL_THROTTLE (R376). -/
  | thermalThrottle
  /-- THERMAL_TRIP (R376). -/
  | thermalTrip
  /-- LINK_DEGRADE (R364). -/
  | linkDegrade
  /-- HOME_ACCESS_PERFORM (R90). -/
  | homeAccessPerform (id : Nat)
  /-- READ_RESPONSE (R91). -/
  | readResponse (id : Nat)
  /-- PEER_ATTEST_REQUEST (R370). -/
  | peerAttestRequest (peer : Nat) (nonce : List (BitVec 8))
  /-- AVENUE_PORT_UP (R375). -/
  | avenuePortUp (p : Nat)
  /-- HOST_LINK_RESTORE (R364). -/
  | hostLinkRestore
  /-- THERMAL_THROTTLE_END (R376). -/
  | thermalThrottleEnd
  /-- POWER_CAP_ENGAGE (R376). -/
  | powerCapEngage
  /-- POWER_CAP_RELEASE (R376). -/
  | powerCapRelease
  /-- POWER_LOSS (R376). -/
  | powerLoss
  deriving DecidableEq, Repr

end Sys2Proof
end

