-- ==== Sys2Proof/Machine/Legal.lean ====
section
/-! DEFINITION. Which instruction words are legal (R182): the operand kinds of every entry (R46, R47, R51, R377), the reserved bits, the scopes (R88), the register groups (R270) and the pair rules (R176, R184). These checks look at the word alone. -/

namespace Sys2Proof

namespace Opnd

/-- NONE, the special 0x3F (R180, R181). -/
def isNone : Opnd → Bool
  | .sp c => c == 0x3F
  | _ => false

/-- A uniform special (R46, R181): %cvy to %lc2 and %clock. -/
def isUniformSpecial : Opnd → Bool
  | .sp c => (0x03 ≤ c && c ≤ 0x0F) || c == 0x13
  | _ => false

def isSReg : Opnd → Bool
  | .s _ => true
  | _ => false

def isImm : Opnd → Bool
  | .imm _ => true
  | _ => false

/-- "S" in a source position: an S register, a small immediate or a uniform special. -/
def isS (o : Opnd) : Bool := o.isSReg || o.isImm || o.isUniformSpecial

/-- An S register or a small immediate, where an entry says so. -/
def isSImm (o : Opnd) : Bool := o.isSReg || o.isImm

/-- "S" where a small immediate is ILLEGAL: a register or a uniform special. -/
def isSNoImm (o : Opnd) : Bool := o.isSReg || o.isUniformSpecial

def isAReg : Opnd → Bool
  | .a _ => true
  | _ => false

/-- "A" in a source position: an A register or %lane, %lib, %gid. -/
def isA : Opnd → Bool
  | .a _ => true
  | .sp c => c ≤ 0x02
  | _ => false

def isVReg : Opnd → Bool
  | .v _ => true
  | _ => false

/-- "V" in a source position: a V register or %draw. -/
def isV : Opnd → Bool
  | .v _ => true
  | .sp c => c == 0x12
  | _ => false

def isKReg : Opnd → Bool
  | .k _ => true
  | _ => false

/-- "K" in a source position: a K register, %live or %active. -/
def isK : Opnd → Bool
  | .k _ => true
  | .sp c => c == 0x10 || c == 0x11
  | _ => false

def isM : Opnd → Bool
  | .m _ => true
  | _ => false

def isG : Opnd → Bool
  | .g _ => true
  | _ => false

/-- The writable special %flags (R39). -/
def isFlags : Opnd → Bool
  | .sp c => c == 0x0C
  | _ => false

/-- The first register of a group of n V registers, n = 1, 2 or 4 (R182 item 6, R270): an even register for a pair, a multiple of 4 for four. -/
def isVGroup (n : Nat) : Opnd → Bool
  | .v i => i.toNat % n == 0
  | _ => false

/-- A V source at a width of 64 bits: an even pair. -/
def isVPair (o : Opnd) : Bool := o.isVGroup 2

/-- A V source of an integer word, a pair with .64. -/
def isVw (d64 : Bool) (o : Opnd) : Bool := if d64 then o.isVPair else o.isV

def isVorS (o : Opnd) : Bool := o.isV || o.isS
def isVwS (d64 : Bool) (o : Opnd) : Bool := o.isVw d64 || o.isS
def isMorG (o : Opnd) : Bool := o.isM || o.isG

/-- A base of a global memory operand (R268): an S register, an A register or an even V pair. -/
def isGlobalBase (o : Opnd) : Bool := o.isSReg || o.isAReg || o.isVPair

/-- A base of a local memory operand (R268): an S, A or V register. -/
def isLocalBase (o : Opnd) : Bool := o.isSReg || o.isAReg || o.isVReg

end Opnd

namespace FWord

def rm (w : FWord) : BitVec 2 := w.mod.extractLsb' 0 2
def scope (w : FWord) : BitVec 3 := w.mod.extractLsb' 4 3
def bit (w : FWord) (i : Nat) : Bool := w.mod.getLsbD i
def fld (w : FWord) (lo n : Nat) : Nat := (w.mod.extractLsb' lo n).toNat

/-- .64 of an integer word (R216). -/
def d64 (w : FWord) : Bool := w.bit 4

/-- .W of an integer word (R216). -/
def wflag (w : FWord) : Bool := w.bit 5

/-- No MOD bit outside the mask (R182 item 2). -/
def modIn (w : FWord) (mask : BitVec 8) : Bool := w.mod &&& ~~~mask == 0

def yzNone (w : FWord) : Bool := w.y.isNone && w.z.isNone
def xyzNone (w : FWord) : Bool := w.x.isNone && w.yzNone

end FWord

/-- Legality of each entry, named by the entry (R182 with the entry's own rule). -/
def Legal.mov (w : FWord) : Bool :=
  w.modIn 0x01 && w.yzNone &&
  (if w.bit 0 then w.d.isVPair && (w.x.isVPair || w.x.isS)
   else (w.d.isVReg && w.x.isVorS) || (w.d.isSReg && w.x.isS) || (w.d.isAReg && w.x.isA) ||
        (w.d.isM && w.x.isMorG) || (w.d.isG && w.x.isG) || (w.d.isKReg && w.x.isK) ||
        (w.d.isFlags && w.x.isS))

def Legal.mat (w : FWord) : Bool :=
  w.modIn 0x01 && w.yzNone && w.x.isA && (if w.bit 0 then w.d.isVPair else w.d.isVReg)

def Legal.aff (w : FWord) : Bool :=
  w.modIn 0x01 && w.z.isNone && w.d.isAReg && w.x.isS && w.y.isS

def Legal.dem (w : FWord) : Bool :=
  w.modIn 0x03 && w.yzNone && w.d.isSReg && w.x.isVw (w.bit 1)

def Legal.dema (w : FWord) : Bool := w.modIn 0 && w.yzNone && w.d.isAReg && w.x.isV

def Legal.elect (w : FWord) : Bool := w.modIn 0 && w.yzNone && w.d.isKReg && w.x.isK

def Legal.vote (w : FWord) : Bool :=
  w.modIn 0x03 && w.rm != 3 && w.yzNone && w.d.isSReg && (w.x.isK || w.x.isV)

def Legal.kset (w : FWord) : Bool :=
  w.modIn 0 && w.yzNone && w.d.isKReg && (w.x.isS || w.x.isV)

def Legal.kop (w : FWord) : Bool :=
  w.modIn 0x07 && w.z.isNone && w.d.isKReg && w.x.isK &&
  (if w.fld 0 3 == 4 then w.y.isNone else w.fld 0 3 < 4 && w.y.isK)

def Legal.movpc (w : MovpcWord) : Bool := w.mod == 0 && (w.d.isSReg || w.d.isVPair)

/-- MOD of an integer word (R216): .64 only with a V destination, .W only with an A destination. -/
def Legal.intMod (w : FWord) (varMask : BitVec 8) : Bool :=
  w.modIn (varMask ||| 0x30) && (!w.d64 || w.d.isVReg) && (!w.wflag || w.d.isAReg)

/-- V ← V|S, V|S with at least one V, and S ← S, S, at the word's width (R215). -/
def Legal.twoVS (w : FWord) : Bool :=
  (w.d.isVw w.d64 && w.d.isVReg && w.x.isVwS w.d64 && w.y.isVwS w.d64 && (w.x.isVw w.d64 || w.y.isVw w.d64)) ||
  (w.d.isSReg && w.x.isS && w.y.isS)

def Legal.threeVS (w : FWord) : Bool :=
  (w.d.isVw w.d64 && w.d.isVReg && w.x.isVwS w.d64 && w.y.isVwS w.d64 && w.z.isVwS w.d64 &&
    (w.x.isVw w.d64 || w.y.isVw w.d64 || w.z.isVw w.d64)) ||
  (w.d.isSReg && w.x.isS && w.y.isS && w.z.isS)

/-- IADD and ISUB (R217). -/
def Legal.addSub (w : FWord) : Bool :=
  Legal.intMod w 0 && w.z.isNone &&
  (Legal.twoVS w ||
   (w.d.isVw w.d64 && w.d.isVReg && ((w.x.isVw w.d64 && w.y.isA) || (w.x.isA && w.y.isVw w.d64))) ||
   (w.d.isAReg && ((w.x.isA && (w.y.isA || w.y.isS)) || (w.x.isS && w.y.isA))))

/-- IAND, IOR, IXOR (R217). -/
def Legal.logic (w : FWord) : Bool := Legal.intMod w 0 && !w.wflag && w.z.isNone && Legal.twoVS w

/-- IMIN, IMAX, IMULH (R217, R219). -/
def Legal.minMax (w : FWord) : Bool := Legal.intMod w 0x01 && !w.wflag && w.z.isNone && Legal.twoVS w

def Legal.imul (w : FWord) : Bool :=
  Legal.intMod w 0 && w.z.isNone &&
  (Legal.twoVS w || (w.d.isAReg && ((w.x.isA && w.y.isS) || (w.x.isS && w.y.isA))))

def Legal.imad (w : FWord) : Bool := Legal.intMod w 0 && !w.wflag && Legal.threeVS w

def Legal.ishl (w : FWord) : Bool :=
  Legal.intMod w 0 && w.z.isNone && (Legal.twoVS w || (w.d.isAReg && w.x.isA && w.y.isS))

/-- ISHR, ISAR (R221). -/
def Legal.shr (w : FWord) : Bool := Legal.logic w

/-- ICMP (R222). -/
def Legal.icmp (w : FWord) : Bool :=
  w.modIn 0x1F && w.z.isNone && w.d.isKReg && w.fld 0 4 ≤ 9 &&
  (if w.d64 then w.x.isVwS true && w.y.isVwS true && (w.x.isVPair || w.y.isVPair)
   else (w.x.isVorS || w.x.isA) && (w.y.isVorS || w.y.isA))

def Legal.sel (w : FWord) : Bool :=
  w.modIn 0x10 && w.d.isVReg && w.d.isVw w.d64 && w.x.isVwS w.d64 && w.y.isVwS w.d64 && w.z.isK

/-- POPC and CLZ: D is a single register (R224). -/
def Legal.count (w : FWord) : Bool :=
  w.modIn 0x10 && w.yzNone &&
  ((w.d.isVReg && w.x.isVw w.d64) || (!w.d64 && w.d.isSReg && w.x.isS))

def Legal.brev (w : FWord) : Bool :=
  w.modIn 0x10 && w.yzNone &&
  ((w.d.isVReg && w.d.isVw w.d64 && w.x.isVw w.d64) || (!w.d64 && w.d.isSReg && w.x.isS))

def Legal.bfe (w : FWord) : Bool := Legal.intMod w 0x01 && !w.wflag && w.z.isNone && Legal.twoVS w

def Legal.bfi (w : FWord) : Bool := Legal.imad w

/-- LEA (R226): .U needs a V index, .W an A destination. -/
def Legal.lea (w : FWord) : Bool :=
  w.z.isNone && (!w.bit 6 || w.y.isV) && (!w.bit 7 || w.d.isAReg) &&
  ((w.d.isSReg && w.x.isS && w.y.isS) ||
   (w.d.isAReg && (w.x.isA || w.x.isS) && (w.y.isA || w.y.isS) && (w.x.isA || w.y.isA)) ||
   (w.d.isVPair && (w.x.isVPair || w.x.isA || w.x.isS) && (w.y.isV || w.y.isA || w.y.isS) &&
     (w.x.isVPair || w.y.isV)))

/-- V ← V|S, V|S with at least one V, and S ← S, S, for words without .64. -/
def Legal.two (w : FWord) : Bool :=
  (w.d.isVReg && w.x.isVorS && w.y.isVorS && (w.x.isV || w.y.isV)) || (w.d.isSReg && w.x.isS && w.y.isS)

def Legal.three (w : FWord) : Bool :=
  (w.d.isVReg && w.x.isVorS && w.y.isVorS && w.z.isVorS && (w.x.isV || w.y.isV || w.z.isV)) ||
  (w.d.isSReg && w.x.isS && w.y.isS && w.z.isS)

/-- V ← V and S ← S: the alternative V ← S of a single source is ILLEGAL by R377. -/
def Legal.one (w : FWord) : Bool := (w.d.isVReg && w.x.isV) || (w.d.isSReg && w.x.isS)

def Legal.idot4 (w : FWord) : Bool := w.modIn 0x03 && Legal.three w

/-- FADD, FSUB, FMUL (R231). -/
def Legal.fpTwo (w : FWord) : Bool := w.modIn 0x03 && w.z.isNone && Legal.two w
def Legal.ffma (w : FWord) : Bool := w.modIn 0x03 && Legal.three w
def Legal.fminmax (w : FWord) : Bool := w.modIn 0x04 && w.z.isNone && Legal.two w
def Legal.fcmp (w : FWord) : Bool :=
  w.modIn 0x0F && w.fld 0 4 ≤ 7 && w.z.isNone && w.d.isKReg && w.x.isVorS && w.y.isVorS

/-- The transcendentals of one operand, and FCLASS: MOD is zero (R23, R235, R241). -/
def Legal.fpOne (w : FWord) : Bool := w.modIn 0 && w.yzNone && Legal.one w
def Legal.fdiv (w : FWord) : Bool := w.modIn 0 && w.z.isNone && Legal.two w
def Legal.frnd (w : FWord) : Bool := w.modIn 0x03 && w.yzNone && Legal.one w

def Legal.f2i (w : FWord) : Bool :=
  w.modIn 0x17 && w.yzNone && ((w.d.isVReg && w.d.isVw w.d64 && w.x.isV) || (w.d.isSReg && w.x.isS))

def Legal.i2f (w : FWord) : Bool :=
  w.modIn 0x17 && w.yzNone && ((w.d.isVReg && w.x.isVw w.d64) || (w.d.isSReg && w.x.isS))

def Legal.fcvt (w : FWord) : Bool :=
  w.yzNone && Legal.one w && w.fld 2 2 != 3 && w.fld 4 2 != 3 && w.fld 2 2 != w.fld 4 2 &&
  (!w.bit 6 || w.fld 4 2 != 0) && (!w.bit 7 || w.fld 2 2 != 0)

/-- HADD2, HMUL2 (R240). -/
def Legal.hTwo (w : FWord) : Bool := w.modIn 0x07 && w.z.isNone && Legal.two w
def Legal.hfma2 (w : FWord) : Bool := w.modIn 0x07 && Legal.three w

def Legal.cvt8 (w : FWord) : Bool :=
  w.modIn 0x3F && w.z.isNone &&
  (if w.bit 3 then w.rm == 0 && w.y.isNone && Legal.one w else !w.bit 5 && Legal.two w)

/-- CVT4 (R244): the scale register is a V register (R242). -/
def Legal.cvt4 (w : FWord) : Bool :=
  w.modIn 0x7F && w.d.isVReg && w.z.isVReg &&
  (if w.bit 6 then
     w.fld 4 2 == 0 && w.x.isVorS && w.x != .imm 0x3F && (match w.y with | .imm n => n < 8 | _ => false)
   else w.x.isV && w.y.isVorS)

def Legal.xpand (w : FWord) : Bool :=
  w.modIn 0x07 && w.yzNone && Legal.one w && w.rm != 3 && (!w.bit 2 || w.rm == 2)

def Legal.unpk8 (w : FWord) : Bool :=
  w.modIn 0x7F && w.y.isNone && w.d.isVReg && w.x.isVorS && w.z.isVReg

/-- MXDOT (R247): with E2M1 elements the constant 0x3F is ILLEGAL (R28). -/
def Legal.mxdot (w : FWord) : Bool :=
  w.fld 6 2 != 3 && w.d.isVReg && w.x.isVorS && w.y.isVorS && (w.x.isV || w.y.isV) && w.z.isVReg &&
  (w.fld 6 2 != 0 || (w.x != .imm 0x3F && w.y != .imm 0x3F))

def Legal.scdec (w : FWord) : Bool := w.modIn 0x0C && w.yzNone && w.d.isVReg && w.x.isSReg
def Legal.scenc (w : FWord) : Bool := w.modIn 0x0C && w.yzNone && w.d.isSReg && w.x.isVReg

def Legal.srnd (w : FWord) : Bool :=
  w.modIn 0x3C && w.z.isNone && Legal.two w && w.fld 2 2 != 3 && (w.fld 2 2 != 0 || !w.bit 5)

def Legal.shfl (w : FWord) : Bool :=
  w.modIn 0xF3 && w.z.isNone && w.fld 5 3 != 7 && w.d.isVReg && w.d.isVw w.d64 && w.x.isVw w.d64 && w.y.isVorS

def Legal.cmpx (w : FWord) : Bool :=
  w.modIn 0x07 && w.rm != 3 && w.d.isVReg && w.x.isV && w.y.isS && (w.z.isS || w.z.isNone)

def Legal.scan (w : FWord) : Bool :=
  w.modIn 0xEF && w.yzNone && w.fld 5 3 != 7 && w.d.isVReg && w.x.isV

def Legal.ired (w : FWord) : Bool :=
  w.modIn 0xE7 && w.yzNone && w.fld 5 3 != 7 && w.x.isV && (w.d.isVReg || (w.d.isSReg && w.fld 5 3 == 6))

def Legal.redmaxi (w : FWord) : Bool :=
  w.modIn 0x07 && w.rm != 3 && w.z.isNone && (w.d.isSReg || w.d.isVPair) && w.x.isV && (w.y.isV || w.y.isNone)

/-- MATCH (R258). -/
def Legal.matchLanes (w : FWord) : Bool :=
  w.modIn 0x13 && w.rm != 3 && w.yzNone && w.x.isVw w.d64 && (if w.rm == 0 then w.d.isVPair else w.d.isKReg)

def Legal.minit (w : FWord) : Bool :=
  w.modIn 0 && w.yzNone && ((w.d.isM && (w.x.isNone || w.x.isVorS)) || (w.d.isG && (w.x.isNone || w.x.isS)))

def Legal.mupd (w : FWord) : Bool :=
  w.modIn 0 &&
  ((w.d.isM && w.x.isMorG && w.y.isVorS && (w.z.isVorS || w.z.isNone) && (w.x.isM || w.y.isV || w.z.isV)) ||
   (w.d.isG && w.x.isG && w.y.isS && (w.z.isS || w.z.isNone)))

def Legal.mmrg (w : FWord) : Bool :=
  w.modIn 0 && w.z.isNone &&
  ((w.d.isM && w.x.isMorG && w.y.isMorG && (w.x.isM || w.y.isM)) || (w.d.isG && w.x.isG && w.y.isG))

def Legal.mred (w : FWord) : Bool :=
  w.modIn 0 && w.z.isNone && w.d.isG && w.x.isM && (w.y.isK || w.y.isNone)

def Legal.mdrain (w : FWord) : Bool :=
  w.modIn 0x07 && w.z.isNone && (w.fld 0 3 == 7 || w.y.isNone) &&
  ((w.d.isVReg && w.x.isMorG && (w.y.isNone || w.y.isVorS)) || (w.d.isSReg && w.x.isG && (w.y.isNone || w.y.isS)))

def Legal.mnorm (w : FWord) : Bool :=
  w.modIn 0 &&
  ((w.d.isVReg && w.x.isVorS && w.y.isMorG && w.z.isVorS && (w.x.isV || w.y.isM || w.z.isV)) ||
   (w.d.isSReg && w.x.isS && w.y.isG && w.z.isS))

/-- The base and displacement of MLD and MST (R266). -/
def Legal.momentAddr (w : FWord) : Bool :=
  (if w.bit 0 then w.x.isLocalBase else w.x.isGlobalBase) && (w.y.isSImm || w.y.isNone)

def Legal.mld (w : FWord) : Bool :=
  w.modIn 0x01 && w.z.isNone && Legal.momentAddr w && (w.d.isM || (w.d.isG && w.x.isSReg))

def Legal.mst (w : FWord) : Bool := w.modIn 0x01 && w.d.isNone && Legal.momentAddr w && w.z.isMorG

def Legal.mdecay (w : FWord) : Bool :=
  w.modIn 0 && w.z.isNone &&
  ((w.d.isM && w.x.isMorG && w.y.isVorS && (w.x.isM || w.y.isV)) || (w.d.isG && w.x.isG && w.y.isS))

/-- A tag field (R271): an S register, or NONE for no tag. -/
def Legal.tag (o : Opnd) (allowed : Bool) : Bool := o.isNone || (allowed && o.isSReg)

/-- ORD and SCOPE of LD and ST (R269). -/
def Legal.ordScope (w : FWord) : Bool := if w.bit 7 then 1 ≤ w.scope && w.scope ≤ 5 else w.scope == 0

/-- Number of V registers of an access size (R270). -/
def Legal.sizeRegs (size : Nat) : Nat := if size == 3 then 2 else if size == 4 then 4 else 1

/-- The register loaded and the sign extension (R269, R270). -/
def Legal.loadDest (w : FWord) : Bool :=
  w.fld 0 3 ≤ 4 &&
  ((w.d.isVGroup (Legal.sizeRegs (w.fld 0 3)) && (!w.bit 3 || w.fld 0 3 ≤ 1)) ||
   (w.d.isSReg && w.x.isSReg && w.fld 0 3 ≤ 3 && (!w.bit 3 || w.fld 0 3 ≤ 2)))

/-- The value stored (R269, R270): a small immediate is ILLEGAL for .D and .Q, and an S operand for .Q. -/
def Legal.storeValue (w : FWord) : Bool :=
  w.fld 0 3 ≤ 4 && !w.bit 3 &&
  (w.z.isVGroup (Legal.sizeRegs (w.fld 0 3)) || (w.z.isV && w.fld 0 3 ≤ 2) ||
   (w.z.isSNoImm && w.fld 0 3 ≤ 3) || (w.z.isImm && w.fld 0 3 ≤ 2))

def Legal.ld (w : FWord) : Bool :=
  Legal.ordScope w && Legal.loadDest w && w.x.isGlobalBase && w.y.isSImm && Legal.tag w.z (w.bit 7)

def Legal.st (w : FWord) : Bool :=
  Legal.ordScope w && Legal.storeValue w && w.x.isGlobalBase && w.y.isSImm && Legal.tag w.d (w.bit 7)

def Legal.ldl (w : FWord) : Bool :=
  w.modIn 0x0F && Legal.loadDest w && w.x.isLocalBase && w.y.isSImm && w.z.isNone

def Legal.stl (w : FWord) : Bool :=
  w.modIn 0x0F && Legal.storeValue w && w.x.isLocalBase && w.y.isSImm && w.d.isNone

/-- The destination and the value operand of an atomic, by operation (R273, R274). -/
def Legal.atomOps (w : FWord) : Bool :=
  let op := w.fld 0 4
  (!w.bit 7 || op == 15) &&
  (w.d.isNone || (if op == 15 then w.d.isM else w.d.isVReg)) &&
  (if op == 15 && w.bit 7 then w.y.isMorG
   else if op == 9 || op == 10 || op == 14 || op == 15 then w.y.isVPair || w.y.isSReg
   else if op == 11 || op == 12 || op == 13 then w.y.isV || w.y.isSNoImm
   else w.y.isVorS)

def Legal.atom (w : FWord) : Bool :=
  Legal.atomOps w && w.scope ≤ 5 && w.x.isGlobalBase && Legal.tag w.z true

def Legal.atoml (w : FWord) : Bool :=
  Legal.atomOps w && w.scope == 0 && w.x.isLocalBase && w.z.isNone

def Legal.fence (w : FWord) : Bool :=
  w.modIn 0x70 && 1 ≤ w.scope && w.scope ≤ 5 && w.d.isNone && w.xyzNone

def Legal.mwait (w : FWord) : Bool :=
  w.d.isSReg && w.x.isSReg && w.y.isS && (w.z.isS || w.z.isNone) && w.fld 0 4 ≤ 9 && w.scope ≤ 5 &&
  (!w.bit 7 || w.scope == 0)

def Legal.waitstamp (w : FWord) : Bool :=
  w.modIn 0x71 && 1 ≤ w.scope && w.scope ≤ 5 && w.d.isSReg && w.x.isSReg && w.y.isSImm && w.z.isNone

def Legal.pref (w : FWord) : Bool :=
  w.modIn 0x01 && w.d.isNone && w.x.isGlobalBase && w.y.isSImm && w.z.isNone

/-- RSIG and RWAIT (R284). -/
def Legal.rsig (w : FWord) : Bool :=
  w.modIn 0x70 && 1 ≤ w.scope && w.scope ≤ 5 && w.d.isNone && w.x.isGlobalBase && w.y.isNone && Legal.tag w.z true

def Legal.ordrd (w : FWord) : Bool :=
  w.modIn 0x71 && 1 ≤ w.scope && w.scope ≤ 5 && (if w.bit 0 then w.d.isM else w.d.isVReg) &&
  w.x.isGlobalBase && w.y.isNone && Legal.tag w.z true

def Legal.ordwr (w : FWord) : Bool :=
  w.modIn 0x71 && 1 ≤ w.scope && w.scope ≤ 5 && w.d.isNone && w.x.isGlobalBase &&
  (if w.bit 0 then w.y.isMorG else w.y.isVorS) && Legal.tag w.z true

def Legal.itq (w : FWord) : Bool :=
  w.modIn 0x03 && w.y.isNone &&
  (match w.fld 0 2 with
   | 0 => (w.d.isSReg || w.d.isVReg) && w.x.isNone && w.z.isSReg
   | 1 => w.d.isSReg && w.x.isSReg && w.z.isNone
   | 2 => w.d.isSReg && w.x.isNone && w.z.isNone
   | _ => false)

def Legal.rand (w : FWord) : Bool := w.modIn 0 && w.xyzNone && w.d.isVReg
def Legal.mile (w : FWord) : Bool := w.modIn 0 && w.d.isNone && w.x.isSReg && w.y.isVorS && w.z.isNone

/-- BARINIT and BAR (R279). -/
def Legal.bar (w : FWord) : Bool := w.modIn 0 && w.d.isNone && w.x.isSReg && w.y.isSImm && w.z.isNone
def Legal.bararv (w : FWord) : Bool := w.modIn 0 && w.d.isSReg && w.x.isSReg && w.y.isSImm && w.z.isNone
def Legal.barwt (w : FWord) : Bool := w.modIn 0 && w.d.isNone && w.x.isSReg && w.y.isSImm && w.z.isSReg

/-- BARL names a K register or %live (R280). -/
def Legal.barl (w : FWord) : Bool :=
  w.modIn 0 && w.d.isNone && (w.x.isKReg || w.x == .sp 0x10) && w.yzNone

def Legal.cross (w : FWord) : Bool := w.modIn 0 && w.d.isNone && w.xyzNone

def Legal.waitev (w : FWord) : Bool :=
  w.modIn 0x70 && 3 ≤ w.scope && w.scope ≤ 5 && w.d.isNone && w.x.isSImm && w.yzNone

def Legal.setev (w : FWord) : Bool :=
  w.modIn 0x71 && (if w.bit 0 then w.scope == 0 else 3 ≤ w.scope && w.scope ≤ 5) && w.d.isNone && w.x.isSImm && w.yzNone

/-- .REL with a scope of 1 to 5, or neither (R283, R289). -/
def Legal.relScope (w : FWord) : Bool := Legal.ordScope w

def Legal.launch (w : FWord) : Bool :=
  w.modIn 0xF0 && Legal.relScope w && w.d.isSReg && w.x.isSReg && w.y.isS && w.z.isNone

/-- A stamp field (R289): an S register or NONE. -/
def Legal.stamp (o : Opnd) : Bool := o.isSReg || o.isNone

def Legal.copy (w : FWord) : Bool :=
  w.modIn 0xF3 && Legal.relScope w && Legal.stamp w.d && w.x.isSReg && w.y.isSReg && w.z.isSReg

def Legal.copyp (w : FWord) : Bool :=
  w.fld 0 3 ≤ 4 && Legal.relScope w && Legal.stamp w.d && w.x.isSReg && w.y.isSReg && w.z.isSReg

def Legal.copym (w : FWord) : Bool :=
  w.modIn 0xF1 && Legal.relScope w && w.d.isSReg && w.x.isSReg && w.y.isSReg && w.z.isSReg

def Legal.slotfree (w : FWord) : Bool := w.modIn 0 && w.d.isNone && w.x.isSImm && w.yzNone
def Legal.bccr (w : FWord) : Bool := w.modIn 0 && w.d.isSReg && w.xyzNone
def Legal.coll (w : FWord) : Bool :=
  w.modIn 0xF0 && Legal.relScope w && w.d.isNone && w.x.isSReg && w.y.isSImm && w.z.isNone

/-- MMA and MMAS (R297). -/
def Legal.mma (w : FWord) : Bool :=
  w.modIn 0x80 && Legal.stamp w.d && w.x.isSImm && w.y.isSReg && w.z.isSReg
def Legal.azero (w : FWord) : Bool := w.modIn 0x80 && Legal.stamp w.d && w.x.isSImm && w.yzNone
def Legal.accld (w : FWord) : Bool := w.modIn 0x80 && Legal.stamp w.d && w.x.isSImm && w.y.isSReg && w.z.isNone
def Legal.accst (w : FWord) : Bool := w.modIn 0x8F && Legal.stamp w.d && w.x.isSImm && w.y.isSReg && w.z.isSImm
def Legal.accstat (w : FWord) : Bool := w.modIn 0x81 && w.d.isM && w.x.isSImm && w.y.isSImm && w.z.isNone

/-- The assigned CSR numbers (R312). -/
def Legal.csrAssigned (n : Nat) : Bool :=
  n ≤ 2 || (0x08 ≤ n && n ≤ 0x14) || (0x18 ≤ n && n ≤ 0x1D) || (0x20 ≤ n && n ≤ 0x22) || (0x30 ≤ n && n ≤ 0x37)

/-- The CSRs that are read-only in every state (R312). -/
def Legal.csrReadOnly (n : Nat) : Bool := n == 0 || n == 1 || n == 0x0E || n == 0x0F

def Legal.csrr (w : FWord) : Bool := Legal.csrAssigned w.mod.toNat && w.d.isSReg && w.xyzNone

/-- CSRW, whatever the CSR (R312, R326). -/
def Legal.csrwAny (w : FWord) : Bool :=
  Legal.csrAssigned w.mod.toNat && !Legal.csrReadOnly w.mod.toNat && w.d.isNone && w.x.isSImm && w.yzNone

/-- The CSRs with a row of their own in the table: KILL, WDCTL and PERFSEL. -/
def Legal.isKill (m : BitVec 8) : Bool := m == 0x22
def Legal.isWdctl (m : BitVec 8) : Bool := m == 0x20
def Legal.isPerfsel (m : BitVec 8) : Bool := m &&& 0xF8 == 0x30

def Legal.csrw (w : FWord) : Bool :=
  Legal.csrwAny w && !Legal.isKill w.mod && !Legal.isWdctl w.mod && !Legal.isPerfsel w.mod
def Legal.killCsrWrite (w : FWord) : Bool := Legal.csrwAny w && Legal.isKill w.mod
def Legal.wdctlWrite (w : FWord) : Bool := Legal.csrwAny w && Legal.isWdctl w.mod
def Legal.perfselWrite (w : FWord) : Bool := Legal.csrwAny w && Legal.isPerfsel w.mod

def Legal.tlbinv (w : FWord) : Bool :=
  w.modIn 0x01 && w.d.isNone && (if w.bit 0 then w.x.isNone else w.x.isSReg) && Legal.stamp w.y && w.z.isNone

/-- CTXSV and CTXLD (R329). -/
def Legal.ctx (w : FWord) : Bool := w.modIn 0x01 && w.d.isNone && w.x.isSReg && w.y.isSReg && w.z.isNone

def Legal.cacheop (w : FWord) : Bool := w.modIn 0x03 && w.rm != 3 && w.d.isNone && w.xyzNone

/-- PERFR: n is an S register or a small immediate from 0 to 7 (R327). -/
def Legal.perfr (w : FWord) : Bool :=
  w.modIn 0 && w.d.isSReg && w.yzNone && (match w.x with | .s _ => true | .imm n => n < 8 | _ => false)

/-- C-format words without operands (R187). -/
def Legal.cNone (w : CWord) : Bool := w.opr.isNone && w.aux == 0 && w.off == 0
def Legal.bra (w : CWord) : Bool := w.opr.isNone && w.aux == 0
def Legal.call (w : CWord) : Bool := w.opr.isVPair && w.aux == 0
def Legal.ret (w : CWord) : Bool := w.opr.isVPair && w.aux == 0 && w.off == 0
def Legal.jmpt (w : CWord) : Bool := w.opr.isVorS && w.aux.extractLsb' 6 8 == 0 && w.off == 0
def Legal.callt (w : CWord) : Bool := w.opr.isVorS && !w.aux.getLsbD 6 && w.off == 0
def Legal.lpad (w : CWord) : Bool :=
  !w.hdr.gn && w.hdr.gk == 0 && w.opr.isNone && 1 ≤ w.aux && w.aux ≤ 32 && w.off.extractLsb' 16 8 == 0
def Legal.loop (w : CWord) : Bool := w.opr.isS && w.aux == 0

/-- TRAP and BRK (R204). -/
def Legal.trap (w : CWord) : Bool := w.opr.isNone && w.aux.extractLsb' 8 6 == 0 && w.off == 0

/-- I-format words of a V or S register (R188). -/
def Legal.iReg (w : IWord) : Bool := (w.d.isVReg || w.d.isSReg) && w.imod == 0
def Legal.movi (w : IWord) : Bool :=
  w.imod.extractLsb' 2 2 == 0 && (w.d.isSReg || (w.d.isVReg && !w.imod.getLsbD 1))
def Legal.icmpi (w : IWord) : Bool := (w.d.isVReg || w.d.isSReg) && w.imod ≤ 9 && w.imm.extractLsb' 27 5 == 0

/-- A floating-point half opcode (R191). -/
def PairOp.isFp : PairOp → Bool
  | .fadd | .fmul | .fmin | .fmax => true
  | _ => false

/-- One half of a pair word (R176): an empty half holds 0, NONE and 0. -/
def Legal.half (h : Half) : Bool :=
  match h.pop with
  | .empty => h.d == 0 && h.x.isNone && h.hm == 0
  | .fmin | .fmax => (h.x.isVReg || h.x.isS) && h.hm == 0
  | .fadd | .fmul => (h.x.isVReg || h.x.isS) && h.hm.extractLsb' 2 2 == 0
  | _ => (h.x.isVReg || h.x.isS) && h.hm == 0

/-- The banks of the V registers of a half (R184). -/
def Half.banks (h : Half) : List Nat :=
  (h.d.toNat % 4) :: (match h.x with | .v n => [n.toNat % 4] | _ => [])

/-- The pair rules (R176, R184); the rules on D and on banks are about two non-empty halves. -/
def Legal.pair (w : PWord) : Bool :=
  Legal.half w.h1 && Legal.half w.h2 && !(w.h1.pop == .empty && w.h2.pop == .empty) &&
  (w.h1.pop == .empty || w.h2.pop == .empty ||
    (w.h1.d != w.h2.d && w.h1.banks.all (fun b => !w.h2.banks.contains b)))

/-- R182 for every word; an event is no word, so it is always legal. -/
def Legal.instr : Instr → Bool
  | .nop w => Legal.cNone w
  | .bra w => Legal.bra w
  | .jmpt w => Legal.jmpt w
  | .call w => Legal.call w
  | .callt w => Legal.callt w
  | .ret w => Legal.ret w
  | .lpad w => Legal.lpad w
  | .loop w => Legal.loop w
  | .loopbrk w => Legal.cNone w
  | .exit w => Legal.cNone w
  | .yield w => Legal.cNone w
  | .trap w => Legal.trap w
  | .brk w => Legal.trap w
  | .eret w => Legal.cNone w
  | .park w => Legal.cNone w
  | .mov w => Legal.mov w
  | .mat w => Legal.mat w
  | .aff w => Legal.aff w
  | .dem w => Legal.dem w
  | .dema w => Legal.dema w
  | .movpc w => Legal.movpc w
  | .elect w => Legal.elect w
  | .vote w => Legal.vote w
  | .kset w => Legal.kset w
  | .kop w => Legal.kop w
  | .iadd w => Legal.addSub w
  | .isub w => Legal.addSub w
  | .iand w => Legal.logic w
  | .ior w => Legal.logic w
  | .ixor w => Legal.logic w
  | .imin w => Legal.minMax w
  | .imax w => Legal.minMax w
  | .imul w => Legal.imul w
  | .imulh w => Legal.minMax w
  | .imad w => Legal.imad w
  | .ishl w => Legal.ishl w
  | .ishr w => Legal.shr w
  | .isar w => Legal.shr w
  | .icmp w => Legal.icmp w
  | .sel w => Legal.sel w
  | .popc w => Legal.count w
  | .clz w => Legal.count w
  | .brev w => Legal.brev w
  | .bfe w => Legal.bfe w
  | .bfi w => Legal.bfi w
  | .lea w => Legal.lea w
  | .idot4 w => Legal.idot4 w
  | .movi w => Legal.movi w
  | .iaddi w => Legal.iReg w
  | .iandi w => Legal.iReg w
  | .iori w => Legal.iReg w
  | .ixori w => Legal.iReg w
  | .icmpi w => Legal.icmpi w
  | .fmovi w => Legal.iReg w
  | .pairWord w => Legal.pair w
  | .fadd w => Legal.fpTwo w
  | .fsub w => Legal.fpTwo w
  | .fmul w => Legal.fpTwo w
  | .ffma w => Legal.ffma w
  | .fmin w => Legal.fminmax w
  | .fmax w => Legal.fminmax w
  | .fcmp w => Legal.fcmp w
  | .frcp w => Legal.fpOne w
  | .frsq w => Legal.fpOne w
  | .fsqrt w => Legal.fpOne w
  | .fexp2 w => Legal.fpOne w
  | .flog2 w => Legal.fpOne w
  | .fsin w => Legal.fpOne w
  | .fcos w => Legal.fpOne w
  | .ftanh w => Legal.fpOne w
  | .fdiv w => Legal.fdiv w
  | .frnd w => Legal.frnd w
  | .f2i w => Legal.f2i w
  | .i2f w => Legal.i2f w
  | .fcvt w => Legal.fcvt w
  | .hadd2 w => Legal.hTwo w
  | .hmul2 w => Legal.hTwo w
  | .hfma2 w => Legal.hfma2 w
  | .fclass w => Legal.fpOne w
  | .cvt8 w => Legal.cvt8 w
  | .cvt4 w => Legal.cvt4 w
  | .xpand w => Legal.xpand w
  | .unpk8 w => Legal.unpk8 w
  | .mxdot w => Legal.mxdot w
  | .scdec w => Legal.scdec w
  | .scenc w => Legal.scenc w
  | .srnd w => Legal.srnd w
  | .shfl w => Legal.shfl w
  | .cmpx w => Legal.cmpx w
  | .scan w => Legal.scan w
  | .ired w => Legal.ired w
  | .redmaxi w => Legal.redmaxi w
  | .matchLanes w => Legal.matchLanes w
  | .minit w => Legal.minit w
  | .mupd w => Legal.mupd w
  | .mmrg w => Legal.mmrg w
  | .mred w => Legal.mred w
  | .mdrain w => Legal.mdrain w
  | .mnorm w => Legal.mnorm w
  | .mld w => Legal.mld w
  | .mst w => Legal.mst w
  | .mdecay w => Legal.mdecay w
  | .ld w => Legal.ld w
  | .ldl w => Legal.ldl w
  | .st w => Legal.st w
  | .stl w => Legal.stl w
  | .atom w => Legal.atom w
  | .atoml w => Legal.atoml w
  | .fence w => Legal.fence w
  | .mwait w => Legal.mwait w
  | .mwaitReread _ => true
  | .waitstamp w => Legal.waitstamp w
  | .pref w => Legal.pref w
  | .barinit w => Legal.bar w
  | .bar w => Legal.bar w
  | .bararv w => Legal.bararv w
  | .barwt w => Legal.barwt w
  | .barl w => Legal.barl w
  | .cross w => Legal.cross w
  | .waitev w => Legal.waitev w
  | .setev w => Legal.setev w
  | .launch w => Legal.launch w
  | .launchQueueEntry _ => true
  | .rsig w => Legal.rsig w
  | .rwait w => Legal.rsig w
  | .ordrd w => Legal.ordrd w
  | .ordwr w => Legal.ordwr w
  | .itq w => Legal.itq w
  | .rand w => Legal.rand w
  | .mile w => Legal.mile w
  | .copy w => Legal.copy w
  | .copyp w => Legal.copyp w
  | .copym w => Legal.copym w
  | .slotfree w => Legal.slotfree w
  | .bccr w => Legal.bccr w
  | .coll w => Legal.coll w
  | .mma w => Legal.mma w
  | .mmas w => Legal.mma w
  | .azero w => Legal.azero w
  | .accld w => Legal.accld w
  | .accst w => Legal.accst w
  | .accstat w => Legal.accstat w
  | .csrr w => Legal.csrr w
  | .csrw w => Legal.csrw w
  | .killCsrWrite w => Legal.killCsrWrite w
  | .wdctlWrite w => Legal.wdctlWrite w
  | .perfselWrite w => Legal.perfselWrite w
  | .perfr w => Legal.perfr w
  | .tlbinv w => Legal.tlbinv w
  | .ctxsv w => Legal.ctx w
  | .ctxld w => Legal.ctx w
  | .cacheop w => Legal.cacheop w
  | .fairnessTimerExpiry _ _ => true
  | .livelock _ _ => true
  | .writeAcknowledgement _ => true
  | .retry _ => true
  | .peerRequest _ => true
  | .copyEnd _ => true
  | .copyTranslationFault _ => true
  | .engineFaultRecord => true
  | .faultActionResume _ => true
  | .faultActionAbort _ => true
  | .matrixOperationEnd _ => true
  | .avenueChunkReceive _ => true
  | .reduceBlockDispatch _ _ => true
  | .collectiveEnd _ => true
  | .portDown _ => true
  | .peerPathTimeout _ => true
  | .ringRecordFetch _ => true
  | .launchAdmission _ => true
  | .blockPlacement _ => true
  | .blockRelease _ => true
  | .launchCompletion _ => true
  | .serviceBlockDispatch _ => true
  | .migrationArm _ _ => true
  | .migrationCopyDone _ => true
  | .migrationDisarm _ _ => true
  | .tail _ _ => true
  | .qctl _ _ => true
  | .controlRegisterWrite _ _ _ => true
  | .memoryWindowRead _ _ => true
  | .memoryWindowWrite _ _ => true
  | .summary _ => true
  | .attest _ => true
  | .peerAttestResponse _ => true
  | .chkpt _ => true
  | .checkpointQuiesced => true
  | .checkpointStreamEnd => true
  | .restore _ => true
  | .restoreEnd => true
  | .evset _ => true
  | .evclr _ => true
  | .kill _ => true
  | .parkctlResume _ => true
  | .parkctlTerminate _ => true
  | .commset _ => true
  | .commclr _ => true
  | .svcset _ => true
  | .wlset _ => true
  | .domset _ => true
  | .pwrlim _ => true
  | .fwload _ => true
  | .preempt _ => true
  | .reinstate _ => true
  | .mbcmdUnassigned _ _ => true
  | .powerGood => true
  | .firmwareMeasure => true
  | .stageB _ => true
  | .stageC _ => true
  | .stageD _ => true
  | .stageE _ => true
  | .stageDeadlineExpiry => true
  | .thermalThrottle => true
  | .thermalTrip => true
  | .linkDegrade => true
  | .homeAccessPerform _ => true
  | .readResponse _ => true
  | .peerAttestRequest _ _ => true
  | .avenuePortUp _ => true
  | .hostLinkRestore => true
  | .thermalThrottleEnd => true
  | .powerCapEngage => true
  | .powerCapRelease => true
  | .powerLoss => true

end Sys2Proof
end

