-- ==== Sys2Proof/WellFormed.lean ====
section
/-! DEFINITION. When a term of Instr stands for a legal instruction word: the checks of R182, which decoding makes on every word and every meaning makes again. -/

namespace Sys2Proof

/-- A legal instruction: every field holds only what its entry allows (R182). -/
abbrev Instr.WellFormed (i : Instr) : Prop := Legal.instr i = true

/-- An event of the device, the host or the environment, which no instruction word encodes. -/
def Instr.isWord : Instr → Bool
  | .mwaitReread .. => false
  | .launchQueueEntry .. => false
  | .fairnessTimerExpiry .. => false
  | .livelock .. => false
  | .writeAcknowledgement .. => false
  | .retry .. => false
  | .peerRequest .. => false
  | .copyEnd .. => false
  | .copyTranslationFault .. => false
  | .engineFaultRecord => false
  | .faultActionResume .. => false
  | .faultActionAbort .. => false
  | .matrixOperationEnd .. => false
  | .avenueChunkReceive .. => false
  | .reduceBlockDispatch .. => false
  | .collectiveEnd .. => false
  | .portDown .. => false
  | .peerPathTimeout .. => false
  | .ringRecordFetch .. => false
  | .launchAdmission .. => false
  | .blockPlacement .. => false
  | .blockRelease .. => false
  | .launchCompletion .. => false
  | .serviceBlockDispatch .. => false
  | .migrationArm .. => false
  | .migrationCopyDone .. => false
  | .migrationDisarm .. => false
  | .tail .. => false
  | .qctl .. => false
  | .controlRegisterWrite .. => false
  | .memoryWindowRead .. => false
  | .memoryWindowWrite .. => false
  | .summary .. => false
  | .attest .. => false
  | .peerAttestResponse .. => false
  | .chkpt .. => false
  | .checkpointQuiesced => false
  | .checkpointStreamEnd => false
  | .restore .. => false
  | .restoreEnd => false
  | .evset .. => false
  | .evclr .. => false
  | .kill .. => false
  | .parkctlResume .. => false
  | .parkctlTerminate .. => false
  | .commset .. => false
  | .commclr .. => false
  | .svcset .. => false
  | .wlset .. => false
  | .domset .. => false
  | .pwrlim .. => false
  | .fwload .. => false
  | .preempt .. => false
  | .reinstate .. => false
  | .mbcmdUnassigned .. => false
  | .powerGood => false
  | .firmwareMeasure => false
  | .stageB .. => false
  | .stageC .. => false
  | .stageD .. => false
  | .stageE .. => false
  | .stageDeadlineExpiry => false
  | .thermalThrottle => false
  | .thermalTrip => false
  | .linkDegrade => false
  | .homeAccessPerform .. => false
  | .readResponse .. => false
  | .peerAttestRequest .. => false
  | .avenuePortUp .. => false
  | .hostLinkRestore => false
  | .thermalThrottleEnd => false
  | .powerCapEngage => false
  | .powerCapRelease => false
  | .powerLoss => false
  | _ => true

end Sys2Proof
end

