-- ==== Sys2Proof/Decode.lean ====
section
/-! DEFINITION. The decoder and the encoder of instruction words (R173 to R191). Decoding is total: it refuses an unassigned opcode and an illegal word by name. -/

namespace Sys2Proof

/-- Why a word is no instruction. -/
inductive Reject where
  /-- fewer than eight bytes were given -/
  | short
  /-- the opcode is unassigned (R182 item 1, R190, R191) -/
  | unassigned
  /-- an assigned opcode with fields that R182 refuses -/
  | illegal
  deriving DecidableEq, Repr

/-- The nine patterns of an operand field (R180). -/
def decodeOpnd (f : BitVec 9) : Opnd :=
  if f.getLsbD 8 then
    (if f.getLsbD 7 then
      (if f.getLsbD 6 then .sp (f.extractLsb' 0 6) else .imm (f.extractLsb' 0 6))
     else if f.getLsbD 6 then
      (if f.getLsbD 5 then
        (if f.getLsbD 4 then
          (if f.getLsbD 3 then .k (f.extractLsb' 0 3) else .g (f.extractLsb' 0 3))
         else if f.getLsbD 3 then .res (f.extractLsb' 0 3) else .m (f.extractLsb' 0 3))
       else .a (f.extractLsb' 0 5))
     else .s (f.extractLsb' 0 6))
  else .v (f.extractLsb' 0 8)

/-- An operand field from its pattern (R180). -/
def encodeOpnd : Opnd → BitVec 9
  | .v n => 0#1 ++ n
  | .s n => 0b100#3 ++ n
  | .a n => 0b1010#4 ++ n
  | .m n => 0b101100#6 ++ n
  | .res n => 0b101101#6 ++ n
  | .g n => 0b101110#6 ++ n
  | .k n => 0b101111#6 ++ n
  | .imm n => 0b110#3 ++ n
  | .sp c => 0b111#3 ++ c

/-- Row 0x00 of the F-format map (R190). -/
def fRowMove : List (BitVec 9 × (FWord → Instr)) :=
  [(0x000, .mov),
   (0x001, .mat),
   (0x002, .aff),
   (0x003, .dem),
   (0x004, .dema),
   (0x005, .elect),
   (0x006, .vote),
   (0x007, .kset),
   (0x008, .kop)]

/-- Row 0x02 of the F-format map (R190). -/
def fRowInteger : List (BitVec 9 × (FWord → Instr)) :=
  [(0x020, .iadd),
   (0x021, .isub),
   (0x022, .imul),
   (0x023, .imulh),
   (0x024, .imad),
   (0x025, .ishl),
   (0x026, .ishr),
   (0x027, .isar),
   (0x028, .iand),
   (0x029, .ior),
   (0x02A, .ixor),
   (0x02B, .imin),
   (0x02C, .imax),
   (0x02D, .icmp),
   (0x02E, .sel),
   (0x02F, .popc)]

/-- Row 0x03 of the F-format map (R190). -/
def fRowInteger2 : List (BitVec 9 × (FWord → Instr)) :=
  [(0x030, .clz),
   (0x031, .brev),
   (0x032, .bfe),
   (0x033, .bfi),
   (0x034, .lea),
   (0x035, .idot4)]

/-- Row 0x04 of the F-format map (R190). -/
def fRowFloat : List (BitVec 9 × (FWord → Instr)) :=
  [(0x040, .fadd),
   (0x041, .fsub),
   (0x042, .fmul),
   (0x043, .ffma),
   (0x044, .fmin),
   (0x045, .fmax),
   (0x046, .fcmp),
   (0x047, .frcp),
   (0x048, .frsq),
   (0x049, .fsqrt),
   (0x04A, .fexp2),
   (0x04B, .flog2),
   (0x04C, .fsin),
   (0x04D, .fcos),
   (0x04E, .ftanh),
   (0x04F, .fdiv)]

/-- Row 0x05 of the F-format map (R190). -/
def fRowConvert : List (BitVec 9 × (FWord → Instr)) :=
  [(0x050, .frnd),
   (0x051, .f2i),
   (0x052, .i2f),
   (0x053, .fcvt),
   (0x054, .hadd2),
   (0x055, .hmul2),
   (0x056, .hfma2),
   (0x057, .fclass)]

/-- Row 0x06 of the F-format map (R190). -/
def fRowNarrow : List (BitVec 9 × (FWord → Instr)) :=
  [(0x060, .cvt8),
   (0x061, .cvt4),
   (0x062, .xpand),
   (0x063, .unpk8),
   (0x064, .mxdot),
   (0x065, .scdec),
   (0x066, .scenc),
   (0x067, .srnd)]

/-- Row 0x07 of the F-format map (R190). -/
def fRowLanes : List (BitVec 9 × (FWord → Instr)) :=
  [(0x070, .shfl),
   (0x071, .cmpx),
   (0x072, .scan),
   (0x073, .ired),
   (0x074, .redmaxi),
   (0x075, .matchLanes)]

/-- Row 0x08 of the F-format map (R190). -/
def fRowMoment : List (BitVec 9 × (FWord → Instr)) :=
  [(0x080, .minit),
   (0x081, .mupd),
   (0x082, .mmrg),
   (0x083, .mred),
   (0x084, .mdrain),
   (0x085, .mnorm),
   (0x086, .mld),
   (0x087, .mst),
   (0x088, .mdecay)]

/-- Row 0x0A of the F-format map (R190). -/
def fRowMemory : List (BitVec 9 × (FWord → Instr)) :=
  [(0x0A0, .ld),
   (0x0A1, .st),
   (0x0A2, .ldl),
   (0x0A3, .stl),
   (0x0A4, .atom),
   (0x0A5, .atoml),
   (0x0A6, .fence),
   (0x0A7, .mwait),
   (0x0A8, .waitstamp),
   (0x0A9, .pref)]

/-- Row 0x0C of the F-format map (R190). -/
def fRowOrder : List (BitVec 9 × (FWord → Instr)) :=
  [(0x0C0, .rsig),
   (0x0C1, .rwait),
   (0x0C2, .ordrd),
   (0x0C3, .ordwr),
   (0x0C4, .itq),
   (0x0C5, .rand),
   (0x0C6, .mile)]

/-- Row 0x0D of the F-format map (R190). -/
def fRowSync : List (BitVec 9 × (FWord → Instr)) :=
  [(0x0D0, .barinit),
   (0x0D1, .bar),
   (0x0D2, .bararv),
   (0x0D3, .barwt),
   (0x0D4, .barl),
   (0x0D5, .cross),
   (0x0D6, .waitev),
   (0x0D7, .setev),
   (0x0D8, .launch)]

/-- Row 0x0E of the F-format map (R190). -/
def fRowEngine : List (BitVec 9 × (FWord → Instr)) :=
  [(0x0E0, .copy),
   (0x0E1, .copyp),
   (0x0E2, .copym),
   (0x0E3, .slotfree),
   (0x0E4, .bccr),
   (0x0E5, .coll)]

/-- Row 0x0F of the F-format map (R190). -/
def fRowMatrix : List (BitVec 9 × (FWord → Instr)) :=
  [(0x0F0, .mma),
   (0x0F1, .mmas),
   (0x0F2, .azero),
   (0x0F3, .accst),
   (0x0F4, .accld),
   (0x0F5, .accstat)]

/-- Row 0x10 of the F-format map (R190). -/
def fRowPriv : List (BitVec 9 × (FWord → Instr)) :=
  [(0x100, .csrr),
   (0x101, .csrw),
   (0x102, .tlbinv),
   (0x103, .ctxsv),
   (0x104, .ctxld),
   (0x105, .cacheop),
   (0x106, .perfr)]

/-- The F-format map without MOVPC, whose fields differ (R190, R210). -/
def fTable : List (BitVec 9 × (FWord → Instr)) :=
  fRowMove ++ fRowInteger ++ fRowInteger2 ++ fRowFloat ++ fRowConvert ++ fRowNarrow ++ fRowLanes ++ fRowMoment ++ fRowMemory ++ fRowOrder ++ fRowSync ++ fRowEngine ++ fRowMatrix ++ fRowPriv

/-- The I-format map (R188, R191). -/
def iTable : List (BitVec 8 × (IWord → Instr)) :=
  [(0x01, .movi), (0x02, .iaddi), (0x03, .iandi), (0x04, .iori), (0x05, .ixori), (0x06, .icmpi), (0x07, .fmovi)]

/-- The C-format map (R187, R191). -/
def cTable : List (BitVec 6 × (CWord → Instr)) :=
  [(0x00, .nop),
   (0x01, .bra),
   (0x02, .jmpt),
   (0x03, .call),
   (0x04, .callt),
   (0x05, .ret),
   (0x06, .lpad),
   (0x07, .loop),
   (0x08, .loopbrk),
   (0x09, .exit),
   (0x0A, .yield),
   (0x0B, .trap),
   (0x0C, .brk),
   (0x0D, .eret),
   (0x0E, .park)]

/-- The half opcodes of format P (R191). -/
def pTable : List (BitVec 7 × PairOp) :=
  [(0x00, .mov), (0x01, .iadd), (0x02, .isub), (0x03, .iand), (0x04, .ior), (0x05, .ixor), (0x06, .ishl), (0x07, .ishr), (0x08, .imin), (0x09, .imax), (0x0A, .fadd), (0x0B, .fmul), (0x0C, .fmin), (0x0D, .fmax), (0x7F, .empty)]

/-- Look an opcode up in a map. -/
def lookupOp {w : Nat} {α : Type} (t : List (BitVec w × α)) (op : BitVec w) : Option α :=
  (t.find? fun r => r.1 == op).map Prod.snd

/-- The stall count and yield bit of any word (R173). -/
def wordStall (b : BitVec 64) : BitVec 4 := b.extractLsb' 58 4
def wordY (b : BitVec 64) : Bool := b.getLsbD 57
def wordFmt (b : BitVec 64) : BitVec 2 := b.extractLsb' 62 2

/-- The guard fields where the format has them (R174, R177, R178); a format P word is unguarded (R184). -/
def wordHdr (b : BitVec 64) : Hdr :=
  let at_ : Nat → Hdr := fun p =>
    { stall := wordStall b, y := wordY b, gn := b.getLsbD p, gk := b.extractLsb' (p - 3) 3 }
  if wordFmt b == 0 then at_ 47
  else if wordFmt b == 1 then { stall := wordStall b, y := wordY b, gn := false, gk := 0 }
  else if wordFmt b == 2 then at_ 48
  else at_ 50

def fieldsF (b : BitVec 64) : FWord :=
  { hdr := wordHdr b, d := decodeOpnd (b.extractLsb' 35 9), x := decodeOpnd (b.extractLsb' 26 9),
    y := decodeOpnd (b.extractLsb' 17 9), z := decodeOpnd (b.extractLsb' 8 9), mod := b.extractLsb' 0 8 }

def fieldsMovpc (b : BitVec 64) : MovpcWord :=
  { hdr := wordHdr b, d := decodeOpnd (b.extractLsb' 35 9), disp := b.extractLsb' 8 27, mod := b.extractLsb' 0 8 }

def fieldsI (b : BitVec 64) : IWord :=
  { hdr := wordHdr b, d := decodeOpnd (b.extractLsb' 36 9), imod := b.extractLsb' 32 4, imm := b.extractLsb' 0 32 }

def fieldsC (b : BitVec 64) : CWord :=
  { hdr := wordHdr b, opr := decodeOpnd (b.extractLsb' 38 9), aux := b.extractLsb' 24 14, off := b.extractLsb' 0 24 }

/-- One half of a format P word; none when its half opcode is unassigned (R175, R191). -/
def fieldsHalf (h : BitVec 28) : Option Half :=
  (lookupOp pTable (h.extractLsb' 21 7)).map fun p =>
    { pop := p, d := h.extractLsb' 13 8, x := decodeOpnd (h.extractLsb' 4 9), hm := h.extractLsb' 0 4 }

/-- CSRW is four rows of the table, told apart by the CSR number (R312). -/
def splitCsrw : Instr → Instr
  | .csrw w =>
    if Legal.isKill w.mod then .killCsrWrite w
    else if Legal.isWdctl w.mod then .wdctlWrite w
    else if Legal.isPerfsel w.mod then .perfselWrite w
    else .csrw w
  | i => i

/-- The fields of a word as an instruction, before R182 is checked; bit [56] of format P is reserved (R175). -/
def decodeFields (b : BitVec 64) : Except Reject Instr :=
  if wordFmt b == 0 then
    (if b.extractLsb' 48 9 == 0x009#9 then .ok (.movpc (fieldsMovpc b))
     else match lookupOp fTable (b.extractLsb' 48 9) with
       | some c => .ok (splitCsrw (c (fieldsF b)))
       | none => .error .unassigned)
  else if wordFmt b == 1 then
    (if b.getLsbD 56 then .error .illegal
     else match fieldsHalf (b.extractLsb' 28 28), fieldsHalf (b.extractLsb' 0 28) with
       | some h1, some h2 => .ok (.pairWord { stall := wordStall b, y := wordY b, h1 := h1, h2 := h2 })
       | _, _ => .error .unassigned)
  else if wordFmt b == 2 then
    (match lookupOp iTable (b.extractLsb' 49 8) with
     | some c => .ok (c (fieldsI b))
     | none => .error .unassigned)
  else
    (match lookupOp cTable (b.extractLsb' 51 6) with
     | some c => .ok (c (fieldsC b))
     | none => .error .unassigned)

/-- Decode one word (R182). -/
def decodeWord (b : BitVec 64) : Except Reject Instr :=
  match decodeFields b with
  | .ok i => if Legal.instr i then .ok i else .error .illegal
  | .error r => .error r

/-- A list of bytes as one little-endian number (R4). -/
def leNat : List Byte → Nat
  | [] => 0
  | b :: r => b.toNat + 256 * leNat r

/-- The n bytes of a number, least significant first (R4). -/
def natLe : Nat → Nat → List Byte
  | 0, _ => []
  | n + 1, v => BitVec.ofNat 8 v :: natLe n (v / 256)

/-- Decode the first word of a list of bytes; the rest of the list comes back with it. -/
def decode (bs : List Byte) : Except Reject (Instr × List Byte) :=
  if bs.length < 8 then .error .short
  else match decodeWord (BitVec.ofNat 64 (leNat (bs.take 8))) with
    | .ok i => .ok (i, bs.drop 8)
    | .error r => .error r

def encodeHdrFrom (h : Hdr) : BitVec 4 := BitVec.ofBool h.gn ++ h.gk

def encodeF (op : BitVec 9) (w : FWord) : BitVec 64 :=
  0b00#2 ++ w.hdr.stall ++ BitVec.ofBool w.hdr.y ++ op ++ encodeHdrFrom w.hdr ++
    encodeOpnd w.d ++ encodeOpnd w.x ++ encodeOpnd w.y ++ encodeOpnd w.z ++ w.mod

def encodeMovpc (w : MovpcWord) : BitVec 64 :=
  0b00#2 ++ w.hdr.stall ++ BitVec.ofBool w.hdr.y ++ 0x009#9 ++ encodeHdrFrom w.hdr ++
    encodeOpnd w.d ++ w.disp ++ w.mod

def encodePop : PairOp → BitVec 7
  | .mov => 0x00
  | .iadd => 0x01
  | .isub => 0x02
  | .iand => 0x03
  | .ior => 0x04
  | .ixor => 0x05
  | .ishl => 0x06
  | .ishr => 0x07
  | .imin => 0x08
  | .imax => 0x09
  | .fadd => 0x0A
  | .fmul => 0x0B
  | .fmin => 0x0C
  | .fmax => 0x0D
  | .empty => 0x7F

def encodeHalf (h : Half) : BitVec 28 := encodePop h.pop ++ h.d ++ encodeOpnd h.x ++ h.hm

def encodeP (w : PWord) : BitVec 64 :=
  0b01#2 ++ w.stall ++ BitVec.ofBool w.y ++ 0#1 ++ encodeHalf w.h1 ++ encodeHalf w.h2

def encodeI (op : BitVec 8) (w : IWord) : BitVec 64 :=
  0b10#2 ++ w.hdr.stall ++ BitVec.ofBool w.hdr.y ++ op ++ encodeHdrFrom w.hdr ++
    encodeOpnd w.d ++ w.imod ++ w.imm

def encodeC (op : BitVec 6) (w : CWord) : BitVec 64 :=
  0b11#2 ++ w.hdr.stall ++ BitVec.ofBool w.hdr.y ++ op ++ encodeHdrFrom w.hdr ++
    encodeOpnd w.opr ++ w.aux ++ w.off

/-- The word of an instruction; none for an event, which no word encodes. -/
def encodeWord : Instr → Option (BitVec 64)
  | .nop w => some (encodeC 0x00 w)
  | .bra w => some (encodeC 0x01 w)
  | .jmpt w => some (encodeC 0x02 w)
  | .call w => some (encodeC 0x03 w)
  | .callt w => some (encodeC 0x04 w)
  | .ret w => some (encodeC 0x05 w)
  | .lpad w => some (encodeC 0x06 w)
  | .loop w => some (encodeC 0x07 w)
  | .loopbrk w => some (encodeC 0x08 w)
  | .exit w => some (encodeC 0x09 w)
  | .yield w => some (encodeC 0x0A w)
  | .trap w => some (encodeC 0x0B w)
  | .brk w => some (encodeC 0x0C w)
  | .eret w => some (encodeC 0x0D w)
  | .park w => some (encodeC 0x0E w)
  | .mov w => some (encodeF 0x000 w)
  | .mat w => some (encodeF 0x001 w)
  | .aff w => some (encodeF 0x002 w)
  | .dem w => some (encodeF 0x003 w)
  | .dema w => some (encodeF 0x004 w)
  | .movpc w => some (encodeMovpc w)
  | .elect w => some (encodeF 0x005 w)
  | .vote w => some (encodeF 0x006 w)
  | .kset w => some (encodeF 0x007 w)
  | .kop w => some (encodeF 0x008 w)
  | .iadd w => some (encodeF 0x020 w)
  | .isub w => some (encodeF 0x021 w)
  | .iand w => some (encodeF 0x028 w)
  | .ior w => some (encodeF 0x029 w)
  | .ixor w => some (encodeF 0x02A w)
  | .imin w => some (encodeF 0x02B w)
  | .imax w => some (encodeF 0x02C w)
  | .imul w => some (encodeF 0x022 w)
  | .imulh w => some (encodeF 0x023 w)
  | .imad w => some (encodeF 0x024 w)
  | .ishl w => some (encodeF 0x025 w)
  | .ishr w => some (encodeF 0x026 w)
  | .isar w => some (encodeF 0x027 w)
  | .icmp w => some (encodeF 0x02D w)
  | .sel w => some (encodeF 0x02E w)
  | .popc w => some (encodeF 0x02F w)
  | .clz w => some (encodeF 0x030 w)
  | .brev w => some (encodeF 0x031 w)
  | .bfe w => some (encodeF 0x032 w)
  | .bfi w => some (encodeF 0x033 w)
  | .lea w => some (encodeF 0x034 w)
  | .idot4 w => some (encodeF 0x035 w)
  | .movi w => some (encodeI 0x01 w)
  | .iaddi w => some (encodeI 0x02 w)
  | .iandi w => some (encodeI 0x03 w)
  | .iori w => some (encodeI 0x04 w)
  | .ixori w => some (encodeI 0x05 w)
  | .icmpi w => some (encodeI 0x06 w)
  | .fmovi w => some (encodeI 0x07 w)
  | .pairWord w => some (encodeP w)
  | .fadd w => some (encodeF 0x040 w)
  | .fsub w => some (encodeF 0x041 w)
  | .fmul w => some (encodeF 0x042 w)
  | .ffma w => some (encodeF 0x043 w)
  | .fmin w => some (encodeF 0x044 w)
  | .fmax w => some (encodeF 0x045 w)
  | .fcmp w => some (encodeF 0x046 w)
  | .frcp w => some (encodeF 0x047 w)
  | .frsq w => some (encodeF 0x048 w)
  | .fsqrt w => some (encodeF 0x049 w)
  | .fexp2 w => some (encodeF 0x04A w)
  | .flog2 w => some (encodeF 0x04B w)
  | .fsin w => some (encodeF 0x04C w)
  | .fcos w => some (encodeF 0x04D w)
  | .ftanh w => some (encodeF 0x04E w)
  | .fdiv w => some (encodeF 0x04F w)
  | .frnd w => some (encodeF 0x050 w)
  | .f2i w => some (encodeF 0x051 w)
  | .i2f w => some (encodeF 0x052 w)
  | .fcvt w => some (encodeF 0x053 w)
  | .hadd2 w => some (encodeF 0x054 w)
  | .hmul2 w => some (encodeF 0x055 w)
  | .hfma2 w => some (encodeF 0x056 w)
  | .fclass w => some (encodeF 0x057 w)
  | .cvt8 w => some (encodeF 0x060 w)
  | .cvt4 w => some (encodeF 0x061 w)
  | .xpand w => some (encodeF 0x062 w)
  | .unpk8 w => some (encodeF 0x063 w)
  | .mxdot w => some (encodeF 0x064 w)
  | .scdec w => some (encodeF 0x065 w)
  | .scenc w => some (encodeF 0x066 w)
  | .srnd w => some (encodeF 0x067 w)
  | .shfl w => some (encodeF 0x070 w)
  | .cmpx w => some (encodeF 0x071 w)
  | .scan w => some (encodeF 0x072 w)
  | .ired w => some (encodeF 0x073 w)
  | .redmaxi w => some (encodeF 0x074 w)
  | .matchLanes w => some (encodeF 0x075 w)
  | .minit w => some (encodeF 0x080 w)
  | .mupd w => some (encodeF 0x081 w)
  | .mmrg w => some (encodeF 0x082 w)
  | .mred w => some (encodeF 0x083 w)
  | .mdrain w => some (encodeF 0x084 w)
  | .mnorm w => some (encodeF 0x085 w)
  | .mld w => some (encodeF 0x086 w)
  | .mst w => some (encodeF 0x087 w)
  | .mdecay w => some (encodeF 0x088 w)
  | .ld w => some (encodeF 0x0A0 w)
  | .ldl w => some (encodeF 0x0A2 w)
  | .st w => some (encodeF 0x0A1 w)
  | .stl w => some (encodeF 0x0A3 w)
  | .atom w => some (encodeF 0x0A4 w)
  | .atoml w => some (encodeF 0x0A5 w)
  | .fence w => some (encodeF 0x0A6 w)
  | .mwait w => some (encodeF 0x0A7 w)
  | .waitstamp w => some (encodeF 0x0A8 w)
  | .pref w => some (encodeF 0x0A9 w)
  | .barinit w => some (encodeF 0x0D0 w)
  | .bar w => some (encodeF 0x0D1 w)
  | .bararv w => some (encodeF 0x0D2 w)
  | .barwt w => some (encodeF 0x0D3 w)
  | .barl w => some (encodeF 0x0D4 w)
  | .cross w => some (encodeF 0x0D5 w)
  | .waitev w => some (encodeF 0x0D6 w)
  | .setev w => some (encodeF 0x0D7 w)
  | .launch w => some (encodeF 0x0D8 w)
  | .rsig w => some (encodeF 0x0C0 w)
  | .rwait w => some (encodeF 0x0C1 w)
  | .ordrd w => some (encodeF 0x0C2 w)
  | .ordwr w => some (encodeF 0x0C3 w)
  | .itq w => some (encodeF 0x0C4 w)
  | .rand w => some (encodeF 0x0C5 w)
  | .mile w => some (encodeF 0x0C6 w)
  | .copy w => some (encodeF 0x0E0 w)
  | .copyp w => some (encodeF 0x0E1 w)
  | .copym w => some (encodeF 0x0E2 w)
  | .slotfree w => some (encodeF 0x0E3 w)
  | .bccr w => some (encodeF 0x0E4 w)
  | .coll w => some (encodeF 0x0E5 w)
  | .mma w => some (encodeF 0x0F0 w)
  | .mmas w => some (encodeF 0x0F1 w)
  | .azero w => some (encodeF 0x0F2 w)
  | .accld w => some (encodeF 0x0F4 w)
  | .accst w => some (encodeF 0x0F3 w)
  | .accstat w => some (encodeF 0x0F5 w)
  | .csrr w => some (encodeF 0x100 w)
  | .csrw w => some (encodeF 0x101 w)
  | .killCsrWrite w => some (encodeF 0x101 w)
  | .wdctlWrite w => some (encodeF 0x101 w)
  | .perfselWrite w => some (encodeF 0x101 w)
  | .perfr w => some (encodeF 0x106 w)
  | .tlbinv w => some (encodeF 0x102 w)
  | .ctxsv w => some (encodeF 0x103 w)
  | .ctxld w => some (encodeF 0x104 w)
  | .cacheop w => some (encodeF 0x105 w)
  | _ => none

/-- The words of an instruction (R173): one word, or none for an event. -/
def encode (i : Instr) : List (BitVec 64) := (encodeWord i).toList

/-- The host's question about a row of the table: the low nbits bits are the word's, the bits above are zero. -/
def decodeTableWord (nbits w : Nat) : Option Instr :=
  match decode (natLe 8 (w % 2 ^ nbits)) with
  | .ok (i, _) => some i
  | .error _ => none

end Sys2Proof
end

