-- ==== Sys2Proof/Machine/State.lean ====
section
/-! DEFINITION. The state of the module: every convoy, block, slot, core, launch, the hub, memory and what is in flight. Everything is plain data. INVENTORY.md lists each field with the rule that names it and its reset value. -/

namespace Sys2Proof.Machine

/-- Bytes by address in one canonical form: addresses strictly rising and no zero byte listed. An unlisted byte reads 0 (R75, R363; assumption log 5). -/
abbrev Memory := List Host.Cell

/-- A moment in memory order (R31): centred second moment, mean, weight sum and count. -/
structure Moment where
  m2 : W32
  mean : W32
  w : W32
  n : W32
  deriving DecidableEq, Repr

/-- An affine register (R53). -/
structure Affine where
  base : W64
  stride : W32
  deriving DecidableEq, Repr

/-- What belongs to one lane of a convoy: its PC (R42), its places in the return vector and the held return vector (R316, R317), its draw count (R30), V0 to VB-1 and M0 to M7 (R10). -/
structure Lane where
  pc : Pc
  rv : Pc
  hrv : Pc
  draw : W64
  v : List W32
  m : List Moment
  deriving DecidableEq, Repr

/-- A register of a convoy as the interlock and the error rules name it (R54, R64). -/
inductive Reg where
  | v (n : Nat)
  | s (n : Nat)
  | a (n : Nat)
  | m (n : Nat)
  | g (n : Nat)
  | k (n : Nat)
  | lc
  | flags
  deriving DecidableEq, Repr

/-- A write to a register of the convoy that is complete at a cycle (R54 to R56), and whether a hold on it raises STALLSHORT: the extra cycles of SCDEC and SCENC do not (R185). -/
structure Busy where
  reg : Reg
  cycle : Nat
  checked : Bool
  deriving DecidableEq, Repr

/-- A hardware-loop level (R57, R58, R324), with its loop buffer. -/
structure LoopLevel where
  count : W32
  counter : W32
  first : Pc
  last : Pc
  owner : Nat
  suspended : Bool
  words : List W64
  deriving DecidableEq, Repr

/-- The trap registers, or the held set (R312). -/
structure TrapRegs where
  cause : W64
  pc : W64
  addr : W64
  mask : W64
  act : W64
  status : W64
  deriving DecidableEq, Repr

/-- What a held lane waits for (R67): a generation of a barrier object (R77), the end of a BARL (R80), a crossing (R157), an event (R282), in a hardware entry or since an instant in the memory-backed list (R336), a place in a launch queue for the record it read and offers since a cycle (R283, R332), the performance of one access of an issue, or of all of them, under the constraints of a replay (R139), or after RETRY, where it stands past the word (R357), the success of its word, which is executed again when it is tested (R107, R112, R117, R139, R144, R145, R167, R168, R276, R328, R330), or, at the last word of a loop body, the other lanes of its own word, whose back-edge all take together (R58). -/
inductive HoldKind where
  | bar (obj : Nat) (gen : BitVec 16)
  | barl
  | cross
  | waitev (event : BitVec 16) (scope : Nat) (spilled : Option Nat)
  | launch (record : List Byte) (queue dest cycle : Nat)
  | access (number : Nat) (id : Option Nat)
  | retried (number : Nat)
  | retry (i : Instr)
  | edge
  deriving DecidableEq, Repr

/-- Held lanes, at the word that holds them, and whether a hand-over starts once that word completes: it has Y and was issued outside a hand-over (R83). -/
structure Hold where
  lanes : Mask
  pc : Pc
  kind : HoldKind
  y : Bool
  deriving DecidableEq, Repr

/-- A BARL in progress (R80). -/
structure Barl where
  addr : Pc
  mask : Mask
  arrived : Mask
  deriving DecidableEq, Repr

/-- An occurrence counter (R135): the lane, or none for the convoy actor, and the tag. -/
structure Occ where
  lane : Option Nat
  tag : BitVec 12
  count : W32
  deriving DecidableEq, Repr

/-- A pending ORDRD match (R285). -/
structure OrdMatch where
  lane : Option Nat
  tag : BitVec 12
  addr : Nat
  position : Nat
  count : Nat
  deriving DecidableEq, Repr

/-- A cell with an error (R63, R64, R321): the register, the lane of a varying or moment or K cell, and how many of its bits are flipped. -/
structure ErrCell where
  reg : Reg
  lane : Option Nat
  bits : Nat
  deriving DecidableEq, Repr

/-- The latest view instant of a lane on some bytes: of its reads and its own writes (R91, R92). -/
structure View where
  lane : Nat
  pa : Nat
  size : Nat
  at_ : Nat
  deriving DecidableEq, Repr

/-- What a barrier has ordered (R79, R80): the accesses that some lanes of a convoy made in issues before `until_` come before those that the lanes `mine` of this convoy make in issues after `from_`. -/
structure Before where
  convoy : Nat
  lanes : Mask
  until_ : Nat
  mine : Mask
  from_ : Nat
  deriving DecidableEq, Repr

/-- An arrival at a barrier object (R77, R79): the offset, the convoy, the instant, and what is ordered before the arrival itself. -/
structure Arrival where
  off : Nat
  convoy : Nat
  at_ : Nat
  befores : List Before
  deriving DecidableEq, Repr

/-- A convoy (01 R7, R8, R10). `watch` and `hwatch` say whether the trap that the trap registers, or the held set, describe was a LIVELOCK (R305). Its index in State.convoys never changes. -/
structure Convoy where
  core : Nat
  slot : Nat
  pos : Nat
  width : Nat
  budget : Nat
  launch : Nat
  block : Nat
  index : Nat
  live : Mask
  lanes : List Lane
  k : List Mask
  s : List W64
  a : List Affine
  g : List Moment
  loops : List LoopLevel
  flags : BitVec 6
  conflicts : W32
  priv : Nat
  trap : TrapRegs
  held : TrapRegs
  hrvValid : Bool
  scratch : List W64
  holds : List Hold
  rvHolds : List Hold
  hrvHolds : List Hold
  watch : Bool
  hwatch : Bool
  barl : Option Barl
  occ : List Occ
  ord : List OrdMatch
  bound : Nat
  domBound : Nat
  views : List View
  befores : List Before
  stopped : Bool
  parked : Bool
  doubled : Bool
  ended : Bool
  ready : Nat
  busy : List Busy
  errs : List ErrCell
  deriving DecidableEq, Repr

/-- The state of a block: running, ended with engine operations still in flight, ended and freed, stopped for a save, saved, or being restored (R108, R322, R343). -/
inductive BlockState where
  | running | ended | freed | saving | saved | restoring
  deriving DecidableEq, Repr

/-- What a block is: of a launch, or a service block with its service operation (R342). A reduce block has no convoys: it stands in Hub.reduces, and takes its core's lay-by (R122). -/
inductive BlockKind where
  | ordinary
  | service (sv : Nat)
  deriving DecidableEq, Repr

/-- The local store of a block on one core: its bytes, the offsets of its marked barrier objects (R75), the last arrival of each convoy at each (R79), and its bytes with uncorrectable errors (R321). -/
structure LocalStore where
  mem : Memory
  marks : List Nat
  arrivals : List Arrival
  errs : List Nat
  deriving DecidableEq, Repr

/-- A block. Its index in State.blocks never changes. `badTiles` are the claimed tiles that were in the error state when a save took them, by 8·follower + tile (R321). -/
structure Block where
  kind : BlockKind
  launch : Nat
  index : Nat
  core : Nat
  follower : Option Nat
  base : Nat
  size : Nat
  convoys : List Nat
  ls : LocalStore
  ls2 : LocalStore
  gens : Nat
  buffered : Nat
  order : List (Nat × Nat)
  badTiles : List Nat
  state : BlockState
  deriving DecidableEq, Repr

/-- The word a slot is issuing (R42): its address; the held word when it is one tested again, or none when it is fetched; whether it was issued within a hand-over (R82), and whether its completion with Y starts one (R83); the convoys still to execute it with their active sets; the words of local store that its lanes have addressed, by block (R73); whether a convoy completed it with a non-empty executing set, as a switch point (R70), as an end of a hand-over (R82) or with Y (R83); whether it moved a handed lane backward (R82); and the instant of its issue. An issue begins and ends within one step. -/
structure Pending where
  addr : Pc
  retest : Option Instr
  inHand : Bool
  mayY : Bool
  todo : List (Nat × Mask)
  words : List (Nat × Nat)
  switches : Bool
  ends : Bool
  y : Bool
  backHanded : Bool
  number : Nat
  deriving DecidableEq, Repr

/-- A hand-over (R82): the handed lanes by convoy, and the words issued in it. -/
structure Handover where
  lanes : List (Nat × Mask)
  issues : Nat
  deriving DecidableEq, Repr

/-- An issue slot: the launch it is open for, the convoy at each position (R65), the fairness timer (R82), the watchdog count and high-water mark (R84), and the earliest cycle of its next issue (R68). -/
structure Slot where
  launch : Option Nat
  positions : List (Option Nat)
  timer : Nat
  backward : Bool
  handover : Option Handover
  watchdog : Nat
  mark : Nat
  ready : Nat
  pending : Option Pending
  deriving DecidableEq, Repr

/-- A line of an L1: physical line number, 128 bytes, and the instant of its fill (R91). -/
structure L1Line where
  line : Nat
  bytes : List Byte
  filled : Nat
  deriving DecidableEq, Repr

/-- A TLB entry (R352): context, virtual page number in units of 64 KiB (of 2 MiB when large), and the leaf with the place of the leaf entry in memory, in units of its 8 bytes. -/
structure TlbEntry where
  ctx : Nat
  page : Nat
  large : Bool
  leaf : W64
  leafAt : Nat
  deriving DecidableEq, Repr

/-- An accumulator tile (R167): the claiming block, the error state (R321), whether an entry has an uncorrectable error that no operation has met yet, and the 4,096 entries, row by row. -/
structure Tile where
  claim : Option Nat
  err : Bool
  bad : Bool
  acc : List W32
  deriving DecidableEq, Repr

/-- What a queued matrix operation does (R297, R298, R299). -/
inductive MatKind where
  | mma (a b : Nat)
  | mmas (a b : Nat)
  | azero
  | accld (src : Nat)
  | accst (dst : Nat) (fmt : Nat) (rm : BitVec 2) (scale : Int)
  | accstat (m : Nat) (col : Bool) (first : Nat)
  deriving DecidableEq, Repr

/-- A matrix operation in a queue (R118, R168): a number shared by both halves of a pair operation, its kind, tile, headers read at issue, stamp, issuing convoy and block, whether it is a pair (R171), whether it is cancelled (R108); and, once it has started, the 1 KiB rows it has read from local store and those it has written there, by core and number, and whether it has met an error (R321). -/
structure MatOp where
  id : Nat
  kind : MatKind
  tile : Nat
  headerA : List Byte
  headerB : List Byte
  stamp : Option Nat
  convoy : Nat
  block : Nat
  pair : Bool
  cancelled : Bool
  rows : List (Nat × Nat × List Byte)
  wrote : List (Nat × Nat)
  failed : Bool
  deriving DecidableEq, Repr

/-- The free-slot counters of a launch on a core, one per street member (R117). -/
structure FreeSlots where
  launch : Nat
  counts : List Nat
  deriving DecidableEq, Repr

/-- A sequencer: the slot it last issued from and the cycle after which it may issue again (R68). -/
structure Sequencer where
  last : Nat
  next : Nat
  deriving DecidableEq, Repr

/-- A core. -/
structure Core where
  enabled : Bool
  tvec : W64
  perfen : W64
  wdctl : W64
  secnt : W64
  perfsel : List Byte
  perf : List W64
  seqs : List Sequencer
  slots : List Slot
  l1 : List L1Line
  storeFloor : List (Nat × Nat)
  tlb : List TlbEntry
  ibuf : List (Nat × W64)
  tiles : List Tile
  queue : List MatOp
  free : List FreeSlots
  current : List (Nat × Nat)
  deriving DecidableEq, Repr

/-- The layout record of a copy (R109). -/
structure Layout where
  e : List Nat
  s : List Int
  t : List Int
  z : Nat
  zfill : Bool
  deriving DecidableEq, Repr

/-- Which copy word started an operation (R290, R291, R292). -/
inductive CopyKind where
  | copy (dir : Nat)
  | copyp (fmt : Nat) (isLocal : Bool)
  | copym (mask : BitVec 16) (isLocal : Bool)
  deriving DecidableEq, Repr

/-- The progress of a copy (R114): waiting for the counters of .REL (R104), moving, stopped by a translation fault that is not yet reported, reported and waiting for its action in a ring slot, paused by pre-emption, finished with a status but its stamp not yet incremented, or over. -/
inductive CopyPhase where
  | waiting
  | moving
  | faulted (addr : Nat) (cause : Nat) (write : Bool)
  | reported (slot : Nat)
  | ending (status : Nat)
  | joined
  deriving DecidableEq, Repr

/-- A receiver of a copy (R116): its block, whether it is the follower's local store, its stamp, the elements written so far (R114), the status with which it has ended before the last element, and whether its stamp has advanced. -/
structure Receiver where
  block : Nat
  second : Bool
  stamp : Option Nat
  progress : Nat
  ended : Option Nat
  joined : Bool
  deriving DecidableEq, Repr

/-- A write of a copy to global memory that has been translated and sent: its element, or the chunk of a collective to which it belongs (R123), its addresses (R90, R94), since when it waits for a path (R375), and whether it has been answered RETRY and holds no translation (R357). -/
structure Flight where
  element : Nat
  va : Nat
  pa : Nat
  bytes : List Byte
  waiting : Nat
  retrying : Bool
  deriving DecidableEq, Repr

/-- A copy operation (R103, R109 to R117): the elements whose beats have passed (R113), the elements read and not yet written by every receiver, the global writes sent and not yet performed, and the element at which a source fault stops it, with the status. Its index in State.copies never changes. -/
structure CopyOp where
  kind : CopyKind
  core : Nat
  seq : Nat
  convoy : Nat
  block : Nat
  launch : Nat
  fork : Nat
  rel : Bool
  user : Bool
  dst : Nat
  src : Nat
  lay : Layout
  boundary : Nat
  scales : Nat
  header : List Byte
  receivers : List Receiver
  order : Nat
  passed : Nat
  fetched : List (Nat × List Byte)
  flight : List Flight
  stop : Option (Nat × Nat)
  paused : Bool
  phase : CopyPhase
  deriving DecidableEq, Repr

/-- The itinerary part of an access (R130, R137): kind, reserved slot, actor, tag, occurrence, atomic code, and the interval key of an ASET. -/
structure ItinInfo where
  kind : Nat
  slot : Option Nat
  block : Nat
  convoy : Nat
  lane : Option Nat
  tag : BitVec 12
  occ : W32
  opcode : Nat
  cls : Nat
  key : Nat
  ops : Nat
  last : Bool
  deriving DecidableEq, Repr

/-- What an access in flight does. A load names its destination, size and extension; an atomic its MOD[3:0] code, MMRG, one operand for each of its lanes, and its destination; a fill brings a line to the L1 or the square (R278). -/
inductive AccKind where
  | load (d : Opnd) (size : Nat) (sx : Bool)
  | store (bytes : List Byte)
  | atom (op : BitVec 4) (mmrg : Bool) (operands : List (List Byte)) (d : Option Opnd)
  | fill (square : Bool)
  deriving DecidableEq, Repr

/-- The phase of an access (R90, R91): sent to its home, or performed there at an instant, with the bytes it returns, one list for each lane. -/
inductive AccPhase where
  | sent
  | performed (at_ : Nat) (result : List (List Byte))
  deriving DecidableEq, Repr

/-- A global access in flight (R90 to R100), with the executing set of its word, and whether it has been answered RETRY and holds no translation (R357). -/
structure Access where
  id : Nat
  number : Nat
  core : Nat
  seq : Nat
  convoy : Nat
  launch : Nat
  lanes : List Nat
  va : Nat
  pa : Nat
  size : Nat
  kind : AccKind
  acq : Bool
  rel : Bool
  scope : Nat
  sc : Bool
  rc : Bool
  home : Bool
  itin : List ItinInfo
  phase : AccPhase
  waiting : Nat
  mask : Mask
  retrying : Bool
  deriving DecidableEq, Repr

/-- A launch record (R334). -/
structure LaunchRec where
  program : Nat
  grid : Nat
  blanes : Nat
  width : Nat
  budget8 : Nat
  lstore : Nat
  flags : BitVec 16
  mode : Nat
  grain : Nat
  prio : Nat
  modeTop : Nat
  waits : Nat
  itin : Nat
  omap : Nat
  key : W64
  utvec : Nat
  deleg : W32
  event : BitVec 16
  eventFlags : BitVec 16
  waitEvents : List (BitVec 16)
  status : Nat
  imageLen : Nat
  reserved54 : W32
  cores : BitVec 256
  reserved78 : W64
  deriving DecidableEq, Repr

/-- One record of an itinerary (R130). -/
structure ItinRec where
  addr : Nat
  seqpos : Nat
  block : Nat
  convoy : Nat
  lane : Nat
  tag : Nat
  occ : Nat
  kind : Nat
  cls : Nat
  opcode : Nat
  grain : Nat
  extra : Nat
  deriving DecidableEq, Repr

/-- An ASET in progress (R138): address, block, key, and the slot of its record with the count so far. -/
structure Aset where
  addr : Nat
  block : Nat
  key : Nat
  slot : Nat
  tag : BitVec 12
  opcode : Nat
  count : Nat
  deriving DecidableEq, Repr

/-- The sender of a buffered access: its sequencer, convoy and issue, and whether it is a release or an acquire, with its scope (R95, R154). -/
structure Sender where
  core : Nat
  seq : Nat
  convoy : Nat
  number : Nat
  rel : Bool
  acq : Bool
  scope : Nat
  deriving DecidableEq, Repr

/-- A buffered access of a CANONICAL launch (R154, R156, R158): its place (block index, convoy in block, lane, issue order, element), virtual and physical address, effect, sender, and since when it waits for a path (R375). -/
structure Buffered where
  block : Nat
  convoy : Nat
  lane : Nat
  order : Nat
  element : Nat
  va : Nat
  pa : Nat
  kind : AccKind
  sender : Sender
  waiting : Nat
  deriving DecidableEq, Repr

/-- A kept block end (R340). -/
structure KeptEnd where
  core : Nat
  cycle : Nat
  used : Bool
  deriving DecidableEq, Repr

/-- The ownership map of a CANONICAL launch, as its header stood at admission: base, granule count and quota (R153). -/
structure OwnMap where
  base : Nat
  granules : Nat
  quota : Nat
  deriving DecidableEq, Repr

/-- An admitted launch (R337 to R341), with its part in recording, replay, reverse and canonical order (R125 to R158). Its index in State.launches never changes. -/
structure Launch where
  id : Nat
  queue : Nat
  rec_ : LaunchRec
  key : W64
  nextBlock : Nat
  lastCore : Option Nat
  freedRule : Bool
  ends : List KeptEnd
  endedBlocks : Nat
  terminated : Option Byte
  completed : Bool
  recording : Bool
  reserved : Nat
  lineSeq : List (Nat × Nat)
  positions : List (Nat × Nat)
  asets : List Aset
  bound : List ItinRec
  boundGrain : Nat
  boundMode : Nat
  acquired : List (Nat × Nat)
  cursors : List (Nat × Nat)
  signalled : List (Nat × Nat)
  crossings : Nat
  crossSlot : Option Nat
  map : OwnMap
  snapshot : Memory
  buffer : List Buffered
  deriving DecidableEq, Repr

/-- A record in the FIFO of a queue (R332). -/
structure FifoEntry where
  id : Nat
  record : List Byte
  eligible : Bool
  deriving DecidableEq, Repr

/-- A launch queue (R332, R333), with the cycle in which it last took a record, and whether TAIL must be rewritten after an error before the hub reads the ring again. -/
structure Queue where
  rbase : W64
  qctl : W64
  tail : W64
  head : W64
  fifo : List FifoEntry
  entered : Option Nat
  stale : Bool
  deriving DecidableEq, Repr

/-- A fault that an engine reports (R353). -/
structure EngineFault where
  addr : Nat
  progress : Nat
  core : Nat
  kind : Nat
  cause : Nat
  write : Bool
  launch : Nat
  copy : Option Nat
  deriving DecidableEq, Repr

/-- A migration slot (R356): the copy under way holds the frame as it stood when ARM was set. -/
structure Migration where
  msrc : W64
  mdst : W64
  mctl : W64
  frame : List Byte
  deriving DecidableEq, Repr

/-- A communicator slot (R119), with the number of collectives it has taken. -/
structure Comm where
  n : Nat
  rank : Nat
  seed : W64
  modules : List Nat
  taken : Nat
  deriving DecidableEq, Repr

/-- A collective of this module (R119 to R124): its slot and number in it, its issuer, its descriptor; the source elements read and not yet sent, and the source chunks sent; the tree values computed so far and the operands received (R120); the next sequence number of each flow, as sent and as handled, the chunks that came early, the ranks whose descriptor has come, and those that have ended without completing (R119, R121); how many elements each rank has delivered, the chunks of data still to be translated, the element writes sent, and how many are performed; and its end: that no rank can complete it, that this one cannot because a path is lost (R123), that it is over. Its index in State.colls never changes. -/
structure Coll where
  slot : Nat
  number : Nat
  core : Nat
  seq : Nat
  convoy : Nat
  launch : Nat
  ctx : Nat
  user : Bool
  fork : Nat
  rel : Bool
  src : Nat
  dst : Nat
  k : Nat
  op : Nat
  combine : Nat
  fmt : Nat
  root : Nat
  stamp : Nat
  started : Bool
  fetched : List (Nat × List Byte)
  pieces : List Nat
  values : List Chunk
  received : List Chunk
  sent : List (Nat × Nat)
  seen : List (Nat × Nat)
  waiting : List Chunk
  heard : List Nat
  gone : List Nat
  got : List (Nat × Nat)
  writes : List (Nat × List Byte)
  flight : List Flight
  written : Nat
  failed : Bool
  lost : Bool
  ended : Bool
  deriving DecidableEq, Repr

/-- A reduce block in the lay-by of a core (R122): the collective, the node of its tree, and the two operands. -/
structure Reduce where
  core : Nat
  coll : Nat
  node : Nat
  a : List Byte
  b : List Byte
  deriving DecidableEq, Repr

/-- What waits in the posted-write queue of the host link (R99): a write, with the core, convoy and lanes of a store, or an access that may not pass the writes before it. -/
inductive Posted where
  | write (pa : Nat) (bytes : List Byte) (source : Option (Nat × Nat × List Nat))
  | visit (id : Nat)
  deriving DecidableEq, Repr

/-- A service operation (R344): its record, what it does, the core it serves, the block, since which step it waits for the lay-by (R342), and the lay-by block that runs it once dispatched; whether that block exited with result 1, or otherwise; and whether the whole save or restore is over. The two operations of a tandem block stand next to each other. -/
structure ServiceOp where
  record : Nat
  restore : Bool
  core : Nat
  block : Nat
  second : Bool
  since : Option Nat
  layby : Option Nat
  done : Bool
  failed : Bool
  closed : Bool
  deriving DecidableEq, Repr

/-- What a configuration blob holds (R369). -/
structure Blob where
  cores : BitVec 256
  ports : BitVec 16
  window : Nat
  cap : Nat
  tvec : W64
  wdctl : W64
  perfen : W64
  deriving DecidableEq, Repr

/-- The images in a flash slot (R366, R368): the bytes of the configuration blob and of the firmware, whether their signatures verify, and what the blob says. -/
structure FlashSlot where
  blob : List Byte
  firmware : List Byte
  genuine : Bool
  config : Blob
  deriving DecidableEq, Repr

/-- A measurement log entry (R370). -/
structure LogEntry where
  kind : Nat
  version : Nat
  length : Nat
  slot : Nat
  digest : List Byte
  deriving DecidableEq, Repr

/-- What the module sends to the outside, in order: an MSI-X vector (R364, R365, R371), the answer to a memory-window access or to a read of a register (none for an Unsupported Request, R360, R361), a reply to a peer's access (R97), or RETRY (R356), a chunk to a rank (R121), an attestation request or response to a peer (R370). -/
inductive Output where
  | msix (vector : Nat)
  | windowReply (bytes : Option (List Byte))
  | registerReply (value : Option W64)
  | peerReply (peer : Nat) (bytes : Option (List Byte))
  | peerRetry (peer : Nat)
  | chunk (rank : Nat) (c : Chunk)
  | attestRequest (peer : Nat) (nonce : List Byte)
  | attestResponse (peer : Nat) (bytes : List Byte)
  deriving DecidableEq, Repr

/-- What the host does on one of its two links (R359 to R361): a row of the opcode table, a read of a register of the control window, a read of the serial number in configuration space, or a new size of the memory window, as a power of two. -/
inductive HostAccess where
  | row (i : Instr)
  | registerRead (off size : Nat)
  | serialRead
  | resize (n : Nat)
  deriving DecidableEq, Repr

/-- A copy of a peer line in a square (R12, R98). -/
structure SquareCopy where
  square : Nat
  line : Nat
  bytes : List Byte
  filled : Nat
  deriving DecidableEq, Repr

/-- Where the step has put the execution of a word: the core, slot and convoy, the active set and the address (R42, R43). -/
structure Focus where
  core : Nat
  slot : Nat
  convoy : Nat
  active : Mask
  addr : Pc
  deriving DecidableEq, Repr

/-- A soft error that strikes (R63, R64, R320, R321, R376): a register cell, a byte of local store, an accumulator tile, a byte of device memory, whose 32-byte sector can then not be corrected, a read of local store or of a tile that was corrected, or one more on an error counter of the module. -/
inductive Upset where
  | cell (convoy : Nat) (x : ErrCell)
  | store (block : Nat) (second : Bool) (off : Nat)
  | tile (core n : Nat)
  | memory (pa : Nat)
  | corrected (core : Nat)
  | counted (n : Nat)
  deriving DecidableEq, Repr

/-- The hub (21, 22, 23). `scans` are the spilled waiters that a SET has found and the scan of the memory-backed list has still to release, by convoy and instant of entry (R336); `freedAt` is the cycle of the last block end (R340, R345); `window` is the size of the memory window (R359); `goodAt` is the cycle of power-good (R363); `bootFlash` and `bootSlot` are the flash and its active slot as power-good found them, and then the slot whose firmware runs (R366, R368); `loaded` counts the microcode images that the firmware has loaded (R368); `ckLines` are lines of a checkpoint that have been read before their chunk (R372). -/
structure Hub where
  queues : List Queue
  nextId : Nat
  events : List Nat
  waitListAt : Nat
  waitListSize : Nat
  scans : List (Nat × Nat)
  freedAt : Option Nat
  roots : List W64
  fqbase : W64
  fqctl : W64
  fqCount : Nat
  fqWaiting : List EngineFault
  migrations : List Migration
  comms : List (Option Comm)
  early : List Chunk
  nodes : List (Nat × Nat × Nat)
  reduces : List Reduce
  posted : List Posted
  svcProgram : W64
  ownModule : Nat
  portMasks : List (BitVec 16)
  ports : List Bool
  domsetAt : Option Nat
  ready : W64
  errsum : W64
  mwbase : W64
  window : Nat
  ckstat : W64
  mbarg : List W64
  mbstat : W64
  mbcmd : Option (Byte × BitVec 16)
  attesting : Option (BitVec 16)
  cap : Nat
  counters : List W64
  flash : List FlashSlot
  activeSlot : Nat
  bootFlash : List FlashSlot
  bootSlot : Nat
  blob : Blob
  loaded : Nat
  log : List LogEntry
  ckHost : Nat
  ckRestore : Bool
  ckLines : List (Nat × List Byte)
  tripped : Bool
  powered : Bool
  goodAt : Nat
  deriving DecidableEq, Repr

/-- The whole module, and what is in flight; `memErrs` are the 32-byte sectors of device memory with an uncorrectable error (R376). The fields from outputs on are the model's own (assumption logs 1, 7 and 35): what goes out, what is to come in on the two host links, from other agents and as soft errors, which agent moves next, and, within a step, the slots in which words with Y have completed by a release, with the words' addresses (R83). -/
structure State where
  convoys : List Convoy
  blocks : List Block
  launches : List Launch
  cores : List Core
  mem : Memory
  memErrs : List Nat
  accesses : List Access
  squares : List SquareCopy
  dieTlbs : List (List TlbEntry)
  copies : List CopyOp
  colls : List Coll
  services : List ServiceOp
  hub : Hub
  clock : Nat
  outputs : List Output
  nextAccess : Nat
  steps : Nat
  turn : Nat
  yields : List (Nat × Nat × Pc)
  links : List (List HostAccess)
  inputs : List Instr
  outside : List (Nat × List Byte)
  upsets : List Upset
  focus : Option Focus
  deriving DecidableEq, Repr

/-- Why the machine stops. -/
inductive Fault where
  /-- Raised by the meaning of an instruction word when no convoy is executing it. It never comes from step, which sets the focus first; safe. -/
  | noIssue
  deriving DecidableEq, Repr

/-- Why an instruction is turned away. -/
inductive Refusal where
  /-- Raised by an arm of exec whose instruction has no meaning in the model; safe. -/
  | notModelled (mnemonic : String)
  deriving DecidableEq, Repr

def Moment.zero : Moment := { m2 := 0, mean := 0, w := 0, n := 0 }
def Affine.zero : Affine := { base := 0, stride := 0 }
def TrapRegs.zero : TrapRegs := { cause := 0, pc := 0, addr := 0, mask := 0, act := 0, status := 0 }
def LocalStore.empty : LocalStore := { mem := [], marks := [], arrivals := [], errs := [] }

def Slot.closed : Slot :=
  { launch := none, positions := [], timer := 0, backward := false, handover := none, watchdog := 0, mark := 0, ready := 0, pending := none }

def Tile.free : Tile := { claim := none, err := false, bad := false, acc := List.replicate 4096 0 }

/-- A core when the module leaves reset (R313; assumption logs 2 and 3). -/
def Core.reset : Core :=
  { enabled := true, tvec := 0, perfen := 0, wdctl := 0, secnt := 0,
    perfsel := List.replicate 8 0, perf := List.replicate 8 0,
    seqs := List.replicate 4 { last := 7, next := 0 },
    slots := List.replicate 32 Slot.closed,
    l1 := [], storeFloor := [], tlb := [], ibuf := [],
    tiles := List.replicate 8 Tile.free, queue := [], free := [], current := [] }

def Queue.reset : Queue := { rbase := 0, qctl := 0, tail := 0, head := 0, fifo := [], entered := none, stale := false }

def Migration.reset : Migration := { msrc := 0, mdst := 0, mctl := 0, frame := [] }

/-- The configuration blob in flash (R369; assumption log 3). -/
def Blob.default : Blob :=
  { cores := BitVec.allOnes 256, ports := BitVec.allOnes 16, window := 2 ^ 38, cap := 1500,
    tvec := 0, wdctl := 0, perfen := 0 }

def FlashSlot.default : FlashSlot := { blob := [], firmware := [], genuine := true, config := Blob.default }

/-- The hub when the module leaves reset. -/
def Hub.reset : Hub :=
  { queues := List.replicate 16 Queue.reset, nextId := 1, events := [], waitListAt := 0, waitListSize := 0, scans := [], freedAt := none,
    roots := List.replicate 17 0, fqbase := 0, fqctl := 0, fqCount := 0, fqWaiting := [],
    migrations := List.replicate 4 Migration.reset, comms := List.replicate 64 none, early := [], nodes := [], reduces := [], posted := [], svcProgram := 0,
    ownModule := 0, portMasks := List.replicate 64 0, ports := List.replicate 16 false, domsetAt := none,
    ready := 0, errsum := 0, mwbase := 0, window := 2 ^ 28, ckstat := 0, mbarg := List.replicate 6 0, mbstat := 0,
    mbcmd := none, attesting := none, cap := 1500, counters := List.replicate 6 0,
    flash := [FlashSlot.default, FlashSlot.default], activeSlot := 0,
    bootFlash := [FlashSlot.default, FlashSlot.default], bootSlot := 0, blob := Blob.default, loaded := 0, log := [],
    ckHost := 0, ckRestore := false, ckLines := [], tripped := false, powered := true, goodAt := 0 }

/-- The machine right after reset: no work, memory with nothing listed, every register at its reset value. -/
def State.reset : State :=
  { convoys := [], blocks := [], launches := [], cores := List.replicate 256 Core.reset,
    mem := [], memErrs := [], accesses := [], squares := [], dieTlbs := List.replicate 4 [], copies := [], colls := [], services := [],
    hub := Hub.reset, clock := 0, outputs := [], nextAccess := 0,
    steps := 0, turn := 0, yields := [], links := [[], []], inputs := [], outside := [], upsets := [], focus := none }

end Sys2Proof.Machine
end

