-- ==== Sys2Proof/Machine/Mem.lean ====
section
/-! DEFINITION. Reading and writing memory in its canonical form, byte by byte and in little-endian groups (R4). -/

namespace Sys2Proof.Machine

/-- The byte at an address; one that is not listed reads 0. -/
def memGet : Memory → Nat → Byte
  | [], _ => 0
  | (k, v) :: r, a => if a < k then 0 else if a = k then v else memGet r a

/-- Write one byte; writing 0 removes the entry. -/
def memSet : Memory → Nat → Byte → Memory
  | [], a, b => if b = 0 then [] else [(a, b)]
  | (k, v) :: r, a, b =>
    if a < k then (if b = 0 then (k, v) :: r else (a, b) :: (k, v) :: r)
    else if a = k then (if b = 0 then r else (a, b) :: r)
    else (k, v) :: memSet r a b

/-- The n bytes from an address up. -/
def memRead (m : Memory) (a : Nat) : Nat → List Byte
  | 0 => []
  | n + 1 => memGet m a :: memRead m (a + 1) n

/-- Write bytes from an address up. -/
def memWrite : Memory → Nat → List Byte → Memory
  | m, _, [] => m
  | m, a, b :: r => memWrite (memSet m a b) (a + 1) r

/-- Every listed address is at or above a bound, addresses rise, and no byte is 0. -/
def memWfFrom : Nat → Memory → Bool
  | _, [] => true
  | lo, (k, v) :: r => decide (lo ≤ k) && v != 0 && memWfFrom (k + 1) r

/-- The canonical form. -/
def Memory.wf (m : Memory) : Bool := memWfFrom 0 m

/-- The little-endian number in n bytes. -/
def memNat (m : Memory) (a n : Nat) : Nat := leNat (memRead m a n)

/-- The 8-byte word at an address. -/
def memWord (m : Memory) (a : Nat) : W64 := BitVec.ofNat 64 (memNat m a 8)

/-- The bytes of a number. -/
def leBytes (n v : Nat) : List Byte := natLe n v

/-- Store a number in n bytes. -/
def memStore (m : Memory) (a n v : Nat) : Memory := memWrite m a (leBytes n v)

end Sys2Proof.Machine
end

