-- ==== Sys2Proof/Machine/Basics.lean ====
section
/-! DEFINITION. Reaching the parts of the state: convoys, blocks, launches, cores, slots, lanes and registers. -/

namespace Sys2Proof.Machine

def Lane.blank : Lane := { pc := 0, rv := 0, hrv := 0, draw := 0, v := [], m := [] }

/-- What an index names when nothing is there: a convoy without lanes, already ended. -/
def Convoy.blank : Convoy :=
  { core := 0, slot := 0, pos := 0, width := 0, budget := 0, launch := 0, block := 0, index := 0, live := 0,
    lanes := [], k := List.replicate 8 0, s := List.replicate 64 0, a := List.replicate 32 Affine.zero, g := List.replicate 8 Moment.zero,
    loops := [], flags := 0, conflicts := 0, priv := 0,
    trap := TrapRegs.zero, held := TrapRegs.zero, hrvValid := false, scratch := List.replicate 4 0, holds := [], rvHolds := [],
    hrvHolds := [], watch := false, hwatch := false, barl := none, occ := [], ord := [], bound := 0, domBound := 0, views := [], befores := [], stopped := false,
    parked := false, doubled := false, ended := true, ready := 0, busy := [], errs := [] }

def Block.blank : Block :=
  { kind := .ordinary, launch := 0, index := 0, core := 0, follower := none, base := 0, size := 0, convoys := [],
    ls := LocalStore.empty, ls2 := LocalStore.empty, gens := 0, buffered := 0, order := [], badTiles := [], state := .freed }

/-- The record of a block that belongs to no launch: a service or reduce block (R342). -/
def LaunchRec.blank : LaunchRec :=
  { program := 0, grid := 1, blanes := 64, width := 64, budget8 := 8, lstore := 32768, flags := 0, mode := 0, grain := 0,
    prio := 0, modeTop := 0, waits := 0, itin := 0, omap := 0, key := 0, utvec := 0, deleg := 0, event := 0, eventFlags := 0,
    waitEvents := [], status := 0, imageLen := 8, reserved54 := 0, cores := 0, reserved78 := 0 }

def Launch.blank : Launch :=
  { id := 0, queue := 16, rec_ := LaunchRec.blank, key := 0, nextBlock := 0, lastCore := none, freedRule := false, ends := [],
    endedBlocks := 0, terminated := none, completed := false, recording := false, reserved := 0, lineSeq := [], positions := [],
    asets := [], bound := [], boundGrain := 0, boundMode := 0, acquired := [], cursors := [], signalled := [], crossings := 0,
    crossSlot := none, map := { base := 0, granules := 0, quota := 0 }, snapshot := [], buffer := [] }

/-- The launch index of a block that belongs to no launch; it is beyond every launch, so it reads Launch.blank. -/
def noLaunch : Nat := 2 ^ 40

def State.convoy (s : State) (i : Nat) : Convoy := s.convoys.getD i Convoy.blank
def State.block (s : State) (i : Nat) : Block := s.blocks.getD i Block.blank
def State.launch (s : State) (i : Nat) : Launch := s.launches.getD i Launch.blank
def State.core (s : State) (i : Nat) : Core := s.cores.getD i Core.reset
def State.queue (s : State) (q : Nat) : Queue := s.hub.queues.getD q Queue.reset

def State.setConvoy (s : State) (i : Nat) (c : Convoy) : State := { s with convoys := s.convoys.set i c }
def State.setBlock (s : State) (i : Nat) (b : Block) : State := { s with blocks := s.blocks.set i b }
def State.setLaunch (s : State) (i : Nat) (l : Launch) : State := { s with launches := s.launches.set i l }
def State.setCore (s : State) (i : Nat) (c : Core) : State := { s with cores := s.cores.set i c }

def State.modConvoy (s : State) (i : Nat) (f : Convoy → Convoy) : State := s.setConvoy i (f (s.convoy i))
def State.modBlock (s : State) (i : Nat) (f : Block → Block) : State := s.setBlock i (f (s.block i))
def State.modLaunch (s : State) (i : Nat) (f : Launch → Launch) : State := s.setLaunch i (f (s.launch i))
def State.modCore (s : State) (i : Nat) (f : Core → Core) : State := s.setCore i (f (s.core i))
def State.modHub (s : State) (f : Hub → Hub) : State := { s with hub := f s.hub }
def State.modQueue (s : State) (q : Nat) (f : Queue → Queue) : State :=
  s.modHub fun h => { h with queues := h.queues.set q (f (s.queue q)) }

def Core.slot (c : Core) (h : Nat) : Slot := c.slots.getD h Slot.closed
def Core.modSlot (c : Core) (h : Nat) (f : Slot → Slot) : Core := { c with slots := c.slots.set h (f (c.slot h)) }
def State.slotAt (s : State) (core h : Nat) : Slot := (s.core core).slot h
def State.modSlot (s : State) (core h : Nat) (f : Slot → Slot) : State := s.modCore core fun c => c.modSlot h f

/-- The sequencer of a slot: slots are numbered 8·sequencer + slot, the handle of R329. -/
def seqOf (slot : Nat) : Nat := slot / 8

/-- The launch of a convoy, and its block. -/
def State.launchOf (s : State) (c : Convoy) : Launch := s.launch c.launch
def State.blockOf (s : State) (c : Convoy) : Block := s.block c.block

/-- The translation context of a convoy (R347). -/
def State.ctxOf (s : State) (c : Convoy) : Nat := (s.launchOf c).queue

/-- Flag bits of the launch record (R334). -/
def LaunchRec.detection (r : LaunchRec) : Bool := r.flags.getLsbD 0
def LaunchRec.progressOff (r : LaunchRec) : Bool := r.flags.getLsbD 1
def LaunchRec.stallCheck (r : LaunchRec) : Bool := r.flags.getLsbD 2
def LaunchRec.tandem (r : LaunchRec) : Bool := r.flags.getLsbD 3
def LaunchRec.allResident (r : LaunchRec) : Bool := r.flags.getLsbD 4
def LaunchRec.budget (r : LaunchRec) : Nat := 8 * r.budget8

/-- The lanes of a mask among the first w, ascending. -/
def lanesOf (w : Nat) (e : Mask) : List Nat := (List.range w).filter fun l => e.getLsbD l

/-- The lowest lane of a mask. -/
def lowLane (w : Nat) (e : Mask) : Nat := (lanesOf w e).headD 0

/-- How many lanes a mask holds. -/
def countLanes (w : Nat) (e : Mask) : Nat := (lanesOf w e).length

/-- The mask with one lane. -/
def laneBit (l : Nat) : Mask := 1#64 <<< l

/-- The mask of a list of lanes. -/
def maskOf (ls : List Nat) : Mask := ls.foldl (fun m l => m ||| laneBit l) 0

/-- The mask of the first w lanes for which a test holds. -/
def maskWhere (w : Nat) (p : Nat → Bool) : Mask := maskOf ((List.range w).filter p)

def fullMask (w : Nat) : Mask := maskWhere w fun _ => true

def Convoy.lane (c : Convoy) (l : Nat) : Lane := c.lanes.getD l Lane.blank

/-- Apply a change to every lane, by lane number from n. -/
def mapLanes (f : Nat → Lane → Lane) : Nat → List Lane → List Lane
  | _, [] => []
  | n, x :: r => f n x :: mapLanes f (n + 1) r

/-- Apply a change to the lanes of a mask. -/
def Convoy.onLanes (c : Convoy) (e : Mask) (f : Nat → Lane → Lane) : Convoy :=
  { c with lanes := mapLanes (fun l x => if e.getLsbD l then f l x else x) 0 c.lanes }

def Lane.getV (x : Lane) (n : Nat) : W32 := x.v.getD n 0
def Lane.getM (x : Lane) (n : Nat) : Moment := x.m.getD n Moment.zero
def Lane.setV (x : Lane) (n : Nat) (v : W32) : Lane := { x with v := x.v.set n v }
def Lane.setM (x : Lane) (n : Nat) (m : Moment) : Lane := { x with m := x.m.set n m }

/-- Vn of a lane. -/
def Convoy.readV (c : Convoy) (n l : Nat) : W32 := (c.lane l).getV n
def Convoy.readM (c : Convoy) (n l : Nat) : Moment := (c.lane l).getM n
def Convoy.readS (c : Convoy) (n : Nat) : W64 := c.s.getD n 0
def Convoy.readAff (c : Convoy) (n : Nat) : Affine := c.a.getD n Affine.zero
def Convoy.readG (c : Convoy) (n : Nat) : Moment := c.g.getD n Moment.zero

/-- Kn; K0 reads the live set (R45). -/
def Convoy.readKn (c : Convoy) (n : Nat) : Mask := if n = 0 then c.live else c.k.getD n 0

/-- Write Vn in the lanes of a mask (R49). -/
def Convoy.writeV (c : Convoy) (e : Mask) (n : Nat) (v : Nat → W32) : Convoy :=
  c.onLanes e fun l x => x.setV n (v l)

/-- Write the pair Vn:Vn+1, low word first. -/
def Convoy.writeV64 (c : Convoy) (e : Mask) (n : Nat) (v : Nat → W64) : Convoy :=
  c.onLanes e fun l x => (x.setV n ((v l).setWidth 32)).setV (n + 1) ((v l).extractLsb' 32 32)

def Convoy.writeM (c : Convoy) (e : Mask) (n : Nat) (m : Nat → Moment) : Convoy :=
  c.onLanes e fun l x => x.setM n (m l)

def Convoy.writeS (c : Convoy) (n : Nat) (v : W64) : Convoy := { c with s := c.s.set n v }
def Convoy.writeA (c : Convoy) (n : Nat) (v : Affine) : Convoy := { c with a := c.a.set n v }
def Convoy.writeG (c : Convoy) (n : Nat) (m : Moment) : Convoy := { c with g := c.g.set n m }

/-- Write Kn in the lanes of a mask; a write that names K0 is discarded (R45). -/
def Convoy.writeK (c : Convoy) (e : Mask) (n : Nat) (v : Mask) : Convoy :=
  if n = 0 then c else { c with k := c.k.set n ((c.k.getD n 0 &&& ~~~e) ||| (v &&& e)) }

/-- OR flags into %flags (R40). -/
def Convoy.orFlags (c : Convoy) (f : BitVec 6) : Convoy := { c with flags := c.flags ||| f }

/-- The lane value of an affine value (R53). -/
def affineAt (a : Affine) (l : Nat) : W64 := a.base + BitVec.ofNat 64 l * a.stride.signExtend 64

/-- Look a key up in an association list. -/
def assoc (l : List (Nat × Nat)) (k d : Nat) : Nat :=
  match l with
  | [] => d
  | (a, b) :: r => if a = k then b else assoc r k d

/-- Set a key in an association list. -/
def assocSet : List (Nat × Nat) → Nat → Nat → List (Nat × Nat)
  | [], k, v => [(k, v)]
  | (a, b) :: r, k, v => if a = k then (k, v) :: r else (a, b) :: assocSet r k v

/-- The indexed elements of a list that pass a test. -/
def indexed {α : Type} (l : List α) : List (Nat × α) := (List.range l.length).zip l

/-- The lanes of a convoy that may issue: live, not held, and the convoy neither stopped, parked nor ended (R42, R67, R322, R331). -/
def Convoy.heldLanes (c : Convoy) : Mask := c.holds.foldl (fun m h => m ||| h.lanes) 0

def State.runnable (s : State) (c : Convoy) : Mask :=
  if c.stopped || c.parked || c.ended || (s.launchOf c).terminated.isSome then 0 else c.live &&& ~~~ c.heldLanes

/-- The line of an address (R11). -/
def lineOf (pa : Nat) : Nat := pa / 128

/-- Do two byte ranges overlap (R87)? -/
def rangesMeet (a n b m : Nat) : Bool := decide (a < b + m) && decide (b < a + n)

/-- The home square of a local physical address (R12). -/
def homeSquare (pa : Nat) : Nat :=
  [8, 14, 20, 26, 32, 38].foldl (fun x lo => x ^^^ (pa / 2 ^ lo % 64)) 0

/-- The die of a square (R12). -/
def squareDie (s : Nat) : Nat := s / 16

/-- Does a range of bytes meet a sector with an uncorrectable error (R321, R376)? -/
def State.memBad (s : State) (pa n : Nat) : Bool := s.memErrs.any fun x => rangesMeet (32 * x) 32 pa n

/-- The place of a word in the body of a loop level, and the words of the body: addresses wrap at 2^48 (R42, R57). -/
def LoopLevel.place (v : LoopLevel) (a : Pc) : Nat := (a - v.first).toNat / 8
def LoopLevel.size (v : LoopLevel) : Nat := v.place v.last + 1

/-- Does a word stand in the body of a level? -/
def LoopLevel.spans (v : LoopLevel) (a : Pc) : Bool := decide (v.place a < v.size)

/-- A list in the rising order of a key; equal keys keep their order. -/
def insertByKey {α : Type} (key : α → Nat) (x : α) : List α → List α
  | [] => [x]
  | y :: r => if key x ≤ key y then x :: y :: r else y :: insertByKey key x r

def sortByKey {α : Type} (key : α → Nat) (l : List α) : List α := l.foldr (insertByKey key) []

/-- Bytes written to memory: the copies of their lines leave the squares (R98), and a sector that is written whole is repaired (R376). -/
def State.putMem (s : State) (pa : Nat) (bs : List Byte) : State :=
  { s with
    mem := memWrite s.mem pa bs
    memErrs := s.memErrs.filter fun x => !(decide (pa ≤ 32 * x) && decide (32 * x + 32 ≤ pa + bs.length))
    squares := s.squares.filter fun x => !rangesMeet (128 * x.line) 128 pa bs.length }

/-- Send something to the outside. -/
def State.emit (s : State) (o : Output) : State := { s with outputs := s.outputs ++ [o] }

/-- Set a bit of ERRSUM; a 0 to 1 transition raises vector 1 (R364). -/
def State.setErr (s : State) (bit : Nat) : State :=
  if s.hub.errsum.getLsbD bit then s
  else (s.modHub fun h => { h with errsum := h.errsum ||| (1#64 <<< bit) }).emit (.msix 1)

def State.clearErr (s : State) (bit : Nat) : State :=
  s.modHub fun h => { h with errsum := h.errsum &&& ~~~ (1#64 <<< bit) }

/-- ERRSUM.PARKED says whether a convoy is parked (R331, R364). -/
def State.noteParked (s : State) : State :=
  if s.convoys.any fun c => c.parked && !c.ended then s.setErr 0 else s.clearErr 0

/-- Count an event on the counters of a core that select it (R327). -/
def perfBump (code : Byte) (n : Nat) : List Byte → List W64 → List W64
  | e :: es, v :: vs => (if e == code then v + BitVec.ofNat 64 n else v) :: perfBump code n es vs
  | _, vs => vs

def State.perfCount (s : State) (core : Nat) (code : Byte) (n : Nat) : State :=
  if n = 0 then s else s.modCore core fun c => { c with perf := perfBump code n c.perfsel c.perf }

end Sys2Proof.Machine
end

