-- ==== Sys2Proof/Machine/Float.lean ====
section
/-! DEFINITION. The number formats and their arithmetic (02 R16 to R29): exact values, one rounding, the sticky flags of R22 and R39. -/

namespace Sys2Proof.Machine

/-- A set of sticky flags (R39): bit 0 NV, 1 DZ, 2 OF, 3 UF, 4 NX, 5 MSAT. -/
abbrev FlagSet := BitVec 6

def flagNone : FlagSet := 0
def flagNV : FlagSet := 0x01
def flagDZ : FlagSet := 0x02
def flagOF : FlagSet := 0x04
def flagUF : FlagSet := 0x08
def flagNX : FlagSet := 0x10
def flagMSAT : FlagSet := 0x20

/-- What the top exponent of a format encodes (R16): infinities and NaNs, the one NaN magnitude of E4M3, or ordinary numbers. -/
inductive TopCode where
  | ieee | e4m3 | finite
  deriving DecidableEq, Repr

/-- A sign-magnitude format (R16): exponent bits, mantissa bits, bias. -/
structure Fmt where
  ebits : Nat
  mbits : Nat
  bias : Nat
  top : TopCode
  deriving DecidableEq, Repr

def fmtFP32 : Fmt := { ebits := 8, mbits := 23, bias := 127, top := .ieee }
def fmtFP16 : Fmt := { ebits := 5, mbits := 10, bias := 15, top := .ieee }
def fmtBF16 : Fmt := { ebits := 8, mbits := 7, bias := 127, top := .ieee }
def fmtE4M3 : Fmt := { ebits := 4, mbits := 3, bias := 7, top := .e4m3 }
def fmtE5M2 : Fmt := { ebits := 5, mbits := 2, bias := 15, top := .ieee }
def fmtE2M1 : Fmt := { ebits := 2, mbits := 1, bias := 1, top := .finite }
def fmtE2M3 : Fmt := { ebits := 2, mbits := 3, bias := 1, top := .finite }
def fmtE3M2 : Fmt := { ebits := 3, mbits := 2, bias := 3, top := .finite }

/-- The bits of magnitude, without the sign. -/
def fmtMagBits (f : Fmt) : Nat := f.ebits + f.mbits

/-- EMIN(F) (R41). -/
def fmtEmin (f : Fmt) : Int := 1 - (f.bias : Int)

/-- The sign bit of a format as a number. -/
def fmtSignBit (f : Fmt) : Nat := 2 ^ fmtMagBits f

/-- The magnitude pattern of the largest finite value (R16). -/
def fmtMaxMag (f : Fmt) : Nat :=
  match f.top with
  | .ieee => (2 ^ f.ebits - 1) * 2 ^ f.mbits - 1
  | .e4m3 => 2 ^ fmtMagBits f - 2
  | .finite => 2 ^ fmtMagBits f - 1

/-- The magnitude pattern of infinity, for formats that have it. -/
def fmtInfMag (f : Fmt) : Nat := (2 ^ f.ebits - 1) * 2 ^ f.mbits

/-- CANON(F) (R19); E2M1 and the FP6 formats have no NaN, and none is ever asked for. -/
def fmtCanon (f : Fmt) : Nat :=
  match f.top with
  | .ieee => fmtInfMag f + 2 ^ (f.mbits - 1)
  | .e4m3 => 2 ^ fmtMagBits f - 1
  | .finite => fmtMaxMag f

/-- A pattern read as a value: NaN (signalling or not), infinity, or mantissa times a power of two. -/
inductive FVal where
  | nan (signalling : Bool)
  | inf (neg : Bool)
  | fin (neg : Bool) (m : Nat) (e : Int)
  deriving DecidableEq, Repr

/-- The value of a pattern (R16, R20). -/
def fDecode (f : Fmt) (bits : Nat) : FVal :=
  let neg := bits / fmtSignBit f % 2 == 1
  let mag := bits % fmtSignBit f
  let ex := mag / 2 ^ f.mbits
  let man := mag % 2 ^ f.mbits
  if f.top == .ieee && ex == 2 ^ f.ebits - 1 then
    (if man == 0 then .inf neg else .nan (man / 2 ^ (f.mbits - 1) == 0))
  else if f.top == .e4m3 && mag == 2 ^ fmtMagBits f - 1 then .nan false
  else if ex == 0 then .fin neg man (fmtEmin f - f.mbits)
  else .fin neg (man + 2 ^ f.mbits) ((ex : Int) - f.bias - f.mbits)

def fIsNaN (f : Fmt) (bits : Nat) : Bool :=
  match fDecode f bits with
  | .nan _ => true
  | _ => false

def fIsInf (f : Fmt) (bits : Nat) : Bool :=
  match fDecode f bits with
  | .inf _ => true
  | _ => false

/-- NV when the pattern is a signalling NaN (R20). -/
def fSigFlag (f : Fmt) (bits : Nat) : FlagSet :=
  match fDecode f bits with
  | .nan true => flagNV
  | _ => flagNone

/-- A pattern from its sign and magnitude. -/
def fPack (f : Fmt) (neg : Bool) (mag : Nat) : Nat := (if neg then fmtSignBit f else 0) + mag

/-- num/den · 2^e as one fraction. -/
def scaleFrac (num den : Nat) (e : Int) : Nat × Nat :=
  if 0 ≤ e then (num * 2 ^ e.toNat, den) else (num, den * 2 ^ (-e).toNat)

/-- floor(log2(num/den)), for num and den positive. -/
def floorLog2 (num den : Nat) : Int :=
  let n : Int := (num.log2 : Int) - (den.log2 : Int)
  let (a, b) := scaleFrac num den (-n)
  if b ≤ a then n else n - 1

/-- Round a non-negative fraction to an integer in a mode (R21), for a value of the given sign; the second part says whether it was inexact. -/
def roundInt (rm : BitVec 2) (neg : Bool) (num den : Nat) : Nat × Bool :=
  let q := num / den
  let r := num % den
  let up : Bool :=
    if rm == 0 then decide (den < 2 * r) || (decide (2 * r = den) && q % 2 == 1)
    else if rm == 1 then false
    else if rm == 2 then r != 0 && !neg
    else r != 0 && neg
  (if up then q + 1 else q, r != 0)

/-- What overflow delivers (R21): no infinity saturates in every mode. -/
def overflowMag (f : Fmt) (rm : BitVec 2) (neg : Bool) : Nat :=
  if f.top != .ieee then fmtMaxMag f
  else if rm == 0 || (rm == 2 && !neg) || (rm == 3 && neg) then fmtInfMag f
  else fmtMaxMag f

/-- ROUND(x, F, RM) for x = ±num/den·2^e, with its flags (R21, R22, R41). A zero x keeps its sign. -/
def fRound (f : Fmt) (rm : BitVec 2) (neg : Bool) (num den : Nat) (e : Int) : Nat × FlagSet :=
  if num == 0 then (fPack f neg 0, flagNone)
  else
    let ex := floorLog2 num den + e
    let qmin := fmtEmin f - f.mbits
    let q := (if ex < fmtEmin f then fmtEmin f else ex) - f.mbits
    let (n, d) := scaleFrac num den (e - q)
    let (m, inexact) := roundInt rm neg n d
    let mag := (q - qmin).toNat * 2 ^ f.mbits + m
    if fmtMaxMag f < mag then (fPack f neg (overflowMag f rm neg), flagOF ||| flagNX)
    else
      let (n1, d1) := scaleFrac num den (e - (ex - f.mbits))
      let tiny := decide (ex < fmtEmin f - 1) ||
        (decide (ex = fmtEmin f - 1) && decide ((roundInt rm neg n1 d1).1 < 2 ^ (f.mbits + 1)))
      (fPack f neg mag,
       (if inexact then flagNX else flagNone) ||| (if inexact && tiny then flagUF else flagNone))

/-- A value known only to lie strictly between n/2^k and (n+1)/2^k, rounded by RNE. -/
def fRoundSticky (f : Fmt) (neg : Bool) (n k : Nat) : Nat × FlagSet :=
  fRound f 0 neg (2 * n + 1) (2 ^ (k + 1)) 0

/-- The exact sum of two dyadic numbers, as a sign, a mantissa and an exponent. -/
def dyadicAdd (na : Bool) (ma : Nat) (ea : Int) (nb : Bool) (mb : Nat) (eb : Int) : Bool × Nat × Int :=
  let e := if ea ≤ eb then ea else eb
  let a : Int := (ma * 2 ^ (ea - e).toNat : Nat)
  let b : Int := (mb * 2 ^ (eb - e).toNat : Nat)
  let t := (if na then -a else a) + (if nb then -b else b)
  (decide (t < 0), t.natAbs, e)

/-- The sign of an exact zero sum (IEEE 754-2019): that of both operands, or minus only in mode toward −∞. -/
def zeroSumSign (rm : BitVec 2) (na nb : Bool) : Bool := if na == nb then na else rm == 3

/-- a + b, rounded once. -/
def fAdd (f : Fmt) (rm : BitVec 2) (a b : Nat) : Nat × FlagSet :=
  let sig := fSigFlag f a ||| fSigFlag f b
  match fDecode f a, fDecode f b with
  | .nan _, _ => (fmtCanon f, sig)
  | _, .nan _ => (fmtCanon f, sig)
  | .inf x, .inf y => if x == y then (fPack f x (fmtInfMag f), flagNone) else (fmtCanon f, flagNV)
  | .inf x, _ => (fPack f x (fmtInfMag f), flagNone)
  | _, .inf y => (fPack f y (fmtInfMag f), flagNone)
  | .fin na ma ea, .fin nb mb eb =>
    let (ns, m, e) := dyadicAdd na ma ea nb mb eb
    if m == 0 then (fPack f (zeroSumSign rm na nb) 0, flagNone) else fRound f rm ns m 1 e

/-- The pattern with its sign reversed. -/
def fNeg (f : Fmt) (a : Nat) : Nat := if a / fmtSignBit f % 2 == 1 then a - fmtSignBit f else a + fmtSignBit f

def fSub (f : Fmt) (rm : BitVec 2) (a b : Nat) : Nat × FlagSet := fAdd f rm a (fNeg f b)

/-- a · b, rounded once. -/
def fMul (f : Fmt) (rm : BitVec 2) (a b : Nat) : Nat × FlagSet :=
  let sig := fSigFlag f a ||| fSigFlag f b
  match fDecode f a, fDecode f b with
  | .nan _, _ => (fmtCanon f, sig)
  | _, .nan _ => (fmtCanon f, sig)
  | .inf x, .inf y => (fPack f (x != y) (fmtInfMag f), flagNone)
  | .inf x, .fin y m _ => if m == 0 then (fmtCanon f, flagNV) else (fPack f (x != y) (fmtInfMag f), flagNone)
  | .fin x m _, .inf y => if m == 0 then (fmtCanon f, flagNV) else (fPack f (x != y) (fmtInfMag f), flagNone)
  | .fin na ma ea, .fin nb mb eb => fRound f rm (na != nb) (ma * mb) 1 (ea + eb)

/-- a · b + c, rounded once (R232). An invalid product sets NV whatever c is. -/
def fFma (f : Fmt) (rm : BitVec 2) (a b c : Nat) : Nat × FlagSet :=
  let sig := fSigFlag f a ||| fSigFlag f b ||| fSigFlag f c
  let add : Bool → Nat → Int → Nat × FlagSet := fun np mp ep =>
    match fDecode f c with
    | .nan _ => (fmtCanon f, sig)
    | .inf y => (fPack f y (fmtInfMag f), flagNone)
    | .fin nc mc ec =>
      let (ns, m, e) := dyadicAdd np mp ep nc mc ec
      if m == 0 then (fPack f (zeroSumSign rm np nc) 0, flagNone) else fRound f rm ns m 1 e
  let addInf : Bool → Nat × FlagSet := fun np =>
    match fDecode f c with
    | .nan _ => (fmtCanon f, sig)
    | .inf y => if np == y then (fPack f np (fmtInfMag f), flagNone) else (fmtCanon f, flagNV)
    | .fin _ _ _ => (fPack f np (fmtInfMag f), flagNone)
  match fDecode f a, fDecode f b with
  | .nan _, _ => (fmtCanon f, sig)
  | _, .nan _ => (fmtCanon f, sig)
  | .inf x, .inf y => addInf (x != y)
  | .inf x, .fin y m _ => if m == 0 then (fmtCanon f, sig ||| flagNV) else addInf (x != y)
  | .fin x m _, .inf y => if m == 0 then (fmtCanon f, sig ||| flagNV) else addInf (x != y)
  | .fin na ma ea, .fin nb mb eb => add (na != nb) (ma * mb) (ea + eb)

/-- a / b, rounded by RNE (R23). -/
def fDiv (f : Fmt) (a b : Nat) : Nat × FlagSet :=
  let sig := fSigFlag f a ||| fSigFlag f b
  match fDecode f a, fDecode f b with
  | .nan _, _ => (fmtCanon f, sig)
  | _, .nan _ => (fmtCanon f, sig)
  | .inf _, .inf _ => (fmtCanon f, flagNV)
  | .inf x, .fin y _ _ => (fPack f (x != y) (fmtInfMag f), flagNone)
  | .fin x _ _, .inf y => (fPack f (x != y) 0, flagNone)
  | .fin na ma ea, .fin nb mb eb =>
    if mb == 0 then
      (if ma == 0 then (fmtCanon f, flagNV) else (fPack f (na != nb) (fmtInfMag f), flagDZ))
    else fRound f 0 (na != nb) ma mb (ea - eb)

/-- The bits of the integer square root, from bit n down. -/
def isqrtFrom : Nat → Nat → Nat → Nat
  | 0, _, r => r
  | n + 1, x, r =>
    let t := r + 2 ^ n
    if t * t ≤ x then isqrtFrom n x t else isqrtFrom n x r

/-- The integer square root. -/
def isqrt (x : Nat) : Nat := isqrtFrom (x.log2 / 2 + 1) x 0

/-- √(num/den), rounded by RNE to FP32. -/
def sqrtFrac (num den : Nat) : Nat × FlagSet :=
  let n := num * 2 ^ 400
  let s := isqrt (n / den)
  if s * s * den == n then fRound fmtFP32 0 false s (2 ^ 200) 0 else fRoundSticky fmtFP32 false s 200

/-- FSQRT (R23). -/
def fSqrt (a : Nat) : Nat × FlagSet :=
  match fDecode fmtFP32 a with
  | .nan sig => (fmtCanon fmtFP32, if sig then flagNV else flagNone)
  | .inf neg => if neg then (fmtCanon fmtFP32, flagNV) else (fmtInfMag fmtFP32, flagNone)
  | .fin neg m e =>
    if m == 0 then (a, flagNone)
    else if neg then (fmtCanon fmtFP32, flagNV)
    else let (n, d) := scaleFrac m 1 e; sqrtFrac n d

/-- FRSQ (R23). -/
def fRsqrt (a : Nat) : Nat × FlagSet :=
  match fDecode fmtFP32 a with
  | .nan sig => (fmtCanon fmtFP32, if sig then flagNV else flagNone)
  | .inf neg => if neg then (fmtCanon fmtFP32, flagNV) else (0, flagNone)
  | .fin neg m e =>
    if m == 0 then (fPack fmtFP32 neg (fmtInfMag fmtFP32), flagDZ)
    else if neg then (fmtCanon fmtFP32, flagNV)
    else let (n, d) := scaleFrac m 1 e; sqrtFrac d n

/-- FRCP (R23). -/
def fRcp (a : Nat) : Nat × FlagSet := fDiv fmtFP32 0x3F800000 a

/-- A rank that orders values: −0 below +0 (R24). -/
def fOrderKey (f : Fmt) (bits : Nat) : Int :=
  let mag : Int := (bits % fmtSignBit f : Nat)
  if bits / fmtSignBit f % 2 == 1 then -mag - 1 else mag

/-- FMIN and FMAX (R24). -/
def fMinMax (f : Fmt) (isMax num : Bool) (a b : Nat) : Nat × FlagSet :=
  let sig := fSigFlag f a ||| fSigFlag f b
  let pick : Nat :=
    if isMax then (if fOrderKey f a < fOrderKey f b then b else a)
    else (if fOrderKey f b < fOrderKey f a then b else a)
  if fIsNaN f a && fIsNaN f b then (fmtCanon f, sig)
  else if fIsNaN f a then (if num then b else fmtCanon f, sig)
  else if fIsNaN f b then (if num then a else fmtCanon f, sig)
  else (pick, sig)

/-- How two numbers that are no NaN compare; ±0 are equal. -/
def fCompare (f : Fmt) (a b : Nat) : Ordering :=
  let key : Nat → Int := fun bits =>
    let mag : Int := (bits % fmtSignBit f : Nat)
    if bits / fmtSignBit f % 2 == 1 then -mag else mag
  compare (key a) (key b)

/-- The conversion of a pattern to another format (R19, R20, R21). The caller handles a block format's NaN and infinity. -/
def fConvert (src dst : Fmt) (rm : BitVec 2) (a : Nat) : Nat × FlagSet :=
  match fDecode src a with
  | .nan sig => (fmtCanon dst, if sig then flagNV else flagNone)
  | .inf neg => if dst.top == .ieee then (fPack dst neg (fmtInfMag dst), flagNone) else (fmtCanon dst, flagNV)
  | .fin neg m e => fRound dst rm neg m 1 e

/-- SROUND (R29). -/
def fSround (dst : Fmt) (rw : W32) (x : Nat) : Nat × FlagSet :=
  match fDecode fmtFP32 x with
  | .nan sig => (fmtCanon dst, if sig then flagNV else flagNone)
  | .inf neg => if dst.top == .ieee then (fPack dst neg (fmtInfMag dst), flagNone) else (fmtCanon dst, flagNV)
  | .fin neg m e =>
    if m == 0 then (fPack dst neg 0, flagNone)
    else
      let ex := floorLog2 m 1 + e
      let q := (if ex < fmtEmin dst then fmtEmin dst else ex) - dst.mbits
      let qmin := fmtEmin dst - dst.mbits
      let (n, d) := scaleFrac m 1 (e - q)
      let y := (n * 2 ^ 32 + rw.toNat * d) / (d * 2 ^ 32)
      let mag := (q - qmin).toNat * 2 ^ dst.mbits + y
      let inexact := y * d != n
      let small := inexact && decide (ex < fmtEmin dst)
      if fmtMaxMag dst < mag then
        (fPack dst neg (if dst.top == .ieee then fmtInfMag dst else fmtMaxMag dst), flagOF ||| flagNX)
      else (fPack dst neg mag, (if inexact then flagNX else flagNone) ||| (if small then flagUF else flagNone))

/-- The constant table (R28), as FP32 patterns. -/
def fpConst (i : BitVec 6) : Nat :=
  let n := i.toNat
  if n < 0x20 then (fRound fmtFP32 0 false n 1 0).1
  else if n < 0x30 then (fRound fmtFP32 0 false 1 (2 ^ (n - 0x1F)) 0).1
  else match n with
    | 0x30 => 0xBF800000
    | 0x31 => 0xC0000000
    | 0x32 => 0xBF000000
    | 0x33 => 0x80000000
    | 0x34 => 0x42800000
    | 0x35 => 0x43000000
    | 0x36 => 0x43800000
    | 0x37 => 0x44800000
    | 0x38 => 0x7F800000
    | 0x39 => 0xFF800000
    | 0x3A => 0x7F7FFFFF
    | 0x3B => 0x00800000
    | 0x3C => 0x3F317218
    | 0x3D => 0x3FB8AA3B
    | 0x3E => 0x3EAAAAAB
    | _ => 0x7FC00000

/-- A constant narrowed to an element format (R28). In FP8 and E2M1 an infinity saturates where the format has none, and a finite constant above the largest finite value saturates; to a 16-bit format it is rounded by RNE alone. -/
def fpConstIn (f : Fmt) (i : BitVec 6) : Nat :=
  match fDecode fmtFP32 (fpConst i) with
  | .inf neg => if f.top == .ieee then fPack f neg (fmtInfMag f) else fPack f neg (fmtMaxMag f)
  | .fin neg _ _ =>
    let x := (fConvert fmtFP32 f 0 (fpConst i)).1
    if fmtMagBits f < 8 && fIsInf f x then fPack f neg (fmtMaxMag f) else x
  | _ => (fConvert fmtFP32 f 0 (fpConst i)).1

/-- An FP32 result as a register value. -/
def fr32 (r : Nat × FlagSet) : W32 × FlagSet := (BitVec.ofNat 32 r.1, r.2)

def f32Add (rm : BitVec 2) (a b : W32) : W32 × FlagSet := fr32 (fAdd fmtFP32 rm a.toNat b.toNat)
def f32Sub (rm : BitVec 2) (a b : W32) : W32 × FlagSet := fr32 (fSub fmtFP32 rm a.toNat b.toNat)
def f32Mul (rm : BitVec 2) (a b : W32) : W32 × FlagSet := fr32 (fMul fmtFP32 rm a.toNat b.toNat)
def f32Fma (rm : BitVec 2) (a b c : W32) : W32 × FlagSet := fr32 (fFma fmtFP32 rm a.toNat b.toNat c.toNat)
def f32Div (a b : W32) : W32 × FlagSet := fr32 (fDiv fmtFP32 a.toNat b.toNat)
def f32MinMax (isMax num : Bool) (a b : W32) : W32 × FlagSet := fr32 (fMinMax fmtFP32 isMax num a.toNat b.toNat)
def f32IsNaN (a : W32) : Bool := fIsNaN fmtFP32 a.toNat
def f32IsInf (a : W32) : Bool := fIsInf fmtFP32 a.toNat
def f32Canon : W32 := 0x7FC00000
def f32One : W32 := 0x3F800000

end Sys2Proof.Machine
end

