-- ==== Sys2Proof/Machine/Operands.lean ====
section
/-! DEFINITION. Every operand form: what a source operand reads (R180, R181, R215, R229, R259) and which registers an operand names. -/

namespace Sys2Proof.Machine

/-- The counters of the open levels, outermost first; a level that is not open reads 0 (R59). -/
def loopCounter (c : Convoy) (n : Nat) : W64 :=
  match (c.loops.filter fun v => !v.suspended)[n]? with
  | some v => v.counter.setWidth 64
  | none => 0

/-- %mode (R128): REPLAY and REVERSE show the grain of the bound itinerary. -/
def modeWord (l : Launch) : W64 :=
  let grain := if l.rec_.mode == 2 || l.rec_.mode == 3 then l.boundGrain else l.rec_.grain
  BitVec.ofNat 64 (l.rec_.mode + 4 * grain)

/-- A uniform special (R181). -/
def uniformSpecial (s : State) (c : Convoy) (code : BitVec 6) : W64 :=
  match code.toNat with
  | 0x03 => BitVec.ofNat 64 c.index
  | 0x04 => BitVec.ofNat 64 (s.blockOf c).index
  | 0x05 => BitVec.ofNat 64 (s.launchOf c).rec_.grid
  | 0x06 => BitVec.ofNat 64 c.width
  | 0x07 => BitVec.ofNat 64 (s.launchOf c).rec_.blanes
  | 0x08 => BitVec.ofNat 64 c.core
  | 0x09 => BitVec.ofNat 64 (c.core / 2)
  | 0x0A => BitVec.ofNat 64 (s.launchOf c).id
  | 0x0B => modeWord (s.launchOf c)
  | 0x0C => c.flags.setWidth 64
  | 0x0D => loopCounter c 0
  | 0x0E => loopCounter c 1
  | 0x0F => loopCounter c 2
  | 0x13 => BitVec.ofNat 64 s.clock
  | _ => 0

/-- A uniform source at 64 bits: a small immediate is sign-extended (R180). -/
def readU (s : State) (c : Convoy) : Opnd → W64
  | .s n => c.readS n.toNat
  | .imm n => n.signExtend 64
  | .sp x => uniformSpecial s c x
  | _ => 0

/-- An affine source as base and stride (R53, R181); a uniform operand u takes part as (u, 0). -/
def readAffine (s : State) (c : Convoy) : Opnd → Affine
  | .a n => c.readAff n.toNat
  | .sp x =>
    match x.toNat with
    | 0x00 => { base := 0, stride := 1 }
    | 0x01 => { base := BitVec.ofNat 64 (c.index * c.width), stride := 1 }
    | 0x02 => { base := BitVec.ofNat 64 ((s.blockOf c).index * (s.launchOf c).rec_.blanes + c.index * c.width), stride := 1 }
    | _ => { base := uniformSpecial s c x, stride := 0 }
  | o => { base := readU s c o, stride := 0 }

/-- A K source (R46). -/
def readK (c : Convoy) (active : Mask) : Opnd → Mask
  | .k n => c.readKn n.toNat
  | .sp x => if x == 0x10 then c.live else if x == 0x11 then active else 0
  | _ => 0

/-- A source at 32 bits in lane l (R215). -/
def readW32 (s : State) (c : Convoy) (l : Nat) : Opnd → W32
  | .v n => c.readV n.toNat l
  | .a n => (affineAt (c.readAff n.toNat) l).setWidth 32
  | .sp x =>
    if x == 0x12 then (c.lane l).draw.setWidth 32
    else if x.toNat ≤ 2 then (affineAt (readAffine s c (.sp x)) l).setWidth 32
    else (uniformSpecial s c x).setWidth 32
  | o => (readU s c o).setWidth 32

/-- A source at 64 bits in lane l: a V source is its pair (R215). -/
def readW64 (s : State) (c : Convoy) (l : Nat) : Opnd → W64
  | .v n => c.readV (n.toNat + 1) l ++ c.readV n.toNat l
  | .a n => affineAt (c.readAff n.toNat) l
  | .sp x => if x.toNat ≤ 2 then affineAt (readAffine s c (.sp x)) l else uniformSpecial s c x
  | o => readU s c o

/-- A source of a floating-point word (R229). -/
def readF (s : State) (c : Convoy) (l : Nat) : Opnd → W32
  | .imm n => BitVec.ofNat 32 (fpConst n)
  | o => readW32 s c l o

/-- A packed source: a constant is narrowed to the element format and stands in every element (R28). -/
def readPacked (s : State) (c : Convoy) (f : Fmt) (l : Nat) : Opnd → W32
  | .imm n =>
    let e := fpConstIn f n
    let w := fmtMagBits f + 1
    BitVec.ofNat 32 (((List.range (32 / w)).map fun i => e * 2 ^ (w * i)).foldl (· + ·) 0)
  | o => readW32 s c l o

/-- A moment source (R259). -/
def readMom (c : Convoy) (l : Nat) : Opnd → Moment
  | .m n => c.readM n.toNat l
  | .g n => c.readG n.toNat
  | _ => Moment.zero

/-- Is the operand a uniform special that names a register of the convoy? -/
def specialReg (x : BitVec 6) : List Reg :=
  if x == 0x0C then [.flags] else if 0x0D ≤ x && x ≤ 0x0F then [.lc] else []

/-- The registers an operand names, with n registers from a V operand up. -/
def opndRegs (o : Opnd) (n : Nat) : List Reg :=
  match o with
  | .v i => (List.range n).map fun j => Reg.v (i.toNat + j)
  | .s i => [.s i.toNat]
  | .a i => [.a i.toNat]
  | .m i => [.m i.toNat]
  | .g i => [.g i.toNat]
  | .k i => if i == 0 then [] else [.k i.toNat]
  | .sp x => specialReg x
  | _ => []

/-- Does a V operand name a register at or above the budget (R62)? -/
def overBudget (b : Nat) (o : Opnd) (n : Nat) : Bool :=
  match o with
  | .v i => decide (b < i.toNat + n)
  | _ => false

/-- Is a destination uniform, so that R49 applies: S, A, G or %flags? -/
def isUniformDest : Opnd → Bool
  | .s _ => true
  | .a _ => true
  | .g _ => true
  | .sp x => x == 0x0C
  | _ => false

/-- A register of the varying files, whose cells are lanes. -/
def Reg.isVarying : Reg → Bool
  | .v _ => true
  | .m _ => true
  | .k _ => true
  | _ => false

/-- Write a 32-bit result in the lanes of E: a V destination lane by lane, an S destination zero-extended (R229, R242). -/
def writeRes32 (c : Convoy) (e : Mask) (d : Opnd) (v : Nat → W32) : Convoy :=
  match d with
  | .v n => c.writeV e n.toNat v
  | .s n => c.writeS n.toNat ((v (lowLane c.width e)).setWidth 64)
  | _ => c

/-- Write a 64-bit result: a V pair, or an S register. -/
def writeRes64 (c : Convoy) (e : Mask) (d : Opnd) (v : Nat → W64) : Convoy :=
  match d with
  | .v n => c.writeV64 e n.toNat v
  | .s n => c.writeS n.toNat (v (lowLane c.width e))
  | _ => c

/-- Write a moment result to M in the lanes of E, or to G (R259). -/
def writeMom (c : Convoy) (e : Mask) (d : Opnd) (m : Nat → Moment) : Convoy :=
  match d with
  | .m n => c.writeM e n.toNat m
  | .g n => c.writeG n.toNat (m (lowLane c.width e))
  | _ => c

end Sys2Proof.Machine
end

