-- ==== Sys2Proof/Machine/Flags.lean ====
section
/-! DEFINITION. The flags and conditions: cause codes (R315), integer and floating-point conditions (R189, R234), and the collection of sticky flags over lanes (R40). -/

namespace Sys2Proof.Machine

/-- The trap causes (R315). -/
def causeILLEGAL : Nat := 0x01
def causePRIV : Nat := 0x02
def causeUNIFWR : Nat := 0x03
def causeAFOVF : Nat := 0x04
def causeDEMFAIL : Nat := 0x05
def causeBARMASK : Nat := 0x06
def causeBARCLOBBER : Nat := 0x07
def causeLPADMISS : Nat := 0x08
def causeJTBOUND : Nat := 0x09
def causeBUDGET : Nat := 0x0A
def causeRETSITE : Nat := 0x0B
def causeLOOPDEPTH : Nat := 0x0C
def causeLOOPSIZE : Nat := 0x0D
def causeSTALLSHORT : Nat := 0x0E
def causeLIVELOCK : Nat := 0x0F
def causePAGEFAULT : Nat := 0x10
def causeACCESS : Nat := 0x11
def causeALIGN : Nat := 0x12
def causeOWNERSHIP : Nat := 0x13
def causeCROSSFULL : Nat := 0x14
def causeCANONRET : Nat := 0x15
def causeORDAMBIG : Nat := 0x16
def causeITINFULL : Nat := 0x17
def causeORDMODE : Nat := 0x18
def causeSOFTERR : Nat := 0x19
def causeCOLLFAIL : Nat := 0x1A
def causeSWTRAP : Nat := 0x1B
def causeBREAK : Nat := 0x1C
def causeUNIFISS : Nat := 0x1D
def causeEVOVF : Nat := 0x1E
def causeLAYOUT : Nat := 0x1F

/-- Is a cause delegable (R314, R315)? -/
def delegable (c : Nat) : Bool :=
  decide (1 ≤ c) && decide (c ≤ 0x1F) && c != causePRIV && c != causeLIVELOCK && c != causePAGEFAULT && c != causeSOFTERR

/-- An integer condition of R189 at width w. -/
def intCond {w : Nat} (code : Nat) (a b : BitVec w) : Bool :=
  match code with
  | 0 => a == b
  | 1 => a != b
  | 2 => BitVec.slt a b
  | 3 => BitVec.sle a b
  | 4 => BitVec.slt b a
  | 5 => BitVec.sle b a
  | 6 => BitVec.ult a b
  | 7 => BitVec.ule a b
  | 8 => BitVec.ult b a
  | 9 => BitVec.ule b a
  | _ => false

/-- A floating-point condition of R234 and the flags it sets. -/
def fpCond (code : Nat) (a b : W32) : Bool × FlagSet :=
  let un := f32IsNaN a || f32IsNaN b
  let sig := fSigFlag fmtFP32 a.toNat ||| fSigFlag fmtFP32 b.toNat
  let quiet := if un && decide (2 ≤ code) && decide (code ≤ 5) then flagNV else flagNone
  let o := fCompare fmtFP32 a.toNat b.toNat
  let t : Bool := match code with
    | 0 => !un && o == .eq
    | 1 => un || o != .eq
    | 2 => !un && o == .lt
    | 3 => !un && o != .gt
    | 4 => !un && o == .gt
    | 5 => !un && o != .lt
    | 6 => un
    | _ => !un
  (t, sig ||| quiet)

/-- The flags of a word: those of every lane of E (R40). -/
def flagsOver (w : Nat) (e : Mask) (f : Nat → FlagSet) : FlagSet :=
  (lanesOf w e).foldl (fun acc l => acc ||| f l) flagNone

end Sys2Proof.Machine
end

