-- ==== Sys2Proof/Machine/Transc.lean ====
section
/-! DEFINITION. The transcendentals of R23 that need a series: each value is computed in fixed point with 720 fraction bits and rounded once. No FP32 argument brings a value that is not exact within 2^-700 of a rounding boundary (assumption log 9). -/

namespace Sys2Proof.Machine

/-- Fraction bits of the fixed-point values. -/
def fxK : Nat := 720

def fxOne : Nat := 2 ^ fxK

/-- The product of two fixed-point values. -/
def fxMul (a b : Nat) : Nat := a * b / fxOne

/-- The sum of t^(2i+1)/(2i+1) for n terms from i, with p = t^(2i+1) and t2 = t². -/
def atanhTerms : Nat → Nat → Nat → Nat → Nat
  | 0, _, _, _ => 0
  | n + 1, i, p, t2 => p / (2 * i + 1) + atanhTerms n (i + 1) (fxMul p t2) t2

/-- ln(m) for a fraction m = num/den in [1, 2): twice the inverse hyperbolic tangent of (m−1)/(m+1). -/
def fxLn (num den : Nat) : Nat :=
  let t := (num - den) * fxOne / (num + den)
  2 * atanhTerms 230 0 t (fxMul t t)

def fxLn2 : Nat := fxLn 2 1

/-- The terms of the exponential series, with p the term of index i. -/
def expTerms : Nat → Nat → Nat → Nat → Nat
  | 0, _, _, _ => 0
  | n + 1, i, p, x => p + expTerms n (i + 1) (fxMul p x / (i + 1)) x

/-- e^x for a fixed-point x in [0, 1). -/
def fxExp (x : Nat) : Nat := expTerms 150 0 fxOne x

/-- e^(−y) for a fixed-point y: 2^(−n) · e^(−f), with y = n·ln 2 − f. -/
def fxExpNeg (y : Nat) : Nat :=
  let n := y / fxLn2 + 1
  fxExp (n * fxLn2 - y) / 2 ^ n

/-- The alternating terms of the sine and cosine series, with p the term of index i. -/
def trigTerms : Nat → Nat → Int → Nat → Int
  | 0, _, _, _ => 0
  | n + 1, i, p, x2 => p + trigTerms n (i + 2) (-(p * x2 / fxOne / ((i + 1) * (i + 2)))) x2

/-- The inverse tangent of 1/d, n terms. -/
def atanInvTerms : Nat → Nat → Nat → Nat → Int
  | 0, _, _, _ => 0
  | n + 1, i, p, d2 => (p / (2 * i + 1) : Nat) - atanInvTerms n (i + 1) (p / d2) d2

/-- π by Machin's formula. -/
def fxPi : Nat :=
  (16 * atanInvTerms 160 0 (fxOne / 5) 25 - 4 * atanInvTerms 70 0 (fxOne / 239) 57121).toNat

/-- sin(πa) for a fraction a in [0, 1/2]. -/
def fxSinPi (num den : Nat) : Nat :=
  let x := num * fxPi / den
  (trigTerms 75 1 (x : Int) (fxMul x x)).toNat

/-- cos(πa) for a fraction a in [0, 1/2]. -/
def fxCosPi (num den : Nat) : Nat :=
  let x := num * fxPi / den
  (trigTerms 75 0 (fxOne : Int) (fxMul x x)).toNat

/-- FEXP2 (R23). A large argument is replaced by one that overflows or vanishes in the same way. -/
def fExp2 (a : Nat) : Nat × FlagSet :=
  match fDecode fmtFP32 a with
  | .nan sig => (fmtCanon fmtFP32, if sig then flagNV else flagNone)
  | .inf neg => (if neg then 0 else fmtInfMag fmtFP32, flagNone)
  | .fin neg m e =>
    let (n, d) := scaleFrac m 1 e
    let whole := n / d
    let part := n % d
    if 400 ≤ whole then (if neg then fRound fmtFP32 0 false 1 1 (-400) else fRound fmtFP32 0 false 1 1 400)
    else if part == 0 then fRound fmtFP32 0 false 1 1 (if neg then -(whole : Int) else whole)
    else
      let up : Int := if neg then -(whole : Int) - 1 else whole
      let frac := if neg then d - part else part
      let v := fxExp (frac * fxLn2 / d)
      fRound fmtFP32 0 false (2 * v + 1) (2 ^ (fxK + 1)) up

/-- FLOG2 (R23). -/
def fLog2 (a : Nat) : Nat × FlagSet :=
  match fDecode fmtFP32 a with
  | .nan sig => (fmtCanon fmtFP32, if sig then flagNV else flagNone)
  | .inf neg => if neg then (fmtCanon fmtFP32, flagNV) else (fmtInfMag fmtFP32, flagNone)
  | .fin neg m e =>
    if m == 0 then (fPack fmtFP32 true (fmtInfMag fmtFP32), flagDZ)
    else if neg then (fmtCanon fmtFP32, flagNV)
    else
      let l := m.log2
      let ex : Int := (l : Int) + e
      if m == 2 ^ l then fRound fmtFP32 0 (decide (ex < 0)) ex.natAbs 1 0
      else
        let v : Int := ex * fxOne + (fxLn m (2 ^ l) * fxOne / fxLn2 : Nat)
        fRoundSticky fmtFP32 (decide (v < 0)) v.natAbs fxK

/-- FTANH (R23): (1 − u)/(1 + u) with u = e^(−2|x|). -/
def fTanh (a : Nat) : Nat × FlagSet :=
  match fDecode fmtFP32 a with
  | .nan sig => (fmtCanon fmtFP32, if sig then flagNV else flagNone)
  | .inf neg => (fPack fmtFP32 neg 0x3F800000, flagNone)
  | .fin neg m e =>
    if m == 0 then (a, flagNone)
    else
      let (n, d) := scaleFrac m 1 e
      if 200 ≤ n / d then fRoundSticky fmtFP32 neg (fxOne - 1) fxK
      else
        let u := fxExpNeg (2 * n * fxOne / d)
        fRoundSticky fmtFP32 neg ((fxOne - u) * fxOne / (fxOne + u)) fxK

/-- FSIN (R23): the argument in half-turns, reduced exactly. -/
def fSinPi (a : Nat) : Nat × FlagSet :=
  match fDecode fmtFP32 a with
  | .nan sig => (fmtCanon fmtFP32, if sig then flagNV else flagNone)
  | .inf _ => (fmtCanon fmtFP32, flagNV)
  | .fin neg m e =>
    let (n, d) := scaleFrac m 1 e
    let r := n % (2 * d)
    let q := r % d
    if q == 0 then (fPack fmtFP32 neg 0, flagNone)
    else
      let flip := d ≤ r
      let c := if d < 2 * q then d - q else q
      if 2 * c == d then fRound fmtFP32 0 (neg != flip) 1 1 0
      else fRoundSticky fmtFP32 (neg != flip) (fxSinPi c d) fxK

/-- FCOS (R23). -/
def fCosPi (a : Nat) : Nat × FlagSet :=
  match fDecode fmtFP32 a with
  | .nan sig => (fmtCanon fmtFP32, if sig then flagNV else flagNone)
  | .inf _ => (fmtCanon fmtFP32, flagNV)
  | .fin _ m e =>
    let (n, d) := scaleFrac m 1 e
    let r := n % (2 * d)
    let q := r % d
    if 2 * q == d then (0, flagNone)
    else if q == 0 then fRound fmtFP32 0 (r != 0) 1 1 0
    else
      let neg := decide (d < 2 * q) != decide (d ≤ r)
      let c := if d < 2 * q then d - q else q
      fRoundSticky fmtFP32 neg (fxCosPi c d) fxK

end Sys2Proof.Machine
end

