-- ==== Sys2Proof/Machine/Moment.lean ====
section
/-! DEFINITION. Moments (R31 to R36, R267), the random function (R30), the scale stream (R27) and plane conversion (R37). -/

namespace Sys2Proof.Machine

/-- NV when an FP32 operand is a signalling NaN (R20). -/
def f32Sig (a : W32) : FlagSet := fSigFlag fmtFP32 a.toNat

/-- One RN step inside a moment rule (R34): a quiet NaN that passes through sets nothing, a signalling one that a step reads sets NV (R20). -/
def rnStep (op : W32 → W32 → W32 × FlagSet) (a b : W32) : W32 × FlagSet :=
  if f32IsNaN a || f32IsNaN b then (f32Canon, f32Sig a ||| f32Sig b) else op a b

def rnAdd (a b : W32) : W32 × FlagSet := rnStep (f32Add 0) a b
def rnSub (a b : W32) : W32 × FlagSet := rnStep (f32Sub 0) a b
def rnMul (a b : W32) : W32 × FlagSet := rnStep (f32Mul 0) a b
def rnDiv (a b : W32) : W32 × FlagSet := rnStep f32Div a b

/-- SAT (R41). -/
def satCount (n : Nat) : W32 × FlagSet :=
  if 0xFFFFFFFF < n then (0xFFFFFFFF, flagMSAT) else (BitVec.ofNat 32 n, flagNone)

/-- n = 0: the moment counts as the canonical empty moment (R31). -/
def Moment.isEmpty (m : Moment) : Bool := m.n == 0

/-- NV for a signalling NaN in a moment that a rule reads and passes on; an empty moment counts as canonical (R20, R31). -/
def momentSig (m : Moment) : FlagSet := if m.isEmpty then flagNone else f32Sig m.m2 ||| f32Sig m.mean ||| f32Sig m.w

/-- UPDATE (R32). -/
def momentUpdate (m0 : Moment) (x w : W32) : Moment × FlagSet :=
  let m := if m0.isEmpty then Moment.zero else m0
  if w == 0 then (m, momentSig m)
  else
    let (n', fn) := satCount (m.n.toNat + 1)
    if f32IsNaN x || f32IsInf x || f32IsNaN w || f32IsInf w || w.getLsbD 31 then
      ({ m2 := f32Canon, mean := f32Canon, w := m.w, n := n' }, flagNV ||| fn)
    else
      let (w', f1) := rnAdd m.w w
      let (d, f2) := rnSub x m.mean
      let (r, f3) := rnDiv w w'
      let (dr, f4) := rnMul d r
      let (mean', f5) := rnAdd m.mean dr
      let (e, f6) := rnSub x mean'
      let (wd, f7) := rnMul w d
      let (wde, f8) := rnMul wd e
      let (m2', f9) := rnAdd m.m2 wde
      ({ m2 := m2', mean := mean', w := w', n := n' }, fn ||| f1 ||| f2 ||| f3 ||| f4 ||| f5 ||| f6 ||| f7 ||| f8 ||| f9)

/-- MERGE (R33). -/
def momentMerge (a b : Moment) : Moment × FlagSet :=
  if a.isEmpty && b.isEmpty then (Moment.zero, flagNone)
  else if a.isEmpty then (b, momentSig b)
  else if b.isEmpty then (a, momentSig a)
  else
    let (n, fn) := satCount (a.n.toNat + b.n.toNat)
    let (w, f1) := rnAdd a.w b.w
    let (d, f2) := rnSub b.mean a.mean
    let (r, f3) := rnDiv b.w w
    let (dr, f4) := rnMul d r
    let (mean, f5) := rnAdd a.mean dr
    let (ww, f6) := rnMul a.w b.w
    let (q, f7) := rnDiv ww w
    let (mm, f8) := rnAdd a.m2 b.m2
    let (dd, f9) := rnMul d d
    let (ddq, f10) := rnMul dd q
    let (m2, f11) := rnAdd mm ddq
    ({ m2 := m2, mean := mean, w := w, n := n },
     fn ||| f1 ||| f2 ||| f3 ||| f4 ||| f5 ||| f6 ||| f7 ||| f8 ||| f9 ||| f10 ||| f11)

/-- The result codes of R35. -/
def codeEmpty : W32 := 0x7FC00E01
def codeSingle : W32 := 0x7FC00E02
def codeZeroVar : W32 := 0x7FC00E03

def isResultCode (x : W32) : Bool := x == codeEmpty || x == codeSingle || x == codeZeroVar

def isZero32 (x : W32) : Bool := x == 0 || x == 0x80000000

/-- The drain of option RSD (R35). -/
def drainRsd (m : Moment) (eps : W32) : W32 × FlagSet :=
  if m.isEmpty then (codeEmpty, flagNone)
  else
    let (var, f1) := rnDiv m.m2 m.w
    if f32IsNaN eps then (f32Canon, flagNV ||| f1)
    else
      let (t, f2) := rnAdd var eps
      if isZero32 t then (codeZeroVar, f1 ||| f2)
      else if f32IsNaN t then (f32Canon, f1 ||| f2)
      else if t.getLsbD 31 then (f32Canon, flagNV ||| f1 ||| f2)
      else
        let (r, f3) := fr32 (fRsqrt t.toNat)
        (r, f1 ||| f2 ||| f3)

/-- The drains of R35 by option code: 0 N, 1 W, 2 MEAN, 3 SUM, 4 VAR, 5 SVAR, 6 SD, 7 RSD. -/
def momentDrain (opt : Nat) (m : Moment) (eps : W32) : W32 × FlagSet :=
  match opt with
  | 0 => (if m.isEmpty then 0 else m.n, flagNone)
  | 1 => if m.isEmpty then (0, flagNone) else (m.w, f32Sig m.w)
  | 2 => if m.isEmpty then (codeEmpty, flagNone) else (m.mean, f32Sig m.mean)
  | 3 => if m.isEmpty then (0, flagNone) else rnMul m.w m.mean
  | 4 => if m.isEmpty then (codeEmpty, flagNone) else rnDiv m.m2 m.w
  | 5 =>
    if m.isEmpty then (codeEmpty, flagNone)
    else if m.n == 1 then (codeSingle, flagNone)
    else
      let (w1, f1) := rnSub m.w f32One
      let (v, f2) := rnDiv m.m2 w1
      (v, f1 ||| f2)
  | 6 =>
    if m.isEmpty then (codeEmpty, flagNone)
    else
      let (v, f1) := rnDiv m.m2 m.w
      if f32IsNaN v then (f32Canon, f1)
      else
        let (r, f2) := fr32 (fSqrt v.toNat)
        (r, f1 ||| f2)
  | _ => drainRsd m eps

/-- MNORM (R265). -/
def momentNorm (x : W32) (m : Moment) (eps : W32) : W32 × FlagSet :=
  let (rho, f0) := drainRsd m eps
  if isResultCode rho then (rho, f0)
  else
    let (d, f1) := rnSub x m.mean
    let (r, f2) := rnMul d rho
    (r, f0 ||| f1 ||| f2)

/-- MDECAY (R267). -/
def momentDecay (m : Moment) (alpha : W32) : Moment × FlagSet :=
  if m.isEmpty then (Moment.zero, flagNone)
  else if f32IsNaN alpha || (alpha.getLsbD 31 && alpha != 0x80000000) || 0x3F800000 < alpha.toNat % 2 ^ 31 then
    ({ m2 := f32Canon, mean := f32Canon, w := m.w, n := m.n }, flagNV)
  else if isZero32 alpha then (Moment.zero, momentSig m)
  else
    let (m2, f1) := rnMul m.m2 alpha
    let (w, f2) := rnMul m.w alpha
    ({ m2 := m2, mean := m.mean, w := w, n := m.n }, f1 ||| f2 ||| f32Sig m.mean)

/-- The canonical form of a moment that a rule produces: empty means all zero (R31). -/
def Moment.canonical (m : Moment) : Moment := if m.isEmpty then Moment.zero else m

/-- MINIT with a value (R260): UPDATE of the canonical empty moment. -/
def momentInit (x : W32) : Moment × FlagSet := momentUpdate Moment.zero x f32One

/-- One level of the tree of R36: merge neighbours pairwise, first as a. -/
def mergePairs : List Moment → List Moment × FlagSet
  | a :: b :: rest =>
    let (m, f) := momentMerge a b
    let (ms, fs) := mergePairs rest
    (m :: ms, f ||| fs)
  | l => (l, flagNone)

/-- The tree of R36 and R170 over 2^n leaves, n levels. -/
def mergeTree : Nat → List Moment → Moment × FlagSet
  | 0, l => (l.headD Moment.zero, flagNone)
  | n + 1, l =>
    let (l', f) := mergePairs l
    let (m, fs) := mergeTree n l'
    (m, f ||| fs)

/-- PHILOX (R30): n rounds left; the key is raised before every round but the first. -/
def philoxRounds : Nat → W32 → W32 → W32 → W32 → W32 → W32 → W32 × W32 × W32 × W32
  | 0, _, _, c0, c1, c2, c3 => (c0, c1, c2, c3)
  | n + 1, k0, k1, c0, c1, c2, c3 =>
    let p0 := 0xD2511F53 * c0.toNat
    let p1 := 0xCD9E8D57 * c2.toNat
    let hi0 := BitVec.ofNat 32 (p0 / 2 ^ 32)
    let hi1 := BitVec.ofNat 32 (p1 / 2 ^ 32)
    philoxRounds n (k0 + 0x9E3779B9) (k1 + 0xBB67AE85)
      (hi1 ^^^ c1 ^^^ k0) (BitVec.ofNat 32 p1) (hi0 ^^^ c3 ^^^ k1) (BitVec.ofNat 32 p0)

/-- Word 0 of PHILOX, the only word any rule uses. -/
def philox0 (key : W64) (c0 c1 c2 c3 : W32) : W32 :=
  (philoxRounds 10 (key.setWidth 32) (key.extractLsb' 32 32) c0 c1 c2 c3).1

/-- The kept positions of row j of group g (R161): the n values of i in 0..47 with the smallest keys, ascending. -/
def keptPositions (seed : W32) (n j g : Nat) : List Nat :=
  let key : Nat → Nat := fun i =>
    (philox0 (seed.setWidth 64) (BitVec.ofNat 32 j) (BitVec.ofNat 32 g) (BitVec.ofNat 32 i) 0).toNat
  let keys := (List.range 48).map fun i => (i, key i)
  (keys.filter fun p =>
    decide ((keys.filter fun q => decide (q.2 < p.2) || (q.2 == p.2 && decide (q.1 < p.1))).length < n)).map Prod.fst

/-- The plane conversion of R37 for one block of FP32-valued elements: the exponent byte and, for each element, sign and magnitude. -/
def planeBlock (src : Fmt) (p : Nat) (xs : List Nat) : Nat × List (Bool × Nat) :=
  let vals := xs.map (fDecode src)
  let signOf : Nat → Bool := fun x => x / fmtSignBit src % 2 == 1
  let bad := vals.any fun v => match v with
    | .fin _ _ _ => false
    | _ => true
  if bad then (0xFF, xs.map fun x => (signOf x, 0))
  else
    let top := vals.foldl (fun acc v => match v with
      | .fin _ m e => if m == 0 then acc else
          let l := floorLog2 m 1 + e
          match acc with
          | none => some l
          | some t => some (if t < l then l else t)
      | _ => acc) (none : Option Int)
    match top with
    | none => (0, xs.map fun x => (signOf x, 0))
    | some e =>
      let b : Int := e - ((p : Int) - 1) + 127
      let b := if b < 0 then 0 else b
      (b.toNat, (xs.zip vals).map fun (x, v) =>
        match v with
        | .fin _ m ex =>
          let (n, d) := scaleFrac m 1 (ex + 127 - b)
          let q := (roundInt 0 false n d).1
          (signOf x, if 2 ^ p - 1 < q then 2 ^ p - 1 else q)
        | _ => (signOf x, 0))

/-- An MXFP4 block under its scale byte (R37): exact, but for the scales 0x00 and 0xFF; a block of zeros has the byte 0x00. -/
def planeMxBlock (scale : Nat) (nibbles : List Nat) : Nat × List (Bool × Nat) :=
  let mag : Nat → Nat × Nat := fun x =>
    match fDecode fmtE2M1 x with
    | .fin _ m e => scaleFrac m 1 e
    | _ => (0, 1)
  if scale == 0xFF then (0xFF, nibbles.map fun x => (decide (8 ≤ x), 0))
  else if scale == 0 then
    (0, nibbles.map fun x => (decide (8 ≤ x), (roundInt 0 false (mag x).1 (mag x).2).1))
  else if nibbles.all fun x => (mag x).1 == 0 then (0, nibbles.map fun x => (decide (8 ≤ x), 0))
  else (scale - 1, nibbles.map fun x => (decide (8 ≤ x), 2 * (mag x).1 / (mag x).2))

/-- One step of the scale stream (R27, R250): the nibbles of a scale, given the running value. -/
def scaleNibbles (run s : Nat) : List Nat :=
  if s != 0xFF && decide (s ≤ run + 7) && decide (run ≤ s + 7) then [(s + 16 - run % 16) % 16] else [8, s % 16, s / 16]

/-- The running value after a scale (R27). -/
def scaleRun (s : Nat) : Nat := if s == 0xFF then 127 else s

/-- The nibbles of a list of scales. -/
def scaleEncode : Nat → List Nat → List Nat
  | _, [] => []
  | run, s :: r => scaleNibbles run s ++ scaleEncode (scaleRun s) r

/-- The running value after a list of scales. -/
def scaleRunAll : Nat → List Nat → Nat
  | run, [] => run
  | _, s :: r => scaleRunAll (scaleRun s) r

end Sys2Proof.Machine
end

