-- ==== Sys2Proof/Machine/Atomic.lean ====
section
/-! DEFINITION. The arithmetic of ATOM and ATOML (R273): what one operation makes of the old bytes and its operand. -/

namespace Sys2Proof.Machine

/-- A moment in memory order (R31). -/
def momentBytes (m : Moment) : List Byte :=
  leBytes 4 m.m2.toNat ++ leBytes 4 m.mean.toNat ++ leBytes 4 m.w.toNat ++ leBytes 4 m.n.toNat

def wordAt (bs : List Byte) (i : Nat) : W32 := BitVec.ofNat 32 (leNat ((bs.drop (4 * i)).take 4))

def momentOf (bs : List Byte) : Moment :=
  { m2 := wordAt bs 0, mean := wordAt bs 1, w := wordAt bs 2, n := wordAt bs 3 }

/-- The bytes an operation accesses (R273). -/
def atomSize (op : BitVec 4) : Nat := if op == 15 then 16 else 4

/-- The number of V registers, or the words, of the value operand: a pair for CAS, IMAD, FFMA and MUPD (R273). -/
def atomIsPair (op : BitVec 4) (mmrg : Bool) : Bool := op == 9 || op == 10 || op == 14 || (op == 15 && !mmrg)

/-- The new value of a 4-byte operation, given the old value and the first and second operand word (R273). -/
def atomNew (op : BitVec 4) (old a b : W32) : W32 :=
  match op.toNat with
  | 0 => old + a
  | 1 => if BitVec.slt old a then a else old
  | 2 => if BitVec.slt a old then a else old
  | 3 => if BitVec.ult old a then a else old
  | 4 => if BitVec.ult a old then a else old
  | 5 => old &&& a
  | 6 => old ||| a
  | 7 => old ^^^ a
  | 8 => a
  | 9 => if old == a then b else old
  | 10 => old * a + b
  | 11 => (f32Add 0 old a).1
  | 12 => (f32MinMax true false old a).1
  | 13 => (f32MinMax false false old a).1
  | 14 => (f32Fma 0 old a b).1
  | _ => old

/-- One operation on the bytes of its word (R273). -/
def atomApply (op : BitVec 4) (mmrg : Bool) (old operand : List Byte) : List Byte :=
  if op == 15 then
    (if mmrg then momentBytes (momentMerge (momentOf old) (momentOf operand)).1
     else momentBytes (momentUpdate (momentOf old) (wordAt operand 0) (wordAt operand 1)).1)
  else leBytes 4 (atomNew op (wordAt old 0) (wordAt operand 0) (wordAt operand 1)).toNat

/-- Operations one after the other: the old value each sees, and the final bytes (R93, R274). -/
def atomRun (op : BitVec 4) (mmrg : Bool) : List Byte → List (List Byte) → List (List Byte) × List Byte
  | cur, [] => ([], cur)
  | cur, x :: r =>
    let (olds, last) := atomRun op mmrg (atomApply op mmrg cur x) r
    (cur :: olds, last)

end Sys2Proof.Machine
end

