-- ==== Sys2Proof/Machine/Ops.lean ====
section
/-! DEFINITION. The shared operations of every instruction word: the executing set, the interlock and the checks of R52, the advance of program counters with the back-edge of R58, holds and releases, taking an exception (R314 to R317) and returning from one (R318). -/

namespace Sys2Proof.Machine

/-- What the shared checks must know of a word: its guard, whether its encoding is legal, the registers it reads and writes (an operand with its number of registers), the scale register it reads outside E and whether in every group, the K operand that narrows the lanes it reads (R263), whether it is uniform-class (R50), its fixed latency (R185), registers with a fixed latency of their own (R184), %flags among them for a word that may accrue flags (R40), whether it is a test in which no cause is raised any more (R276), the TADDR of an error that the word itself finds at place 4 of R52 (R289, R321), and whether it is a switch point (R70), ends a hand-over (R82) or acts as Y (R196). -/
structure WordInfo where
  hdr : Hdr
  legal : Bool
  reads : List (Opnd × Nat) := []
  writes : List (Opnd × Nat) := []
  scale : Option (Opnd × Bool) := none
  within : Option Opnd := none
  uni : Bool := false
  latency : Option Nat := none
  fixed : List (Opnd × Nat) := []
  quiet : Bool := false
  soft : Option Nat := none
  switch : Bool := false
  ends : Bool := false
  yields : Bool := false

/-- How a word's own effect ends: performed, with the lanes it moves elsewhere; performed, every PC already set; performed and then a trap (R204); a cause with TMASK and TADDR, in a state that keeps what the rule says is performed; lanes held, the other active lanes completing; or not issued yet. -/
inductive Res where
  | done (s : State) (move : Nat → Option Pc)
  | jumped (s : State)
  | after (s : State) (cause : Nat) (addr : W64)
  | trap (s : State) (cause : Nat) (mask : Mask) (addr : W64)
  | hold (s : State) (kinds : List (Mask × HoldKind))
  | wait (s : State)

/-- %flags with the latency of a word that may accrue flags: the interlock holds a later word that reads them (R40). -/
def flagsAt (lat : Nat) : List (Opnd × Nat) := [(.sp 0x0C, lat)]

/-- No lane moves elsewhere. -/
def stay : Nat → Option Pc := fun _ => none

/-- Done, with the convoy replaced. -/
def doneWith (s : State) (f : Focus) (c : Convoy) : Res := .done (s.setConvoy f.convoy c) stay

/-- A cause raised for all of E with TADDR 0, the default of every entry. -/
def raise (s : State) (cause : Nat) (e : Mask) : Res := .trap s cause e 0

/-- The executing set (R43, R179). -/
def execSet (h : Hdr) (c : Convoy) (active : Mask) : Mask :=
  if h.gn then active &&& ~~~ c.readKn h.gk.toNat else active &&& c.readKn h.gk.toNat

/-- How many V registers a value of n bytes takes. -/
def regsOfSize (n : Nat) : Nat := if n == 16 then 4 else if n == 8 then 2 else 1

/-- The registers that an access in flight will write (R54). -/
def accessRegs (a : Access) : List Reg :=
  match a.kind with
  | .load (.v n) size _ => opndRegs (.v n) (regsOfSize size)
  | .load d _ _ => opndRegs d 1
  | .atom _ _ _ (some d) => opndRegs d 1
  | _ => []

/-- The registers of a convoy that await a variable-latency write: of its accesses, and the moments of its ACCSTATs (R118, R299). -/
def pendingRegs (s : State) (ci : Nat) : List Reg :=
  let c := s.convoy ci
  ((s.accesses.filter fun a => a.convoy == ci).flatMap accessRegs) ++
  (((s.core c.core).queue.filter fun m => m.convoy == ci).flatMap fun m =>
    match m.kind with
    | .accstat n _ _ => [Reg.m n]
    | _ => []) ++
  (((s.core (c.core / 2 * 2)).queue.filter fun m => m.convoy == ci && m.pair).flatMap fun m =>
    match m.kind with
    | .accstat n _ _ => [Reg.m n]
    | _ => [])

def readRegs (i : WordInfo) : List Reg := i.reads.flatMap fun p => opndRegs p.1 p.2
def writeRegs (i : WordInfo) : List Reg := i.writes.flatMap fun p => opndRegs p.1 p.2
def guardRegs (i : WordInfo) : List Reg := opndRegs (.k i.hdr.gk) 1
def scaleOpnds (i : WordInfo) : List (Opnd × Nat) :=
  match i.scale with
  | some (o, _) => [(o, 1)]
  | none => []
def scaleRegs (i : WordInfo) : List Reg := (scaleOpnds i).flatMap fun p => opndRegs p.1 p.2

/-- The lanes in which a scale register is read (R26, R250): the first lane of every group that holds a lane of E, or of every group. -/
def scaleLanes (w : Nat) (e : Mask) (every : Bool) : Mask :=
  maskWhere w fun l => l % 4 == 0 && (every || (List.range 4).any fun j => e.getLsbD (l + j))

/-- The lanes in which a word reads its varying sources (R263). -/
def sourceLanes (i : WordInfo) (c : Convoy) (e active : Mask) : Reg → Mask
  | .k _ => e
  | _ => match i.within with
    | some k => e &&& readK c active k
    | none => e

/-- The lanes in which a word reads a varying register. -/
def lanesRead (i : WordInfo) (c : Convoy) (e active : Mask) (r : Reg) : Mask :=
  (if (readRegs i).contains r then sourceLanes i c e active r else 0) |||
  (match i.scale with
   | some (o, every) => if (opndRegs o 1).contains r then scaleLanes c.width e every else 0
   | none => 0)

/-- How many bits count as one error with a cell: those of the lane's eight data cells that share a check row, for a V register in correction mode (R63), and of the cell itself elsewhere. -/
def groupBits (det : Bool) (c : Convoy) (x : ErrCell) : Nat :=
  c.errs.foldl (fun n y => match x.reg, y.reg with
    | .v i, .v j => if y.lane == x.lane && (if det then j == i else j / 8 == i / 8) then n + y.bits else n
    | r, q => if q == r && y.lane == x.lane then n + y.bits else n) 0

/-- Can a read correct a cell? A check row and SECDED correct one bit; the parity of detection mode corrects nothing (R63). -/
def correctable (det : Bool) (c : Convoy) (x : ErrCell) : Bool :=
  groupBits det c x == 1 && !(det && (match x.reg with
    | .v _ => true
    | _ => false))

/-- The lanes in which a word meets an error cell: those that read it, all of E for a register of the convoy, and the active set for its guard and for the loop counter of a back-edge (R58, R64, R321). -/
def cellLanes (i : WordInfo) (c : Convoy) (e active : Mask) (edge : Bool) (x : ErrCell) : Mask :=
  match x.lane with
  | some l => ((if e == 0 then 0 else lanesRead i c e active x.reg) ||| (if (guardRegs i).contains x.reg then active else 0)) &&& laneBit l
  | none => (if (readRegs i).contains x.reg then e else 0) ||| (if edge && x.reg == .lc then active else 0)

/-- The lanes that meet a cell that cannot be corrected (R64, R321). A guard cell counts over the whole active set, also in lanes outside E, since E is not known without it (assumption log 36). -/
def errorLanes (det : Bool) (i : WordInfo) (c : Convoy) (e active : Mask) (edge : Bool) : Mask :=
  c.errs.foldl (fun m x => if correctable det c x then m else m ||| cellLanes i c e active edge x) 0

/-- Corrected cells read, by SECNT field: varying file, and the other files (R313, R320). -/
def correctedReads (det : Bool) (i : WordInfo) (c : Convoy) (e active : Mask) (edge : Bool) : Nat × Nat :=
  c.errs.foldl (fun n x =>
    if !correctable det c x || cellLanes i c e active edge x == 0 then n
    else match x.reg with
      | .v _ => (n.1 + 1, n.2)
      | _ => (n.1, n.2 + 1)) (0, 0)

/-- Add to a 16-bit saturating field of SECNT (R313). -/
def secntAdd (v : W64) (lo n : Nat) : W64 :=
  let old := (v.toNat / 2 ^ lo) % 65536
  let new := if old + n ≤ 65535 then old + n else 65535
  v + BitVec.ofNat 64 ((new - old) * 2 ^ lo)

/-- The innermost open level whose last word is at an address (R58, R203), with its place in the list. -/
def backEdge (c : Convoy) (addr : Pc) : Option (Nat × LoopLevel) :=
  ((indexed c.loops).filter fun p => !p.2.suspended && p.2.last == addr).getLast?

/-- Is one of some registers still awaiting a fixed-latency write (R54)? Only holds that raise STALLSHORT count where `only` is set (R56, R185). -/
def awaits (s : State) (c : Convoy) (regs : List Reg) (only : Bool) : Bool :=
  c.busy.any fun b => decide (s.clock < b.cycle) && (!only || b.checked) && regs.contains b.reg

/-- The registers of a word that the interlock looks at: sources, destinations and scale registers; the guard comes apart. -/
def wordRegs (i : WordInfo) : List Reg := readRegs i ++ writeRegs i ++ scaleRegs i

/-- Is the word in focus a held one that is tested again (R67)? -/
def isRetest (s : State) (f : Focus) : Bool := ((s.slotAt f.core f.slot).pending.bind Pending.retest).isSome

/-- What the shared checks decide. -/
inductive Gate where
  | wait
  | skip
  | trap (cause : Nat) (mask : Mask) (addr : Nat)
  | go (e : Mask)
  deriving DecidableEq, Repr

/-- The lanes that have done their part of the last word of a loop body at an address, and wait for the others with its back-edge (R58). -/
def edgeDone (c : Convoy) (addr : Pc) : Mask :=
  c.holds.foldl (fun m h => if h.kind == .edge && h.pc == addr then m ||| h.lanes else m) 0

/-- The interlock and the checks of R52 up to place 6, in their order. The guard is waited for before E is formed (R55), and an empty E faults for nothing but the back-edge (R43, R58), whose read of the loop counter may meet an error; a guard cell that cannot be corrected raises nothing there. -/
def gate (s : State) (f : Focus) (i : WordInfo) : Gate :=
  let c := s.convoy f.convoy
  let r := (s.launchOf c).rec_
  let pend := pendingRegs s f.convoy
  let e := execSet i.hdr c f.active
  let last := (backEdge c f.addr).isSome
  let edge := last && (f.active ||| edgeDone c f.addr) &&& c.live != c.live
  let short := r.stallCheck && !i.quiet && e != 0
  let bad := errorLanes r.detection i c e f.active last
  if decide (s.clock < c.ready) || (guardRegs i).any pend.contains then .wait
  else if awaits s c (guardRegs i) false && !(short && awaits s c (guardRegs i) true) then .wait
  else if e != 0 && !i.legal then .trap causeILLEGAL e 0
  else if i.legal && (wordRegs i).any pend.contains then .wait
  else if i.legal && awaits s c (guardRegs i ++ wordRegs i) false then
    (if short && awaits s c (guardRegs i ++ wordRegs i) true then .trap causeSTALLSHORT e 0 else .wait)
  else if e == 0 then
    (if last && c.errs.any (fun x => x.reg == .lc && !correctable r.detection c x) then .trap causeSOFTERR f.active 0
     else if edge then .trap causeUNIFISS f.active 0
     else .skip)
  else if (i.reads ++ i.writes ++ scaleOpnds i).any (fun p => overBudget c.budget p.1 p.2) then .trap causeBUDGET e 0
  else if !i.quiet && bad != 0 then .trap causeSOFTERR bad 0
  else if i.soft.isSome then .trap causeSOFTERR e (i.soft.getD 0)
  else if edge then .trap causeUNIFISS f.active 0
  else if i.uni && e != c.live then .trap causeUNIFISS e 0
  else if e != c.live && i.writes.any (fun p => isUniformDest p.1) then .trap causeUNIFWR e 0
  else .go e

/-- Is the launch of a convoy ordered by logical index (R70, R150)? -/
def canonicalOrder (l : Launch) : Bool := l.rec_.mode == 1 || (l.rec_.mode == 3 && l.boundMode == 1)

/-- The convoys resident on a core. -/
def coreConvoys (s : State) (core : Nat) : List Nat :=
  (s.core core).slots.flatMap fun x => x.positions.filterMap id

/-- Logical order (R70): block index, then convoy in block. -/
def logicalKey (s : State) (ci : Nat) : Nat := (s.blockOf (s.convoy ci)).index * 2 ^ 16 + (s.convoy ci).index

/-- The convoy the core would choose for a CANONICAL launch: the lowest logical index with a lane that can issue; the highest for a REVERSE launch bound to a CANONICAL recording (R70, R150). -/
def chooseConvoy (s : State) (core li : Nat) : Option Nat :=
  let cand := (coreConvoys s core).filter fun ci => (s.convoy ci).launch == li && s.runnable (s.convoy ci) != 0
  let better : Nat → Nat → Bool := fun a b =>
    if (s.launch li).rec_.mode == 3 then decide (logicalKey s b < logicalKey s a) else decide (logicalKey s a < logicalKey s b)
  cand.foldl (fun acc ci => match acc with
    | none => some ci
    | some b => if better ci b then some ci else some b) none

/-- The current convoy of a launch on a core (R70): it keeps issue while it is resident, also where it is stopped, parked or held; one that has left the core is replaced. -/
def currentConvoy (s : State) (core li : Nat) : Option Nat :=
  match (s.core core).current.find? fun p => p.1 == li with
  | some (_, ci) => if (coreConvoys s core).contains ci && !(s.convoy ci).ended then some ci else chooseConvoy s core li
  | none => chooseConvoy s core li

/-- Do the timer, the hint and the watchdog of its slot look at a convoy's lanes? At every convoy's, but in CANONICAL order at the current convoy's only (R71). -/
def watched (s : State) (ci : Nat) : Bool :=
  let c := s.convoy ci
  !canonicalOrder (s.launchOf c) || currentConvoy s c.core c.launch == some ci

/-- The highest PC among the lanes of a slot that its watchdog looks at (R71, R84). -/
def slotTop (s : State) (core h : Nat) : Nat :=
  (((s.slotAt core h).positions.filterMap id).filter (watched s)).foldl (fun m ci =>
    let c := s.convoy ci
    (lanesOf c.width c.live).foldl (fun m l => max m (c.lane l).pc.toNat) m) 0

/-- Reset the watchdog of a slot (R84). -/
def resetWatchdog (s : State) (core h : Nat) : State :=
  s.modSlot core h fun x => { x with watchdog := 0, mark := slotTop s core h }

/-- Set the watchdog of a slot back to 0 and leave its mark: what LIVELOCK does, and the return from it (R84, R303). The next LIVELOCK comes 2^20 issues after the return even where the lanes have been in a handler below them (R305). -/
def clearWatchdog (s : State) (core h : Nat) : State := s.modSlot core h fun x => { x with watchdog := 0 }

/-- What a slot notes when the word at addr moves lanes of a convoy, each to its target: the backward-branch flag, which is cleared with the timer and set by a move to a lower address; the end of a hand-over by a handed lane that moves backward (R82); and the high-water mark (R84). -/
def noteMoves (s : State) (ci : Nat) (addr : Pc) (lanes : Mask) (target : Nat → Pc) : State :=
  let c := s.convoy ci
  let ls := lanesOf c.width lanes
  let slot := s.slotAt c.core c.slot
  let back := ls.any fun l => decide ((target l).toNat < addr.toNat)
  let handed : Mask := match slot.handover with
    | some h => (h.lanes.filter fun p => p.1 == ci).foldl (fun m p => m ||| p.2) 0
    | none => 0
  let backHanded := ls.any fun l => decide ((target l).toNat < addr.toNat) && handed.getLsbD l
  let top := ls.foldl (fun m l => max m (target l).toNat) 0
  if !watched s ci then s
  else s.modSlot c.core c.slot fun x =>
    { x with
      backward := (x.backward || back) && !(backHanded && x.pending.isNone)
      watchdog := if x.mark < top then 0 else x.watchdog
      mark := max x.mark top
      pending := x.pending.map fun p => { p with backHanded := p.backHanded || backHanded }
      handover := if backHanded && x.pending.isNone then none else x.handover
      timer := if backHanded && x.pending.isNone then 0 else x.timer }

/-- Move lanes of a convoy from the word at addr, and let its slot note it. -/
def moveLanes (s : State) (ci : Nat) (addr : Pc) (lanes : Mask) (target : Nat → Pc) : State :=
  noteMoves (s.modConvoy ci fun c => c.onLanes lanes fun l x => { x with pc := target l }) ci addr lanes target

/-- Lanes of a convoy complete the word at addr (R44): the back-edge of R58 moves every live lane; otherwise a lane goes where the word sends it, or to PC + 8. -/
def advance (s : State) (ci : Nat) (addr : Pc) (lanes : Mask) (move : Nat → Option Pc) : State :=
  let c0 := s.convoy ci
  let c := { c0 with holds := c0.holds.filter fun h => !(h.kind == .edge && h.pc == addr) }
  match backEdge c addr with
  | some (i, lv) =>
    if lv.counter.toNat + 1 < lv.count.toNat then
      moveLanes (s.setConvoy ci { c with loops := c.loops.set i { lv with counter := lv.counter + 1 }, errs := c.errs.filter fun x => x.reg != .lc })
        ci addr c.live fun _ => lv.first
    else
      moveLanes (s.setConvoy ci { c with loops := c.loops.eraseIdx i }) ci addr c.live fun _ => addr.next
  | none => moveLanes s ci addr lanes fun l => (move l).getD addr.next

/-- The lanes of a slot that may issue, by convoy (R42, R67, R70). -/
def slotLanes (s : State) (core h : Nat) : List (Nat × Mask) :=
  let all := ((s.slotAt core h).positions.filterMap id).map fun ci => (ci, s.runnable (s.convoy ci))
  match (s.slotAt core h).launch with
  | some li =>
    if canonicalOrder (s.launch li) then
      (match currentConvoy s core li with
       | some cur => all.filter fun p => p.1 == cur
       | none => [])
    else all
  | none => all

/-- The PCs of the lanes of a list of convoys. -/
def lanePcs (s : State) (ls : List (Nat × Mask)) : List Pc :=
  ls.flatMap fun p => (lanesOf (s.convoy p.1).width p.2).map fun l => ((s.convoy p.1).lane l).pc

def lowestPc (l : List Pc) : Option Pc :=
  l.foldl (fun acc p => match acc with
    | none => some p
    | some q => if p.toNat < q.toNat then some p else some q) none

def highestPc (l : List Pc) : Option Pc :=
  l.foldl (fun acc p => match acc with
    | none => some p
    | some q => if q.toNat < p.toNat then some p else some q) none

/-- The lanes at an address, convoys without one left out. -/
def lanesAt (s : State) (ls : List (Nat × Mask)) (addr : Pc) : List (Nat × Mask) :=
  (ls.map fun p => (p.1, p.2 &&& maskWhere (s.convoy p.1).width fun l => ((s.convoy p.1).lane l).pc == addr)).filter fun p => p.2 != 0

/-- The handed lanes that can still issue (R82). -/
def handedLanes (s : State) (core h : Nat) (ho : Handover) : List (Nat × Mask) :=
  let ls := slotLanes s core h
  (ho.lanes.map fun p => (p.1, p.2 &&& (ls.filter fun q => q.1 == p.1).foldl (fun m q => m ||| q.2) 0)).filter fun p => p.2 != 0

/-- End a hand-over: the timer and its flag are reset (R82). -/
def endHandover (s : State) (core h : Nat) : State :=
  s.modSlot core h fun x => { x with handover := none, timer := 0, backward := false }

/-- The lanes a hand-over by Y hands to: those whose PC is the lowest above an address (R83). -/
def lanesAbove (s : State) (core h : Nat) (addr : Pc) : List (Nat × Mask) :=
  let ls := slotLanes s core h
  match lowestPc ((lanePcs s ls).filter fun p => decide (addr.toNat < p.toNat)) with
  | some p => lanesAt s ls p
  | none => []

/-- A hand-over by Y, to the lanes above a word; without such lanes, or within a hand-over, Y has no effect (R83). -/
def yieldAbove (s : State) (core h : Nat) (addr : Pc) : State :=
  if (s.slotAt core h).handover.isSome then s
  else match lanesAbove s core h addr with
    | [] => s
    | ls => s.modSlot core h fun x => { x with handover := some { lanes := ls, issues := 0 } }

/-- The extra cycles on the banks of words of local store, each named by its block and its place there: the largest number of different words in one bank, less one (R73). -/
def replaysOf (words : List (Nat × Nat)) : Nat :=
  ((List.range 32).foldl (fun m b => max m (words.eraseDups.filter fun w => w.2 % 32 == b).length) 1) - 1

/-- Count an issue and its replays; a word that is tested again was counted when it was issued (R73, R327). -/
def countIssue (s : State) (core : Nat) (p : Pending) : State :=
  (s.perfCount core 0x02 (if p.retest.isSome then 0 else 1)).perfCount core 0x04 (replaysOf p.words)

/-- The hand-over of a slot after an issue: the one under way goes on or ends (R82), or one starts by Y (R83). A held word that completes may end it too, by moving a handed lane backward. -/
def passHandover (s : State) (core h : Nat) (p : Pending) : State :=
  match (s.slotAt core h).handover with
  | some ho =>
    if !p.inHand then (if p.backHanded then endHandover s core h else s)
    else if p.backHanded || p.ends || decide (256 ≤ ho.issues + 1) || (handedLanes s core h ho).isEmpty then endHandover s core h
    else s.modSlot core h fun x => { x with handover := some { ho with issues := ho.issues + 1 } }
  | none => if p.y then yieldAbove s core h p.addr else s

/-- A core that has no current convoy of a CANONICAL launch, or one that has ended or left, chooses one as soon as a convoy can issue (R70). -/
def settleCurrent (li : Nat) (s : State) (core : Nat) : State :=
  match currentConvoy s core li with
  | some ci =>
    if (s.core core).current.contains (li, ci) then s
    else s.modCore core fun c => { c with current := (li, ci) :: c.current.filter fun q => q.1 != li }
  | none => s

/-- The choices that have fallen due in a step, on every core for every launch in logical order (R70). -/
def settleCurrents (s : State) : State :=
  ((List.range s.launches.length).filter fun li => canonicalOrder (s.launch li) && !(s.launch li).completed).foldl
    (fun s li => (List.range s.cores.length).foldl (settleCurrent li) s) s

/-- A switch point has been issued: the core chooses its current convoy anew (R70). -/
def switchConvoy (s : State) (core h : Nat) : State :=
  match (s.slotAt core h).launch with
  | some li =>
    let s1 := s.modCore core fun c => { c with current := c.current.filter fun q => q.1 != li }
    if canonicalOrder (s.launch li) then
      (match chooseConvoy s1 core li with
       | some ci => s1.modCore core fun c => { c with current := (li, ci) :: c.current }
       | none => s1)
    else s
  | none => s

/-- When every convoy of an issue has been through its word. -/
def endIssue (s : State) (core h : Nat) : State :=
  match (s.slotAt core h).pending with
  | none => s
  | some p =>
    let s1 := passHandover (countIssue (s.modSlot core h fun x => { x with pending := none }) core p) core h p
    if p.switches && p.retest.isNone then switchConvoy s1 core h else s1

/-- Does a word act as one with Y (R83, R196, R304)? -/
def actsAsY (i : WordInfo) (e : Mask) : Bool := (i.hdr.y || i.yields) && e != 0

/-- A word that has not completed, or whose hand-over a trap entry would end at once (R316): its Y has no effect. -/
def WordInfo.noYield (i : WordInfo) : WordInfo := { i with yields := false, hdr := { i.hdr with y := false } }

/-- The earliest cycle of a slot's next issue: STALL cycles after this one, and at least one (R68); a word that is tested again has been issued before. -/
def slotNext (s : State) (x : Slot) (i : WordInfo) : Nat :=
  if (x.pending.bind Pending.retest).isSome then x.ready else s.clock + max i.hdr.stall.toNat 1

/-- The convoy has been through the word: it leaves the issue, which ends with the last one. -/
def popTodo (s : State) (core h ci : Nat) (i : WordInfo) (e : Mask) : State :=
  let s1 := s.modSlot core h fun x => { x with ready := slotNext s x i, pending := x.pending.map fun p =>
    { p with
      todo := p.todo.filter fun q => q.1 != ci
      switches := p.switches || (i.switch && e != 0)
      ends := p.ends || (i.ends && e != 0)
      y := p.y || (p.mayY && actsAsY i e) } }
  match (s1.slotAt core h).pending with
  | some p => if p.todo.isEmpty then endIssue s1 core h else s1
  | none => s1

/-- The earliest cycle of a convoy's next word: STALL cycles after this one, and at least one (R54); a word that is tested again has been issued before. -/
def nextReady (s : State) (f : Focus) (i : WordInfo) : Nat :=
  if isRetest s f then (s.convoy f.convoy).ready else s.clock + max i.hdr.stall.toNat 1

/-- The scoreboard, the stall count and the error cells after a word (R54, R185, R320). -/
def settle (s : State) (f : Focus) (i : WordInfo) (e : Mask) : State :=
  let c := s.convoy f.convoy
  let late : Nat → List Reg → List Busy := fun n rs => rs.map fun r => { reg := r, cycle := s.clock + n, checked := true }
  let fixed := if e == 0 then [] else (match i.latency with
    | some n => late n (writeRegs i)
    | none => []) ++ i.fixed.flatMap fun p => late p.2 (opndRegs p.1 1)
  let wr := writeRegs i
  let (vf, rg) := if isRetest s f then (0, 0)
    else correctedReads (s.launchOf c).rec_.detection i c e f.active (backEdge c f.addr).isSome
  let c' := { c with
    ready := nextReady s f i
    busy := (c.busy.filter fun b => decide (s.clock < b.cycle)) ++ fixed
    errs := c.errs.filter fun x => !(wr.contains x.reg && (match x.lane with
      | some l => e.getLsbD l
      | none => e != 0)) }
  let s1 := (s.setConvoy f.convoy c').modCore f.core fun k => { k with secnt := secntAdd (secntAdd k.secnt 0 vf) 16 rg }
  s1.perfCount f.core 0x03 (if isRetest s f then 0 else countLanes c.width e)

/-- A word completes in a convoy (R44). -/
def complete (s : State) (f : Focus) (i : WordInfo) (e : Mask) (move : Nat → Option Pc) : State :=
  popTodo (advance (settle s f i e) f.convoy f.addr f.active move) f.core f.slot f.convoy i e

/-- A word that set every PC itself completes. -/
def completeJumped (s : State) (f : Focus) (i : WordInfo) (e : Mask) : State :=
  popTodo (settle s f i e) f.core f.slot f.convoy i e

/-- A word holds lanes of E, each mask for its own reason (R67). The other active lanes go on, unless the word ends a loop body, whose back-edge waits with it (R58). Its Y waits with the held lanes (R83). -/
def holdLanes (s : State) (f : Focus) (i : WordInfo) (e : Mask) (kinds : List (Mask × HoldKind)) : State :=
  let s1 := settle s f { i with latency := none, fixed := [] } e
  let c := s1.convoy f.convoy
  let edge := (backEdge c f.addr).isSome
  let held := kinds.foldl (fun m k => m ||| k.1) 0
  let more := if edge then f.active &&& ~~~ held else 0
  let y := (s.slotAt f.core f.slot).pending.any Pending.mayY && actsAsY i e
  let new := (indexed kinds).map fun k =>
    ({ lanes := if k.1 == 0 then k.2.1 ||| more else k.2.1, pc := f.addr, kind := k.2.2, y := y } : Hold)
  let s2 := s1.setConvoy f.convoy { c with holds := c.holds ++ new }
  let s3 := if edge || f.active &&& ~~~ held == 0 then s2 else advance s2 f.convoy f.addr (f.active &&& ~~~ held) stay
  popTodo s3 f.core f.slot f.convoy i.noYield e

/-- Held lanes by the address of their word. -/
def heldGroups : List Hold → List (Pc × Mask)
  | [] => []
  | h :: r =>
    let rest := heldGroups r
    if rest.any fun g => g.1 == h.pc then rest.map fun g => if g.1 == h.pc then (g.1, g.2 ||| h.lanes) else g
    else (h.pc, h.lanes) :: rest

/-- Does the end of a hold complete the word that holds? Lanes that were answered RETRY stand past it (R357). -/
def Hold.completes (h : Hold) : Bool :=
  match h.kind with
  | .retried _ => false
  | _ => true

/-- Lanes whose hold is released while they are away in a handler have completed their word: the return vector takes them to the next (R318). -/
def awayReleased (p : Hold → Bool) (held : Bool) (hs : List Hold) (c : Convoy) : Convoy :=
  (hs.filter fun h => p h && h.completes).foldl (fun c h => c.onLanes h.lanes fun _ x => if held then { x with hrv := h.pc.next } else { x with rv := h.pc.next }) c

/-- The addresses of words with Y that complete when some holds are released and others stay (R83). -/
def yieldsOf (released kept : List Hold) : List Pc :=
  ((released.filter fun h => h.y && !(kept.any fun k => k.y && k.pc == h.pc)).map Hold.pc).eraseDups

/-- Do other lanes of the word that a hold stands at, the last of a loop body, wait on when the holds that pass a test are released? Its back-edge waits with them (R58). -/
def edgeWaits (c : Convoy) (p : Hold → Bool) (h : Hold) : Bool :=
  (backEdge c h.pc).isSome && h.completes && c.holds.any fun k => k.pc == h.pc && !p k && k.kind != .edge

/-- Do lanes that have done their part of a word at the end of a loop body wait for one of those that are released (R58)? -/
def edgeReleased (c : Convoy) (p : Hold → Bool) (h : Hold) : Bool :=
  h.kind == .edge && (backEdge c h.pc).isSome && c.holds.any fun k => k.pc == h.pc && p k

/-- The holds that leave when those that pass a test are released: those, and the lanes of their words that waited for them at the end of a loop body (R58). -/
def leaves (c : Convoy) (p : Hold → Bool) (h : Hold) : Bool := (p h || edgeReleased c p h) && !edgeWaits c p h

/-- Release the holds of a convoy that pass a test: present lanes complete their word, with its Y, and lanes away in a handler go on after ERET (R67, R83, R318). The Y acts at the end of the step, when all that it releases has moved. -/
def releaseHolds (s : State) (ci : Nat) (p : Hold → Bool) : State :=
  let c := s.convoy ci
  let out := leaves c p
  let stays := (c.holds.filter fun h => !out h).map fun h => if p h then { h with kind := .edge } else h
  let away := c.rvHolds ++ c.hrvHolds
  let c1 := awayReleased p true c.hrvHolds (awayReleased p false c.rvHolds c)
  let s1 := s.setConvoy ci { c1 with
    holds := stays
    rvHolds := c.rvHolds.filter fun h => !p h
    hrvHolds := c.hrvHolds.filter fun h => !p h }
  let s2 := (heldGroups (c.holds.filter fun h => out h && h.completes)).foldl (fun s g => advance s ci g.1 g.2 stay) s1
  let ys := yieldsOf (c.holds.filter out ++ away.filter p) (stays ++ away.filter fun h => !p h)
  { s2 with yields := s2.yields ++ ys.map fun a => (c.core, c.slot, a) }

/-- The hand-overs of the words with Y that a step has completed by releasing their lanes (R83). -/
def startYields (s : State) : State :=
  s.yields.foldl (fun s y => yieldAbove s y.1 y.2.1 y.2.2) { s with yields := [] }

/-- Does some hold of the convoy, present or saved, pass a test? -/
def anyHold (c : Convoy) (p : Hold → Bool) : Bool := c.holds.any p || c.rvHolds.any p || c.hrvHolds.any p

/-- Where a trap of a cause goes from a state (R314). -/
def trapTarget (r : LaunchRec) (priv cause : Nat) : Nat :=
  if priv == 0 && delegable cause && r.deleg.getLsbD cause && r.utvec != 0 then 1 else 2

/-- TSTATUS from its fields (R313). -/
def packStatus (loops : Nat) (dbl deleg nest : Bool) (ppriv : Nat) : W64 :=
  BitVec.ofNat 64 (64 * loops + (if dbl then 32 else 0) + (if deleg then 16 else 0) + (if nest then 8 else 0) + ppriv)

/-- Trap entry closes off the open levels (R324). -/
def suspendLevel (v : LoopLevel) : LoopLevel := { v with suspended := true }

/-- Trap entry (R316, R317) of one convoy: `act` is the active set of the trapped word, `tpc` its TPC. The register writes of earlier words are complete after it. -/
def enterTrap (s : State) (ci cause : Nat) (tpc : Pc) (mask : Mask) (addr : W64) (act : Mask) : State :=
  let c := s.convoy ci
  let r := (s.launchOf c).rec_
  let new : TrapRegs := { cause := BitVec.ofNat 64 cause, pc := tpc.setWidth 64, addr := addr, mask := mask, act := act, status := 0 }
  let s0 := s.perfCount c.core 0x09 1
  if c.priv == 2 then
    (s0.setConvoy ci { c with
      trap := { new with status := packStatus 0 true false false 2 }, busy := [], parked := true, doubled := true
      watch := cause == causeLIVELOCK }).noteParked
  else
    let nest := c.priv == 1
    let target := trapTarget r c.priv cause
    let vec : Pc := if target == 1 then BitVec.ofNat 48 r.utvec else (s.core c.core).tvec.setWidth 48
    let open_ := (c.loops.filter fun v => !v.suspended).length
    let c1 := { c with
      held := if nest then c.trap else c.held
      hwatch := if nest then c.watch else c.hwatch
      watch := cause == causeLIVELOCK
      hrvValid := c.hrvValid || nest
      hrvHolds := if nest then c.rvHolds else c.hrvHolds
      rvHolds := c.holds
      holds := []
      trap := { new with status := packStatus open_ false (target == 1) nest c.priv }
      loops := c.loops.map suspendLevel
      busy := []
      priv := target }
    let c2 := c1.onLanes c.live fun l x =>
      { x with hrv := if nest then x.rv else x.hrv, rv := if act.getLsbD l then tpc else x.pc, pc := vec }
    let s1 := s0.setConvoy ci c2
    let s2 := if (s1.slotAt c.core c.slot).handover.isSome then endHandover s1 c.core c.slot else s1
    if watched s2 ci then s2.modSlot c.core c.slot fun x =>
      { x with watchdog := if x.mark < vec.toNat then 0 else x.watchdog, mark := max x.mark vec.toNat }
    else s2

/-- Must a trap wait until the convoy's earlier register writes are complete (R316)? -/
def trapWaits (s : State) (ci : Nat) : Bool := !(pendingRegs s ci).isEmpty

/-- A word faults (R52, R102): the trap is taken once earlier register writes are complete. The word was issued, so its stall count holds (R54). -/
def takeTrap (s : State) (f : Focus) (i : WordInfo) (cause : Nat) (mask : Mask) (addr : W64) : State :=
  if trapWaits s f.convoy then s
  else popTodo ((enterTrap s f.convoy cause f.addr mask addr f.active).modConvoy f.convoy fun c => { c with ready := nextReady s f i })
    f.core f.slot f.convoy i.noYield 0

/-- TRAP and BRK: the word completes, and the convoy then traps with TPC the next word (R204). -/
def completeThenTrap (s : State) (f : Focus) (i : WordInfo) (e : Mask) (cause : Nat) (addr : W64) : State :=
  if trapWaits s f.convoy then s
  else
    let s1 := advance (settle s f i e) f.convoy f.addr f.active stay
    let c := s1.convoy f.convoy
    let tpc := ((c.lane (lowLane c.width f.active))).pc
    popTodo (enterTrap s1 f.convoy cause tpc e addr f.active) f.core f.slot f.convoy i.noYield e

/-- Reopen the n levels that were suspended last (R318). -/
def reopenLevels (l : List LoopLevel) (n : Nat) : List LoopLevel :=
  let susp := (l.filter fun v => v.suspended).length
  (l.foldl (fun (acc : List LoopLevel × Nat) v =>
    if v.suspended then (acc.1 ++ [if susp - n ≤ acc.2 then { v with suspended := false } else v], acc.2 + 1)
    else (acc.1 ++ [v], acc.2)) ([], 0)).1

/-- The convoy of a return from a trap (R318): what its handler's own lanes wait for is dropped with the handler. -/
def returned (c : Convoy) : Convoy :=
  let st := c.trap.status.toNat
  let nest := c.trap.status.getLsbD 3
  let tpc : Pc := c.trap.pc.setWidth 48 &&& ~~~ 7#48
  let act := c.trap.act
  let c1 := c.onLanes c.live fun l x =>
    { x with pc := if act.getLsbD l then tpc else x.rv, rv := if nest then x.hrv else x.rv }
  { c1 with
    priv := st % 4
    loops := reopenLevels (c.loops.filter fun v => !(v.owner == c.priv && !v.suspended)) (st / 64 % 4)
    holds := c.rvHolds
    barl := if c.holds.any fun h => h.kind == .barl then none else c.barl
    rvHolds := if nest then c.hrvHolds else []
    hrvHolds := if nest then [] else c.hrvHolds
    hrvValid := if nest then false else c.hrvValid
    watch := nest && c.hwatch
    trap := if nest then c.held else c.trap }

/-- Return from a trap (R318) by the word at addr, for the whole convoy. Its lanes move like those of any word (R82, R84), and after a LIVELOCK the watchdog counts from 0, under the mark it has (R305). -/
def returnFromTrap (s : State) (ci : Nat) (addr : Pc) : State :=
  let c := s.convoy ci
  let c' := returned c
  let s1 := noteMoves (s.setConvoy ci c') ci addr c.live fun l => (c'.lane l).pc
  if c.watch then clearWatchdog s1 c.core c.slot else s1

/-- Execute a word in the convoy in focus: the shared checks, then its own effect. -/
def runWord (i : WordInfo) (s : State) (body : Focus → Convoy → Mask → Res) : Host.Outcome State Fault Refusal :=
  match s.focus with
  | none => .fault .noIssue
  | some f =>
    match gate s f i with
    | .wait => .next s
    | .skip => .next (complete s f i 0 stay)
    | .trap cause mask addr => .next (takeTrap s f i cause mask (BitVec.ofNat 64 addr))
    | .go e =>
      match body f (s.convoy f.convoy) e with
      | .done s' move => .next (complete s' f i e move)
      | .jumped s' => .next (completeJumped s' f i e)
      | .after s' cause addr => .next (completeThenTrap s' f i e cause addr)
      | .trap s' cause mask addr => .next (takeTrap s' f i cause mask addr)
      | .hold s' kinds => .next (holdLanes s' f i e kinds)
      | .wait s' => .next s'

/-- A word with one 32-bit result per lane, or one for the convoy, and no effect but that and its flags. -/
def runValue (i : WordInfo) (d : Opnd) (s : State) (val : Convoy → Nat → W32 × FlagSet) : Host.Outcome State Fault Refusal :=
  runWord i s fun f c e =>
    doneWith s f ((writeRes32 c e d fun l => (val c l).1).orFlags
      (match d with
       | .s _ => (val c (lowLane c.width e)).2
       | _ => flagsOver c.width e fun l => (val c l).2))

/-- A word with one 64-bit result. -/
def runValue64 (i : WordInfo) (d : Opnd) (s : State) (val : Convoy → Nat → W64) : Host.Outcome State Fault Refusal :=
  runWord i s fun f c e => doneWith s f (writeRes64 c e d fun l => val c l)

/-- A word that writes one bit per lane of a K register. -/
def runMask (i : WordInfo) (d : Opnd) (s : State) (val : Convoy → Mask → Nat → Bool × FlagSet) : Host.Outcome State Fault Refusal :=
  runWord i s fun f c e =>
    match d with
    | .k n => doneWith s f ((c.writeK e n.toNat (maskWhere c.width fun l => e.getLsbD l && (val c e l).1)).orFlags
        (flagsOver c.width e fun l => (val c e l).2))
    | _ => .done s stay

/-- The kinds of effect a step of an engine, of the hub or of the outside has: always a next state. -/
def stepTo (s : State) : Host.Outcome State Fault Refusal := .next s

end Sys2Proof.Machine
end

