-- ==== Sys2Proof/Machine/Xlate.lean ====
section
/-! DEFINITION. Address translation (R346 to R352): the physical map, the walk, the TLBs of cores and dies, and the accessed and dirty bits. -/

namespace Sys2Proof.Machine

/-- The size of this module's device memory, 192 GiB (R346). -/
def localSize : Nat := 0x3000000000

/-- Bits [45:44] of a physical address (R346). -/
def paSelector (pa : Nat) : Nat := pa / 2 ^ 44 % 4

/-- The peer module a physical address names (R346). -/
def paPeer (pa : Nat) : Nat := pa / 2 ^ 38 % 64

def paIsLocal (pa : Nat) : Bool := decide (pa < localSize)
def paIsPeer (pa : Nat) : Bool := paSelector pa == 1
def paIsHost (pa : Nat) : Bool := paSelector pa == 2

/-- The physical address of a host bus address (R346). -/
def hostPa (a : Nat) : Nat := 2 * 2 ^ 44 + a % 2 ^ 44

/-- May traffic reach a peer: the avenues are in use (R362), and it is in the domain, with a live port (R375)? -/
def peerReachable (h : Hub) (p : Nat) : Bool :=
  let m := h.portMasks.getD p 0
  h.ready.getLsbD 8 && m != 0 && p != h.ownModule && (List.range 16).any fun i => m.getLsbD i && h.ports.getD i false

/-- Is a physical address mapped (R346, R375)? -/
def paMapped (s : State) (pa : Nat) : Bool :=
  match paSelector pa with
  | 0 => paIsLocal pa
  | 1 => peerReachable s.hub (paPeer pa)
  | 2 => true
  | _ => false

/-- Does a local address lie in a frame whose migration slot is armed (R356)? -/
def armedFrame (s : State) (pa : Nat) : Bool :=
  s.hub.migrations.any fun m =>
    let size := if m.mctl.getLsbD 1 then 2 ^ 21 else 2 ^ 16
    m.mctl.getLsbD 0 && paIsLocal pa && pa / size == m.msrc.toNat / size

/-- Does a range of local bytes meet an armed frame (R356)? -/
def armedRange (s : State) (a n : Nat) : Bool :=
  s.hub.migrations.any fun m =>
    let size := if m.mctl.getLsbD 1 then 2 ^ 21 else 2 ^ 16
    m.mctl.getLsbD 0 && rangesMeet (m.msrc.toNat / size * size) size a n && paIsLocal (m.msrc.toNat / size * size)

/-- Page-table entry fields (R348). -/
def pteV (e : W64) : Bool := e.getLsbD 0
def pteLeaf (e : W64) : Bool := e.getLsbD 1
def pteW (e : W64) : Bool := e.getLsbD 2
def pteX (e : W64) : Bool := e.getLsbD 3
def pteU (e : W64) : Bool := e.getLsbD 4
def pteSC (e : W64) : Bool := e.getLsbD 5
def pteRC (e : W64) : Bool := e.getLsbD 6
def pteCS (e : W64) : Bool := e.getLsbD 7
def pteA (e : W64) : Bool := e.getLsbD 46
def pteD (e : W64) : Bool := e.getLsbD 47

/-- ADDR as a physical address, bits [45:8] in place. -/
def pteAddr (e : W64) : Nat := (e.extractLsb' 8 38).toNat * 256

def setA (e : W64) : W64 := e ||| (1#64 <<< 46)
def setD (e : W64) : W64 := e ||| (1#64 <<< 47)

/-- Is a valid entry read at a level malformed (R349)? -/
def pteMalformed (level : Nat) (e : W64) : Bool :=
  e.extractLsb' 48 16 != 0 ||
  (if pteLeaf e then level == 1 || pteAddr e % (if level == 2 then 2 ^ 21 else 2 ^ 16) != 0
   else level == 3 || e.extractLsb' 46 2 != 0 || e.extractLsb' 2 6 != 0 || paSelector (pteAddr e) != 0 ||
     pteAddr e % (if level == 1 then 2 ^ 16 else 256) != 0)

/-- How a walk ends: with a leaf and its address, with no translation, or unable to go on for now because an entry lies in an armed frame (R356). -/
inductive Walk where
  | leaf (e : W64) (at_ : Nat) (large : Bool)
  | fail
  | stall
  deriving DecidableEq, Repr

/-- The index of a virtual address at a level (R348). -/
def walkIndex (level va : Nat) : Nat :=
  if level == 1 then va / 2 ^ 34 % 2 ^ 14 else if level == 2 then va / 2 ^ 21 % 2 ^ 13 else va / 2 ^ 16 % 2 ^ 5

/-- Walk n levels, from the table at an address; each entry is read at its home. -/
def walkFrom (s : State) (va : Nat) : Nat → Nat → Nat → Walk
  | 0, _, _ => .fail
  | n + 1, level, table =>
    let at_ := table + 8 * walkIndex level va
    if !paIsLocal at_ then .fail
    else if armedFrame s at_ then .stall
    else if s.memBad at_ 8 then .fail
    else
      let e := memWord s.mem at_
      if !pteV e || pteMalformed level e then .fail
      else if pteLeaf e then .leaf e at_ (level == 2)
      else walkFrom s va n (level + 1) (pteAddr e)

/-- The walk of a context (R347, R348). -/
def walk (s : State) (ctx va : Nat) : Walk :=
  let r := s.hub.roots.getD ctx 0
  let table := (r.extractLsb' 17 29).toNat * 2 ^ 17
  if !r.getLsbD 0 || !paIsLocal table then .fail else walkFrom s va 3 1 table

/-- Does an entry translate an address in a context? -/
def tlbHit (ctx va : Nat) (t : TlbEntry) : Bool :=
  t.ctx == ctx && t.page == va / (if t.large then 2 ^ 21 else 2 ^ 16)

def dieOf (core : Nat) : Nat := core / 64

def State.dieTlb (s : State) (d : Nat) : List TlbEntry := s.dieTlbs.getD d []
def State.modDieTlb (s : State) (d : Nat) (f : List TlbEntry → List TlbEntry) : State :=
  { s with dieTlbs := s.dieTlbs.set d (f (s.dieTlb d)) }

/-- The entry in use for an address: the core's, else the die's (R352). -/
def tlbLookup (s : State) (core ctx va : Nat) : Option TlbEntry :=
  match (s.core core).tlb.find? (tlbHit ctx va) with
  | some t => some t
  | none => (s.dieTlb (dieOf core)).find? (tlbHit ctx va)

/-- Put an entry into the TLB of the core, of 128 entries, and of its die, of 8,192 (R352). -/
def tlbInsert (s : State) (core : Nat) (t : TlbEntry) : State :=
  let put : Nat → List TlbEntry → List TlbEntry := fun n l =>
    (t :: l.filter fun x => !(x.ctx == t.ctx && x.page == t.page && x.large == t.large)).take n
  (s.modCore core fun c => { c with tlb := put 128 c.tlb }).modDieTlb (dieOf core) (put 8192)

/-- Drop from a core and its die the entries that translate an address. -/
def tlbDrop (s : State) (core ctx va : Nat) : State :=
  let keep : List TlbEntry → List TlbEntry := fun l => l.filter fun t => !tlbHit ctx va t
  (s.modCore core fun c => { c with tlb := keep c.tlb }).modDieTlb (dieOf core) keep

/-- Set bits in a leaf at its home, if it still is valid with the same ADDR (R351) and its own frame is not armed (R356). -/
def orLeaf (s : State) (at_ : Nat) (leaf bits : W64) : Option State :=
  let e := memWord s.mem at_
  if pteV e && pteAddr e == pteAddr leaf && !armedFrame s at_ then some (s.putMem at_ (leBytes 8 (e ||| bits).toNat)) else none

/-- Fill the TLBs from a walk, setting A (R351). -/
def tlbFill (s : State) (core ctx va : Nat) : Walk ⊕ (State × TlbEntry) :=
  match walk s ctx va with
  | .leaf e at_ large =>
    let t : TlbEntry :=
      { ctx := ctx, page := va / (if large then 2 ^ 21 else 2 ^ 16), large := large, leaf := setA e, leafAt := at_ / 8 }
    let s1 := if pteA e then s else (orLeaf s at_ e (1#64 <<< 46)).getD s
    .inr (tlbInsert s1 core t, t)
  | w => .inl w

/-- Use a TLB entry for a write: set D where it is 0, or none when the entry in memory has changed (R351). -/
def tlbDirty (s : State) (core : Nat) (t : TlbEntry) : Option (State × TlbEntry) :=
  if pteD t.leaf then some (s, t)
  else (orLeaf s (8 * t.leafAt) t.leaf (1#64 <<< 47)).map fun s1 =>
    let t1 : TlbEntry := { t with leaf := setD t.leaf }
    (tlbInsert s1 core t1, t1)

/-- What an access asks of a translation. -/
structure XlateReq where
  core : Nat
  ctx : Nat
  write : Bool
  fetch : Bool
  user : Bool

/-- How a translation ends: a physical address under a leaf, a cause, or not yet. -/
inductive Xlate where
  | ok (s : State) (pa : Nat) (leaf : W64)
  | bad (s : State) (cause : Nat)
  | stall

/-- The physical address an entry gives. -/
def tlbPa (t : TlbEntry) (va : Nat) : Nat :=
  if t.large then pteAddr t.leaf / 2 ^ 21 * 2 ^ 21 + va % 2 ^ 21 else pteAddr t.leaf / 2 ^ 16 * 2 ^ 16 + va % 2 ^ 16

/-- The checks of a leaf (R349), and the dirty bit; n says how often the access may walk again. -/
def xlateWith (r : XlateReq) (va : Nat) : Nat → State → TlbEntry → Xlate
  | 0, s, _ => .bad s causePAGEFAULT
  | n + 1, s, t =>
    let pa := tlbPa t va
    if r.write && !pteW t.leaf then .bad s causeACCESS
    else if r.fetch && !pteX t.leaf then .bad s causeACCESS
    else if r.user && !pteU t.leaf then .bad s causeACCESS
    else if !paMapped s pa then .bad s causeACCESS
    else if !r.write then .ok s pa t.leaf
    else match tlbDirty s r.core t with
      | some (s1, t1) => .ok s1 pa t1.leaf
      | none =>
        let s1 := tlbDrop s r.core r.ctx va
        match tlbFill s1 r.core r.ctx va with
        | .inr (s2, t2) => xlateWith r va n s2 t2
        | .inl .stall => .stall
        | .inl _ => .bad s1 causePAGEFAULT

/-- Translate a virtual address below 2^48 (R346 to R352). -/
def xlate (s : State) (r : XlateReq) (va : Nat) : Xlate :=
  match tlbLookup s r.core r.ctx va with
  | some t => xlateWith r va 3 (tlbInsert s r.core t) t
  | none =>
    match tlbFill s r.core r.ctx va with
    | .inr (s1, t) => xlateWith r va 3 s1 t
    | .inl .stall => .stall
    | .inl _ => .bad s causePAGEFAULT

/-- Does an access that is made at its home have to wait: for an armed frame (R356), or for the posted writes before it on the host link (R99)? -/
def homeBusy (s : State) (pa : Nat) : Bool := armedFrame s pa || (paIsHost pa && !s.hub.posted.isEmpty)

/-- Translate for an access that is made at its home at once: a TLB entry that leads to an armed frame is dropped, and the address walked again (R357). -/
def xlateHome (s : State) (r : XlateReq) (va : Nat) : Xlate :=
  match xlate s r va with
  | .ok s1 pa leaf =>
    if !armedFrame s1 pa then .ok s1 pa leaf
    else (match xlate (tlbDrop s1 r.core r.ctx va) r va with
      | .ok s2 pa2 leaf2 => if armedFrame s2 pa2 then .stall else .ok s2 pa2 leaf2
      | x => x)
  | x => x

/-- Bytes written at their home: host memory takes them behind the posted writes of the module (R99). -/
def homePut (s : State) (pa : Nat) (bs : List Byte) : State :=
  if paIsHost pa then s.modHub fun h => { h with posted := h.posted ++ [.write pa bs none] } else s.putMem pa bs

/-- The translation the device makes on its own in a context (R126, R131, R132, R153, R335): no privilege is asked of the page, and nothing is kept in a TLB. -/
def deviceXlate (s : State) (ctx va : Nat) (write : Bool) : Nat ⊕ Nat :=
  if 2 ^ 48 ≤ va then .inl causeACCESS
  else match walk s ctx va with
    | .leaf e _ large =>
      let pa := tlbPa { ctx := ctx, page := 0, large := large, leaf := e, leafAt := 0 } va
      if (write && !pteW e) || !paMapped s pa then .inl causeACCESS else .inr pa
    | _ => .inl causePAGEFAULT

/-- Must an access of the device to n bytes wait: for an armed frame, its own or one on the walk (R356), or for posted writes (R99)? -/
def deviceStalls (s : State) (ctx va n : Nat) : Bool :=
  (List.range ((va % 65536 + n + 65535) / 65536)).any fun i =>
    let a := if i == 0 then va else (va / 65536 + i) * 65536
    decide (a < 2 ^ 48) && (match walk s ctx a with
      | .stall => true
      | .fail => false
      | .leaf e _ large => homeBusy s (tlbPa { ctx := ctx, page := 0, large := large, leaf := e, leafAt := 0 } a))

/-- Read n bytes at a virtual address, one byte after the other where they cross pages. Whoever calls it has waited where the access must wait. -/
def deviceRead (s : State) (ctx va n : Nat) : Nat ⊕ List Byte :=
  (List.range n).foldl (fun acc i => match acc with
    | .inl c => .inl c
    | .inr bs => match deviceXlate s ctx (va + i) false with
      | .inl c => .inl c
      | .inr pa => .inr (bs ++ [memGet s.mem pa])) (.inr [])

/-- Read a naturally aligned field of a few bytes. -/
def deviceNat (s : State) (ctx va n : Nat) : Nat ⊕ Nat :=
  match deviceXlate s ctx va false with
  | .inl c => .inl c
  | .inr pa => .inr (memNat s.mem pa n)

/-- Write a naturally aligned field, if it has a writable translation. -/
def deviceWrite (s : State) (ctx va : Nat) (bs : List Byte) : Option State :=
  match deviceXlate s ctx va true with
  | .inl _ => none
  | .inr pa => some (homePut s pa bs)

/-- The request of a convoy (R349): user and user-handler state need U. -/
def convoyReq (s : State) (c : Convoy) (write : Bool) : XlateReq :=
  { core := c.core, ctx := s.ctxOf c, write := write, fetch := false, user := c.priv != 2 }

end Sys2Proof.Machine
end

