-- ==== Sys2Proof/Machine/Order.lean ====
section
/-! DEFINITION. Itineraries and canonical order (R125 to R158): occurrences, reservations, records, matching, ownership and buffers. -/

namespace Sys2Proof.Machine

/-- The occurrence counter of an actor (R135). -/
def occGet (c : Convoy) (lane : Option Nat) (tag : BitVec 12) : Nat :=
  match c.occ.find? fun o => o.lane == lane && o.tag == tag with
  | some o => o.count.toNat
  | none => 0

/-- Is a counter in use (R143, R286)? -/
def occUsed (c : Convoy) (lane : Option Nat) (tag : BitVec 12) : Bool :=
  c.occ.any fun o => o.lane == lane && o.tag == tag

def occSet (c : Convoy) (lane : Option Nat) (tag : BitVec 12) (n : Nat) : Convoy :=
  if occUsed c lane tag then
    { c with occ := c.occ.map fun o => if o.lane == lane && o.tag == tag then { o with count := BitVec.ofNat 32 n } else o }
  else { c with occ := c.occ ++ [{ lane := lane, tag := tag, count := BitVec.ofNat 32 n }] }

/-- The actors of a word (R134): the convoy, or each lane of E. -/
def actorsOf (c : Convoy) (e : Mask) (isConvoy : Bool) : List (Option Nat) :=
  if isConvoy then [none] else (lanesOf c.width e).map some

/-- The lanes an actor stands for. -/
def actorMask (e : Mask) : Option Nat → Mask
  | none => e
  | some l => laneBit l

/-- The interval key of a block (R138). A crossing number of 2^16 or more makes a key wider than the 32 bits of a record, where only its low 32 bits stand (assumption log 41). -/
def intervalKey (l : Launch) (b : Block) : Nat := l.crossings * 65536 + b.gens % 65536

/-- The reversal class of an atomic, by its MOD[3:0] code (R146). -/
def atomClass (op : Nat) : Nat := if op == 0 || op == 5 || op == 6 || op == 7 || op == 11 then 1 else 2

/-- The op byte of a record (R130). -/
def atomOpByte (op : Nat) (mmrg : Bool) : Nat := if mmrg then 0x10 else op

/-- The bytes of a record (R130). -/
def recordBytes (r : ItinRec) : List Byte :=
  leBytes 8 r.addr ++ leBytes 4 r.seqpos ++ leBytes 4 r.block ++ leBytes 1 r.convoy ++ leBytes 1 r.lane ++ leBytes 2 r.tag ++
    leBytes 4 r.occ ++ leBytes 1 r.kind ++ leBytes 1 r.cls ++ leBytes 1 r.opcode ++ leBytes 1 r.grain ++ leBytes 4 r.extra

/-- A field of a list of bytes. -/
def bytesNat (bs : List Byte) (off n : Nat) : Nat := leNat ((bs.drop off).take n)

/-- A record from its bytes (R130). What stands beside the tag is dropped (assumption log 41). -/
def recordOf (bs : List Byte) : ItinRec :=
  { addr := bytesNat bs 0 8, seqpos := bytesNat bs 8 4, block := bytesNat bs 12 4, convoy := bytesNat bs 16 1,
    lane := bytesNat bs 17 1, tag := bytesNat bs 18 2 % 4096, occ := bytesNat bs 20 4, kind := bytesNat bs 24 1,
    cls := bytesNat bs 25 1, opcode := bytesNat bs 26 1, grain := bytesNat bs 27 1, extra := bytesNat bs 28 4 }

/-- Where a record lies: at an address, nowhere, or not yet known because a header lies in an armed frame (R356). -/
inductive RecordAt where
  | found (a : Nat)
  | full
  | stall
  deriving DecidableEq, Repr

/-- The slot of a record in the chain of extension segments (R131), from the segment at an address. A segment whose header cannot be read counts as no segment (assumption log 41). -/
def segmentSlot (s : State) (ctx : Nat) : Nat → Nat → Nat → RecordAt
  | 0, _, _ => .full
  | n + 1, seg, i =>
    if seg == 0 || seg % 32 != 0 then .full
    else if deviceStalls s ctx seg 32 then .stall
    else match deviceRead s ctx seg 32 with
      | .inl _ => .full
      | .inr h =>
        let cap := bytesNat h 0 4
        if cap == 0 || bytesNat h 4 4 != 0 || bytesNat h 16 8 != 0 || bytesNat h 24 8 != 0 then .full
        else if i < cap then .found (seg + 32 + 32 * i)
        else segmentSlot s ctx n (bytesNat h 8 8) (i - cap)

/-- The address of record i of an itinerary: the main area, then the segments in chain order (R129, R131). A header field that cannot be read counts as no room (assumption log 41). -/
def slotAddr (s : State) (ctx itin i : Nat) : RecordAt :=
  if deviceStalls s ctx itin 64 then .stall
  else match deviceNat s ctx (itin + 0x18) 4, deviceNat s ctx (itin + 0x28) 8 with
    | .inr cap, .inr seg => if i < cap then .found (itin + 0x40 + 32 * i) else segmentSlot s ctx (i + 1) seg (i - cap)
    | _, _ => .full

/-- How a reservation ends (R131): with slots, with a cause and its TADDR, or not yet. -/
inductive Reserve where
  | ok (slots : List Nat)
  | bad (cause addr : Nat)
  | wait
  deriving DecidableEq, Repr

/-- The first n record slots after those reserved, or the cause and TADDR that R131 gives. -/
def reserveFrom (s : State) (l : Launch) : Nat → Nat → List Nat → Reserve
  | 0, _, acc => .ok acc
  | n + 1, i, acc =>
    match slotAddr s l.queue l.rec_.itin i with
    | .full => .bad causeITINFULL l.rec_.itin
    | .stall => .wait
    | .found a => reserveFrom s l n (i + 1) (acc ++ [a])

/-- Reserve n slots (R131): ITINFULL ranks before the memory cause of a slot. -/
def reserveSlots (s : State) (l : Launch) (n : Nat) : Reserve :=
  match reserveFrom s l n l.reserved [] with
  | .ok as =>
    if as.any fun a => deviceStalls s l.queue a 32 then .wait
    else as.foldl (fun acc a => match acc, deviceXlate s l.queue a true with
      | .ok _, .inl c => .bad c a
      | r, _ => r) (.ok as)
  | r => r

/-- Must a record wait to be written, because its slot lies in an armed frame (R356)? -/
def recordStalls (s : State) (l : Launch) (slot : Nat) : Bool := deviceStalls s l.queue slot 32

/-- Write a record into its slot; a slot that has lost its translation stays unwritten. -/
def writeRecord (s : State) (l : Launch) (slot : Nat) (r : ItinRec) : State :=
  (deviceWrite s l.queue slot (recordBytes r)).getD s

/-- Does a launch record at grain FINE, or BARRIER (R137)? -/
def recordsFine (l : Launch) : Bool := l.recording && l.rec_.grain == 2
def recordsBarrier (l : Launch) : Bool := l.recording && l.rec_.grain == 1

/-- The record of an actor's occurrence (R139, R143). -/
def findRecord (l : Launch) (block convoy : Nat) (lane : Option Nat) (tag occ kind : Nat) : Option ItinRec :=
  l.bound.find? fun r => r.kind == kind && r.block == block && r.convoy == convoy && r.lane == lane.getD 0xFF &&
    r.tag == tag && r.occ == occ

/-- The ASET record of an address, block and key (R138). -/
def findAset (l : Launch) (addr block key : Nat) : Option ItinRec :=
  l.bound.find? fun r => r.kind == 4 && r.addr == addr && r.block == block && r.seqpos == key

/-- What a tagged release, a tagged acquire or an atomic is to an itinerary: its kind (1, 2, 3), tag, op byte and class. -/
structure OrderWord where
  kind : Nat
  tag : BitVec 12
  opcode : Nat
  cls : Nat

/-- The outcome of the order-mode checks: the state with occurrences counted and slots reserved, and what each actor's access carries; a cause with its lanes and address; or not yet. -/
inductive OrderRes where
  | ok (s : State) (info : List (Option Nat × ItinInfo))
  | bad (cause : Nat) (mask : Mask) (addr : Nat)
  | wait

/-- The address of the lowest lane of a mask. -/
def addrOf (lanes : List (Nat × Nat)) (m : Mask) : Nat :=
  ((lanes.find? fun p => m.getLsbD p.1).map Prod.snd).getD 0

/-- The union of the lanes of the actors that fail a test. -/
def actorsWhere (e : Mask) (as : List (Option Nat)) (p : Option Nat → Bool) : Mask :=
  (as.filter p).foldl (fun m a => m ||| actorMask e a) 0

/-- The info of an actor. -/
def actorInfo (s : State) (ci : Nat) (w : OrderWord) (e : Mask) (a : Option Nat) (slot : Option Nat) (occ key : Nat) : ItinInfo :=
  let c := s.convoy ci
  { kind := w.kind, slot := slot, block := (s.blockOf c).index, convoy := c.index, lane := a, tag := w.tag,
    occ := BitVec.ofNat 32 occ, opcode := w.opcode, cls := w.cls, key := key,
    ops := match a with
      | none => countLanes c.width e
      | some _ => 1,
    last := true }

/-- Count the occurrence of every actor (R135). -/
def countOccurrences (c : Convoy) (tag : BitVec 12) (as : List (Option Nat)) : Convoy :=
  as.foldl (fun c a => occSet c a tag (occGet c a tag + 1)) c

/-- The addresses that have no ASET record yet in the interval of a block (R138). -/
def freshAsets (l : Launch) (b : Block) (addrs : List Nat) : List Nat :=
  (addrs.filter fun a => !l.asets.any fun x => x.addr == a && x.block == b.index && x.key == intervalKey l b).eraseDups

/-- Enter the ASET records of some addresses, with their slots (R138). -/
def addAsets (s : State) (li : Nat) (b : Block) (w : OrderWord) (fresh slots : List Nat) : State :=
  s.modLaunch li fun l => { l with
    reserved := l.reserved + fresh.length
    asets := l.asets ++ (fresh.zip slots).map fun p =>
      { addr := p.1, block := b.index, key := intervalKey l b, slot := p.2, tag := w.tag, opcode := w.opcode, count := 0 } }

/-- The order-mode causes and the itinerary part of a tagged release, a tagged acquire or an atomic (R133 to R142, R151): `lanes` gives the address of each lane of E. -/
def orderWord (s : State) (ci : Nat) (w : OrderWord) (e : Mask) (isConvoy : Bool) (lanes : List (Nat × Nat)) : OrderRes :=
  let c := s.convoy ci
  let l := s.launchOf c
  let b := s.blockOf c
  let as := actorsOf c e isConvoy
  if l.rec_.mode == 3 then .ok s []
  else
    let full := actorsWhere e as fun a => decide (occGet c a w.tag + 1 ≥ 2 ^ 32)
    if full != 0 then .bad causeORDMODE full (addrOf lanes full)
    else
      let c1 := countOccurrences c w.tag as
      let s1 := s.setConvoy ci c1
      let addr : Option Nat → Nat := fun a => addrOf lanes (actorMask e a)
      if l.rec_.mode == 2 then
        (if l.boundGrain == 2 then
          let rec_ : Option Nat → Option ItinRec := fun a =>
            (findRecord l b.index c.index a w.tag.toNat (occGet c1 a w.tag) w.kind).filter fun r => r.addr == addr a
          let bad := actorsWhere e as fun a => (rec_ a).isNone
          if bad != 0 then .bad causeORDAMBIG bad (addrOf lanes bad)
          else .ok s1 (as.map fun a =>
            (a, actorInfo s ci w e a none (occGet c1 a w.tag) ((rec_ a).map ItinRec.seqpos |>.getD 0)))
        else
          let needs := w.kind == 3 && w.cls == 2
          let bad := actorsWhere e as fun a => needs && (l.boundGrain == 0 ||
            ((findAset l (addr a) b.index (intervalKey l b)).map ItinRec.extra) != some 1)
          if bad != 0 then .bad causeORDAMBIG bad (addrOf lanes bad) else .ok s1 [])
      else if recordsFine l then
        (match reserveSlots s1 l as.length with
         | .bad cause a => .bad cause e a
         | .wait => .wait
         | .ok slots =>
           .ok (s1.modLaunch c.launch fun l => { l with reserved := l.reserved + as.length })
             ((as.zip slots).map fun p => (p.1, actorInfo s ci w e p.1 (some p.2) (occGet c1 p.1 w.tag) 0)))
      else if recordsBarrier l && w.kind == 3 && w.cls == 2 then
        (match reserveSlots s1 l (freshAsets l b (as.map addr)).length with
         | .bad cause a => .bad cause e a
         | .wait => .wait
         | .ok slots =>
           .ok (addAsets s1 c.launch b w (freshAsets l b (as.map addr)) slots)
             (as.map fun a => (a, actorInfo s ci w e a none (occGet c1 a w.tag) (intervalKey l b))))
      else .ok s1 []

/-- Who owns a granule (R153). -/
inductive Own where
  | shared
  | owner (b : Nat)
  | bad
  | unreadable (cause addr : Nat)
  | stall
  deriving DecidableEq, Repr

/-- The owner of an address in a CANONICAL launch (R153, R154): the map's header is the one of the admission, its entries are read anew. -/
def ownOf (s : State) (l : Launch) (va : Nat) (leaf : W64) : Own :=
  if pteCS leaf || decide (va < l.map.base) || decide (l.map.granules ≤ (va - l.map.base) / 4096) then .shared
  else
    let at_ := l.rec_.omap + 0x40 + 4 * ((va - l.map.base) / 4096)
    if deviceStalls s l.queue at_ 4 then .stall
    else match deviceNat s l.queue at_ 4 with
    | .inl c => .unreadable c at_
    | .inr v => if v == 0xFFFFFFFF then .shared else if v < l.rec_.grid then .owner v else .bad

/-- May the block touch the granule directly or as shared? -/
def ownOk (b : Block) : Own → Bool
  | .shared => true
  | .owner n => n == b.index
  | _ => false

def isShared : Own → Bool
  | .shared => true
  | _ => false

/-- The first causes of R151: an entry that cannot be read, then OWNERSHIP; lanes come with address and owner. -/
def ownershipCause (b : Block) (lanes : List (Nat × Nat × Own)) : Option (Nat × Mask × Nat) :=
  match lanes.find? fun p => match p.2.2 with
      | .unreadable _ _ => true
      | _ => false with
  | some (_, _, .unreadable cause at_) =>
    some (cause, maskOf ((lanes.filter fun p => match p.2.2 with
      | .unreadable c _ => c == cause
      | _ => false).map Prod.fst), at_)
  | _ =>
    match lanes.find? fun p => !ownOk b p.2.2 with
    | some (_, va, _) => some (causeOWNERSHIP, maskOf ((lanes.filter fun p => !ownOk b p.2.2).map Prod.fst), va)
    | none => none

/-- The next place of a lane in its issue order of buffered accesses (R156). -/
def issueOrder (b : Block) (convoy lane : Nat) : Nat := assoc b.order (convoy * 64 + lane) 0

/-- Buffer one access of a lane (R154, R155). -/
def bufferAccess (s : State) (ci lane va pa : Nat) (kind : AccKind) (by_ : Sender) : State :=
  let c := s.convoy ci
  let b := s.blockOf c
  let n := issueOrder b c.index lane
  (s.modLaunch c.launch fun l => { l with buffer := l.buffer ++
    [{ block := b.index, convoy := c.index, lane := lane, order := n, element := 0, va := va, pa := pa, kind := kind, sender := by_, waiting := s.clock }] }).modBlock c.block
    fun b => { b with buffered := b.buffered + 1, order := assocSet b.order (c.index * 64 + lane) (n + 1) }

/-- The place of a buffered access in the commit (R156, R158). -/
def Buffered.place (x : Buffered) : List Nat := [x.block, x.convoy, x.lane, x.order, x.element]

def listLt : List Nat → List Nat → Bool
  | a :: r, b :: t => decide (a < b) || (a == b && listLt r t)
  | _, _ => false

/-- Insert into a list kept in the order of the commit. -/
def commitInsert (x : Buffered) : List Buffered → List Buffered
  | [] => [x]
  | y :: r => if listLt x.place y.place then x :: y :: r else y :: commitInsert x r

def commitOrder (l : List Buffered) : List Buffered := l.foldr commitInsert []

end Sys2Proof.Machine
end

