-- ==== Sys2Proof/Machine/Access.lean ====
section
/-! DEFINITION. Global memory (R87 to R102): the addresses and checks of a word, its accesses in flight, their performance at the home, and the bounds of releases and acquires. -/

namespace Sys2Proof.Machine

/-- Is an access a write at its home? -/
def Access.isWrite (a : Access) : Bool :=
  match a.kind with
  | .store _ => true
  | .atom .. => true
  | _ => false

/-- Does an access take a value: a load or an atomic? -/
def Access.isRead (a : Access) : Bool :=
  match a.kind with
  | .load .. => true
  | .atom .. => true
  | _ => false

/-- Does it return a value to registers? -/
def Access.returns (a : Access) : Bool :=
  match a.kind with
  | .load .. => true
  | .atom _ _ _ d => d.isSome
  | _ => false

def Access.isLoad (a : Access) : Bool :=
  match a.kind with
  | .load .. => true
  | .fill _ => true
  | _ => false

def Access.unperformed (a : Access) : Bool :=
  match a.phase with
  | .sent => true
  | _ => false

/-- Do two accesses meet (R87): in their bytes, or by the addresses that one launch has for them, also while a migration moves the page from one frame to another (R357)? -/
def Access.meets (a b : Access) : Bool :=
  rangesMeet a.pa a.size b.pa b.size || (a.launch == b.launch && rangesMeet a.va a.size b.va b.size)

/-- Do two accesses lie in one line, in the same sense? -/
def Access.sameLine (a b : Access) : Bool :=
  lineOf a.pa == lineOf b.pa || (a.launch == b.launch && lineOf a.va == lineOf b.va)

/-- May a line of the access stand in an L1? A peer line whose page lacks RC is read at the peer's home (R98). -/
def Access.mayLine (a : Access) : Bool := !paIsPeer a.pa || a.rc

/-- May an L1 answer it: it is a plain read (R91, R95, R98, R100)? -/
def Access.cached (a : Access) : Bool := !(a.acq || a.sc || a.home) && a.mayLine

/-- Do the scopes of a release or an acquire act: TDM and wider, and BLK in a tandem block (R95)? -/
def scopeActs (l : Launch) (scope : Nat) : Bool := decide (2 ≤ scope) || (scope == 1 && l.rec_.tandem)

/-- Is everything acknowledged that a release must wait for: the sequencer's writes, and the convoy's reads, of issues before n (R95)? A write to host memory is, once it is in the queue of the host link (assumption log 45). -/
def releaseClear (s : State) (core seq ci n : Nat) : Bool :=
  !s.accesses.any fun b => decide (b.number < n) &&
    ((b.core == core && b.seq == seq && b.isWrite) || (b.convoy == ci && b.isRead))

/-- Have all reads of a convoy returned (R104)? -/
def readsClear (s : State) (ci : Nat) : Bool := !s.accesses.any fun b => b.convoy == ci && b.isRead

/-- The bound an acquire imposes (R95): at DOM and SYS square copies are bounded too. -/
def acquireBound (s : State) (ci scope at_ : Nat) : State :=
  let c := s.convoy ci
  if scopeActs (s.launchOf c) scope then
    s.setConvoy ci { c with bound := max c.bound at_, domBound := if 4 ≤ scope then max c.domBound at_ else c.domBound }
  else s

/-- An acquire of the convoy that is not performed yet holds its later reads (R95). -/
def acquirePending (s : State) (ci n : Nat) : Bool :=
  s.accesses.any fun b => b.convoy == ci && b.acq && b.unperformed && decide (b.number < n) &&
    scopeActs (s.launch b.launch) b.scope

/-- How many acquires with a sequence were recorded on a line, by virtual address (R139). -/
def recordedAcquires (l : Launch) (vline q : Nat) : Nat :=
  (l.bound.filter fun r => r.kind == 2 && lineOf r.addr == vline && r.seqpos == q).length

/-- Have all acquires recorded with a sequence on a line been performed (R139)? -/
def acquiresDone (l : Launch) (vline q : Nat) : Bool :=
  decide (recordedAcquires l vline q ≤ assoc l.acquired (vline * 2 ^ 32 + q) 0)

/-- The constraints of a REPLAY of a FINE itinerary (R139). Of a launch that has been terminated, what is in flight is performed (R319). -/
def replayOk (l : Launch) (a : Access) : Bool :=
  if l.rec_.mode != 2 || l.terminated.isSome then true
  else
    let seq := assoc l.lineSeq (lineOf a.pa) 0
    let pos := assoc l.positions a.pa 0
    let rec go : List ItinInfo → Nat → Bool
      | [], _ => true
      | i :: r, k =>
        (if i.kind == 1 then seq + 1 == i.key && acquiresDone l (lineOf a.va) seq
         else if i.kind == 2 then seq == i.key
         else pos + k + 1 == i.key && (List.range i.ops).all fun j => acquiresDone l (lineOf a.va) (seq + k + j)) &&
        go r (k + i.ops)
    go a.itin 0

/-- Does a barrier order an earlier access before a later one (R79, R80)? -/
def barBefore (s : State) (b a : Access) : Bool :=
  (s.convoy a.convoy).befores.any fun x => x.convoy == b.convoy && decide (b.number < x.until_) && decide (x.from_ < a.number) &&
    b.lanes.any x.lanes.getLsbD && a.lanes.any x.mine.getLsbD

/-- Are two accesses of one lane? -/
def Access.sameLane (a b : Access) : Bool := b.convoy == a.convoy && b.lanes.any a.lanes.contains

/-- Does an access stand in the queue of the host link (R99)? -/
def placed (s : State) (b : Access) : Bool := s.hub.posted.any (· == .visit b.id)

/-- Must an access wait for an earlier one? Overlapping accesses of one word keep lane order (R93); those of one lane program order (R92); those that a barrier orders keep its order (R79, R80); and a load waits for its core's earlier stores to the line (R92). -/
def mustFollow (s : State) (a b : Access) : Bool :=
  decide (b.id < a.id) && b.unperformed && !placed s b &&
  ((a.meets b && (b.number == a.number || a.sameLane b || barBefore s b a)) ||
   (a.isLoad && b.core == a.core && b.isWrite && a.sameLine b))

/-- The slots of itinerary records that the performance of an access writes (R137, R138). -/
def recordSlots (s : State) (a : Access) : List Nat :=
  let l := s.launch a.launch
  if !l.recording then []
  else (a.itin.filterMap ItinInfo.slot) ++
    ((l.asets.filter fun x => a.itin.any fun i => x.addr == a.va && x.block == i.block && x.key == i.key).map Aset.slot)

/-- May an access be performed at its home now? Accesses that it must follow have been (R92, R93); releases, and reads after an acquire, wait (R95); SC accesses of a lane go one by one (R100); a replay keeps its order (R139); an armed frame and a lost path answer nothing (R356, R375), also where a record must be written; and what is retrying has no home yet (R357). -/
def mayPerform (s : State) (a : Access) : Bool :=
  a.unperformed && !a.retrying && !placed s a && !armedFrame s a.pa && paMapped s a.pa && !(s.accesses.any (mustFollow s a)) &&
  (!(a.rel && scopeActs (s.launch a.launch) a.scope) || releaseClear s a.core a.seq a.convoy a.number) &&
  !(a.isRead && acquirePending s a.convoy a.number) &&
  !(a.sc && s.accesses.any fun b => b.sc && decide (b.number < a.number) && a.sameLane b) &&
  replayOk (s.launch a.launch) a && !(recordSlots s a).any (recordStalls s (s.launch a.launch))

/-- Remove a line from the L1 of a core (R92). -/
def dropLine (s : State) (core line : Nat) : State :=
  s.modCore core fun c => { c with l1 := c.l1.filter fun x => x.line != line }

/-- Put a line into an L1, which holds 1,024 (R11): never one older than the core's last store to it, or than what is there (R92). -/
def fillLine (s : State) (core line filled : Nat) (bytes : List Byte) : State :=
  if assoc (s.core core).storeFloor line 0 ≤ filled then
    s.modCore core fun c => { c with l1 := ({ line := line, bytes := bytes, filled := filled } :: c.l1.filter fun x => x.line != line).take 1024 }
  else s

/-- The latest view instant of some lanes on some bytes (R92). -/
def viewFloor (c : Convoy) (lanes : List Nat) (pa size : Nat) : Nat :=
  c.views.foldl (fun m v => if lanes.contains v.lane && rangesMeet v.pa v.size pa size then max m v.at_ else m) 0

/-- Note the view instant of a lane. -/
def addView (at_ pa size : Nat) (vs : List View) (lane : Nat) : List View :=
  { lane := lane, pa := pa, size := size, at_ := at_ } :: vs.filter fun v => !(v.lane == lane && v.pa == pa && v.size == size)

/-- The view instant of the lanes of an access, on its bytes (R92). -/
def raiseView (s : State) (ci : Nat) (lanes : List Nat) (pa size at_ : Nat) : State :=
  s.modConvoy ci fun c => { c with views := lanes.foldl (addView at_ pa size) c.views }

/-- The copy of a peer line that may answer a plain read (R98). -/
def usableCopy (s : State) (a : Access) : Option SquareCopy :=
  if a.rc && !a.sc && !a.acq && !a.home && paIsPeer a.pa then
    let c := s.convoy a.convoy
    s.squares.find? fun x => x.line == lineOf a.pa && decide (c.domBound ≤ x.filled) &&
      decide (viewFloor c a.lanes a.pa a.size ≤ x.filled)
  else none

/-- May a read fill a copy of its line: it is no acquire, the page allows it, and no write of this module to the line is unacknowledged (R98)? -/
def mayCopy (s : State) (a : Access) : Bool :=
  a.rc && !a.sc && !a.acq && paIsPeer a.pa && !s.memBad (128 * lineOf a.pa) 128 &&
  !(s.accesses.any fun b => b.isWrite && lineOf b.pa == lineOf a.pa)

/-- The bytes of a line. -/
def lineBytes (s : State) (line : Nat) : List Byte := memRead s.mem (128 * line) 128

/-- The square that holds a copy of a peer line: by R12, with bits [45:38] of the address cleared (R98). -/
def copySquare (line : Nat) : Nat := homeSquare (128 * line % 2 ^ 38)

/-- Fill a square's copy of a line from its home; a square of 3 MiB holds 24,576 lines (R11, R98). -/
def fillCopy (s : State) (line : Nat) : State :=
  let q := copySquare line
  let rest := s.squares.filter fun x => x.line != line
  let mine := rest.filter fun x => x.square == q
  { s with squares := { square := q, line := line, bytes := lineBytes s line, filled := s.steps } ::
      (mine.take 24575 ++ rest.filter fun x => x.square != q) }

/-- What the home records for one access (R136, R137, R138): the line sequence, the positions and the records, or in REPLAY the counts (R139). Kind 8 is the write of an ORDWR, after which the reverse cursor moves to the key (R145). -/
def recordInfo (s : State) (a : Access) (i : ItinInfo) : State :=
  let l := s.launch a.launch
  let line := lineOf a.pa
  let seq := assoc l.lineSeq line 0
  let pos := assoc l.positions a.pa 0
  let base : ItinRec :=
    { addr := a.va, seqpos := 0, block := i.block, convoy := i.convoy, lane := i.lane.getD 0xFF, tag := i.tag.toNat,
      occ := i.occ.toNat, kind := i.kind, cls := i.cls, opcode := i.opcode, grain := l.rec_.grain, extra := 0 }
  let put : State → ItinRec → State := fun s r =>
    match i.slot with
    | some n => if l.recording then writeRecord s l n r else s
    | none => s
  if i.kind == 8 then s.modLaunch a.launch fun l => { l with cursors := assocSet l.cursors a.va i.key }
  else if l.rec_.grain == 1 && l.recording then
    (match (indexed l.asets).find? fun p => p.2.addr == a.va && p.2.block == i.block && p.2.key == i.key with
     | some (n, x) =>
       let x' := { x with count := x.count + i.ops }
       writeRecord (s.modLaunch a.launch fun l => { l with asets := l.asets.set n x' }) l x.slot
         { base with convoy := 0xFF, lane := 0xFF, tag := x.tag.toNat, occ := 0, kind := 4, cls := 2, opcode := x.opcode,
                     seqpos := x.key, extra := x'.count }
     | none => s)
  else if i.kind == 1 then
    (if i.last then
      put (s.modLaunch a.launch fun l => { l with lineSeq := assocSet l.lineSeq line (seq + 1) }) { base with seqpos := seq + 1 }
     else s)
  else if i.kind == 2 then
    let key := lineOf a.va * 2 ^ 32 + seq
    put (if l.rec_.mode == 2 then s.modLaunch a.launch fun l => { l with acquired := assocSet l.acquired key (assoc l.acquired key 0 + 1) } else s)
      { base with seqpos := seq }
  else
    put (s.modLaunch a.launch fun l => { l with
          lineSeq := assocSet l.lineSeq line (seq + i.ops), positions := assocSet l.positions a.pa (pos + i.ops) })
      { base with seqpos := pos + 1, extra := i.ops }

def recordAll (s : State) (a : Access) : State := a.itin.foldl (fun s i => recordInfo s a i) s

/-- Mark an access as performed. -/
def setPhase (s : State) (id : Nat) (p : AccPhase) : State :=
  { s with accesses := s.accesses.map fun a => if a.id == id then { a with phase := p } else a }

/-- The traces of a write of some lanes of a convoy on its own core: the line leaves the L1, and later reads do not look behind the write (R92). -/
def noteWrite (s : State) (core ci : Nat) (lanes : List Nat) (pa size : Nat) : State :=
  let line := lineOf pa
  let s1 := (dropLine s core line).modCore core fun c => { c with storeFloor := assocSet c.storeFloor line s.steps }
  raiseView s1 ci lanes pa size s.steps

/-- A write performed at its home (R90, R92, R98). -/
def writeHome (s : State) (a : Access) (bytes : List Byte) : State :=
  noteWrite (s.putMem a.pa bytes) a.core a.convoy a.lanes a.pa a.size

/-- A store to host memory is acknowledged once it stands in the posted-write queue; the host performs it later (R99), and a release does not wait for that (assumption log 45). -/
def postWrite (s : State) (a : Access) (bytes : List Byte) : State :=
  noteWrite (s.modHub fun h => { h with posted := h.posted ++ [.write a.pa bytes (some (a.core, a.convoy, a.lanes))] })
    a.core a.convoy a.lanes a.pa a.size

/-- Does a hold wait for an access that has been performed, where `all_` says whether it was the last of its issue (R139, R357)? -/
def holdsAccess (a : Access) (all_ : Bool) (h : Hold) : Bool :=
  h.kind == .access a.number (some a.id) || (all_ && (h.kind == .access a.number none || h.kind == .retried a.number))

/-- The end of a performance: the bound of an acquire, the records, and lanes held for it (R95, R137, R139, R357). -/
def afterPerform (s : State) (a : Access) (at_ : Nat) : State :=
  let s1 := recordAll (if a.acq then acquireBound s a.convoy a.scope at_ else s) a
  let all_ := !s1.accesses.any fun b => b.convoy == a.convoy && b.number == a.number && b.unperformed
  if anyHold (s1.convoy a.convoy) (holdsAccess a all_) then releaseHolds s1 a.convoy (holdsAccess a all_) else s1

/-- What a load takes now, and the instant of its view: a square's copy of its line, or its home; the line then goes to the L1, and a copy to the square (R91, R98). -/
def takeLoad (s : State) (a : Access) : State × Nat × List Byte :=
  let line := lineOf a.pa
  match usableCopy s a with
  | some x => (raiseView (fillLine s a.core line x.filled x.bytes) a.convoy a.lanes a.pa a.size x.filled, x.filled, (x.bytes.drop (a.pa % 128)).take a.size)
  | none =>
    let s1 := if mayCopy s a then fillCopy s line else s
    let s2 := if !a.cached || s.memBad (128 * line) 128 then s1 else fillLine s1 a.core line s.steps (lineBytes s line)
    (raiseView s2 a.convoy a.lanes a.pa a.size s.steps, s.steps, memRead s.mem a.pa a.size)

/-- Perform one access at its home (R90, R91, R96). -/
def performHome (s : State) (a : Access) : State :=
  let line := lineOf a.pa
  match a.kind with
  | .load .. =>
    let (s1, at_, bytes) := takeLoad s a
    afterPerform (setPhase s1 a.id (.performed at_ [bytes])) a at_
  | .store bytes => afterPerform (writeHome (setPhase s a.id (.performed s.steps [])) a bytes) a s.steps
  | .atom op mmrg operands _ =>
    let (olds, last) := atomRun op mmrg (memRead s.mem a.pa a.size) operands
    afterPerform (writeHome (setPhase s a.id (.performed s.steps olds)) a last) a s.steps
  | .fill square =>
    let s1 := { s with accesses := s.accesses.filter fun b => b.id != a.id }
    if s.memBad (128 * line) 128 || !a.mayLine then s1
    else if square then (if mayCopy s a then fillCopy s1 line else s1)
    else fillLine s1 a.core line s.steps (lineBytes s line)

/-- An access goes to its home: to host memory on the host link, behind every earlier posted write (R99). -/
def performAt (s : State) (a : Access) : State :=
  if paIsHost a.pa then
    (match a.kind with
     | .store bytes => afterPerform (postWrite (setPhase s a.id (.performed s.steps [])) a bytes) a s.steps
     | _ => s.modHub fun h => { h with posted := h.posted ++ [.visit a.id] })
  else performHome s a

def findAccess (s : State) (id : Nat) : Option Access := s.accesses.find? fun a => a.id == id

/-- The host performs what stands first in the queue of its link (R99). -/
def drainFirst (s : State) : State :=
  match s.hub.posted with
  | [] => s
  | p :: r =>
    let s1 := s.modHub fun h => { h with posted := r }
    match p with
    | .write pa bytes none => s1.putMem pa bytes
    | .write pa bytes (some (core, ci, lanes)) => noteWrite (s1.putMem pa bytes) core ci lanes pa bytes.length
    | .visit id => match findAccess s1 id with
      | some a => performHome s1 a
      | none => s1

/-- Is an entry of that queue an atomic of the issue and the location of an access (R93)? -/
def visitsWith (s : State) (a : Access) : Posted → Bool
  | .visit id => (findAccess s id).any fun b => b.number == a.number && b.pa == a.pa && b.isRead && b.isWrite
  | _ => false

/-- How many entries the host performs in one go: the atomics of one word on one location, which nothing comes between (R93). -/
def drainRun (s : State) : Nat :=
  match s.hub.posted with
  | .visit id :: r => (match findAccess s id with
    | some a => if a.isRead && a.isWrite then 1 + (r.takeWhile (visitsWith s a)).length else 1
    | none => 1)
  | _ => 1

/-- Must the queue wait, because a record that its first entries write lies in an armed frame (R356)? -/
def drainStalls (s : State) : Bool :=
  (s.hub.posted.take (drainRun s)).any fun p => match p with
    | .visit id => (findAccess s id).any fun a => (recordSlots s a).any (recordStalls s (s.launch a.launch))
    | _ => false

/-- The queue of the host link goes on by one entry, or by the atomics of one word on one location (R93, R99). -/
def drainPosted (s : State) : State := (List.range (drainRun s)).foldl (fun s _ => drainFirst s) s

/-- The accesses that are performed with one: the atomics of its issue on its location, one after the other in lane order (R93, R274). -/
def accessGroup (s : State) (a : Access) : List Access :=
  if a.isRead && a.isWrite then
    s.accesses.filter fun b => b.number == a.number && b.pa == a.pa && b.isRead && b.isWrite && b.unperformed
  else [a]

/-- Perform an access with its group, if each of them may be. -/
def tryPerform (s : State) (a : Access) : Option State :=
  (accessGroup s a).foldl (fun o b => o.bind fun s => if mayPerform s b then some (performAt s b) else none) (some s)

/-- May an access be performed at its home now, with its group? -/
def eligible (s : State) (a : Access) : Bool := a.unperformed && (tryPerform s a).isSome

def performGroup (s : State) (a : Access) : State := (tryPerform s a).getD s

/-- A loaded value as 64 bits (R270). -/
def extendTo64 (bs : List Byte) (size : Nat) (sx : Bool) : W64 :=
  let n := leNat (bs.take size)
  if sx && decide (2 ^ (8 * size - 1) ≤ n) then BitVec.ofNat 64 (n + 2 ^ 64 - 2 ^ (8 * size)) else BitVec.ofNat 64 n

/-- Write a loaded value to its destination in the lanes of a mask (R270). -/
def writeLoaded (c : Convoy) (e : Mask) (d : Opnd) (size : Nat) (sx : Bool) (bs : List Byte) : Convoy :=
  match d with
  | .v n =>
    if size ≤ 4 then c.writeV e n.toNat fun _ => (extendTo64 bs size sx).setWidth 32
    else (List.range (size / 4)).foldl (fun c i => c.writeV e (n.toNat + i) fun _ => wordAt bs i) c
  | .s n => c.writeS n.toNat (extendTo64 bs size sx)
  | .m n => c.writeM e n.toNat fun _ => momentOf bs
  | .g n => c.writeG n.toNat (momentOf bs)
  | _ => c

/-- Error cells that a write repairs. -/
def clearErrs (c : Convoy) (regs : List Reg) (e : Mask) : Convoy :=
  { c with errs := c.errs.filter fun x => !(regs.contains x.reg && (match x.lane with
      | some l => e.getLsbD l
      | none => true)) }

/-- A performed read returns to its registers, and leaves (R91, R96). -/
def returnRead (s : State) (a : Access) : State :=
  match a.phase with
  | .performed _ result =>
    let c := clearErrs (s.convoy a.convoy) (accessRegs a) (maskOf a.lanes)
    let c' := match a.kind with
      | .load d size sx => writeLoaded c (maskOf a.lanes) d size sx (result.headD [])
      | .atom _ _ _ (some d) => (a.lanes.zip result).foldl (fun c p => writeLoaded c (laneBit p.1) d a.size false p.2) c
      | _ => c
    { s.setConvoy a.convoy c' with accesses := s.accesses.filter fun b => b.id != a.id }
  | .sent => s

/-- A performed write is acknowledged, and leaves (R95). -/
def acknowledge (s : State) (a : Access) : State :=
  if a.unperformed then s else { s with accesses := s.accesses.filter fun b => b.id != a.id }

/-- The live lanes of a word are held, where one of them has been answered RETRY, until every lane has been performed (R67, R357). -/
def holdRetried (s : State) (a : Access) : State :=
  let c := s.convoy a.convoy
  let lanes := a.mask &&& c.live
  if lanes == 0 || c.holds.any (fun h => h.kind == .retried a.number) then s
  else s.setConvoy a.convoy { c with holds := c.holds ++ [{ lanes := lanes, pc := 0, kind := .retried a.number, y := false }] }

/-- A requester that is answered RETRY drops its entry for the page, and the access then holds no translation (R357). -/
def refuseAccess (s : State) (a : Access) : State :=
  let s1 := tlbDrop (holdRetried s a) a.core (s.launch a.launch).queue a.va
  { s1 with accesses := s1.accesses.map fun b => if b.id == a.id then { b with retrying := true } else b }

/-- It walks again, and sends the access to the home that the new translation names; none while it must go on retrying: the walk fails, it leads to an armed frame, or what a read would find there cannot be corrected (R321, R357; assumption log 42). -/
def resendAccess (s : State) (a : Access) : Option State :=
  match xlate s (convoyReq s (s.convoy a.convoy) a.isWrite) a.va with
  | .ok s1 pa leaf =>
    if armedFrame s1 pa || (a.isRead && s1.memBad pa a.size) then none
    else some { s1 with accesses := s1.accesses.map fun b =>
      if b.id == a.id then { b with pa := pa, sc := pteSC leaf, rc := pteRC leaf, retrying := false } else b }
  | _ => none

/-- Must an access stay at its old home for now, because one that it must follow there is still to be answered or sent anew (R92, R93)? -/
def mustStay (s : State) (g : List Access) (a : Access) : Bool :=
  s.accesses.any fun b => mustFollow s a b && !g.contains b && (b.retrying || armedFrame s b.pa)

/-- RETRY (R357): the access, with the atomics that are performed with it (R93), walks again. A prefetch is dropped (R278). -/
def retryAccess (s : State) (a : Access) : State :=
  if !(a.unperformed && (a.retrying || armedFrame s a.pa)) then s
  else if a.isLoad && !a.isRead then { s with accesses := s.accesses.filter fun b => b.id != a.id }
  else
    let g := accessGroup s a
    let s1 := g.foldl refuseAccess s
    if g.any (mustStay s g) then s1 else (g.foldl (fun o b => o.bind fun s => resendAccess s b) (some s1)).getD s1

/-- The number of the issue under way in a slot. -/
def issueNumber (s : State) (f : Focus) : Nat :=
  match (s.slotAt f.core f.slot).pending with
  | some p => p.number
  | none => s.steps

/-- The fields that an access has from the word in focus. -/
def ofFocus (s : State) (f : Focus) (a : Access) : Access :=
  { a with
    id := s.nextAccess, number := issueNumber s f, core := f.core, seq := seqOf f.slot, convoy := f.convoy,
    launch := (s.convoy f.convoy).launch, waiting := s.clock }

/-- A new access of the word in focus. -/
def sendAccess (s : State) (f : Focus) (a : Access) : State :=
  let a' := ofFocus s f a
  let s1 := { s with accesses := s.accesses ++ [a'], nextAccess := s.nextAccess + 1 }
  if a'.isWrite then dropLine s1 f.core (lineOf a'.pa) else s1

/-- An access without its fields of sending. -/
def plainAccess (lanes : List Nat) (va pa : Nat) (leaf : W64) (size : Nat) (kind : AccKind) : Access :=
  { id := 0, number := 0, core := 0, seq := 0, convoy := 0, launch := 0, lanes := lanes, va := va, pa := pa, size := size,
    kind := kind, acq := false, rel := false, scope := 0, sc := pteSC leaf, rc := pteRC leaf, home := false, itin := [],
    phase := .sent, waiting := 0, mask := maskOf lanes, retrying := false }

/-- Does the queue of the host link hold a write of a core to a line (R92, R99)? -/
def postedLine (s : State) (core line : Nat) : Bool :=
  s.hub.posted.any fun p => match p with
    | .write pa _ (some (k, _, _)) => k == core && lineOf pa == line
    | _ => false

/-- The L1 line that may answer a plain load: new enough for the convoy's bound and the earlier views of its lanes, with nothing in flight that must come first (R91, R92, R95). -/
def l1Hit (s : State) (a : Access) : Option L1Line :=
  let c := s.convoy a.convoy
  let line := lineOf a.pa
  if !a.cached || acquirePending s a.convoy a.number || postedLine s a.core line then none
  else if s.accesses.any (fun b => b.unperformed &&
      ((b.core == a.core && b.isWrite && a.sameLine b) || (a.meets b && (a.sameLane b || barBefore s b a)))) then none
  else (s.core a.core).l1.find? fun x => x.line == line && decide (c.bound ≤ x.filled) &&
    decide (viewFloor c a.lanes a.pa a.size ≤ x.filled)

/-- Count a miss of the L1 (R327): a read that it might have answered. -/
def countMiss (s : State) (core : Nat) (a : Access) : State := s.perfCount core 0x05 (if a.cached then 1 else 0)

/-- Send a load, or answer it from the L1. -/
def sendLoad (s : State) (f : Focus) (a : Access) : State :=
  match l1Hit s (ofFocus s f a) with
  | some x =>
    let bytes := (x.bytes.drop (a.pa % 128)).take a.size
    raiseView (sendAccess s f { a with phase := .performed x.filled [bytes] }) f.convoy a.lanes a.pa a.size x.filled
  | none => countMiss (sendAccess s f a) f.core a

/-- A displacement (R268). -/
def dispOf (c : Convoy) (scale : Nat) : Opnd → W64
  | .imm n => n.signExtend 64 * BitVec.ofNat 64 scale
  | .s n => c.readS n.toNat
  | _ => 0

/-- The base of a memory operand in lane l: S, A, or a V pair (R268). -/
def baseOf (c : Convoy) (l : Nat) : Opnd → W64
  | .s n => c.readS n.toNat
  | .a n => affineAt (c.readAff n.toNat) l
  | .v n => c.readV (n.toNat + 1) l ++ c.readV n.toNat l
  | _ => 0

/-- The global address of lane l (R268). -/
def globalAddr (c : Convoy) (x y : Opnd) (l : Nat) : Nat := (baseOf c l x + dispOf c 4 y).toNat

/-- Is the actor of a word the convoy (R134)? -/
def isConvoyBase : Opnd → Bool
  | .s _ => true
  | _ => false

/-- A lane that has passed the checks of R101. -/
structure LaneAddr where
  lane : Nat
  va : Nat
  pa : Nat
  leaf : W64

/-- The outcome of the checks of R101. -/
inductive MemCheck where
  | ok (s : State) (lanes : List LaneAddr)
  | bad (s : State) (cause : Nat) (mask : Mask) (addr : Nat)
  | stall

/-- One lane's first failing place of R101, with its cause. -/
inductive LaneCheck where
  | good (a : LaneAddr)
  | fails (place cause lane va : Nat)

/-- Check one lane: alignment, range, translation, permission; then an uncorrectable error for a read, a memory cause (R321) that ranks after those of R101 and before every cause of an order mode and of ownership (assumption log 43). -/
def checkLane (s : State) (r : XlateReq) (size : Nat) (reads : Bool) (l va : Nat) : Option (State × LaneCheck) :=
  if size != 0 && va % size != 0 then some (s, .fails 1 causeALIGN l va)
  else if 2 ^ 48 ≤ va then some (s, .fails 2 causeACCESS l va)
  else match xlateHome s r va with
    | .stall => none
    | .bad s1 c => some (s1, .fails (if c == causePAGEFAULT then 3 else 4) c l va)
    | .ok s1 pa leaf =>
      if reads && s1.memBad pa size then some (s1, .fails 6 causeSOFTERR l va)
      else some (s1, .good { lane := l, va := va, pa := pa, leaf := leaf })

/-- Check every lane in ascending order. -/
def checkLanes (s : State) (r : XlateReq) (size : Nat) (reads : Bool) : List (Nat × Nat) → Option (State × List LaneCheck)
  | [] => some (s, [])
  | (l, va) :: rest =>
    match checkLane s r size reads l va with
    | none => none
    | some (s1, x) => match checkLanes s1 r size reads rest with
      | none => none
      | some (s2, xs) => some (s2, x :: xs)

def LaneCheck.place : LaneCheck → Nat
  | .good _ => 7
  | .fails p _ _ _ => p

/-- The first place of R101 that any lane fails, with the lanes that fail there. -/
def firstFailure (xs : List LaneCheck) : Option (Nat × Mask × Nat) :=
  let p := xs.foldl (fun m x => min m x.place) 7
  if p == 7 then none
  else
    let at_ := xs.filterMap fun x => match x with
      | .fails q c l va => if q == p then some (c, l, va) else none
      | .good _ => none
    at_.head?.map fun h => (h.1, maskOf (at_.map fun y => y.2.1), h.2.2)

/-- The checks of R101 for the lanes of a word, with their addresses. -/
def checkWord (s : State) (r : XlateReq) (size : Nat) (reads : Bool) (lanes : List (Nat × Nat)) : MemCheck :=
  match checkLanes s r size reads lanes with
  | none => .stall
  | some (s1, xs) =>
    match firstFailure xs with
    | some (c, m, a) => .bad s1 c m a
    | none => .ok s1 (xs.filterMap fun x => match x with
        | .good a => some a
        | .fails .. => none)

/-- The lanes of E with their addresses. -/
def laneAddrs (c : Convoy) (e : Mask) (x y : Opnd) : List (Nat × Nat) :=
  (lanesOf c.width e).map fun l => (l, globalAddr c x y l)

/-- The owners of the lanes of a CANONICAL launch (R154). -/
def laneOwners (s : State) (c : Convoy) (lanes : List LaneAddr) : List (Nat × Nat × Own) :=
  lanes.map fun a => (a.lane, a.va, ownOf s (s.launchOf c) a.va a.leaf)

/-- Is a launch CANONICAL (R125)? -/
def isCanonical (l : Launch) : Bool := l.rec_.mode == 1

/-- The lanes at or beyond the quota when the lanes of a list are buffered (R155). -/
def overQuota (s : State) (c : Convoy) (lanes : List LaneAddr) : List LaneAddr :=
  lanes.drop ((s.launchOf c).map.quota - (s.blockOf c).buffered)

/-- Must the word wait because an entry of the ownership map lies in an armed frame (R153, R356)? -/
def ownersStall (s : State) (c : Convoy) (lanes : List LaneAddr) : Bool :=
  isCanonical (s.launchOf c) && lanes.any fun a => ownOf s (s.launchOf c) a.va a.leaf == .stall

/-- An access of the word in focus that is made in its own step: a read, or a write of bytes. -/
def atOnce (s : State) (f : Focus) (lanes : List Nat) (a : LaneAddr) (n : Nat) (write home : Bool) : Access :=
  ofFocus s f { plainAccess lanes a.va a.pa a.leaf n (if write then .store [] else .load (.sp 0x3F) 8 false) with home := home }

/-- Must an access that is made in its own step wait (R92, R95, R99, R100, R356)? -/
def mustWait (s : State) (a : Access) : Bool := !mayPerform s a || homeBusy s a.pa

/-- The ownership causes of a word that only reads, in a CANONICAL launch (R154). -/
def readOwners (s : State) (c : Convoy) (lanes : List LaneAddr) : Option (Nat × Mask × Nat) :=
  if isCanonical (s.launchOf c) then ownershipCause (s.blockOf c) (laneOwners s c lanes) else none

/-- The outcome of a read of one item: its bytes and its address as a lane has it, a cause, or not yet. -/
inductive ItemRes where
  | ok (s : State) (bytes : List Byte) (at_ : LaneAddr)
  | bad (s : State) (cause : Nat) (mask : Mask) (addr : Nat)
  | wait

/-- The value of a plain read in its own step: from the L1, a square's copy or the home (R91); in a CANONICAL launch a shared granule reads as the interval began (R154). None while it must wait. -/
def readAtOnce (s : State) (f : Focus) (lanes : List Nat) (at_ : LaneAddr) (n : Nat) (home : Bool) : Option (State × List Byte) :=
  let c := s.convoy f.convoy
  let l := s.launchOf c
  let a := atOnce s f lanes at_ n false home
  if isCanonical l && isShared (ownOf s l at_.va at_.leaf) then some (s, memRead l.snapshot at_.pa n)
  else match l1Hit s a with
    | some x => some (raiseView s f.convoy lanes at_.pa n x.filled, (x.bytes.drop (at_.pa % 128)).take n)
    | none =>
      if mustWait s a then none
      else
        let r := takeLoad s a
        some (countMiss r.1 f.core a, r.2.2)

/-- A word that reads one item at once, for all of E (R200, R276, R283, R295), with the checks of R101 on one address. -/
def readItem (s : State) (f : Focus) (e : Mask) (va align n : Nat) (home : Bool) : ItemRes :=
  let c := s.convoy f.convoy
  let ls := lanesOf c.width e
  if va % align != 0 then .bad s causeALIGN e va
  else match checkWord s (convoyReq s c false) n true (ls.map fun l => (l, va)) with
    | .bad s1 cause m a => .bad s1 cause m a
    | .stall => .wait
    | .ok s1 lanes =>
      if ownersStall s1 c lanes then .wait
      else match readOwners s1 c lanes with
      | some (cause, m, a) => .bad s1 cause m a
      | none => match lanes.head? with
        | some a => (match readAtOnce s1 f ls a n home with
          | some (s2, bs) => .ok s2 bs a
          | none => .wait)
        | none => .wait

end Sys2Proof.Machine
end

