-- ==== Sys2Proof/Machine/Local.lean ====
section
/-! DEFINITION. Local store (R72 to R78, R268): offsets, checks, reads and writes in the one order of the block, barrier objects and stamps. -/

namespace Sys2Proof.Machine

/-- Does a convoy run on the follower of its tandem (R85)? -/
def onFollower (s : State) (c : Convoy) : Bool := (s.blockOf c).follower == some c.core

/-- The local store that a convoy's lanes reach (R85). -/
def lsOf (s : State) (c : Convoy) : LocalStore := if onFollower s c then (s.blockOf c).ls2 else (s.blockOf c).ls

/-- Change the leader's or the follower's local store of a block. -/
def modLs (s : State) (bi : Nat) (second : Bool) (f : LocalStore → LocalStore) : State :=
  s.modBlock bi fun b => if second then { b with ls2 := f b.ls2 } else { b with ls := f b.ls }

/-- The local store of a block on one core. -/
def blockLs (b : Block) (second : Bool) : LocalStore := if second then b.ls2 else b.ls

/-- Write bytes into a local store; a byte that is written loses its error. -/
def LocalStore.write (l : LocalStore) (off : Nat) (bs : List Byte) : LocalStore :=
  { l with mem := memWrite l.mem off bs, errs := l.errs.filter fun x => !(decide (off ≤ x) && decide (x < off + bs.length)) }

/-- The word of a barrier object or a stamp. -/
def LocalStore.word (l : LocalStore) (off : Nat) : W64 := memWord l.mem off

/-- The fields of a barrier object (R75). -/
def objMember (w : W64) : BitVec 16 := w.extractLsb' 48 16
def objArrived (w : W64) : BitVec 16 := w.extractLsb' 32 16
def objGen (w : W64) : BitVec 16 := w.extractLsb' 16 16

def objWord (member arrived gen : BitVec 16) : W64 := member ++ arrived ++ gen ++ 0#16

/-- The armed object that a range of bytes meets (R75, R78). -/
def armedObject (l : LocalStore) (off n : Nat) : Option Nat :=
  l.marks.find? fun m => rangesMeet m 8 off n && objArrived (l.word m) != 0

/-- The local-store offset of lane l (R268). -/
def localOff (c : Convoy) (x y : Opnd) (l : Nat) : Nat :=
  let base : W64 := match x with
    | .v n => (c.readV n.toNat l).setWidth 64
    | o => baseOf c l o
  ((base + dispOf c 16 y).setWidth 32).toNat

/-- The lanes of E with their offsets. -/
def laneOffs (c : Convoy) (e : Mask) (x y : Opnd) : List (Nat × Nat) :=
  (lanesOf c.width e).map fun l => (l, localOff c x y l)

/-- Check one lane of a local access: alignment, the allocation, an uncorrectable error (R268, R321). -/
def checkOff (l : LocalStore) (size n : Nat) (reads : Bool) (lane off : Nat) : LaneCheck :=
  if off % n != 0 then .fails 1 causeALIGN lane off
  else if size < off + n then .fails 2 causeACCESS lane off
  else if reads && l.errs.any (fun x => decide (off ≤ x) && decide (x < off + n)) then .fails 6 causeSOFTERR lane off
  else .good { lane := lane, va := off, pa := off, leaf := 0 }

/-- The causes of a local word: BARCLOBBER as its own cause (R78), then the memory causes of R268. -/
def localCause (l : LocalStore) (size n : Nat) (reads writes : Bool) (lanes : List (Nat × Nat)) : Option (Nat × Mask × Nat) :=
  let hits := if writes then lanes.filterMap fun p => (armedObject l p.2 n).map fun m => (p.1, m) else []
  match hits with
  | (_, m) :: _ => some (causeBARCLOBBER, maskOf (hits.map Prod.fst), m)
  | [] => firstFailure (lanes.map fun p => checkOff l size n reads p.1 p.2)

/-- The 4-byte words of local store that items of n bytes at some offsets take up (R72). -/
def bankWords (n : Nat) (offs : List Nat) : List Nat :=
  offs.flatMap fun o => (List.range ((o % 4 + n + 3) / 4)).map fun i => o / 4 + i

/-- The extra cycles of one convoy's accesses on the banks (R73, R185). -/
def bankReplays (n : Nat) (offs : List Nat) : Nat := replaysOf ((bankWords n offs).map fun w => (0, w))

/-- Note the words of local store that the lanes of a convoy address: the replays are those of the whole slot (R73, R327). -/
def countReplays (s : State) (f : Focus) (n : Nat) (offs : List Nat) : State :=
  let b := (s.convoy f.convoy).block
  s.modSlot f.core f.slot fun x => { x with pending := x.pending.map fun p =>
    { p with words := p.words ++ (bankWords n offs).map fun w => (b, w) } }

/-- Is an offset fit for an aligned item of n bytes in an allocation, and if not why (R111, R277, R296)? -/
def itemCause (size align n off : Nat) : Option Nat :=
  if off % align != 0 then some causeALIGN else if size < off + n then some causeACCESS else none

/-- Add a mark (R75). -/
def addMark (l : LocalStore) (off : Nat) : LocalStore :=
  if l.marks.contains off then l else { l with marks := (l.marks.filter fun m => m < off) ++ [off] ++ l.marks.filter fun m => off < m }

/-- One completion against a stamp (R106). -/
def stampNext (old : W64) (status : Nat) : W64 :=
  let st : BitVec 8 := if status == 0 then old.extractLsb' 56 8 else BitVec.ofNat 8 status
  st ++ (old.extractLsb' 0 56 + 1)

/-- Has a stamp reached a count in serial order (R107)? -/
def stampReached (w : W64) (n : BitVec 56) : Bool := (w.extractLsb' 0 56 - n).ult (1#56 <<< 55)

end Sys2Proof.Machine
end

