-- ==== Sys2Proof/Machine/Sha3.lean ====
section
/-! DEFINITION. SHA3-256 (FIPS 202), which the spec names for image digests, the measurement log and checkpoint chunks (R129, R367, R368, R373). The algorithm is the standard's; the spec gives only its name (assumption log 10). No table of the standard is copied: the rotations come from its walk over the lanes, and the round constants from its shift register. -/

namespace Sys2Proof.Machine

/-- A plane: the five lanes of one y, by x. A digest state is its five planes, by y. -/
abbrev Plane := List W64

/-- The list that starts n places further on, cyclically. -/
def spin {α : Type} (n : Nat) (l : List α) : List α := l.drop n ++ l.take n

def mixPlanes : Plane → Plane → Plane := List.zipWith (· ^^^ ·)

/-- θ: each lane takes up the parity of the column before it, and of the column after it turned by one bit. -/
def stepTheta (a : List Plane) : List Plane :=
  let parity := a.foldl mixPlanes (List.replicate 5 0)
  a.map (mixPlanes (List.zipWith (fun before after => before ^^^ after.rotateLeft 1) (spin 4 parity) (spin 1 parity)))

/-- The walk of ρ from lane (1, 0): after t moves, where it stands; it turns that lane by (t + 1)(t + 2) / 2. -/
def walkLane : Nat → Nat × Nat
  | 0 => (1, 0)
  | t + 1 => let p := walkLane t; (p.2, (2 * p.1 + 3 * p.2) % 5)

/-- How far ρ turns lane (x, y); the walk never comes to lane (0, 0). -/
def turnOf (x y : Nat) : Nat :=
  match (List.range 24).find? fun t => walkLane t == (x, y) with
  | some t => (t + 1) * (t + 2) / 2 % 64
  | none => 0

/-- ρ and π: the lane that comes to (x, y) stood in plane x. -/
def stepRhoPi (a : List Plane) : List Plane :=
  (List.range 5).map fun y => (List.range 5).map fun x =>
    let from_ := (x + 3 * y) % 5
    ((a.getD x []).getD from_ 0).rotateLeft (turnOf from_ x)

/-- χ: a lane changes where the next one in its plane is 0 and the one after that is 1. -/
def stepChi (a : List Plane) : List Plane :=
  a.map fun p => mixPlanes p (List.zipWith (fun next later => later &&& ~~~ next) (spin 1 p) (spin 2 p))

/-- The shift register of ι, of eight bits, after t shifts. -/
def shiftRegister : Nat → Nat
  | 0 => 1
  | t + 1 => let r := 2 * shiftRegister t; if r < 256 then r else r ^^^ 0x171

/-- What ι adds to lane (0, 0) in round i: at bit 2 ^ j - 1, bit 0 of the register after j + 7·i shifts. -/
def iotaWord (i : Nat) : W64 := BitVec.ofNat 64 (((List.range 7).map fun j => shiftRegister (j + 7 * i) % 2 * 2 ^ (2 ^ j - 1)).foldl (· + ·) 0)

def stepIota (i : Nat) (a : List Plane) : List Plane := a.modify 0 fun p => p.modify 0 (· ^^^ iotaWord i)

/-- The 24 rounds of the permutation. -/
def permute (a : List Plane) : List Plane := (List.range 24).foldl (fun a i => stepIota i (stepChi (stepRhoPi (stepTheta a)))) a

/-- A block of 136 bytes as planes; what lies past it is 0. -/
def planesOf (block : List Byte) : List Plane :=
  (List.range 5).map fun y => (List.range 5).map fun x => BitVec.ofNat 64 (leNat ((block.drop (8 * (x + 5 * y))).take 8))

/-- Take in n blocks, one after the other. -/
def takeIn : Nat → List Plane → List Byte → List Plane
  | 0, a, _ => a
  | n + 1, a, bs => takeIn n (permute (List.zipWith mixPlanes a (planesOf (bs.take 136)))) (bs.drop 136)

/-- What follows a message of n bytes in its last block: bits 0, 1, 1, then zeros, and a last bit of 1. -/
def lastBytes (n : Nat) : List Byte :=
  let k := 136 - n % 136
  (List.range k).map fun i => (if i == 0 then 6 else 0) + if i + 1 == k then 0x80 else 0

/-- The 32 bytes of the SHA3-256 digest. -/
def sha3_256 (bs : List Byte) : List Byte :=
  let a := takeIn (bs.length / 136 + 1) (List.replicate 5 (List.replicate 5 0)) (bs ++ lastBytes bs.length)
  (List.range 4).flatMap fun x => natLe 8 ((a.getD 0 []).getD x 0).toNat

end Sys2Proof.Machine
end

