-- ==== Sys2Proof/Machine/Launching.lean ====
section
/-! DEFINITION. Launches (R332 to R345): events, queues, admission, room and placement, crossings, block ends, termination and completion. -/

namespace Sys2Proof.Machine

/-- Is an event set (R336)? -/
def eventSet (s : State) (ev : Nat) : Bool := s.hub.events.contains ev

/-- The wait events of a record (R334): a count above 4, which admission rejects, names no more than the four. -/
def recWaits (bs : List Byte) : List Nat := (List.range (min 4 (bytesNat bs 0x17 1))).map fun i => bytesNat bs (0x40 + 2 * i) 2

/-- The test of a queue head (R337): every wait event is set. -/
def testHead (s : State) (q : Nat) : State :=
  match (s.queue q).fifo with
  | h :: r =>
    if !h.eligible && (recWaits (h.record.take 0x48)).all (eventSet s) then
      s.modQueue q fun x => { x with fifo := { h with eligible := true } :: r }
    else s
  | [] => s

/-- Is a hold a wait for an event in a hardware entry? -/
def waitsFor (ev : Nat) (h : Hold) : Bool :=
  match h.kind with
  | .waitev e _ none => e.toNat == ev
  | _ => false

/-- Is a hold a wait in the memory-backed list, since an instant? -/
def spilledAt (n : Nat) (h : Hold) : Bool :=
  match h.kind with
  | .waitev _ _ (some k) => k == n
  | _ => false

/-- The widest acquire scope among some waits of a convoy. -/
def waitScope (c : Convoy) (p : Hold → Bool) : Nat :=
  ((c.holds ++ c.rvHolds ++ c.hrvHolds).filter p).foldl (fun m h => match h.kind with
    | .waitev _ sc _ => max m sc
    | _ => m) 0

/-- Release some waits of a convoy for an event: its word is an acquire at its scope (R282). -/
def releaseWaits (s : State) (ci : Nat) (p : Hold → Bool) : State :=
  if anyHold (s.convoy ci) p then releaseHolds (acquireBound s ci (waitScope (s.convoy ci) p) s.steps) ci p else s

/-- The waiters of an event in the memory-backed list, in list order, by convoy and instant of entry (R336). -/
def spilledWaiters (s : State) (ev : Nat) : List (Nat × Nat) :=
  let all_ := ((List.range s.convoys.length).flatMap fun ci =>
    let c := s.convoy ci
    (c.holds ++ c.rvHolds ++ c.hrvHolds).filterMap fun h => match h.kind with
      | .waitev e _ (some k) => if e.toNat == ev then some (ci, k) else none
      | _ => none).eraseDups
  sortByKey Prod.snd all_

/-- Set an event: every waiter with a hardware entry and every queue head that it makes eligible is released at once, and the scan of the memory-backed list begins (R282, R336, R337). -/
def setEvent (s : State) (ev : Nat) : State :=
  let s1 := s.modHub fun h => { h with events := if h.events.contains ev then h.events else ev :: h.events }
  let s2 := (List.range s1.convoys.length).foldl (fun s ci => releaseWaits s ci (waitsFor ev)) s1
  let s3 := s2.modHub fun h => { h with scans := h.scans ++ (spilledWaiters s ev).filter fun p => !h.scans.contains p }
  (List.range 16).foldl testHead s3

/-- The scan of the memory-backed list releases its next match (R336). -/
def scanList (s : State) : State :=
  match s.hub.scans with
  | [] => s
  | (ci, k) :: r => releaseWaits (s.modHub fun h => { h with scans := r }) ci (spilledAt k)

def clearEvent (s : State) (ev : Nat) : State := s.modHub fun h => { h with events := h.events.filter fun x => x != ev }

/-- The lanes that hold a hardware entry, or an entry of the memory-backed list (R336). -/
def waitEntries (s : State) (spilled : Bool) : Nat :=
  s.convoys.foldl (fun n c => n + ((c.holds ++ c.rvHolds ++ c.hrvHolds).foldl (fun n h => match h.kind with
    | .waitev _ _ sp => if sp.isSome == spilled then n + countLanes c.width h.lanes else n
    | _ => n) 0)) 0

/-- Enter a record into a FIFO: it is accepted and takes the next launch id (R332). -/
def enqueueRecord (s : State) (q : Nat) (bs : List Byte) : State :=
  let id := s.hub.nextId
  let s1 := (s.modHub fun h => { h with nextId := h.nextId + 1 }).modQueue q fun x =>
    { x with fifo := x.fifo ++ [{ id := id, record := bs, eligible := false }], entered := some s.clock }
  if (s1.queue q).fifo.length == 1 then testHead s1 q else s1

/-- Is there no room in a queue in this cycle: the FIFO is full, or has taken its one record of the cycle (R332)? -/
def queueFull (s : State) (q : Nat) : Bool := decide (64 ≤ (s.queue q).fifo.length) || (s.queue q).entered == some s.clock

/-- The offers of LAUNCH words to a queue: the cycle, the place of the sequencer, and the convoy (R332). A word whose record is still on its way offers in the next cycle (assumption log 27). -/
def offersTo (s : State) (q : Nat) : List (Nat × Nat × Nat) :=
  (List.range s.convoys.length).flatMap fun ci =>
    let c := s.convoy ci
    c.holds.filterMap fun h => match h.kind with
      | .launch _ k _ cycle => if k == q && decide (cycle ≤ s.clock) then some (cycle, 4 * c.core + seqOf c.slot, ci) else none
      | _ => none

/-- The LAUNCH word whose record enters next: the earliest offer, and of one cycle by ascending core and sequencer (R283, R332). -/
def nextOffer (s : State) (q : Nat) : Option Nat :=
  ((offersTo s q).foldl (fun (acc : Option (Nat × Nat × Nat)) x => match acc with
    | none => some x
    | some y => if x.1 < y.1 ∨ (x.1 = y.1 ∧ x.2.1 < y.2.1) then some x else some y) none).map fun x => x.2.2

/-- A launch record from its bytes (R334). -/
def parseRecord (b : List Byte) : LaunchRec :=
  let m := bytesNat b 0x16 1
  { program := bytesNat b 0 8, grid := bytesNat b 8 4, blanes := bytesNat b 0x0C 2, width := bytesNat b 0x0E 1,
    budget8 := bytesNat b 0x0F 1, lstore := bytesNat b 0x10 4, flags := BitVec.ofNat 16 (bytesNat b 0x14 2),
    mode := m % 4, grain := m / 4 % 4, prio := m / 16 % 4, modeTop := m / 64, waits := bytesNat b 0x17 1,
    itin := bytesNat b 0x18 8, omap := bytesNat b 0x20 8, key := BitVec.ofNat 64 (bytesNat b 0x28 8),
    utvec := bytesNat b 0x30 8, deleg := BitVec.ofNat 32 (bytesNat b 0x38 4), event := BitVec.ofNat 16 (bytesNat b 0x3C 2),
    eventFlags := BitVec.ofNat 16 (bytesNat b 0x3E 2),
    waitEvents := (List.range 4).map fun i => BitVec.ofNat 16 (bytesNat b (0x40 + 2 * i) 2),
    status := bytesNat b 0x48 8, imageLen := bytesNat b 0x50 4, reserved54 := BitVec.ofNat 32 (bytesNat b 0x54 4),
    cores := BitVec.ofNat 256 (bytesNat b 0x58 32), reserved78 := BitVec.ofNat 64 (bytesNat b 0x78 8) }

/-- The convoys of a block. -/
def LaunchRec.convoys (r : LaunchRec) : Nat := r.blanes / r.width

/-- DETAIL 0x01 (R337): every field in its range. -/
def recordFits (r : LaunchRec) (qprio : Nat) : Bool :=
  r.program % 64 == 0 && decide (r.program < 2 ^ 48) && decide (1 ≤ r.grid) && decide (r.grid ≤ 2 ^ 20) &&
  (r.width == 8 || r.width == 16 || r.width == 32 || r.width == 64) && decide (r.width ≤ r.blanes) &&
  decide (r.blanes ≤ 1024) && r.blanes % r.width == 0 && decide (1 ≤ r.budget8) && decide (r.budget8 ≤ 32) &&
  decide (r.lstore ≤ 524288) && r.flags.extractLsb' 5 11 == 0 && r.modeTop == 0 && r.grain != 3 && decide (r.waits ≤ 4) &&
  r.itin % 64 == 0 && r.omap % 64 == 0 && r.utvec % 8 == 0 && decide (r.utvec < 2 ^ 48) &&
  (List.range 32).all (fun c => !r.deleg.getLsbD c || delegable c) && r.eventFlags.extractLsb' 1 15 == 0 &&
  r.status % 8 == 0 && decide (8 ≤ r.imageLen) && r.reserved54 == 0 && r.reserved78 == 0 && decide (r.prio ≤ qprio) &&
  (!r.tandem || r.convoys % 2 == 0)

/-- Does admission compute the digest of the image (R126, R337)? -/
def needsDigest (r : LaunchRec) : Bool := (r.itin != 0 && (r.mode == 0 || r.mode == 1)) || r.mode == 2

def recording (r : LaunchRec) : Bool := r.itin != 0 && (r.mode == 0 || r.mode == 1)

def readable (s : State) (ctx va n : Nat) : Bool :=
  match deviceRead s ctx va n with
  | .inr _ => true
  | .inl _ => false

def readBytes (s : State) (ctx va n : Nat) : List Byte :=
  match deviceRead s ctx va n with
  | .inr bs => bs
  | .inl _ => []

def writable (s : State) (ctx va : Nat) : Bool :=
  match deviceXlate s ctx va true with
  | .inr _ => true
  | .inl _ => false

/-- DETAIL 0x02 (R337, R347): what admission must read or will write. -/
def recordReaches (s : State) (ctx : Nat) (r : LaunchRec) : Bool :=
  (s.hub.roots.getD ctx 0).getLsbD 0 && (!needsDigest r || readable s ctx r.program r.imageLen) &&
  (r.itin == 0 || (readable s ctx r.itin 64 && writable s ctx r.itin)) &&
  (r.mode != 1 || r.omap == 0 || readable s ctx r.omap 64) && (r.status == 0 || writable s ctx r.status)

/-- The first 16 bytes of the digest of the program image (R129). -/
def imageDigest (s : State) (ctx : Nat) (r : LaunchRec) : List Byte := (sha3_256 (readBytes s ctx r.program r.imageLen)).take 16

/-- The header of the ownership map passes the checks of R153. -/
def omapFits (h : List Byte) : Bool :=
  bytesNat h 0 4 == 0x4D4E574F && bytesNat h 4 4 == 1 && bytesNat h 8 8 % 4096 == 0 && decide (1 ≤ bytesNat h 0x10 4) &&
  bytesNat h 0x14 4 == 0 && bytesNat h 0x18 8 % 64 == 0 && (h.drop 0x24).all (· == 0)

/-- DETAIL 0x03: the combinations of R125 and the checks of R126. -/
def recordOrders (s : State) (ctx : Nat) (r : LaunchRec) : Bool :=
  let h := readBytes s ctx r.itin 64
  let state := bytesNat h 7 1
  let head := bytesNat h 0 4 == 0x4E495449 && bytesNat h 4 2 == 1
  let grain := bytesNat h 6 1
  let shape := bytesNat h 0x24 4 == r.grid && bytesNat h 0x1C 2 == r.blanes && bytesNat h 0x1E 1 == r.width
  match r.mode with
  | 0 => r.omap == 0 && (r.grain == 0 || r.itin != 0) && (r.itin == 0 || (head && state == 0))
  | 1 => r.grain == 0 && r.omap != 0 && omapFits (readBytes s ctx r.omap 64) && (r.itin == 0 || (head && state == 0))
  | 2 => r.itin != 0 && r.omap == 0 && head && state == 2 && grain == r.grain && bytesNat h 0x1F 1 == 0 && shape &&
      (h.drop 0x30).take 16 == imageDigest s ctx r
  | _ => r.itin != 0 && r.omap == 0 && head && state == 2 && grain == r.grain && shape

/-- The slot of a candidate number q (R339): q = 4·slot + sequencer; slots are kept as 8·sequencer + slot (R329). -/
def candidateSlot (q : Nat) : Nat := 8 * (q % 4) + q / 4

/-- Register groups of a slot (R63, R338). -/
def slotGroups (r : LaunchRec) : Nat := if r.detection then (r.budget + 8) / 9 else (r.budget + 7) / 8

/-- Groups that a sequencer's ordinary slots have taken. -/
def groupsUsed (s : State) (core seq : Nat) : Nat :=
  (List.range 8).foldl (fun n i =>
    let h := 8 * seq + i
    if h == 31 then n
    else match (s.slotAt core h).launch with
      | some li => n + slotGroups (s.launch li).rec_
      | none => n) 0

/-- Groups for ordinary blocks: the lay-by keeps 8 of sequencer 3 (R338). -/
def groupsOf (seq : Nat) : Nat := if seq == 3 then 56 else 64

/-- The free positions of a slot, ascending. -/
def freePositions (s : State) (core h : Nat) : List Nat :=
  ((indexed (s.slotAt core h).positions).filter fun p => p.2.isNone).map Prod.fst

/-- Up to n positions for a launch on a core: free ones of its open slots, then new slots whose sequencer has the groups (R339). -/
def choosePositions (s : State) (core li n : Nat) : List (Nat × Nat) :=
  let r := (s.launch li).rec_
  let qs := (List.range 31).map candidateSlot
  let opened := (qs.filter fun h => (s.slotAt core h).launch == some li).flatMap fun h =>
    (freePositions s core h).map fun k => (h, k)
  let fresh := (qs.foldl (fun (acc : List Nat × List Nat) h =>
    if (s.slotAt core h).launch.isSome then acc
    else
      let seq := seqOf h
      let used := acc.2.getD seq 0 + slotGroups r
      if used ≤ groupsOf seq && opened.length + acc.1.length * (64 / r.width) < n then (acc.1 ++ [h], acc.2.set seq used) else acc)
    ([], (List.range 4).map (groupsUsed s core))).1
  (opened ++ fresh.flatMap fun h => (List.range (64 / r.width)).map fun k => (h, k)).take n

/-- The blocks that hold resources of a core, other than those in its lay-by. -/
def residentBlocks (s : State) (core : Nat) : List Block :=
  s.blocks.filter fun b => b.kind == .ordinary && (b.core == core || b.follower == some core) &&
    b.state != .freed && b.state != .saved

def granulesOf (bytes : Nat) : Nat := (bytes + 4095) / 4096

/-- The lowest offset at which a range of n granules is free on a core, and on a second one (R338). -/
def findRange (s : State) (cores : List Nat) (n : Nat) : Option Nat :=
  let taken := cores.flatMap fun c => (residentBlocks s c).map fun b => (b.base / 4096, granulesOf b.size)
  ((List.range (121 - n)).find? fun g => !taken.any fun t => rangesMeet t.1 t.2 g n).map (· * 4096)

/-- A place for a block: the positions of its convoys by core, and its local-store offset. -/
structure Room where
  places : List (Nat × Nat × Nat)
  base : Nat
  deriving DecidableEq, Repr

/-- The room of a core, or of the tandem it leads, for one more block of a launch (R339). -/
def findRoom (s : State) (li core : Nat) : Option Room :=
  let r := (s.launch li).rec_
  let cores := if r.tandem then [core, core + 1] else [core]
  let each := r.convoys / cores.length
  let ps := cores.flatMap fun c => (choosePositions s c li each).map fun p => (c, p.1, p.2)
  if ps.length != r.convoys || cores.any (fun c => decide (8 ≤ (residentBlocks s c).length)) || decide (120 < granulesOf r.lstore) then none
  else (findRange s cores (granulesOf r.lstore)).map fun b => { places := ps, base := b }

/-- May a core hold blocks of a launch (R334, R369)? -/
def coreEligible (s : State) (r : LaunchRec) (core : Nat) : Bool :=
  (s.core core).enabled && (r.cores == 0 || r.cores.getLsbD core)

/-- The cores a launch may place on: its eligible cores, or the leaders of its eligible tandems. -/
def placeCores (s : State) (r : LaunchRec) : List Nat :=
  (List.range 256).filter fun c =>
    if r.tandem then c % 2 == 0 && coreEligible s r c && coreEligible s r (c + 1) else coreEligible s r c

/-- A convoy as it starts (R69, R313). -/
def newConvoy (core slot pos width budget li bi index : Nat) (pc : Pc) (priv : Nat) : Convoy :=
  { Convoy.blank with
    core := core, slot := slot, pos := pos, width := width, budget := budget, launch := li, block := bi, index := index,
    live := fullMask width,
    lanes := List.replicate width { pc := pc, rv := 0, hrv := 0, draw := 0, v := List.replicate budget 0, m := List.replicate 8 Moment.zero },
    k := List.replicate 8 0, s := List.replicate 64 0, a := List.replicate 32 Affine.zero, g := List.replicate 8 Moment.zero,
    priv := priv, scratch := List.replicate 4 0, ended := false }

/-- Put a convoy into its position; its slot opens for the launch, and its watchdog resets (R65, R84). -/
def seatConvoy (s : State) (ci li : Nat) : State :=
  let c := s.convoy ci
  let s1 := s.modSlot c.core c.slot fun x =>
    let ps := if x.positions.isEmpty then List.replicate (64 / c.width) none else x.positions
    { x with launch := some li, positions := ps.set c.pos (some ci) }
  resetWatchdog s1 c.core c.slot

/-- The free-slot counters of a launch, set when it first comes to a core (R117). -/
def openCounters (s : State) (core li : Nat) : State :=
  if (s.core core).free.any fun x => x.launch == li then s
  else s.modCore core fun c => { c with free := c.free ++ [{ launch := li, counts := List.replicate 16 8 }] }

/-- Start a block in its room (R69, R340). -/
def startBlock (s : State) (li core : Nat) (room : Room) : State :=
  let l := s.launch li
  let r := l.rec_
  let bi := s.blocks.length
  let c0 := s.convoys.length
  let n := room.places.length
  let s1 := { s with
    convoys := s.convoys ++ (indexed room.places).map fun p =>
      newConvoy p.2.1 p.2.2.1 p.2.2.2 r.width r.budget li bi p.1 (BitVec.ofNat 48 r.program) 0
    blocks := s.blocks ++ [{ Block.blank with
      launch := li, index := l.nextBlock, core := core, follower := if r.tandem then some (core + 1) else none,
      base := room.base, size := r.lstore, convoys := (List.range n).map (c0 + ·), state := .running }] }
  let s2 := (List.range n).foldl (fun s i => seatConvoy s (c0 + i) li) s1
  let s3 := (if r.tandem then [core, core + 1] else [core]).foldl (fun s c => openCounters s c li) s2
  s3.modLaunch li fun l => { l with nextBlock := l.nextBlock + 1, lastCore := some core }

/-- Is a launch still placing? -/
def hasPending (l : Launch) : Bool := !l.completed && l.terminated.isNone && decide (l.nextBlock < l.rec_.grid)

/-- The core for the next block of a launch, by rotation or by freed capacity (R340). -/
def chooseCore (s : State) (li : Nat) : Option Nat :=
  let l := s.launch li
  let cores := (placeCores s l.rec_).filter fun c => (findRoom s li c).isSome
  if l.freedRule then
    match l.ends.find? fun e => !e.used && cores.contains e.core with
    | some e => some e.core
    | none => cores.head?
  else match l.lastCore with
    | none => cores.head?
    | some k => match cores.find? (fun c => k < c) with
      | some c => some c
      | none => cores.head?

/-- Use the earliest end of a core (R340). -/
def useEnd (core : Nat) : List KeptEnd → List KeptEnd
  | [] => []
  | e :: r => if e.core == core && !e.used then { e with used := true } :: r else e :: useEnd core r

/-- Place the next block of a launch, if some core has room (R340). -/
def placeNext (s : State) (li : Nat) : Option State :=
  match chooseCore s li with
  | none => none
  | some core => (findRoom s li core).map fun room =>
      (startBlock s li core room).modLaunch li fun l => { l with ends := if l.freedRule then useEnd core l.ends else l.ends }

/-- Place n blocks, all or none. -/
def placeMany (li : Nat) : Nat → State → Option State
  | 0, s => some s
  | n + 1, s => match placeNext s li with
    | some s1 => placeMany li n s1
    | none => none

/-- A launch enters the freed-capacity rule when it has a pending block and no eligible core has room (R340). -/
def noteFull (s : State) : State :=
  (List.range s.launches.length).foldl (fun s li =>
    let l := s.launch li
    if hasPending l && !l.freedRule && (chooseCore s li).isNone then s.modLaunch li fun l => { l with freedRule := true } else s) s

/-- The order of the distributor: priority, then launch id (R340). -/
def placingOrder (s : State) : List Nat :=
  let ls := (List.range s.launches.length).filter fun li => hasPending (s.launch li)
  let byId := sortByKey (fun li => (s.launch li).id) ls
  [3, 2, 1, 0].flatMap fun p => byId.filter fun li => (s.launch li).rec_.prio == p

/-- What the distributor can do for a launch: one block, or all blocks of an all-resident launch at once. -/
def tryPlace (s : State) (li : Nat) : Option State :=
  let l := s.launch li
  if l.rec_.allResident then placeMany li (l.rec_.grid - l.nextBlock) s else placeNext s li

/-- The launch that may place now: the first with room; a waiting all-resident launch lets none pass (R340). -/
def placingLaunch (s : State) : List Nat → Option Nat
  | [] => none
  | li :: r => if (tryPlace s li).isSome then some li else if (s.launch li).rec_.allResident then none else placingLaunch s r

/-- May the distributor place in this cycle? Blocks that end in one cycle free their capacity first, in the order of their cores (R340, R345). -/
def mayPlace (s : State) : Bool := s.hub.freedAt != some s.clock

/-- BLOCK_PLACEMENT (R340). -/
def placeBlock (s : State) (li : Nat) : State :=
  if mayPlace s && placingLaunch s (placingOrder s) == some li then noteFull ((tryPlace s li).getD s) else s

/-- Write the status word (R335). -/
def writeStatus (s : State) (ctx : Nat) (r : LaunchRec) (outcome cause detail ended : Nat) : State :=
  if r.status == 0 then s
  else match deviceWrite s ctx r.status (leBytes 8 (outcome * 2 ^ 56 + cause * 2 ^ 48 + detail * 2 ^ 40 + ended)) with
    | some s1 => s1
    | none => s.setErr 11

def completionEvent (s : State) (r : LaunchRec) : State :=
  if r.eventFlags.getLsbD 0 then setEvent s r.event.toNat else s

/-- A state in which a core and the cores beside it hold nothing, to ask what an empty core could hold (R337). -/
def emptyCores (s : State) : State := { s with cores := s.cores.map fun c => { Core.reset with enabled := c.enabled }, blocks := [], convoys := [] }

/-- How many blocks of a launch an empty core, or tandem, holds, up to n. -/
def emptyCapacity (li core : Nat) : Nat → State → Nat
  | 0, _ => 0
  | n + 1, s => match findRoom s li core with
    | some room => 1 + emptyCapacity li core n (startBlock s li core room)
    | none => 0

/-- The first failing row of R337, as DETAIL and CAUSE. -/
def rejection (s : State) (q : Nat) (r : LaunchRec) : Option (Nat × Nat) :=
  let qprio := ((s.queue q).qctl.extractLsb' 10 2).toNat
  if !recordFits r qprio then some (1, causeLAYOUT)
  else if !recordReaches s q r then some (2, causeACCESS)
  else if !recordOrders s q r then some (3, causeORDMODE)
  else
    let e := emptyCores { s with launches := [{ Launch.blank with rec_ := r }] }
    match (placeCores s r).head? with
    | none => some (4, causeLAYOUT)
    | some c =>
      let cap := emptyCapacity 0 c 8 e
      if cap == 0 then some (4, causeLAYOUT)
      else if r.allResident && decide (cap * (placeCores s r).length < r.grid) then some (5, causeLAYOUT)
      else none

/-- Where the records of a bound itinerary lie (R129, R131). -/
def itinerarySlots (s : State) (ctx itin : Nat) : List RecordAt :=
  match deviceNat s ctx (itin + 0x20) 4 with
  | .inl _ => []
  | .inr n => (List.range n).map (slotAddr s ctx itin)

/-- The records of a bound itinerary (R129, R131). One that cannot be read is dropped (assumption log 41). -/
def readItinerary (s : State) (ctx itin : Nat) : List ItinRec :=
  (itinerarySlots s ctx itin).filterMap fun r => match r with
    | .found a => (match deviceRead s ctx a 32 with
      | .inr bs => some (recordOf bs)
      | .inl _ => none)
    | _ => none

/-- Must admission wait, because something that it reads or checks lies in an armed frame (R356)? -/
def admissionStalls (s : State) (ctx : Nat) (r : LaunchRec) : Bool :=
  (needsDigest r && deviceStalls s ctx r.program r.imageLen) || (r.itin != 0 && deviceStalls s ctx r.itin 64) ||
  (r.mode == 1 && r.omap != 0 && deviceStalls s ctx r.omap 64) || (r.status != 0 && deviceStalls s ctx r.status 8) ||
  (decide (2 ≤ r.mode) && r.itin != 0 && (itinerarySlots s ctx r.itin).any fun x => match x with
    | .found a => deviceStalls s ctx a 32
    | .full => false
    | .stall => true)

/-- Start recording: the fields that the recording launch writes (R126, R127, R129). -/
def startRecording (s : State) (ctx id : Nat) (r : LaunchRec) : State :=
  let put : State → Nat → List Byte → State := fun s off bs => (deviceWrite s ctx (r.itin + off) bs).getD s
  let s1 := put s 6 [BitVec.ofNat 8 r.grain, 1]
  let s2 := put s1 8 (leBytes 8 id)
  let s3 := put s2 0x10 (leBytes 8 r.key.toNat)
  let s4 := put s3 0x1C (leBytes 2 r.blanes ++ leBytes 1 r.width ++ leBytes 1 r.mode)
  let s5 := put s4 0x24 (leBytes 4 r.grid)
  put s5 0x30 (imageDigest s ctx r)

/-- Is admission held by a checkpoint or a restore, or by a later start stage (R363, R372, R374)? -/
def admissionHeld (h : Hub) : Bool :=
  let st := h.ckstat.toNat % 16
  st == 1 || st == 2 || !h.ready.getLsbD 7

/-- Can the head of a queue be admitted or rejected now? -/
def admissible (s : State) (q : Nat) (h : FifoEntry) : Bool :=
  h.eligible && !admissionHeld s.hub && !admissionStalls s q (parseRecord h.record)

/-- The ownership map of a launch, from its header (R153). -/
def ownMap (h : List Byte) : OwnMap := { base := bytesNat h 8 8, granules := bytesNat h 0x10 4, quota := bytesNat h 0x20 4 }

/-- LAUNCH_ADMISSION (R337): the eligible head of a queue is admitted or rejected. -/
def admitHead (s : State) (q : Nat) : State :=
  match (s.queue q).fifo with
  | [] => s
  | h :: rest =>
    if !admissible s q h then s
    else
      let r := parseRecord h.record
      let s0 := testHead (s.modQueue q fun x => { x with fifo := rest }) q
      match rejection s q r with
      | some (detail, cause) => completionEvent (writeStatus s0 q r 2 cause detail 0) r
      | none =>
        let rec_ := recording r
        let bind := r.mode == 2 || r.mode == 3
        let hd := readBytes s q r.itin 64
        let s1 := if rec_ then startRecording s0 q h.id r else s0
        let l : Launch := { Launch.blank with
          id := h.id, queue := q, rec_ := r, key := if bind then BitVec.ofNat 64 (bytesNat hd 0x10 8) else r.key,
          recording := rec_, bound := if bind then readItinerary s q r.itin else [],
          map := ownMap (if r.mode == 1 then readBytes s q r.omap 64 else []),
          boundGrain := if bind then bytesNat hd 6 1 else 0, boundMode := if bind then bytesNat hd 0x1F 1 else 0,
          snapshot := if r.mode == 1 then s1.mem else [] }
        noteFull { s1 with launches := s1.launches ++ [l] }

/-- The convoys of a launch. -/
def launchConvoys (s : State) (li : Nat) : List Nat :=
  (List.range s.convoys.length).filter fun ci => (s.convoy ci).launch == li

def isCrossHold (h : Hold) : Bool := h.kind == .cross

/-- Would an atomic meet an uncorrectable error (R321)? -/
def atomBad (s : State) (k : AccKind) (pa : Nat) : Bool :=
  match k with
  | .atom op _ _ _ => s.memBad pa (atomSize op)
  | _ => false

/-- The home of a buffered access when it is performed, or none while it must wait: for a path (R375), or because an armed frame answers RETRY, and the address is walked again (R357), or an atomic would meet there what cannot be corrected (R321; assumption log 42). -/
def commitPa (s : State) (ctx : Nat) (x : Buffered) : Option Nat :=
  let at_ : Nat → Option Nat := fun pa => if atomBad s x.kind pa then none else some pa
  if !homeBusy s x.pa then (if paMapped s x.pa then at_ x.pa else none)
  else if deviceStalls s ctx x.va 1 then none
  else match deviceXlate s ctx x.va true with
    | .inr pa => at_ pa
    | .inl _ => none

/-- Is what a buffered release follows performed: the writes of its sequencer, and the reads of its convoy (R95, R272, R274)? -/
def senderClear (s : State) (l : Launch) (x : Sender) : Bool :=
  !(x.rel && scopeActs l x.scope) || releaseClear s x.core x.seq x.convoy x.number

/-- Can the interval of a CANONICAL launch be committed: each buffered access has a home that performs it, what a release among them follows is performed, and so are the direct writes of the launch? -/
def commitReady (s : State) (li : Nat) : Bool :=
  let l := s.launch li
  l.buffer.all (fun x => (commitPa s l.queue x).isSome && senderClear s l x.sender) && !s.accesses.any fun a => a.launch == li && a.isWrite && a.unperformed

/-- Has every convoy of the launch arrived or ended (R157), and can the interval be committed and the crossing recorded now? -/
def crossComplete (s : State) (li : Nat) : Bool :=
  let l := s.launch li
  let cs := (launchConvoys s li).map s.convoy
  cs.any (fun c => anyHold c isCrossHold) && cs.all (fun c => c.ended || anyHold c isCrossHold) &&
  !hasPending l && (!isCanonical l || commitReady s li) && !l.crossSlot.any (recordStalls s l)

/-- Perform one buffered access at its home (R156). -/
def commitOne (ctx : Nat) (s : State) (x : Buffered) : State :=
  let pa := (commitPa s ctx x).getD x.pa
  match x.kind with
  | .store bs => s.putMem pa bs
  | .atom op mmrg operands _ => s.putMem pa (atomRun op mmrg (memRead s.mem pa (atomSize op)) operands).2
  | _ => s

/-- Commit an interval in logical order (R156). -/
def commitInterval (s : State) (li : Nat) : State :=
  let s1 := (commitOrder (s.launch li).buffer).foldl (commitOne (s.launch li).queue) s
  s1.modLaunch li fun l => { l with buffer := [] }

/-- The buffered acquires of an interval are performed with its commit, and bound later reads at their scopes (R95, R274). -/
def commitBounds (s : State) (l : Launch) : State :=
  (l.buffer.filter fun x => x.sender.acq).foldl (fun s x => acquireBound s x.sender.convoy x.sender.scope s.steps) s

/-- The record of a crossing (R137). -/
def crossRecord (l : Launch) : ItinRec :=
  { addr := 0, seqpos := 0, block := 0xFFFFFFFF, convoy := 0xFF, lane := 0xFF, tag := 0, occ := 0, kind := 6, cls := 0,
    opcode := 0, grain := l.rec_.grain, extra := l.crossings + 1 }

/-- Complete a crossing when the last convoy has arrived or ended (R137, R138, R156, R157). The places of lane 0 go on counting, so that the writes of a copy forked before the crossing still come before what lane 0 does after it (R158). -/
def closeCrossing (s : State) (li : Nat) : State :=
  let l := s.launch li
  let s1 := match l.crossSlot with
    | some a => writeRecord s l a (crossRecord l)
    | none => s
  let s2 := if isCanonical l then commitBounds (commitInterval s1 li) l else s1
  let s3 := s2.modLaunch li fun l => { l with
    crossings := l.crossings + 1, crossSlot := none, snapshot := if isCanonical l then s2.mem else l.snapshot }
  let s4 := { s3 with blocks := s3.blocks.map fun b => if b.launch == li then { b with gens := 0, buffered := 0 } else b }
  (launchConvoys s4 li).foldl (fun s ci => releaseHolds (acquireBound s ci 3 s.steps) ci isCrossHold) s4

/-- Complete the crossing of a launch, where the last convoy has arrived or ended. -/
def finishCrossing (s : State) (li : Nat) : State := if crossComplete s li then closeCrossing s li else s

/-- Are copy or matrix operations of a block still to end (R108)? -/
def engineBusy (s : State) (bi : Nat) : Bool :=
  s.copies.any (fun o => o.block == bi && o.phase != .joined) ||
  s.cores.any fun c => c.queue.any fun m => m.block == bi

/-- Take convoys out of their positions; a slot without convoys closes (R338). -/
def unseat (s : State) (ci : Nat) : State :=
  let c := s.convoy ci
  s.modSlot c.core c.slot fun x =>
    let ps := x.positions.set c.pos none
    if ps.all Option.isNone then { Slot.closed with ready := x.ready } else { x with positions := ps }

/-- The claims of a block on a core end (R167). -/
def unclaim (s : State) (core bi : Nat) : State :=
  s.modCore core fun c => { c with tiles := c.tiles.map fun t => if t.claim == some bi then { t with claim := none } else t }

/-- A block that has ended keeps its claims until its last matrix operation has (R167). -/
def endClaims (s : State) (bi : Nat) : State :=
  let b := s.block bi
  if b.state == .ended && !(s.cores.any fun c => c.queue.any fun m => m.block == bi) then
    unclaim (unclaim s b.core bi) (b.follower.getD b.core) bi
  else s

/-- Free what a block holds: positions, local store, block count and tiles (R69, R167, R343). -/
def freeBlock (s : State) (bi : Nat) (st : BlockState) : State :=
  let b := s.block bi
  let s1 := b.convoys.foldl unseat s
  let s2 := unclaim (unclaim s1 b.core bi) (b.follower.getD b.core) bi
  s2.modBlock bi fun b => { b with state := st }

/-- Keep a block end on a core for the launches that place by freed capacity; ends of one cycle rank by core (R340). -/
def keepEndOn (s : State) (core : Nat) : State :=
  let ins : Nat → List KeptEnd → List KeptEnd := fun c l =>
    (l.filter fun e => decide (e.cycle < s.clock) || decide (e.core ≤ c)) ++ [{ core := c, cycle := s.clock, used := false }] ++
      l.filter fun e => !(decide (e.cycle < s.clock) || decide (e.core ≤ c))
  { s with launches := s.launches.map fun l =>
      let c := if l.rec_.tandem then core / 2 * 2 else core
      if hasPending l && l.freedRule && (placeCores s l.rec_).contains c then { l with ends := ins c l.ends } else l }

/-- Keep the end of a block: on both cores of a tandem block (R338, R340). A tandem launch places by leaders. -/
def keepEnd (s : State) (b : Block) : State :=
  let s1 := s.modHub fun h => { h with freedAt := some s.clock }
  match b.follower with
  | none => keepEndOn s1 b.core
  | some k =>
    let s2 := keepEndOn s1 b.core
    { keepEndOn s2 k with launches := (indexed (keepEndOn s2 k).launches).map fun p =>
        if p.2.rec_.tandem then s2.launch p.1 else p.2 }

/-- Does every access of a launch lie behind (R341)? -/
def accessesClear (s : State) (li : Nat) : Bool := !s.accesses.any fun a => a.launch == li

/-- May a launch complete (R341)? -/
def completable (s : State) (li : Nat) : Bool :=
  let l := s.launch li
  !l.completed && !hasPending l && accessesClear s li &&
  (indexed s.blocks).all (fun p => p.2.launch != li || (p.2.state == .freed && !engineBusy s p.1)) &&
  (!isCanonical l || l.terminated.isSome || commitReady s li) && (!l.recording || !deviceStalls s l.queue l.rec_.itin 64) &&
  (l.rec_.status == 0 || !deviceStalls s l.queue l.rec_.status 8)

/-- Seal the itinerary of a recording launch, or leave it faulted (R132). -/
def sealItinerary (s : State) (li : Nat) : State :=
  let l := s.launch li
  if !l.recording then s
  else match deviceWrite s l.queue (l.rec_.itin + 0x20) (leBytes 4 l.reserved) with
    | none => s.setErr 11
    | some s1 => (deviceWrite s1 l.queue (l.rec_.itin + 7) [if l.terminated.isSome then 3 else 2]).getD (s.setErr 11)

/-- LAUNCH_COMPLETION (R341). -/
def completeLaunch (s : State) (li : Nat) : State :=
  if !completable s li then s
  else
    let l := s.launch li
    let s0 := if isCanonical l && l.terminated.isNone then commitInterval s li else s
    let s1 := sealItinerary s0 li
    let s2 := match l.terminated with
      | some cause => writeStatus s1 l.queue l.rec_ 3 cause.toNat 0 l.endedBlocks
      | none => writeStatus s1 l.queue l.rec_ 1 0 0 l.endedBlocks
    let s3 := (completionEvent s2 l.rec_).modLaunch li fun l => { l with completed := true, buffer := [], snapshot := [] }
    { s3 with cores := s3.cores.map fun c => { c with free := c.free.filter fun x => x.launch != li, current := c.current.filter fun x => x.1 != li } }

/-- The claims of the blocks of a launch that have ended with it (R167, R319). -/
def endLaunchClaims (s : State) (li : Nat) : State :=
  ((List.range s.blocks.length).filter fun bi => (s.block bi).launch == li).foldl endClaims s

/-- What termination makes of a convoy, a block, a copy and a queued matrix operation of the launch (R108, R319). -/
def killConvoy (li : Nat) (c : Convoy) : Convoy :=
  if c.launch == li then { c with ended := true, holds := [], rvHolds := [], hrvHolds := [], loops := [], barl := none } else c

def killBlock (li : Nat) (b : Block) : Block :=
  if b.launch != li || b.state == .freed then b else if b.state == .saved then { b with state := .freed } else { b with state := .ended }

def killCopy (li : Nat) (o : CopyOp) : CopyOp :=
  if o.launch == li && o.phase != .joined then { o with fetched := [], flight := [], paused := false, phase := .ending 2 } else o

def killMatOp (s : State) (li : Nat) (m : MatOp) : MatOp :=
  if (s.block m.block).launch == li then { m with cancelled := true } else m

/-- LAUNCH_TERMINATION (R319): every convoy stops, copy and matrix operations are cancelled, buffers are discarded, and so are accesses whose word still waits under the constraints of a replay; completion follows. -/
def terminateLaunch (s : State) (li cause : Nat) : State :=
  let l := s.launch li
  if l.completed || l.terminated.isSome || s.launches.length ≤ li then s
  else
    let s1 := s.modLaunch li fun l => { l with terminated := some (BitVec.ofNat 8 cause), buffer := [] }
    let s2 : State := { s1 with
      convoys := s1.convoys.map (killConvoy li)
      blocks := s1.blocks.map (killBlock li)
      accesses := s1.accesses.filter fun a => !(a.launch == li && a.unperformed && !replayOk l a)
      copies := s1.copies.map (killCopy li)
      cores := s1.cores.map fun (c : Core) => { c with queue := c.queue.map (killMatOp s1 li) } }
    endLaunchClaims s2.noteParked li

/-- A field of a service record, in context 16 (R344); one that cannot be read counts as 0. -/
def recordField (s : State) (at_ n : Nat) : Nat :=
  match deviceNat s 16 at_ n with
  | .inr v => v
  | .inl _ => 0

/-- The completion event of a service record (R344). -/
def recordEvent (s : State) (record : Nat) : State :=
  let v := recordField s (record + 0x2C) 4
  if v / 65536 % 2 == 1 then setEvent s (v % 65536) else s

/-- What leaves the device with a saved convoy: its registers lie in its context area (R324). -/
def emptyConvoy (c : Convoy) : Convoy := { c with lanes := [], busy := [] }

/-- Drop the queued matrix operations of a block: they lie in its block area (R172, R325). -/
def dropQueued (s : State) (bi : Nat) : State :=
  { s with cores := s.cores.map fun (c : Core) => { c with queue := c.queue.filter fun m => m.block != bi } }

/-- A block leaves the device for its areas in memory (R343). -/
def putAway (s : State) (bi : Nat) : State :=
  (s.block bi).convoys.foldl (fun s ci => s.modConvoy ci emptyConvoy) (freeBlock (dropQueued s bi) bi .saved)

/-- A restored convoy goes on: the timer and the watchdog count of its slot start at 0 (R322). -/
def resumeConvoy (s : State) (ci : Nat) : State :=
  let s1 := s.modConvoy ci fun c => { c with stopped := false, ready := s.clock }
  let c := s1.convoy ci
  resetWatchdog (s1.modSlot c.core c.slot fun x => { x with timer := 0, backward := false }) c.core c.slot

/-- A restored block goes on (R343, R344). -/
def resumeBlock (s : State) (bi : Nat) : State :=
  let s1 := (s.block bi).convoys.foldl resumeConvoy s
  ({ s1 with copies := s1.copies.map fun (o : CopyOp) => if o.block == bi then { o with paused := false } else o }).modBlock bi
    fun b => { b with state := .running }

/-- The operation beside another in a tandem save or restore. -/
def partnerOf (s : State) (sv : Nat) (v : ServiceOp) : Option ServiceOp :=
  if (s.block v.block).follower.isSome then s.services[if v.second then sv - 1 else sv + 1]? else none

/-- Every service block of a save or restore has exited: the block is saved or restored, or left as it was (R343, R344). -/
def closeService (s : State) (v : ServiceOp) (ok : Bool) (ops : List ServiceOp) : State :=
  let b := s.block v.block
  let s1 : State := { s with services := s.services.map fun (x : ServiceOp) => if x.block == v.block then { x with closed := true } else x }
  let events : State → State := fun s => ops.foldl (fun s x => recordEvent s x.record) s
  if v.restore && b.state == .restoring then (if ok then events (resumeBlock s1 v.block) else putAway s1 v.block)
  else if !v.restore && b.state == .saving && ok then events (keepEnd (putAway s1 v.block) b)
  else s1

/-- A service block has exited: result 1 says that it did its work (R344). -/
def serviceExit (s : State) (sv : Nat) : State :=
  match s.services[sv]? with
  | none => s
  | some v =>
    if v.closed || v.done || v.failed then s
    else
      let ok := recordField s (v.record + 0x30) 4 == 1
      let v1 : ServiceOp := { v with layby := none, done := ok, failed := !ok }
      let s1 : State := { s with services := s.services.set sv v1 }
      match partnerOf s1 sv v with
      | none => closeService s1 v ok [v]
      | some p => if p.done || p.failed then closeService s1 v (ok && p.done) [v, p] else s1

/-- The accesses of a block's convoys have all come back, and the writes that its copies have sent are performed. -/
def blockQuiet (s : State) (bi : Nat) : Bool :=
  !s.accesses.any (fun a => (s.convoy a.convoy).block == bi) && !s.copies.any fun o => o.block == bi && !o.flight.isEmpty

/-- Must the report of a service block wait, because a service record lies in an armed frame (R356)? -/
def reportStalls (s : State) (sv : Nat) : Bool :=
  s.services.any fun v => (s.services[sv]?.any fun u => u.block == v.block) && deviceStalls s 16 v.record 256

/-- May a service block that has ended report: its stores are performed, and its record can be read? -/
def mayReport (s : State) (bi : Nat) : Bool :=
  match (s.block bi).kind with
  | .service sv => blockQuiet s bi && !reportStalls s sv
  | .ordinary => true

/-- A service block whose convoys have ended reports, once its stores are performed. -/
def serviceReport (s : State) (bi : Nat) : State :=
  match (s.block bi).kind with
  | .service sv => if (s.block bi).state == .ended && mayReport s bi then serviceExit s sv else s
  | .ordinary => s

/-- Every convoy of a block has ended (R45): the block ends, and counts as ended by EXIT (R335); a service block reports (R344). -/
def endBlock (s : State) (bi : Nat) : State :=
  let b := s.block bi
  if b.state == .running && b.convoys.all fun ci => (s.convoy ci).ended then
    serviceReport (endClaims ((s.modBlock bi fun b => { b with state := .ended }).modLaunch b.launch fun l => { l with endedBlocks := l.endedBlocks + 1 }) bi) bi
  else s

/-- May a block be released (R69, R108)? -/
def releasable (s : State) (bi : Nat) : Bool :=
  let b := s.block bi
  b.state == .ended && !engineBusy s bi && mayReport s bi

/-- The block that is released next: of the lowest core (R345). -/
def nextRelease (s : State) : Option Nat :=
  ((List.range s.blocks.length).filter (releasable s)).foldl (fun acc bi => match acc with
    | none => some bi
    | some x => if (s.block bi).core < (s.block x).core then some bi else some x) none

/-- BLOCK_RELEASE (R69, R340): an ordinary block's end is kept for the launches that wait for it. -/
def releaseBlock (s : State) (bi : Nat) : State :=
  if !releasable s bi then s
  else
    let b := s.block bi
    let s1 := freeBlock (serviceReport s bi) bi .freed
    if b.kind == .ordinary then keepEnd s1 b else s1

/-- A convoy without live lanes ends (R45); its open levels close (R58). -/
def endConvoy (s : State) (ci : Nat) : State :=
  let c := s.convoy ci
  if c.live != 0 then s
  else
    let s1 := s.setConvoy ci { c with ended := true, loops := [], holds := [], rvHolds := [], hrvHolds := [], barl := none }
    finishCrossing (endBlock s1 c.block) c.launch

/-- What of a convoy's order still matters: accesses that are in flight. -/
def liveBefores (s : State) (l : List Before) : List Before :=
  l.filter fun x => s.accesses.any fun b => b.unperformed && b.convoy == x.convoy && decide (b.number < x.until_)

/-- A barrier releases a convoy: an acquire at scope BLK, with what it orders before the lanes that go on (R79). -/
def passBarrier (s : State) (ci : Nat) (befores : List Before) : State :=
  (acquireBound s ci 1 s.steps).modConvoy ci fun c => { c with befores := liveBefores s (c.befores ++ befores) }

/-- The lanes of a BARL are released together (R80): what each did before its arrival comes before what the others do from now on (R79). -/
def releaseBarl (s : State) (ci : Nat) (b : Barl) : State :=
  releaseHolds (passBarrier s ci [{ convoy := ci, lanes := b.mask, until_ := s.steps, mine := b.mask, from_ := s.steps }]) ci
    fun h => h.kind == .barl

/-- The completion test of a BARL (R80): its released lanes move on together. -/
def finishBarl (s : State) (ci : Nat) : State :=
  let c := s.convoy ci
  match c.barl with
  | none => s
  | some b =>
    if b.mask &&& c.live &&& ~~~ b.arrived != 0 then s
    else releaseBarl (s.setConvoy ci { c with barl := none }) ci b

end Sys2Proof.Machine
end

