-- ==== Sys2Proof/Machine/Copying.lean ====
section
/-! DEFINITION. Copy operations as they run (R103 to R117, R158, R290 to R292, R353, R354): reads in any order, writes in layout order for each receiver. -/

namespace Sys2Proof.Machine

/-- The elements of a layout (R110). -/
def Layout.count (l : Layout) : Nat := l.e.foldl (· * ·) 1

/-- The four indices of element p, i0 fastest (R110). -/
def Layout.index (l : Layout) (p : Nat) : List Nat :=
  let e0 := l.e.getD 0 1
  let e1 := l.e.getD 1 1
  let e2 := l.e.getD 2 1
  [p % e0, p / e0 % e1, p / (e0 * e1) % e2, p / (e0 * e1 * e2)]

def dotInt (i : List Nat) (s : List Int) : Int := ((i.zip s).map fun p => (p.1 : Int) * p.2).foldl (· + ·) 0

/-- Source and destination offsets of element p (R110). -/
def Layout.srcOff (l : Layout) (p : Nat) : Int := dotInt (l.index p) l.s
def Layout.dstOff (l : Layout) (p : Nat) : Int := dotInt (l.index p) l.t

def Layout.size (l : Layout) : Nat := 2 ^ l.z

/-- Is a source element filled with zeros (R110)? -/
def zeroFilled (o : CopyOp) (p : Nat) : Bool :=
  o.lay.zfill && (decide (o.lay.srcOff p < 0) || decide ((o.boundary : Int) < o.lay.srcOff p + o.lay.size))

/-- An address modulo 2^64. -/
def addOff (base : Nat) (o : Int) : Nat := ((base : Int) + o) % (2 ^ 64 : Int) |>.toNat

/-- Does a copy read, or write, local store? -/
def CopyOp.srcLocal (o : CopyOp) : Bool :=
  match o.kind with
  | .copy d => d == 1 || d == 3
  | .copyp _ l => l
  | .copym _ l => l

def CopyOp.dstLocal (o : CopyOp) : Bool :=
  match o.kind with
  | .copy d => d == 0 || d == 3
  | _ => true

/-- Does the issuing convoy of a copy lie on the follower? -/
def CopyOp.second (s : State) (o : CopyOp) : Bool := (s.block o.block).follower == some o.core

/-- How one access of an engine ends. -/
inductive EngRes (α : Type) where
  | ok (v : α)
  | fault (cause addr : Nat) (write : Bool)
  | ends
  | stall

def EngRes.bind {α β : Type} (x : EngRes α) (f : α → EngRes β) : EngRes β :=
  match x with
  | .ok v => f v
  | .fault c a w => .fault c a w
  | .ends => .ends
  | .stall => .stall

/-- Have the issuing convoy's earlier writes to these bytes been performed (R104), also where a migration moves them (R357)? -/
def forkClear (s : State) (convoy fork va pa n : Nat) : Bool :=
  !s.accesses.any fun b => b.convoy == convoy && decide (b.number < fork) && b.unperformed && b.isWrite &&
    (rangesMeet b.pa b.size pa n || rangesMeet b.va b.size va n)

/-- Translate for an engine: the leaf's checks as for its issuing convoy (R349). An armed frame holds the engine back (R357). -/
def engXlate (s : State) (core ctx : Nat) (user write : Bool) (va : Nat) : EngRes (State × Nat × W64) :=
  if 2 ^ 48 ≤ va then .fault causeACCESS va write
  else match xlateHome s { core := core, ctx := ctx, write := write, fetch := false, user := user } va with
    | .stall => .stall
    | .bad _ c => .fault c va write
    | .ok s1 pa leaf => .ok (s1, pa, leaf)

/-- The bytes an engine reads now: a square's copy of a peer line may answer, no older than what its convoy has seen (R91, R98). -/
def engRead (s : State) (ci pa : Nat) (leaf : W64) (n : Nat) : List Byte :=
  let c := s.convoy ci
  let floor := max c.domBound (viewFloor c (List.range c.width) pa n)
  let copy := if pteRC leaf && !pteSC leaf && paIsPeer pa then
      s.squares.find? fun x => x.line == lineOf pa && decide (floor ≤ x.filled)
    else none
  match copy with
  | some x => (x.bytes.drop (pa % 128)).take n
  | none => memRead s.mem pa n

/-- Read for an engine: it waits for its convoy's earlier writes (R104), for an armed frame (R356) and behind posted writes (R99). -/
def engFetch (s : State) (core ctx ci fork : Nat) (user : Bool) (va n : Nat) : EngRes (State × Nat × W64) :=
  (engXlate s core ctx user false va).bind fun (s1, pa, leaf) =>
    if homeBusy s1 pa || !forkClear s1 ci fork va pa n then .stall
    else if s1.memBad pa n then .ends
    else .ok (s1, pa, leaf)

/-- Read n bytes of global memory for a copy; a CANONICAL launch reads by R154 and R158. -/
def copyReadGlobal (s : State) (o : CopyOp) (va n : Nat) : EngRes (State × List Byte) :=
  let l := s.launch o.launch
  (engFetch s o.core l.queue o.convoy o.fork o.user va n).bind fun (s1, pa, leaf) =>
    let direct : State × List Byte := (s1, engRead s1 o.convoy pa leaf n)
    if isCanonical l then
      (match ownOf s1 l va leaf with
       | .unreadable c a => .fault c a false
       | .shared => .ok (s1, memRead l.snapshot pa n)
       | .owner b => if b == (s1.block o.block).index then .ok direct else .ends
       | .bad => .ends
       | .stall => .stall)
    else .ok direct

/-- Write the bytes of element p to global memory for a copy: they are sent, or buffered for a shared granule of a CANONICAL launch (R154, R158). -/
def copyWriteGlobal (s : State) (o : CopyOp) (p va : Nat) (bs : List Byte) : EngRes (State × List Flight) :=
  let l := s.launch o.launch
  (engXlate s o.core l.queue o.user true va).bind fun (s1, pa, leaf) =>
    let direct : State × List Flight := (s1, [{ element := p, va := va, pa := pa, bytes := bs, waiting := s.clock, retrying := false }])
    if isCanonical l then
      (match ownOf s1 l va leaf with
       | .unreadable c a => .fault c a true
       | .bad => .ends
       | .stall => .stall
       | .owner b => if b == (s1.block o.block).index then .ok direct else .ends
       | .shared =>
         let b := s1.block o.block
         if l.map.quota ≤ b.buffered then .ends
         else .ok ((s1.modLaunch o.launch fun l => { l with buffer := l.buffer ++
             [{ block := b.index, convoy := (s1.convoy o.convoy).index, lane := 0, order := o.order, element := p,
                va := va, pa := pa, kind := .store bs, sender := { core := o.core, seq := o.seq, convoy := o.convoy, number := o.fork, rel := false, acq := false, scope := 0 },
                waiting := s.clock }] }).modBlock o.block fun b => { b with buffered := b.buffered + 1 }, []))
    else .ok direct

/-- Read bytes of the issuing block's local store for a copy. -/
def copyReadLocal (s : State) (o : CopyOp) (off n : Nat) : EngRes (State × List Byte) :=
  let l := blockLs (s.block o.block) (o.second s)
  if l.errs.any (fun x => decide (off ≤ x) && decide (x < off + n)) then .ends else .ok (s, memRead l.mem off n)

/-- Write bytes into a local store for a copy: never into an armed object (R78). -/
def copyWriteLocal (s : State) (bi : Nat) (second : Bool) (off : Nat) (bs : List Byte) : EngRes State :=
  if (armedObject (blockLs (s.block bi) second) off bs.length).isSome then .ends
  else .ok (modLs s bi second fun l => l.write off bs)

/-- The fields of a plane tile header (R159). -/
structure TileHdr where
  p : Nat
  mode : Nat
  rows : Nat
  k : Nat
  flags : Nat
  seed : W32
  n : Nat
  group : Nat
  rest : Nat
  deriving DecidableEq, Repr

def tileHdr (b : List Byte) : TileHdr :=
  { p := bytesNat b 0 1, mode := bytesNat b 1 1, rows := bytesNat b 2 2, k := bytesNat b 4 2, flags := bytesNat b 6 2,
    seed := BitVec.ofNat 32 (bytesNat b 8 4), n := bytesNat b 12 1, group := bytesNat b 13 1, rest := bytesNat b 14 2 }

def TileHdr.sparse (h : TileHdr) : Bool := h.flags % 2 == 1

/-- The legal values of R159. -/
def TileHdr.fits (h : TileHdr) : Bool :=
  (h.p == 4 || h.p == 8 || h.p == 12 || h.p == 16) && h.mode == 0 && h.rows == 64 && decide (1 ≤ h.k) && decide (h.flags ≤ 1) && h.rest == 0 &&
  (if h.sparse then (h.n == 12 || h.n == 24) && h.group == 48 else h.seed == 0 && h.n == 0 && h.group == 0)

/-- Slots of the plane area (R160, R161), rounded up (assumption log 46). -/
def TileHdr.slots (h : TileHdr) : Nat := if h.sparse then (h.n * h.k + 31) / 32 else h.k

/-- Start of the plane area, and the bytes of a tile (R160). -/
def TileHdr.planeStart (h : TileHdr) : Nat := (16 + 64 * h.k + 255) / 256 * 256
def TileHdr.bytes (h : TileHdr) : Nat := h.planeStart + h.slots * (h.p + 1) * 256

/-- Set or clear one bit of a 32-bit plane word in local store. -/
def setPlaneBit (l : LocalStore) (off bit : Nat) (v : Bool) : LocalStore :=
  let w := memNat l.mem off 4
  let cur := w / 2 ^ bit % 2 == 1
  if cur == v then l else l.write off (leBytes 4 (if v then w + 2 ^ bit else w - 2 ^ bit))

/-- Where the sign word of a row lies for the value at a stream position; the words of planes P-1 down to 0 follow, 256 bytes apart (R160). -/
def planeSlot (h : TileHdr) (tile row pos : Nat) : Nat := tile + h.planeStart + pos / 32 * ((h.p + 1) * 256) + 4 * row

/-- Write one converted value into its slot: sign plane first, then planes P-1 down to 0 (R160). -/
def writePlane (h : TileHdr) (tile row pos : Nat) (l : LocalStore) (v : Bool × Nat) : LocalStore :=
  let slot := planeSlot h tile row pos
  let l1 := setPlaneBit l slot (pos % 32) v.1
  (List.range h.p).foldl (fun l q => setPlaneBit l (slot + 256 * (h.p - q)) (pos % 32) (v.2 / 2 ^ q % 2 == 1)) l1

/-- The exponent byte of a row and block (R160). -/
def exponentAt (tile row t : Nat) : Nat := tile + 16 + 64 * t + row

/-- Write one unit of a tile: the exponent byte of row and block, and its values from a stream position on (R160, R161). -/
def writeUnit (h : TileHdr) (tile row t pos : Nat) (l : LocalStore) (exp : Nat) (vals : List (Bool × Nat)) : LocalStore :=
  ((indexed vals).foldl (fun l p => writePlane h tile row (pos + p.1) l p.2)
    (l.write (exponentAt tile row t) [BitVec.ofNat 8 exp]))

/-- The bytes that a unit of n values writes (R160). -/
def unitBytes (h : TileHdr) (tile row t pos n : Nat) : List Nat :=
  exponentAt tile row t :: (List.range n).flatMap fun i =>
    (List.range (h.p + 1)).map fun q => planeSlot h tile row (pos + i) + 256 * q + (pos + i) % 32 / 8

/-- The source format of COPYP by its code (R291). -/
def copypFmt (c : Nat) : Fmt := match c with
  | 0 => fmtFP32
  | 1 => fmtBF16
  | 2 => fmtE4M3
  | _ => fmtE5M2

/-- Does a copy read MXFP4 blocks, each with a scale byte (R291)? -/
def CopyOp.mx (o : CopyOp) : Bool :=
  match o.kind with
  | .copyp fmt _ => fmt == 4
  | _ => false

/-- How many source elements a write of a copy takes: one, or a unit of COPYP (R291). -/
def CopyOp.unit (o : CopyOp) : Nat :=
  match o.kind with
  | .copyp fmt _ => if fmt == 4 then 1 else if (tileHdr o.header).sparse then 48 else 32
  | _ => 1

/-- The 32 nibbles of an MXFP4 block, low nibble first (R18). -/
def blockNibbles (bs : List Byte) : List Nat := bs.flatMap fun b => [b.toNat % 16, b.toNat / 16]

/-- What a copy reads for the write at element p, by key: element k has key k, the scale byte of block k has key count + k. What is zero-filled is not read (R110, R291). -/
def CopyOp.keys (o : CopyOp) (p : Nat) : List Nat :=
  let els := ((List.range o.unit).map (p + ·)).filter fun q => !zeroFilled o q
  if o.mx then els ++ els.map (o.lay.count + ·) else els

/-- Read what has a key: an element of the source, or a scale byte (R110, R291). -/
def copyFetch (s : State) (o : CopyOp) (key : Nat) : EngRes (State × List Byte) :=
  let n := if key < o.lay.count then o.lay.size else 1
  let a := if key < o.lay.count then addOff o.src (o.lay.srcOff key) else (o.scales + (key - o.lay.count)) % 2 ^ 64
  if o.srcLocal then copyReadLocal s o (a % 2 ^ 32) n else copyReadGlobal s o a n

/-- What a copy has read under a key. -/
def CopyOp.has (o : CopyOp) (key : Nat) : Bool := o.fetched.any fun x => x.1 == key
def CopyOp.got (o : CopyOp) (key : Nat) : List Byte := ((o.fetched.find? fun x => x.1 == key).map Prod.snd).getD []

/-- The value of element p: what was read, or zeros (R110). -/
def CopyOp.element (o : CopyOp) (p : Nat) : List Byte := if zeroFilled o p then List.replicate o.lay.size 0 else o.got p

/-- Where the unit of COPYP at element p goes: its row, its block or group, its first place in the stream, and how many values it has (R160, R161, R291). -/
structure UnitAt where
  row : Nat
  t : Nat
  pos : Nat
  n : Nat

def unitAt (o : CopyOp) (p : Nat) : UnitAt :=
  let h := tileHdr o.header
  let e0 := o.lay.e.getD 0 1
  let t := p % e0 / o.unit
  let n := if h.sparse then h.n else 32
  { row := p / e0, t := t, pos := n * t, n := n }

/-- Convert the unit at element p: the exponent byte and the values (R37, R161, R291). -/
def convertUnit (o : CopyOp) (fmt p : Nat) : Nat × List (Bool × Nat) :=
  let h := tileHdr o.header
  if fmt == 4 then
    (if zeroFilled o p then (0, List.replicate 32 (false, 0))
     else planeMxBlock (bytesNat (o.got (o.lay.count + p)) 0 1) (blockNibbles (o.got p)))
  else
    let xs := ((List.range o.unit).map (p + ·)).map fun q => leNat (o.element q)
    let u := unitAt o p
    planeBlock (copypFmt fmt) h.p (if h.sparse then (keptPositions h.seed h.n u.row u.t).map fun i => xs.getD i 0 else xs)

/-- Write the unit at element p into the tile, unless a byte of it lies in an armed object (R78, R115). -/
def putUnit (s : State) (o : CopyOp) (r : Receiver) (fmt : Nat) : EngRes State :=
  let h := tileHdr o.header
  let u := unitAt o r.progress
  let armed := (unitBytes h o.dst u.row u.t u.pos u.n).any fun a => (armedObject (blockLs (s.block r.block) r.second) a 1).isSome
  if armed then .ends
  else
    let (e, vals) := convertUnit o fmt r.progress
    .ok (modLs s r.block r.second fun l => writeUnit h o.dst u.row u.t u.pos l e vals)

/-- The next write of a copy for a receiver: into its local store, or towards global memory. -/
def copyPut (s : State) (o : CopyOp) (r : Receiver) : EngRes (State × List Flight) :=
  let a := addOff o.dst (o.lay.dstOff r.progress)
  let near : EngRes State → EngRes (State × List Flight) := fun x => x.bind fun s1 => .ok (s1, [])
  match o.kind with
  | .copyp fmt _ => near (putUnit s o r fmt)
  | _ =>
    if o.dstLocal then near (copyWriteLocal s r.block r.second (a % 2 ^ 32) (o.element r.progress))
    else copyWriteGlobal s o r.progress a (o.element r.progress)

def State.copyAt (s : State) (i : Nat) : Option CopyOp := s.copies[i]?
def State.setCopy (s : State) (i : Nat) (o : CopyOp) : State := { s with copies := s.copies.set i o }

/-- Is a block being saved, saved, or being restored? -/
def blockAway (b : Block) : Bool := b.state == .saving || b.state == .saved || b.state == .restoring

/-- Does a receiver stand still because its block is away (R114, R116)? -/
def receiverAway (s : State) (r : Receiver) : Bool := blockAway (s.block r.block)

/-- The receivers that still take elements, and how far the first and the last of them are. -/
def CopyOp.active (o : CopyOp) : List Receiver := o.receivers.filter fun r => !r.joined && r.ended.isNone
def CopyOp.lead (o : CopyOp) : Nat := ((o.active.map Receiver.progress).max?).getD o.lay.count
def CopyOp.tail (o : CopyOp) : Nat := ((o.active.map Receiver.progress).min?).getD o.lay.count

/-- Does a copy move: it has started and is not suspended, paused or ending (R112, R114)? -/
def CopyOp.runs (o : CopyOp) : Bool := o.phase == .moving && !o.paused

/-- A waiting copy starts after the earlier ones of its core (R112), and with .REL when the sequencer's counters have reached zero (R104). -/
def copyStarts (s : State) (i : Nat) : Bool :=
  match s.copyAt i with
  | some o => o.phase == .waiting && !o.paused &&
      !((indexed s.copies).any fun p => decide (p.1 < i) && p.2.core == o.core && p.2.phase == .waiting && !p.2.paused) &&
      (!o.rel || releaseClear s o.core o.seq o.convoy (o.fork + 1))
  | none => false

/-- A copy starts. -/
def copyStart (s : State) (i : Nat) : State :=
  match s.copyAt i with
  | some o => if copyStarts s i then s.setCopy i { o with phase := .moving } else s
  | none => s

/-- What a copy needs next from its source: the first key of the write at its foremost receiver that it has not read. -/
def nextKey (o : CopyOp) : Option Nat :=
  if !o.runs || o.stop.isSome || decide (o.lay.count ≤ o.lead) then none else (o.keys o.lead).find? fun k => !o.has k

/-- Something a copy may read before its turn: the reads of a copy have no order among themselves (R94, R103). -/
def aheadKey (s : State) (o : CopyOp) : Option Nat :=
  let k := Config.freeElement s.steps % (if o.mx then 2 * o.lay.count else o.lay.count)
  let p := k % o.lay.count
  if o.runs && o.stop.isNone && decide (o.lead ≤ p) && decide (p < o.lay.count) && !zeroFilled o p && !o.has k then some k else none

/-- A copy reads what it needs next. A source element that it may not read ends it before that element, for every receiver (R114, R292). -/
def copyRead (s : State) (i : Nat) : State :=
  match s.copyAt i with
  | none => s
  | some o => match nextKey o with
    | none => s
    | some k => match copyFetch s o k with
      | .ok (s1, bs) => s1.setCopy i { o with fetched := (k, bs) :: o.fetched }
      | .ends => s.setCopy i { o with stop := some (o.lead, 1) }
      | _ => s

/-- A copy reads something before its turn. -/
def copyReadAhead (s : State) (i : Nat) : State :=
  match s.copyAt i with
  | none => s
  | some o => match aheadKey s o with
    | none => s
    | some k => match copyFetch s o k with
      | .ok (s1, bs) => s1.setCopy i { o with fetched := (k, bs) :: o.fetched }
      | _ => s

/-- May a receiver take its next write: it is there, and what the write needs has been read? -/
def mayWrite (s : State) (o : CopyOp) (r : Receiver) : Bool :=
  o.runs && !r.joined && r.ended.isNone && !receiverAway s r && decide (r.progress < o.lay.count) &&
  (match o.stop with
   | some (p, _) => decide (r.progress < p)
   | none => true) && (o.keys r.progress).all o.has

/-- The 4-byte words that the first p elements take on a local side of a copy, in layout order (R113). Elements of less than 4 bytes that follow one another in one word take it once (assumption log 14). -/
def sideWords (o : CopyOp) (p base : Nat) (off : Nat → Int) (skip : Nat → Bool) : List Nat :=
  ((List.range p).filter fun p => !skip p).foldl (fun acc p =>
    let a := addOff base (off p) % 2 ^ 32
    let ws := (List.range ((a % 4 + o.lay.size + 3) / 4)).map fun j => a / 4 + j
    if decide (o.lay.size < 4) && acc.getLast? == ws.head? then acc else acc ++ ws) []

/-- The first n beats of a list of words: how many, and their extra cycles (R113). -/
def beatsOf : Nat → List Nat → Nat × Nat
  | 0, _ => (0, 0)
  | n + 1, ws =>
    if ws.isEmpty then (0, 0)
    else
      let beat := (ws.take 32).eraseDups
      let c := (List.range 32).foldl (fun m b => max m (beat.filter fun w => w % 32 == b).length) 1
      let r := beatsOf n (ws.drop 32)
      (r.1 + 1, r.2 + (c - 1))

/-- The beats of p elements on the local sides of a copy; a beat that is not full passes when the copy ends (R113). Scale bytes form none (assumption log 14). -/
def beatsTo (o : CopyOp) (p : Nat) (ends : Bool) : Nat × Nat :=
  let src := if o.srcLocal then [sideWords o p o.src o.lay.srcOff (zeroFilled o)] else []
  let dst := match o.kind with
    | .copy _ => if o.dstLocal then [sideWords o p o.dst o.lay.dstOff fun _ => false] else []
    | _ => []
  (src ++ dst).foldl (fun n ws =>
    let b := beatsOf (ws.length / 32 + if ends then 1 else 0) ws
    (n.1 + b.1, n.2 + b.2)) (0, 0)

/-- What the beats add that pass while a copy goes from p to q elements, to the bank-conflict counter and to the performance counters (R113, R294, R327). -/
def passBeats (s : State) (o : CopyOp) (p q : Nat) (ends : Bool) : State :=
  let a := beatsTo o p false
  let b := beatsTo o q ends
  let c := s.convoy o.convoy
  let sum := c.conflicts.toNat + (b.2 - a.2)
  (s.setConvoy o.convoy { c with conflicts := BitVec.ofNat 32 (min sum (2 ^ 32 - 1)) }).perfCount o.core 0x08 (b.1 - a.1)

/-- A receiver has taken a write; what no receiver needs any more is forgotten. -/
def advanceCopy (o : CopyOp) (k : Nat) (r : Receiver) (sent : List Flight) : CopyOp :=
  let o1 := { o with receivers := o.receivers.set k r, flight := o.flight ++ sent }
  { o1 with fetched := o1.fetched.filter fun x => decide (o1.tail ≤ x.1 % o.lay.count) }

/-- Receiver k of a copy takes its next write, in layout order, so that every element before its progress is written and none after (R114). A write that is not performed ends its copy (R78, R114). -/
def copyWrite (s : State) (i k : Nat) : State :=
  match s.copyAt i with
  | none => s
  | some o => match o.receivers[k]? with
    | none => s
    | some r =>
      if !mayWrite s o r then s
      else match copyPut s o r with
        | .ok (s1, sent) =>
          let o1 := advanceCopy o k { r with progress := r.progress + o.unit } sent
          let p := max o.passed (r.progress + o.unit)
          (passBeats s1 o o.passed p false).setCopy i { o1 with passed := p }
        | .ends => s.setCopy i (advanceCopy o k { r with ended := some 1 } [])
        | _ => s

/-- The home of a write of an engine, once it may be performed there (R104). One that has been answered RETRY finds its home by a new walk, which an armed frame does not end (R356, R357). -/
def engHome (s : State) (core ctx : Nat) (user : Bool) (ci fork : Nat) (f : Flight) : EngRes (State × Nat) :=
  let go : State → Nat → EngRes (State × Nat) := fun s1 pa =>
    if paMapped s1 pa && !armedFrame s1 pa && forkClear s1 ci fork f.va pa f.bytes.length then .ok (s1, pa) else .stall
  if !f.retrying then go s f.pa
  else match engXlate (tlbDrop s core ctx f.va) core ctx user true f.va with
    | .ok (s1, pa, _) => go s1 pa
    | _ => .stall

/-- Is a write that an engine has sent to be answered RETRY: its frame is armed (R356)? -/
def flightRefused (s : State) (f : Flight) : Bool := !f.retrying && armedFrame s f.pa

/-- The home of a write that a copy has sent (R104, R357). -/
def flightHome (s : State) (o : CopyOp) (f : Flight) : EngRes (State × Nat) :=
  engHome s o.core (s.launch o.launch).queue o.user o.convoy o.fork f

/-- Write j that a copy has sent is answered RETRY: from now on it holds no translation (R357). -/
def copyRetry (s : State) (i j : Nat) : State :=
  match s.copyAt i with
  | none => s
  | some o => match o.flight[j]? with
    | none => s
    | some f => if flightRefused s f then s.setCopy i { o with flight := o.flight.set j { f with retrying := true } } else s

/-- Write j that a copy has sent is performed at its home: the writes of a copy have no order among themselves (R94, R103). -/
def copyPerform (s : State) (i j : Nat) : State :=
  match s.copyAt i with
  | none => s
  | some o => match o.flight[j]? with
    | none => s
    | some f => match flightHome s o f with
      | .ok (s1, pa) => (homePut s1 pa f.bytes).setCopy i { o with flight := o.flight.eraseIdx j }
      | _ => s

/-- Does the next element of a copy meet a translation fault: with its cause, its address and whether it is a write? It is noticed once every element before it is written (R114). -/
def copyFault (s : State) (i : Nat) : Option (Nat × Nat × Bool) :=
  match s.copyAt i with
  | none => none
  | some o =>
    if !o.flight.isEmpty || o.active.any (fun r => r.progress != o.lead) then none
    else match nextKey o with
      | some k => (match copyFetch s o k with
        | .fault c a w => some (c, a, w)
        | _ => none)
      | none => (match o.active with
        | [r] => if mayWrite s o r then (match copyPut s o r with
            | .fault c a w => some (c, a, w)
            | _ => none) else none
        | _ => none)

/-- Increment a stamp in local store (R106). -/
def stampLocal (s : State) (bi : Nat) (second : Bool) (off status : Nat) : State :=
  modLs s bi second fun l => l.write off (leBytes 8 (stampNext (l.word off) status).toNat)

/-- The status with which a receiver may end now, after its own writes (R106, R114, R116, R319). -/
def receiverStatus (s : State) (o : CopyOp) (r : Receiver) : Option Nat :=
  if r.joined || o.paused || receiverAway s r || !o.flight.isEmpty then none
  else match o.phase with
    | .ending st => some (r.ended.getD st)
    | .moving => (match r.ended with
      | some st => some st
      | none => if o.lay.count ≤ r.progress then some 0 else none)
    | _ => none

/-- Has every receiver come to the source element that ends the copy (R292)? -/
def stopReached (s : State) (o : CopyOp) : Bool :=
  o.runs && o.flight.isEmpty && !o.active.isEmpty &&
  (match o.stop with
   | some (p, _) => o.active.all fun r => r.progress == p && !receiverAway s r
   | none => false)

/-- The receivers that end next, by number, with their status: together at a source element that ends the copy (R292), else one on its own (R116). -/
def copyEnds (s : State) (o : CopyOp) : List (Nat × Nat) :=
  if stopReached s o then ((indexed o.receivers).filter fun p => !p.2.joined && p.2.ended.isNone).map fun p => (p.1, 1)
  else (((indexed o.receivers).filterMap fun p => (receiverStatus s o p.2).map fun st => (p.1, st)).take 1)

/-- A receiver ends: its stamp advances (R106), also where its word is an armed object (assumption log 28). -/
def endReceiver (s : State) (r : Receiver) (st : Nat) : State :=
  match r.stamp with
  | some off => stampLocal s r.block r.second off st
  | none => s

/-- COPY_END (R106): the stamps of the receivers that end advance; with the last of them the copy is over. -/
def copyEndOp (s : State) (i : Nat) : State :=
  match s.copyAt i with
  | none => s
  | some o =>
    let ends := copyEnds s o
    if ends.isEmpty then s
    else
      let s1 := ends.foldl (fun s p => match o.receivers[p.1]? with
        | some r => endReceiver s r p.2
        | none => s) s
      let rs := (indexed o.receivers).map fun p => if ends.any (fun x => x.1 == p.1) then { p.2 with joined := true } else p.2
      if rs.all Receiver.joined then
        (passBeats s1 o o.passed o.passed true).setCopy i { o with receivers := rs, fetched := [], phase := .joined }
      else s1.setCopy i { o with receivers := rs }

/-- The engine-fault code of a copy (R353). -/
def copyKindCode : CopyKind → Nat
  | .copy _ => 1
  | .copyp _ _ => 2
  | .copym _ _ => 3

/-- Is the engine fault queue in use, and its size code (R353)? -/
def fqEnabled (h : Hub) : Bool := h.fqctl.getLsbD 33 && decide (4 ≤ h.fqctl.toNat % 16) && decide (h.fqctl.toNat % 16 ≤ 12)

/-- COPY_TRANSLATION_FAULT (R114, R354): a PAGEFAULT of COPY or COPYP suspends it; every other fault, and any fault while the queue is off, ends it. -/
def copyFaultOp (s : State) (i : Nat) : State :=
  match s.copyAt i, copyFault s i with
  | some o, some (cause, addr, write) =>
    let fqe : EngineFault :=
      { addr := addr, progress := o.lead, core := o.core, kind := copyKindCode o.kind, cause := cause, write := write,
        launch := (s.launch o.launch).id, copy := none }
    let resumable := cause == causePAGEFAULT && copyKindCode o.kind != 3
    let stopped := s.setCopy i { o with stop := some (o.lead, 1) }
    if !fqEnabled s.hub then stopped
    else if resumable then
      (s.setCopy i { o with phase := .faulted addr cause write }).modHub fun h => { h with fqWaiting := h.fqWaiting ++ [{ fqe with copy := some i }] }
    else stopped.modHub fun h => { h with fqWaiting := h.fqWaiting ++ [fqe] }
  | _, _ => s

/-- The physical address of slot n of the engine fault ring (R353, R354). -/
def fqSlot (h : Hub) (n : Nat) : Nat := h.fqbase.toNat / 4096 * 4096 + 32 * (n % 2 ^ (h.fqctl.toNat % 16))

/-- May the hub write the next engine fault record (R354)? An armed frame of the ring holds it back (R356). -/
def fqReady (s : State) : Bool :=
  !s.hub.fqWaiting.isEmpty && fqEnabled s.hub && !homeBusy s (fqSlot s.hub s.hub.fqCount) &&
  memGet s.mem (fqSlot s.hub s.hub.fqCount + 0x18) == 0

/-- ENGINE_FAULT_RECORD (R354). -/
def writeFaultRecord (s : State) : State :=
  match s.hub.fqWaiting with
  | [] => s
  | f :: rest =>
    if !fqReady s then s
    else
      let at_ := fqSlot s.hub s.hub.fqCount
      let bs := leBytes 8 f.addr ++ leBytes 4 f.progress ++ [BitVec.ofNat 8 f.core, BitVec.ofNat 8 f.kind, BitVec.ofNat 8 f.cause,
        if f.write then 1 else 0] ++ leBytes 8 f.launch ++ [if f.copy.isSome then 1 else 2, 0, 0, 0, 0, 0, 0, 0]
      let s1 := (s.putMem at_ bs).modHub fun h => { h with fqWaiting := rest, fqCount := h.fqCount + 1 }
      let s2 := match f.copy with
        | some i => match s1.copyAt i with
          | some o => match o.phase with
            | .faulted .. => s1.setCopy i { o with phase := .reported at_ }
            | _ => s1
          | none => s1
        | none => s1
      if s.hub.fqctl.getLsbD 32 then setEvent s2 (s.hub.fqctl.extractLsb' 16 16).toNat else s2

/-- The ACTION that a reported copy reads at its record (R354). -/
def copyAction (s : State) (i : Nat) : Nat :=
  match s.copyAt i with
  | some o => match o.phase with
    | .reported at_ => if o.paused || homeBusy s at_ then 0 else (memGet s.mem (at_ + 0x19)).toNat
    | _ => 0
  | none => 0

/-- FAULT_ACTION_RESUME and FAULT_ACTION_ABORT (R354): STATE and ACTION return to 0. -/
def copyActOn (s : State) (i act : Nat) (next : CopyPhase) : State :=
  match s.copyAt i with
  | some o => match o.phase with
    | .reported at_ =>
      if copyAction s i == act then (s.putMem (at_ + 0x18) [0, 0]).setCopy i { o with phase := next } else s
    | _ => s
  | none => s

end Sys2Proof.Machine
end

