-- ==== Sys2Proof/Machine/Matrix.lean ====
section
/-! DEFINITION. The matrix array (R38, R118, R159 to R172, R297 to R299): the operations of an array, one after the other: the rows they read and write, and their effect at the end. -/

namespace Sys2Proof.Machine

/-- acc + the signed mag times 2^e, with one rounding (R38, R162). -/
def accAdd (acc : W32) (neg : Bool) (mag : Nat) (e : Int) : W32 :=
  if mag == 0 then acc
  else match fDecode fmtFP32 acc.toNat with
    | .nan _ => f32Canon
    | .inf _ => acc
    | .fin na ma ea =>
      let (n, m, x) := if ma == 0 then (neg, mag, e) else dyadicAdd na ma ea neg mag e
      if m == 0 then 0 else BitVec.ofNat 32 (fRound fmtFP32 0 n m 1 x).1

/-- The element at bit b of a slot's row: sign and magnitude (R160). -/
def planeElem (m : Memory) (h : TileHdr) (tile row pos : Nat) : Bool × Nat :=
  let slot := tile + h.planeStart + pos / 32 * ((h.p + 1) * 256) + 4 * row
  let b := pos % 32
  let bit : Nat → Bool := fun off => (memGet m (off + b / 8)).getLsbD (b % 8)
  (bit slot, (List.range h.p).foldl (fun v q => if bit (slot + 256 * (h.p - q)) then v + 2 ^ q else v) 0)

/-- The exponent byte of a row and block (R160). -/
def planeExp (m : Memory) (tile row t : Nat) : Nat := (memGet m (tile + 16 + 64 * t + row)).toNat

/-- A signed number from sign and magnitude. -/
def signedOf (v : Bool × Nat) : Int := if v.1 then -(v.2 : Int) else v.2

/-- One row of a tile, decoded: the exponent byte of every block, and every element of its stream. -/
structure TileRow where
  exps : List Nat
  vals : List Int

def tileRow (m : Memory) (h : TileHdr) (tile row : Nat) : TileRow :=
  { exps := (List.range h.k).map (planeExp m tile row),
    vals := (List.range (32 * h.slots)).map fun pos => signedOf (planeElem m h tile row pos) }

/-- The accumulation of MMA over the blocks from t up (R38). -/
def mmaEntry (acc : W32) : List Nat → List Nat → List Int → List Int → W32
  | ba :: ea, bb :: eb, va, vb =>
    let acc' :=
      if ba == 0xFF || bb == 0xFF then f32Canon
      else
        let sum := (((va.take 32).zip (vb.take 32)).map fun p => p.1 * p.2).foldl (· + ·) 0
        accAdd acc (decide (sum < 0)) sum.natAbs ((ba : Int) - 127 + ((bb : Int) - 127))
    mmaEntry acc' ea eb (va.drop 32) (vb.drop 32)
  | _, _, _, _ => acc

/-- One group of MMAS: the exact sum over the kept positions, in units of 2^-254 (R162). -/
def groupSum (a : TileRow) (g bb : Nat) (kept : List Nat) (vb : List Int) : Int :=
  ((kept.zip vb).map fun p =>
    let q := 48 * g + p.1
    let e := a.exps.getD (q / 32) 0 + bb
    a.vals.getD q 0 * p.2 * 2 ^ e).foldl (· + ·) 0

/-- The accumulation of MMAS over groups from g up (R162). -/
def mmasEntry (a : TileRow) (n : Nat) (acc : W32) : Nat → List Nat → List (List Nat) → List Int → W32
  | g, bb :: eb, kept :: ks, vb =>
    let blocks := (List.range 48).map fun i => a.exps.getD ((48 * g + i) / 32) 0
    let acc' :=
      if bb == 0xFF || blocks.contains 0xFF then f32Canon
      else
        let v := groupSum a g bb kept (vb.take n)
        accAdd acc (decide (v < 0)) v.natAbs (-254)
    mmasEntry a n acc' (g + 1) eb ks (vb.drop n)
  | _, _, _, _ => acc

/-- All entries of a tile after a multiply (R297): row i of A meets row j of B. -/
def multiply (ma mb : Memory) (sparse : Bool) (ha hb : TileHdr) (a b : Nat) (acc : List W32) : List W32 :=
  let rowsA := (List.range 64).map (tileRow ma ha a)
  let rowsB := (List.range 64).map (tileRow mb hb b)
  let kept := if sparse then (List.range 64).map fun j => (List.range hb.k).map (keptPositions hb.seed hb.n j) else []
  (List.range 4096).map fun x =>
    let i := x / 64
    let j := x % 64
    let ra := rowsA.getD i { exps := [], vals := [] }
    let rb := rowsB.getD j { exps := [], vals := [] }
    let cur := acc.getD x 0
    if sparse then mmasEntry ra hb.n cur 0 rb.exps (kept.getD j []) rb.vals else mmaEntry cur ra.exps rb.exps ra.vals rb.vals

/-- The element format and size of ACCST (R169, R298). -/
def accstFmt (f : Nat) : Fmt × Nat := match f with
  | 0 => (fmtFP32, 4)
  | 1 => (fmtBF16, 2)
  | 2 => (fmtE4M3, 1)
  | _ => (fmtE5M2, 1)

/-- ROUND(x · 2^s, F, RM) of one entry (R169). -/
def accstValue (f : Nat) (rm : BitVec 2) (scale : Int) (x : W32) : Nat :=
  if f == 0 && scale == 0 then x.toNat
  else
    let fm := (accstFmt f).1
    match fDecode fmtFP32 x.toNat with
    | .nan _ => fmtCanon fm
    | .inf n => (fConvert fmtFP32 fm rm (fPack fmtFP32 n (fmtInfMag fmtFP32))).1
    | .fin n m e => (fRound fm rm n m 1 (e + scale)).1

/-- The moment of 64 entries (R170). -/
def entriesMoment (xs : List W32) : Moment := (mergeTree 6 (xs.map fun x => (momentInit x).1)).1

/-- A tile of a core. -/
def Core.tile (c : Core) (n : Nat) : Tile := c.tiles.getD n Tile.free
def Core.setTile (c : Core) (n : Nat) (t : Tile) : Core := { c with tiles := c.tiles.set n t }

/-- The entries of row or column i of a tile. -/
def tileLine (t : Tile) (col : Bool) (i : Nat) : List W32 :=
  (List.range 64).map fun j => t.acc.getD (if col then 64 * j + i else 64 * i + j) 0

/-- The cores of an operation: its own, or both of the tandem with the leader first (R171). -/
def matCores (core : Nat) (o : MatOp) : List Nat := if o.pair then [core / 2 * 2, core / 2 * 2 + 1] else [core]

/-- Is a core the follower of a block? -/
def isSecond (b : Block) (core : Nat) : Bool := b.follower == some core

/-- The local bytes that an operation reads on a core: A only on the first (R165, R171). -/
def matReads (o : MatOp) (first : Bool) : List (Nat × Nat) :=
  let tile : Nat → List Byte → Nat × Nat := fun a h => (a + 16, (tileHdr h).bytes - 16)
  match o.kind with
  | .mma a b => (if first then [tile a o.headerA] else []) ++ [tile b o.headerB]
  | .mmas a b => (if first then [tile a o.headerA] else []) ++ [tile b o.headerB]
  | .accld src => [(src, 16384)]
  | _ => []

/-- The 1 KiB rows of local store in which a region lies (R72). -/
def rowsOf (r : Nat × Nat) : List Nat := (List.range ((r.1 % 1024 + r.2 + 1023) / 1024)).map fun i => r.1 / 1024 + i

/-- The rows that an operation reads, by core and number (R118). -/
def matInputs (core : Nat) (o : MatOp) : List (Nat × Nat) :=
  let first := (matCores core o).headD core
  ((matCores core o).flatMap fun c => (matReads o (c == first)).flatMap fun r => (rowsOf r).map fun n => (c, n)).eraseDups

/-- The rows that an operation writes (R118, R298). -/
def matOutputs (core : Nat) (o : MatOp) : List (Nat × Nat) :=
  match o.kind with
  | .accst dst f _ _ => (matCores core o).flatMap fun c => (rowsOf (dst, 4096 * (accstFmt f).2)).map fun n => (c, n)
  | _ => []

/-- The rows that are still to be read, and to be written. -/
def matToRead (core : Nat) (o : MatOp) : List (Nat × Nat) :=
  (matInputs core o).filter fun x => !o.rows.any fun r => r.1 == x.1 && r.2.1 == x.2
def matToWrite (core : Nat) (o : MatOp) : List (Nat × Nat) := (matOutputs core o).filter fun x => !o.wrote.contains x

/-- The bytes that an operation has read on a core. -/
def MatOp.store (o : MatOp) (core : Nat) : Memory :=
  o.rows.foldl (fun m r => if r.1 == core then memWrite m (1024 * r.2.1) r.2.2 else m) []

/-- Does an operation use the entries of its tile as they are? -/
def MatOp.usesTile (o : MatOp) : Bool :=
  match o.kind with
  | .azero => false
  | .accld _ => false
  | _ => true

/-- Has an operation met an uncorrectable error, in a row it has read or in its tile (R321)? -/
def matFailed (s : State) (core : Nat) (o : MatOp) : Bool :=
  o.failed || (o.usesTile && (matCores core o).any fun c => ((s.core c).tile o.tile).bad)

/-- The effect of an operation on one core, once its rows are read (R169, R297, R298); A comes from the first core's store. -/
def matOnCore (s : State) (o : MatOp) (first core : Nat) : State :=
  let t := (s.core core).tile o.tile
  let put : Tile → State := fun t => s.modCore core fun c => c.setTile o.tile t
  match o.kind with
  | .mma x y => put { t with acc := multiply (o.store first) (o.store core) false (tileHdr o.headerA) (tileHdr o.headerB) x y t.acc }
  | .mmas x y => put { t with acc := multiply (o.store first) (o.store core) true (tileHdr o.headerA) (tileHdr o.headerB) x y t.acc }
  | .azero => put { t with err := false, bad := false, acc := List.replicate 4096 0 }
  | .accld src => put { t with err := false, bad := false, acc := (List.range 4096).map fun i => BitVec.ofNat 32 (memNat (o.store core) (src + 4 * i) 4) }
  | _ => s

/-- The moments of ACCSTAT for every live lane (R170, R171). -/
def accstatMoments (s : State) (core : Nat) (o : MatOp) (col : Bool) (first lane : Nat) : Moment :=
  let i := first + lane
  let at_ : Nat → Nat → Moment := fun c i => if 63 < i then Moment.zero else entriesMoment (tileLine ((s.core c).tile o.tile) col i)
  match matCores core o with
  | [l, f] =>
    if col then (if i < 64 then at_ l i else at_ f (i - 64))
    else if 63 < i then Moment.zero else (momentMerge (at_ l i) (at_ f i)).1
  | _ => at_ core i

/-- Perform an operation that is not cancelled. -/
def matPerform (s : State) (core : Nat) (o : MatOp) : State :=
  match o.kind with
  | .accstat m col first =>
    s.modConvoy o.convoy fun c => clearErrs (c.writeM c.live m fun l => accstatMoments s core o col first l) [.m m] c.live
  | _ => (matCores core o).foldl (fun st c => matOnCore st o ((matCores core o).headD core) c) s

/-- Do the queued operations of a block stand still: it is saved or being restored, or a service block has begun to save it (R172)? -/
def blockFrozen (s : State) (bi : Nat) : Bool :=
  let st := (s.block bi).state
  st == .saved || st == .restoring ||
  (st == .saving && s.services.any fun v => v.block == bi && !v.closed && (v.layby.isSome || v.done))

/-- Has an operation started: it has read or written a row (R118, R172)? -/
def MatOp.started (o : MatOp) : Bool := !o.rows.isEmpty || !o.wrote.isEmpty || o.failed

/-- The operation that an array performs: it is at the head of every array it runs on (R118, R171), and it has started or its block may start it (R172). -/
def matReady (s : State) (core : Nat) : Option MatOp :=
  match (s.core core).queue with
  | o :: _ =>
    if (o.started || !blockFrozen s o.block) && (matCores core o).all (fun c => ((s.core c).queue.head?.map MatOp.id) == some o.id) then some o
    else none
  | [] => none

/-- Change an operation in the queue of each of its arrays. -/
def setMatOp (s : State) (core : Nat) (o : MatOp) : State :=
  (matCores core o).foldl (fun s k => s.modCore k fun x => { x with queue := x.queue.map fun y => if y.id == o.id then o else y }) s

/-- One element of a list: the spec gives the rows of an operation no order. -/
def pickOne {α : Type} (s : State) (l : List α) : Option α := l[Config.freeElement s.steps % l.length]?

/-- Read a row from local store, in its place in the order of R74; an error in the bytes that the operation uses fails it (R118, R321). -/
def readRow (s : State) (core : Nat) (o : MatOp) (x : Nat × Nat) : State :=
  let b := s.block o.block
  let l := blockLs b (isSecond b x.1)
  let used := matReads o (x.1 == (matCores core o).headD core)
  let bad := l.errs.any fun e => e / 1024 == x.2 && used.any fun r => decide (r.1 ≤ e) && decide (e < r.1 + r.2)
  setMatOp s core { o with rows := o.rows ++ [(x.1, x.2, memRead l.mem (1024 * x.2) 1024)], failed := o.failed || bad }

/-- Write a row of ACCST to local store (R118, R169). -/
def writeRow (s : State) (core : Nat) (o : MatOp) (x : Nat × Nat) : State :=
  match o.kind with
  | .accst dst f rm scale =>
    let per := 1024 / (accstFmt f).2
    let xs := (((s.core x.1).tile o.tile).acc.drop ((x.2 - dst / 1024) * per)).take per
    setMatOp (modLs s o.block (isSecond (s.block o.block) x.1) fun l =>
        l.write (1024 * x.2) (xs.flatMap fun v => leBytes (accstFmt f).2 (accstValue f rm scale v))) core
      { o with wrote := x :: o.wrote }
  | _ => s

/-- Can the operation that an array performs read or write another row? -/
def matMoves (s : State) (core : Nat) : Bool :=
  match matReady s core with
  | some o => !o.cancelled && !matFailed s core o && !((matToRead core o).isEmpty && (matToWrite core o).isEmpty)
  | none => false

/-- The operation that an array performs reads its next row, and when all are read writes its next one (R118). -/
def matStep (s : State) (core : Nat) : State :=
  match matReady s core with
  | none => s
  | some o =>
    if !matMoves s core then s
    else match pickOne s (matToRead core o), pickOne s (matToWrite core o) with
      | some x, _ => readRow s core o x
      | none, some x => writeRow s core o x
      | none, none => s

/-- Can the operation that an array performs end? -/
def matEnds (s : State) (core : Nat) : Bool := (matReady s core).isSome && !matMoves s core

/-- MATRIX_OPERATION_END (R106, R118): the operation takes effect, unless it is cancelled or has met an error (R108, R321), and its stamp advances; the claims of a block that has ended go with its last operation (R167). -/
def matEnd (s : State) (core : Nat) : State :=
  match matReady s core with
  | none => s
  | some o =>
    if !matEnds s core then s
    else
      let bad := !o.cancelled && matFailed s core o
      let s1 :=
        if o.cancelled then s
        else if bad then (matCores core o).foldl (fun s c => s.modCore c fun k => k.setTile o.tile { k.tile o.tile with err := true }) s
        else matPerform s core o
      let c := s1.convoy o.convoy
      let b := s1.block o.block
      let s2 := match o.stamp with
        | some off => stampLocal s1 o.block (isSecond b c.core) off (if o.cancelled then 2 else if bad then 1 else 0)
        | none => s1
      endClaims ((matCores core o).foldl (fun s k => s.modCore k fun x => { x with queue := x.queue.drop 1 }) s2) o.block

/-- Does a pair operation that runs hold the array of a follower core (R86)? -/
def pairHolds (s : State) (core : Nat) : Bool :=
  core % 2 == 1 && (match matReady s core with
    | some o => o.pair
    | none => false)

/-- The compute cost and the duration bound of a multiply (R164 to R166). -/
def mulDuration (ha hb : TileHdr) : Nat :=
  let c := 2 * (ha.p / 4) * (hb.p / 4) * hb.slots
  let f := 64 * ha.k + ha.slots * (ha.p + 1) * 256 + 64 * hb.k + hb.slots * (hb.p + 1) * 256
  max c ((f + 1023) / 1024)

end Sys2Proof.Machine
end

