-- ==== Sys2Proof/Machine/Collective.lean ====
section
/-! DEFINITION. Collectives on this module's rank (R119 to R124, R295): source reads, the reduction tree, chunks sent and received, destination writes and the stamp. -/

namespace Sys2Proof.Machine

/-- Element sizes by format code (R119). -/
def collSize (fmt : Nat) : Nat := match fmt with
  | 0 => 4
  | 1 => 2
  | 4 => 16
  | _ => 1

def collFmt (fmt : Nat) : Fmt := match fmt with
  | 0 => fmtFP32
  | 1 => fmtBF16
  | 2 => fmtE4M3
  | _ => fmtE5M2

def Coll.size (c : Coll) : Nat := collSize c.fmt

/-- Is an operation a reduction (R119)? -/
def Coll.reduces (c : Coll) : Bool := decide (c.op ≤ 2)

/-- Elements of the source and destination buffers for n ranks (R119). -/
def Coll.srcLen (c : Coll) (n : Nat) : Nat := if c.op == 2 || c.op == 5 then n * c.k else c.k
def Coll.dstLen (c : Coll) (n : Nat) : Nat := if c.op == 3 || c.op == 5 then n * c.k else c.k

/-- The descriptor as every rank must have it (R119). -/
def Coll.desc (c : Coll) : Nat := c.k * 2 ^ 32 + c.root * 2 ^ 24 + c.fmt * 2 ^ 16 + c.combine * 2 ^ 8 + c.op

/-- The communicator of a collective. -/
def commOf (s : State) (c : Coll) : Comm := ((s.hub.comms.getD c.slot none).getD { n := 0, rank := 0, seed := 0, modules := [], taken := 0 })

/-- Elements of a 4,096-byte chunk (R121). -/
def Coll.perChunk (c : Coll) : Nat := 4096 / c.size

/-- COMBINE on one element (R120), as numbers of the format's bytes. -/
def combineElem (c : Coll) (seed : W64) (chunk h i : Nat) (a b : List Byte) : List Byte :=
  if c.fmt == 4 then momentBytes (momentMerge (momentOf a) (momentOf b)).1
  else
    let f := collFmt c.fmt
    let wide : List Byte → W32 := fun x => BitVec.ofNat 32 (fConvert f fmtFP32 0 (leNat x)).1
    if c.combine == 0 then
      let sum := (f32Add 0 (wide a) (wide b)).1
      if c.fmt == 0 then leBytes 4 sum.toNat
      else leBytes c.size (fSround f (philox0 seed (BitVec.ofNat 32 chunk) (BitVec.ofNat 32 h) (BitVec.ofNat 32 i) 0) sum.toNat).1
    else leBytes c.size (fConvert fmtFP32 f 0 (f32MinMax (c.combine == 1) false (wide a) (wide b)).1.toNat).1

/-- Split bytes into pieces of n. -/
def piecesOf (n : Nat) : Nat → List Byte → List (List Byte)
  | 0, _ => []
  | m + 1, bs => if bs.isEmpty then [] else bs.take n :: piecesOf n m (bs.drop n)

/-- COMBINE on a chunk (R120). -/
def combineChunk (c : Coll) (seed : W64) (chunk h : Nat) (a b : List Byte) : List Byte :=
  let x := piecesOf c.size a.length a
  let y := piecesOf c.size b.length b
  (indexed (x.zip y)).flatMap fun p => combineElem c seed chunk h p.1 p.2.1 p.2.2

/-- The tree value of this rank for a chunk after hop h (R120): a hop without a partner changes nothing. -/
def treeValue (c : Coll) (n rank chunk : Nat) : Nat → Option (List Byte)
  | 0 => (c.values.find? fun v => v.hop == 0 && v.seq == chunk).map Chunk.bytes
  | h + 1 =>
    if n ≤ rank + 2 ^ h then treeValue c n rank chunk h
    else (c.values.find? fun v => v.hop == h + 1 && v.seq == chunk).map Chunk.bytes

/-- The last hop at which this rank combines: the tree's depth for rank 0 (R120). -/
def topHop (n rank : Nat) : Nat :=
  (List.range 6).foldl (fun t i => if t == i && rank % 2 ^ (i + 1) == 0 && 2 ^ i < n then i + 1 else t) 0

def State.collAt (s : State) (i : Nat) : Option Coll := s.colls[i]?
def State.setColl (s : State) (i : Nat) (c : Coll) : State := { s with colls := s.colls.set i c }
def State.modColl (s : State) (i : Nat) (f : Coll → Coll) : State :=
  match s.collAt i with
  | some c => s.setColl i (f c)
  | none => s

/-- Can a rank be reached (R123, R375)? -/
def rankReachable (s : State) (m : Comm) (r : Nat) : Bool := peerReachable s.hub (m.modules.getD r 0)

/-- The other ranks of a communicator. -/
def Comm.others (m : Comm) : List Nat := (List.range m.n).filter fun r => r != m.rank

/-- Send a chunk to a rank: it takes the next number of its flow (R121). -/
def sendChunk (s : State) (i peer hop seq first : Nat) (bytes : List Byte) : State :=
  match s.collAt i with
  | none => s
  | some c =>
    let m := commOf s c
    let flow := assoc c.sent peer 0
    let s1 := s.setColl i { c with sent := assocSet c.sent peer (flow + 1) }
    if !rankReachable s m peer then s1
    else s1.emit (.chunk (m.modules.getD peer 0)
      { slot := c.slot, number := c.number, src := m.rank, desc := c.desc, flow := flow, hop := hop, seq := seq, first := first, bytes := bytes })

/-- Send a notice to every other rank. -/
def sendAll (s : State) (i hop : Nat) : State :=
  match s.collAt i with
  | none => s
  | some c => (commOf s c).others.foldl (fun s r => sendChunk s i r hop 0 0 []) s

/-- No rank can complete the collective: every other rank is told (R119, R295). -/
def failColl (s : State) (i : Nat) : State :=
  match s.collAt i with
  | none => s
  | some c => if c.failed || c.ended then s else (sendAll s i 255).modColl i fun c => { c with failed := true, writes := [] }

/-- A translation fault of a collective is reported and is not resumed (R295, R354). -/
def reportColl (s : State) (i cause addr : Nat) (write : Bool) : State :=
  match s.collAt i with
  | none => s
  | some c =>
    let f : EngineFault := { addr := addr, progress := 0, core := c.core, kind := 4, cause := cause, write := write,
                             launch := (s.launch c.launch).id, copy := none }
    if fqEnabled s.hub then s.modHub fun h => { h with fqWaiting := h.fqWaiting ++ [f] } else s

/-- Data of a rank for the destination, from an element on: it waits for its translation. -/
def deliver (s : State) (i src first : Nat) (bytes : List Byte) : State :=
  s.modColl i fun c => { c with
    got := assocSet c.got src (assoc c.got src 0 + bytes.length / c.size), writes := c.writes ++ [(first, bytes)] }

/-- Translate the writes of the elements of a chunk, one after the other. -/
def collSend (c : Coll) (va : Nat) : List (List Byte) → State → EngRes (State × List Flight)
  | [], s => .ok (s, [])
  | b :: r, s => (engXlate s c.core c.ctx c.user true va).bind fun (s1, pa, _) =>
      (collSend c (va + b.length) r s1).bind fun (s2, fs) => .ok (s2, { element := s.steps, va := va, pa := pa, bytes := b, waiting := s.clock, retrying := false } :: fs)

/-- A chunk of the destination is translated whole and then written whole, so that it never ends half written (R123); a fault ends the collective (R295). -/
def collDeliver (s : State) (i : Nat) : State :=
  match s.collAt i with
  | none => s
  | some c => match pickOne s (indexed c.writes) with
    | none => s
    | some (k, first, bytes) =>
      match collSend c (c.dst + c.size * first) (piecesOf c.size bytes.length bytes) s with
      | .ok (s1, fs) => s1.setColl i { c with writes := c.writes.eraseIdx k, flight := c.flight ++ fs }
      | .fault cause a w => failColl (reportColl s i cause a w) i
      | .ends => failColl s i
      | .stall => s

/-- The home of an element write that a collective has sent (R104, R357). -/
def collHome (s : State) (c : Coll) (f : Flight) : EngRes (State × Nat) := engHome s c.core c.ctx c.user c.convoy c.fork f

/-- Some element writes are performed at their homes, if each of them may be. -/
def collPut (c : Coll) : List Flight → State → EngRes State
  | [], s => .ok s
  | f :: r, s => (collHome s c f).bind fun (s1, pa) => collPut c r (homePut s1 pa f.bytes)

/-- The element writes of the chunk to which one of them belongs. -/
def Coll.chunkOf (c : Coll) (f : Flight) : List Flight := c.flight.filter fun x => x.element == f.element

/-- The chunk of element write j of a collective is performed, all of it or nothing (R94, R103, R123; assumption log 28). -/
def collPerform (s : State) (i j : Nat) : State :=
  match s.collAt i with
  | none => s
  | some c => match c.flight[j]? with
    | none => s
    | some f => match collPut c (c.chunkOf f) s with
      | .ok s1 => s1.setColl i { c with
          flight := c.flight.filter fun x => x.element != f.element, written := c.written + (c.chunkOf f).length }
      | _ => s

/-- Element write j that a collective has sent is answered RETRY: from now on it holds no translation (R357). -/
def collRetry (s : State) (i j : Nat) : State :=
  match s.collAt i with
  | none => s
  | some c => match c.flight[j]? with
    | none => s
    | some f => if flightRefused s f then s.setColl i { c with flight := c.flight.set j { f with retrying := true } } else s

/-- The tree value of a chunk is complete on rank 0: it goes to every rank, or segment by segment to its owner (R120). -/
def publish (s : State) (i chunk : Nat) (bytes : List Byte) : State :=
  match s.collAt i with
  | none => s
  | some c =>
    let m := commOf s c
    let first := chunk * c.perChunk
    (List.range m.n).foldl (fun s r =>
      let (at_, bs) :=
        if c.op == 2 then
          let els := (indexed (piecesOf c.size bytes.length bytes)).filter fun p => (first + p.1) / c.k == r
          (match els.head? with
           | some p => (first + p.1 - r * c.k, els.flatMap Prod.snd)
           | none => (0, []))
        else (first, bytes)
      if bs.isEmpty then s else if r == m.rank then deliver s i r at_ bs else sendChunk s i r 0 chunk at_ bs) s

/-- A new tree value of this rank: at its last hop it goes to its parent, or is published (R120). -/
def addValue (s : State) (i h chunk : Nat) (bytes : List Byte) : State :=
  match s.collAt i with
  | none => s
  | some c =>
    if c.failed || c.ended then s
    else
      let m := commOf s c
      let v : Chunk := { slot := c.slot, number := c.number, src := m.rank, desc := c.desc, flow := 0, hop := h, seq := chunk, first := 0, bytes := bytes }
      let c1 := { c with values := c.values ++ [v] }
      let s1 := s.setColl i c1
      let top := topHop m.n m.rank
      match treeValue c1 m.n m.rank chunk top with
      | some x => if m.rank == 0 then publish s1 i chunk x else sendChunk s1 i (m.rank - 2 ^ top) (top + 1) chunk 0 x
      | none => s1

/-- The node of a tree: chunk and hop as one number. -/
def nodeChunk (node : Nat) : Nat := node / 8
def nodeHop (node : Nat) : Nat := node % 8

/-- Is a reduce block at work on a node? -/
def reducing (s : State) (i node : Nat) : Bool := s.hub.reduces.any fun r => r.coll == i && r.node == node

/-- Both operands of a node, when they are there, so that its counter is zero, and no reduce block has been dispatched for it (R121, R122). -/
def nodeOperands (s : State) (i node : Nat) : Option (List Byte × List Byte) :=
  match s.collAt i with
  | none => none
  | some c =>
    let m := commOf s c
    let h := nodeHop node
    if h == 0 || c.failed || c.ended || topHop m.n m.rank < h || reducing s i node ||
        (c.values.any fun v => v.hop == h && v.seq == nodeChunk node) then none
    else match treeValue c m.n m.rank (nodeChunk node) (h - 1),
        c.received.find? (fun v => v.hop == h && v.seq == nodeChunk node && v.src == m.rank + 2 ^ (h - 1)) with
      | some a, some b => some (a, b.bytes)
      | _, _ => none

/-- Is the lay-by of a core free (R66, R122, R342)? -/
def laybyFree (s : State) (core : Nat) : Bool :=
  (s.core core).enabled && (s.slotAt core 31).positions.all Option.isNone && !s.hub.reduces.any fun r => r.core == core

/-- Does a service block wait for the lay-by of a core since before a step (R342)? -/
def laybyAsked (s : State) (core since : Nat) : Bool := s.services.any fun v => v.core == core && v.since.any fun n => decide (n < since)

/-- REDUCE_BLOCK_DISPATCH (R122, R342): the reduce block that has waited longest takes the lay-by of the lowest-numbered core where it is free, and no service block waits for it since before. -/
def dispatchReduce (s : State) (i node : Nat) : State :=
  match s.hub.nodes with
  | [] => s
  | (j, n, since) :: rest =>
    if j != i || n != node then s
    else match nodeOperands s i node, (List.range 256).find? fun k => laybyFree s k && !laybyAsked s k since with
      | some (a, b), some core => s.modHub fun h => { h with
          nodes := rest, reduces := h.reduces ++ [{ core := core, coll := i, node := node, a := a, b := b }] }
      | _, _ => s

/-- A reduce block has applied COMBINE, and leaves its lay-by (R120, R122). -/
def endReduce (s : State) (k : Nat) : State :=
  match s.hub.reduces[k]? with
  | none => s
  | some r =>
    let s1 := s.modHub fun h => { h with reduces := h.reduces.eraseIdx k }
    match s.collAt r.coll with
    | some c => addValue s1 r.coll (nodeHop r.node) (nodeChunk r.node) (combineChunk c (commOf s c).seed (nodeChunk r.node) (nodeHop r.node) r.a r.b)
    | none => s1

/-- The nodes that can be combined. -/
def readyNodes (s : State) : List (Nat × Nat) :=
  (List.range s.colls.length).flatMap fun i => match s.collAt i with
    | some c => (c.received.filter fun v => decide (1 ≤ v.hop) && decide (v.hop ≤ 6)).filterMap fun v =>
        let node := 8 * v.seq + v.hop
        (nodeOperands s i node).map fun _ => (i, node)
    | none => []

/-- The reduce blocks that wait for a lay-by, in the order in which their counters have come to zero, each with the step since which it waits (R122, R342). -/
def queueNodes (s : State) : State :=
  let ready := readyNodes s
  let old := s.hub.nodes.filter fun x => ready.contains (x.1, x.2.1)
  let new := ready.filter fun p => !old.any fun x => x.1 == p.1 && x.2.1 == p.2
  s.modHub fun h => { h with nodes := old ++ new.eraseDups.map fun p => (p.1, p.2, s.steps) }

/-- How many source elements this rank reads (R119). -/
def Coll.need (c : Coll) (m : Comm) : Nat := if c.op == 4 && m.rank != c.root then 0 else c.srcLen m.n

/-- The elements of one segment of the source, and the chunks it is sent in: each segment of an all-to-all goes to its own rank (R119, R121). -/
def Coll.segment (c : Coll) (m : Comm) : Nat := if c.op == 5 then c.k else c.need m
def Coll.perSegment (c : Coll) (m : Comm) : Nat := (c.segment m + c.perChunk - 1) / c.perChunk

/-- The chunk of the source in which an element lies. -/
def Coll.pieceOf (c : Coll) (m : Comm) (e : Nat) : Nat := e / c.segment m * c.perSegment m + e % c.segment m / c.perChunk

/-- The elements of a chunk of the source. -/
def Coll.pieceElems (c : Coll) (m : Comm) (j : Nat) : List Nat :=
  let q := j % c.perSegment m
  (List.range (min c.perChunk (c.segment m - q * c.perChunk))).map fun x => j / c.perSegment m * c.segment m + q * c.perChunk + x

/-- How many chunks the source has. -/
def Coll.pieceCount (c : Coll) (m : Comm) : Nat := if c.need m == 0 then 0 else c.need m / c.segment m * c.perSegment m

/-- Which source element is read next: any that has not been read (R94, R103). -/
def collNext (s : State) (c : Coll) : Option Nat :=
  let m := commOf s c
  let unread : Nat → Bool := fun e => !c.pieces.contains (c.pieceOf m e) && !c.fetched.any fun x => x.1 == e
  let e := Config.freeElement s.steps % c.need m
  if !c.started || c.failed || c.ended || c.need m == 0 then none
  else if unread e then some e else (List.range (c.need m)).find? unread

/-- A chunk of the source is there: the tree takes it, or it is moved to its ranks (R119, R120). -/
def sendPiece (s : State) (i j : Nat) (bytes : List Byte) : State :=
  match s.collAt i with
  | none => s
  | some c =>
    let m := commOf s c
    let q := j % c.perSegment m
    let move : State → Nat → State := fun s r =>
      let at_ := (if c.op == 4 then 0 else m.rank * c.k) + q * c.perChunk
      if r == m.rank then deliver s i r at_ bytes else sendChunk s i r 0 q at_ bytes
    if c.reduces then addValue s i 0 j bytes
    else if c.op == 5 then move s (j / c.perSegment m)
    else (List.range m.n).foldl move s

/-- The engine reads a source element; with the last of a chunk, the chunk goes on its way. An element that it may not read ends the collective (R295, R321). -/
def collRead (s : State) (i : Nat) : State :=
  match s.collAt i with
  | none => s
  | some c => match collNext s c with
    | none => s
    | some e => match engFetch s c.core c.ctx c.convoy c.fork c.user (c.src + c.size * e) c.size with
      | .stall => s
      | .fault cause a w => failColl (reportColl s i cause a w) i
      | .ends => failColl s i
      | .ok (s1, pa, leaf) =>
        let m := commOf s c
        let j := c.pieceOf m e
        let els := c.pieceElems m j
        let all_ := (e, engRead s1 c.convoy pa leaf c.size) :: c.fetched
        if els.all fun x => all_.any fun y => y.1 == x then
          sendPiece (s1.setColl i { c with pieces := j :: c.pieces, fetched := all_.filter fun y => !els.contains y.1 }) i j
            (els.flatMap fun x => ((all_.find? fun y => y.1 == x).map Prod.snd).getD [])
        else s1.setColl i { c with fetched := all_ }

/-- Does this rank still need data from another one (R119, R120)? -/
def Coll.needs (c : Coll) (m : Comm) (r : Nat) : Bool :=
  let from_ := assoc c.got r 0
  let child := (List.range (topHop m.n m.rank)).any fun h => r == m.rank + 2 ^ h &&
    decide ((c.received.filter fun v => v.src == r && v.hop == h + 1).length < c.pieceCount m)
  if c.reduces then child || (r == 0 && m.rank != 0 && decide (from_ < c.dstLen m.n))
  else if c.op == 4 then r == c.root && decide (from_ < c.k)
  else decide (from_ < c.k)

/-- Does nothing more come from a rank: every path to it is lost, or it has ended without completing (R123)? -/
def rankGone (s : State) (c : Coll) (m : Comm) (r : Nat) : Bool := c.gone.contains r || !rankReachable s m r

/-- A collective that needs data of a rank from which nothing more comes cannot complete here (R123). -/
def noteLost (s : State) (i : Nat) : State :=
  match s.collAt i with
  | none => s
  | some c =>
    let m := commOf s c
    if c.started && !c.ended && m.others.any (fun r => rankGone s c m r && c.needs m r) then s.setColl i { c with lost := true } else s

/-- The same of every collective, after a path is lost. -/
def noteLostAll (s : State) : State := (List.range s.colls.length).foldl noteLost s

/-- A chunk is handled by its collective, in the order of its flow (R121). -/
def handleChunk (s : State) (i : Nat) (ch : Chunk) : State :=
  match s.collAt i with
  | none => s
  | some c =>
    if c.failed || c.ended then s
    else if ch.hop == 254 then
      (if ch.desc != c.desc then failColl s i else s.setColl i { c with heard := ch.src :: c.heard })
    else if ch.hop == 255 then failColl s i
    else if ch.hop == 253 then noteLost (s.setColl i { c with gone := ch.src :: c.gone }) i
    else if ch.hop == 0 then deliver s i ch.src ch.first ch.bytes
    else s.setColl i { c with received := c.received ++ [ch] }

/-- The chunk that comes next in some flow, among those that have arrived. -/
def nextChunk (c : Coll) : Option Chunk := c.waiting.find? fun ch => ch.flow == assoc c.seen ch.src 0

/-- Handle what has arrived, as far as the flows allow, at most n chunks (R121). -/
def drainChunks (i : Nat) : Nat → State → State
  | 0, s => s
  | n + 1, s => match (s.collAt i).bind fun c => (nextChunk c).map fun ch => (c, ch) with
    | none => s
    | some (c, ch) => drainChunks i n (handleChunk (s.setColl i { c with
        waiting := c.waiting.filter fun x => x != ch, seen := assocSet c.seen ch.src (ch.flow + 1) }) i ch)

/-- A chunk arrives at a collective: it is handled once the collective has started (R104) and its turn in the flow has come (R121). -/
def arriveChunk (s : State) (i : Nat) (ch : Chunk) : State :=
  match s.collAt i with
  | none => s
  | some c =>
    let s1 := s.setColl i { c with waiting := c.waiting ++ [ch] }
    if c.started then drainChunks i (c.waiting.length + 1) s1 else s1

/-- The collective of a chunk, if it has been issued here: the latest with its number, of those that the communicator has counted since it was set (R119, R295; assumption log 28). -/
def chunkColl (s : State) (ch : Chunk) : Option Nat :=
  if (s.hub.comms.getD ch.slot none).any fun m => decide (ch.number < m.taken) then
    ((List.range s.colls.length).filter fun i => match s.collAt i with
      | some c => c.slot == ch.slot && c.number == ch.number
      | none => false).getLast?
  else none

/-- AVENUE_CHUNK_RECEIVE: a chunk of a collective that has not been issued here waits for it. Before READY.AVE none is taken (R362). -/
def receiveChunk (s : State) (ch : Chunk) : State :=
  if !s.hub.ready.getLsbD 8 then s
  else match chunkColl s ch with
    | some i => arriveChunk s i ch
    | none => s.modHub fun h => { h with early := h.early ++ [ch] }

/-- May a collective start: with .REL, when the sequencer's counters have reached zero (R104)? -/
def collStarts (s : State) (i : Nat) : Bool :=
  match s.collAt i with
  | some c => !c.started && !c.ended && (!c.rel || releaseClear s c.core c.seq c.convoy (c.fork + 1))
  | none => false

/-- The engine starts a collective: it tells every rank its descriptor (R119), and handles what has arrived. -/
def collStart (s : State) (i : Nat) : State :=
  match s.collAt i with
  | none => s
  | some c =>
    if !collStarts s i then s
    else
      let mine : Chunk → Bool := fun ch => ch.slot == c.slot && ch.number == c.number
      let s1 := (s.setColl i { c with started := true, waiting := c.waiting ++ s.hub.early.filter mine }).modHub fun h =>
        { h with early := h.early.filter fun ch => !mine ch }
      drainChunks i (c.waiting.length + s.hub.early.length) (noteLost (sendAll s1 i 254) i)

/-- Is a chunk of the tree still to get its last value on this rank, other than from a rank from which nothing more comes? -/
def chunkOpen (s : State) (c : Coll) (m : Comm) (chunk : Nat) : Nat → Nat → Bool
  | 0, _ => false
  | n + 1, h =>
    if (treeValue c m.n m.rank chunk h).isSome then chunkOpen s c m chunk n (h + 1)
    else
      let r := m.rank + 2 ^ (h - 1)
      c.received.any (fun v => v.hop == h && v.seq == chunk && v.src == r) || !rankGone s c m r

/-- Is all that this rank gives to the others sent, as far as it can be? -/
def collGiven (s : State) (c : Coll) : Bool :=
  let m := commOf s c
  c.pieces.length == c.pieceCount m &&
  (!c.reduces || (List.range (c.pieceCount m)).all fun j => !chunkOpen s c m j (topHop m.n m.rank + 1) 0)

/-- The status with which a collective may end here (R106, R119, R123, R124). -/
def collStatus (s : State) (c : Coll) : Option Nat :=
  let m := commOf s c
  if c.ended || !c.flight.isEmpty then none
  else if c.failed then some 3
  else if !c.started || !c.writes.isEmpty || !collGiven s c then none
  else if c.lost then some 3
  else if c.dstLen m.n ≤ c.written && m.others.all (fun r => c.heard.contains r || rankGone s c m r) then some 0
  else none

/-- May a collective end? -/
def collDone (s : State) (i : Nat) : Bool :=
  match s.collAt i with
  | some c => (collStatus s c).isSome
  | none => false

/-- The collective is over here; where it could not complete, the others learn that nothing more comes. -/
def closeColl (s : State) (i st : Nat) : State :=
  let s1 := s.modColl i fun c => { c with ended := true, fetched := [], values := [], received := [], waiting := [], writes := [] }
  if st == 0 then s1 else sendAll s1 i 253

/-- COLLECTIVE_END (R106, R124): the stamp in global memory advances, if it has a translation (assumption log 28). -/
def collEnd (s : State) (i : Nat) : State :=
  match s.collAt i with
  | none => s
  | some c => match collStatus s c with
    | none => s
    | some st => match engXlate s c.core c.ctx c.user true c.stamp with
      | .ok (s1, pa, _) =>
        if homeBusy s1 pa || !forkClear s1 c.convoy c.fork c.stamp pa 8 then s
        else closeColl (s1.putMem pa (leBytes 8 (stampNext (memWord s1.mem pa) st).toNat)) i st
      | .fault cause a w => closeColl (reportColl s i cause a w) i st
      | _ => s

end Sys2Proof.Machine
end

