-- ==== Sys2Proof/Machine/Issue.lean ====
section
/-! DEFINITION. Issue (R42, R54, R67, R68, R70, R82 to R84, R183, R303): which slot issues, from which address, and the word each of its convoys executes there. -/

namespace Sys2Proof.Machine

/-- The key of a word in a core's instruction fetch buffers: its context, whether it was fetched for a user program, and its virtual address. A word that passed the U check of a fetch answers only fetches with the same check (R349). -/
def fetchKey (ctx : Nat) (user : Bool) (addr : Pc) : Nat := (2 * ctx + if user then 1 else 0) * 2 ^ 48 + addr.toNat

/-- Look a word up in the fetch buffers. -/
def findWord : List (Nat × W64) → Nat → Option W64
  | [], _ => none
  | (k, w) :: r, a => if k = a then some w else findWord r a

/-- How a fetch ends. -/
inductive Fetch where
  | word (s : State) (w : W64)
  | fault (s : State) (cause : Nat)
  | stall

/-- The word of an open level's loop buffer (R57), then of the fetch buffers, else from memory (R183, R330). -/
def fetchWord (s : State) (ci : Nat) (addr : Pc) : Fetch :=
  let c := s.convoy ci
  let inLoop := c.loops.find? fun v => !v.suspended && v.spans addr
  match inLoop.bind fun v => v.words[v.place addr]? with
  | some w => .word s w
  | none =>
    let ctx := s.ctxOf c
    let key := fetchKey ctx (c.priv != 2) addr
    match findWord (s.core c.core).ibuf key with
    | some w => .word s w
    | none =>
      match xlateHome s { core := c.core, ctx := ctx, write := false, fetch := true, user := c.priv != 2 } addr.toNat with
      | .stall => .stall
      | .bad s1 cause => .fault s1 cause
      | .ok s1 pa _ =>
        if homeBusy s1 pa then .stall
        else if s1.memBad pa 8 then .fault s1 causeSOFTERR
        else
          let w := memWord s1.mem pa
          .word (s1.modCore c.core fun k => { k with ibuf := (key, w) :: k.ibuf }) w

/-- The lanes a slot would issue for: the handed lanes in a hand-over, else all that may issue (R42, R82). A hand-over without a handed lane that can issue is over. -/
def issueLanes (s : State) (core h : Nat) : List (Nat × Mask) :=
  match (s.slotAt core h).handover with
  | some ho => (match handedLanes s core h ho with
    | [] => slotLanes s core h
    | ls => ls)
  | none => slotLanes s core h

/-- End a hand-over whose lanes can no longer issue: held, ended, stopped, or of a convoy that is no longer the current one (R71, R82). -/
def dropHandover (s : State) (core h : Nat) : State :=
  match (s.slotAt core h).handover with
  | some ho => if (handedLanes s core h ho).isEmpty then endHandover s core h else s
  | none => s

/-- The issue address of a slot (R42, R67, R82). -/
def issueAddr (s : State) (core h : Nat) : Option Pc := lowestPc (lanePcs s (issueLanes s core h))

/-- The active sets at an address: every lane that may issue there, handed or not (R42). -/
def activeSets (s : State) (core h : Nat) (addr : Pc) : List (Nat × Mask) := lanesAt s (slotLanes s core h) addr

/-- The promise, and the watchdog, of a slot (R81, R84). -/
def promiseOn (s : State) (core h : Nat) : Bool :=
  match (s.slotAt core h).launch with
  | some li => !(s.launch li).rec_.progressOff
  | none => true

def watchdogOn (s : State) (core h : Nat) : Bool := !promiseOn s core h && (s.core core).wdctl.getLsbD 0

/-- Is the hand-over of R82 due? -/
def handoverDue (s : State) (core h : Nat) : Bool :=
  let x := s.slotAt core h
  x.pending.isNone && promiseOn s core h && decide (2048 ≤ x.timer) && x.backward && x.handover.isNone && !(slotLanes s core h).all fun p => p.2 == 0

/-- FAIRNESS_TIMER_EXPIRY (R82): the top group is handed the slot. -/
def startHandover (s : State) (core h : Nat) : State :=
  if !handoverDue s core h then s
  else match highestPc (lanePcs s (slotLanes s core h)) with
    | none => s
    | some p => s.modSlot core h fun x => { x with handover := some { lanes := lanesAt s (slotLanes s core h) p, issues := 0 } }

/-- Is the next issue of a slot the one that raises LIVELOCK (R84)? -/
def livelockDue (s : State) (core h : Nat) : Bool :=
  let x := s.slotAt core h
  x.pending.isNone && watchdogOn s core h && decide (2 ^ 20 - 1 ≤ x.watchdog) && (issueAddr s core h).isSome

/-- Must LIVELOCK wait, for register writes of a convoy that it traps (R316)? -/
def livelockWaits (s : State) (core h : Nat) : Bool :=
  (issueAddr s core h).any fun addr => (activeSets s core h addr).any fun p => trapWaits s p.1

/-- LIVELOCK (R84, R305): every convoy active at the issue address traps; the count resets, and the mark stays. -/
def raiseLivelock (s : State) (core h : Nat) : State :=
  if !livelockDue s core h then s
  else match issueAddr s core h with
    | none => s
    | some addr =>
      let act := activeSets s core h addr
      if act.any fun p => trapWaits s p.1 then s
      else clearWatchdog (act.foldl (fun s p => enterTrap s p.1 causeLIVELOCK addr p.2 0 p.2) s) core h

/-- Is a core halted by the thermal trip, or is the module not started (R363, R376)? -/
def halted (h : Hub) : Bool := h.tripped || !h.powered

/-- Has a slot a lane that is live and not held, has the stall count of its last word elapsed, and has its sequencer not yet issued in this cycle (R68)? -/
def slotOpen (s : State) (core h : Nat) : Bool :=
  !halted s.hub && decide ((s.slotAt core h).ready ≤ s.clock) && (issueAddr s core h).isSome &&
    decide (((s.core core).seqs.getD (seqOf h) { last := 7, next := 0 }).next ≤ s.clock)

/-- Is a core already issuing a word of a CANONICAL launch in this cycle (R71)? -/
def canonBusy (s : State) (core h : Nat) : Bool :=
  let canon : Nat → Bool := fun k => match (s.slotAt core k).launch with
    | some li => isCanonical (s.launch li)
    | none => false
  canon h && (List.range 4).any fun q => q != seqOf h && decide (s.clock < ((s.core core).seqs.getD q { last := 7, next := 0 }).next) &&
    canon (8 * q + ((s.core core).seqs.getD q { last := 7, next := 0 }).last)

/-- The convoy that a CANONICAL launch issues from stays the current one (R70). -/
def keepCurrent (s : State) (core h : Nat) : State :=
  match (s.slotAt core h).launch with
  | some li =>
    if canonicalOrder (s.launch li) then
      (match currentConvoy s core li with
       | some ci => s.modCore core fun c => { c with current := (li, ci) :: c.current.filter fun q => q.1 != li }
       | none => s)
    else s
  | none => s

/-- Begin an issue: the active sets, the number of the issue, the timer and the watchdog (R42, R82, R84, R303); the sequencer is taken for the cycle (R68). An issue at the top group's PC sets the timer to 0 and clears the backward-branch flag before its word moves lanes: where that word itself moves lanes backward, the flag is set after it (assumption log 12). -/
def beginIssue (s0 : State) (core h : Nat) : State :=
  let s := dropHandover s0 core h
  match issueAddr s core h with
  | none => s
  | some addr =>
    let top := (highestPc (lanePcs s (slotLanes s core h))) == some addr
    let s1 := s.modSlot core h fun x => { x with
      timer := if top then 0 else x.timer + 1
      backward := if top then false else x.backward
      watchdog := x.watchdog + 1
      pending := some { addr := addr, retest := none, inHand := x.handover.isSome, mayY := x.handover.isNone, todo := activeSets s core h addr,
                        words := [], switches := false, ends := false, y := false, backHanded := false, number := s.steps } }
    (keepCurrent s1 core h).modCore core fun c => { c with seqs := c.seqs.set (seqOf h) { last := h % 8, next := s.clock + 1 } }

/-- Begin the retest of a held word: its lanes stand at it again, and only they execute it (R67). -/
def beginRetest (s : State) (ci : Nat) (hold : Hold) (i : Instr) : State :=
  let c := s.convoy ci
  (s.setConvoy ci { c with holds := c.holds.filter fun h => h != hold }).modSlot c.core c.slot fun x =>
    { x with pending := some { addr := hold.pc, retest := some i, inHand := false, mayY := hold.y, todo := [(ci, hold.lanes)], words := [],
                               switches := false, ends := false, y := false, backHanded := false, number := s.steps } }

/-- Drop convoys from an issue that can no longer take part in it: ended, stopped or parked ones (R319, R322). -/
def cleanIssue (s : State) (core h : Nat) : State :=
  match (s.slotAt core h).pending with
  | none => s
  | some p =>
    let todo := p.todo.filter fun q => p.retest.isSome && !(s.convoy q.1).ended && !(s.convoy q.1).stopped && !(s.convoy q.1).parked ||
      s.runnable (s.convoy q.1) &&& q.2 == q.2
    let s1 := s.modSlot core h fun x => { x with pending := some { p with todo := todo } }
    if todo.isEmpty then endIssue s1 core h else s1

/-- Put the head of an issue into focus. -/
def focusHead (s : State) (core h : Nat) : Option (State × Focus) :=
  match (s.slotAt core h).pending with
  | some p => p.todo.head?.map fun q =>
      let f : Focus := { core := core, slot := h, convoy := q.1, active := q.2, addr := p.addr }
      ({ s with focus := some f }, f)
  | none => none

/-- A word that does not decode: ILLEGAL, after the checks that come before it (R52, R182). -/
def execIllegal (w : W64) (s : State) : Host.Outcome State Fault Refusal :=
  runWord { hdr := wordHdr w, legal := false } s fun _ _ _ => .done s stay

/-- A fault on fetching the word: PAGEFAULT or ACCESS for the whole active set, with TADDR the issue address (R183), once the stall count of the convoy's last word has elapsed (R54). -/
def execFetchFault (cause : Nat) (s : State) : Host.Outcome State Fault Refusal :=
  match s.focus with
  | none => .fault .noIssue
  | some f =>
    if s.clock < (s.convoy f.convoy).ready then .next s
    else .next (takeTrap s f { hdr := { stall := 0, y := false, gn := false, gk := 0 }, legal := true } cause f.active (f.addr.setWidth 64))

end Sys2Proof.Machine
end

