-- ==== Sys2Proof/Machine/Control.lean ====
section
/-! DEFINITION. The control words (R187, R195 to R204): branches, calls, jump tables, landing pads, hardware loops, EXIT, YIELD and software traps. -/

namespace Sys2Proof.Machine

/-- What the checks know of a control word. -/
def cInfo (w : CWord) (legal : Bool) (reads writes : List (Opnd × Nat)) : WordInfo :=
  { hdr := w.hdr, legal := legal, reads := reads, writes := writes }

/-- The target of a displacement in words (R197). -/
def branchTarget (pc : Pc) (off : BitVec 24) : Pc := pc + off.signExtend 48 * 8

/-- Every lane of E moves to one address. -/
def allTo (e : Mask) (target : Pc) : Nat → Option Pc := fun l => if e.getLsbD l then some target else none

/-- Lanes move to addresses of their own. -/
def lanesTo (ts : List (Nat × Pc)) : Nat → Option Pc := fun l => (ts.find? fun p => p.1 == l).map Prod.snd

/-- Write the link of a call (R198). -/
def writeLink (c : Convoy) (e : Mask) (link : Nat) (pc : Pc) : Convoy := c.writeV64 e link fun _ => pc.next.setWidth 64

/-- NOP (R196). -/
def execNop (w : CWord) (s : State) : Host.Outcome State Fault Refusal :=
  runWord (cInfo w (Legal.cNone w) [] []) s fun _ _ _ => .done s stay

/-- YIELD (R196): the hand-over and the switch come from its WordInfo. -/
def execYield (w : CWord) (s : State) : Host.Outcome State Fault Refusal :=
  runWord { hdr := w.hdr, legal := Legal.cNone w, switch := true, ends := true, yields := true } s fun _ _ _ => .done s stay

/-- Lanes leave the live set (R45, R196): the other active lanes go on, and a BARL that waits only for them is complete. -/
def exitLanes (s : State) (f : Focus) (e : Mask) : State :=
  let s1 := s.modConvoy f.convoy fun c => { c with live := c.live &&& ~~~ e }
  let rest := f.active &&& ~~~ e
  let s2 := if rest == 0 then s1 else advance s1 f.convoy f.addr rest stay
  endConvoy (finishBarl s2 f.convoy) f.convoy

/-- EXIT (R45, R196); it is a switch point of CANONICAL order (R70), and ends a hand-over (R82). -/
def execExit (w : CWord) (s : State) : Host.Outcome State Fault Refusal :=
  runWord { hdr := w.hdr, legal := Legal.cNone w, switch := true, ends := true } s fun f _ e => .jumped (exitLanes s f e)

/-- LOOPBRK (R58, R196). -/
def execLoopbrk (w : CWord) (s : State) : Host.Outcome State Fault Refusal :=
  runWord { hdr := w.hdr, legal := Legal.cNone w, uni := true } s fun f c e =>
    match ((indexed c.loops).filter fun p => !p.2.suspended).getLast? with
    | none => raise s causeLOOPDEPTH e
    | some (i, v) => .done (s.setConvoy f.convoy { c with loops := c.loops.eraseIdx i }) (allTo e v.last.next)

/-- BRA (R197). -/
def execBra (w : CWord) (s : State) : Host.Outcome State Fault Refusal :=
  runWord (cInfo w (Legal.bra w) [] []) s fun f _ e => .done s (allTo e (branchTarget f.addr w.off))

/-- CALL (R198). -/
def execCall (w : CWord) (s : State) : Host.Outcome State Fault Refusal :=
  runWord (cInfo w (Legal.call w) [] [(w.opr, 2)]) s fun f c e =>
    match w.opr with
    | .v n => .done (s.setConvoy f.convoy (writeLink c e n.toNat f.addr)) (allTo e (branchTarget f.addr w.off))
    | _ => .done s stay

/-- Is a word a CALL or a CALLT? A word with their COP in which another field is ILLEGAL is none (assumption log 19). -/
def isCallWord (w : W64) : Bool :=
  match decodeWord w with
  | .ok (.call _) => true
  | .ok (.callt _) => true
  | _ => false

/-- Is the word before a return address a CALL or CALLT (R199)? None when the fetch cannot be made yet. -/
def returnsToCall (s : State) (ci : Nat) (t : W64) : Option Bool :=
  if t.extractLsb' 48 16 != 0 || t.extractLsb' 0 3 != 0 then some false
  else match fetchWord s ci (t.setWidth 48 - 8) with
    | .stall => none
    | .fault _ _ => some false
    | .word _ w => some (isCallWord w)

/-- RET (R199). -/
def execRet (w : CWord) (s : State) : Host.Outcome State Fault Refusal :=
  runWord (cInfo w (Legal.ret w) [(w.opr, 2)] []) s fun f c e =>
    let ts := (lanesOf c.width e).map fun l => (l, readW64 s c l w.opr)
    let checks := ts.map fun p => (p.1, p.2, returnsToCall s f.convoy p.2)
    if checks.any fun p => p.2.2.isNone then .wait s
    else match checks.filter fun p => p.2.2 == some false with
      | [] => .done s (lanesTo (ts.map fun p => (p.1, p.2.setWidth 48)))
      | b :: bs => .trap s causeRETSITE (maskOf ((b :: bs).map Prod.fst)) b.2.1

/-- The place of a memory cause in R101. -/
def causePlace (cause va : Nat) : Nat :=
  if cause == causeALIGN then 1
  else if 2 ^ 48 ≤ va then 2
  else if cause == causePAGEFAULT then 3
  else if cause == causeACCESS then 4
  else if cause == causeSOFTERR then 6
  else 5

/-- What one lane makes of a jump table (R201). -/
inductive TableLane where
  | target (t : Pc)
  | own (cause : Nat) (t : Nat)
  | mem (place cause addr : Nat)
  | wait

/-- The landing pad at a target (R61, R202). -/
def padCheck (label budget : Nat) (t : W64) (w : W64) : TableLane :=
  match decodeWord w with
  | .ok (.lpad x) =>
    if x.off.toNat % 65536 != label then .own causeLPADMISS t.toNat
    else if budget < 8 * x.aux.toNat then .own causeBUDGET t.toNat
    else .target (t.setWidth 48)
  | _ => .own causeLPADMISS t.toNat

/-- One lane of a jump table: its entry and its target word. -/
def tableLane (s : State) (f : Focus) (table : W64) (label bound budget l : Nat) (index : W64) : State × TableLane :=
  if bound ≤ index.toNat then (s, .own causeJTBOUND table.toNat)
  else match readItem s f (laneBit l) (table.toNat + 16 + 8 * index.toNat) 8 8 false with
    | .wait => (s, .wait)
    | .bad s1 cause _ a => (s1, .mem (causePlace cause a) cause a)
    | .ok s1 bs _ =>
      let t := table + BitVec.ofNat 64 (leNat bs)
      if t.extractLsb' 48 16 != 0 || t.extractLsb' 0 3 != 0 then (s1, .own causeLPADMISS t.toNat)
      else match fetchWord s1 f.convoy (t.setWidth 48) with
        | .stall => (s1, .wait)
        | .fault s2 cause => (s2, .mem (causePlace cause t.toNat) cause t.toNat)
        | .word s2 w => (s2, padCheck label budget t w)

def tableLanes (s : State) (f : Focus) (table : W64) (label bound budget : Nat) : List (Nat × W64) → State × List (Nat × TableLane)
  | [] => (s, [])
  | (l, x) :: r =>
    let (s1, t) := tableLane s f table label bound budget l x
    let (s2, ts) := tableLanes s1 f table label bound budget r
    (s2, (l, t) :: ts)

/-- The lanes with an own cause, with the address each reports. -/
def ownLanes (cause : Nat) (ts : List (Nat × TableLane)) : List (Nat × Nat) :=
  ts.filterMap fun p => match p.2 with
    | .own c t => if c == cause then some (p.1, t) else none
    | _ => none

/-- The lanes with a memory cause, as R101 ranks them. -/
def memLanes (ts : List (Nat × TableLane)) : List LaneCheck :=
  ts.filterMap fun p => match p.2 with
    | .mem place cause a => some (.fails place cause p.1 a)
    | _ => none

def tableWaits (ts : List (Nat × TableLane)) : Bool :=
  ts.any fun p => match p.2 with
    | .wait => true
    | _ => false

def tableTargets (ts : List (Nat × TableLane)) : List (Nat × Pc) :=
  ts.filterMap fun p => match p.2 with
    | .target t => some (p.1, t)
    | _ => none

/-- The causes of a jump through a table in their order: JTBOUND, LPADMISS, BUDGET, then the memory causes (R201). -/
def tableCause (ts : List (Nat × TableLane)) : Option (Nat × Mask × Nat) :=
  match [causeJTBOUND, causeLPADMISS, causeBUDGET].find? fun c => !(ownLanes c ts).isEmpty with
  | some c => (ownLanes c ts).head?.map fun h => (c, maskOf ((ownLanes c ts).map Prod.fst), h.2)
  | none => firstFailure (memLanes ts)

/-- The table lookup that JMPT and CALLT share (R201). -/
def tableJump (s : State) (f : Focus) (c : Convoy) (e : Mask) (index : Opnd) (table : W64) (link : Option Nat) : Res :=
  match readItem s f e table.toNat 16 16 false with
  | .wait => .wait s
  | .bad s1 cause m a => .trap s1 cause m (BitVec.ofNat 64 a)
  | .ok s1 h _ =>
    let label := bytesNat h 0 2
    let bound := bytesNat h 2 2
    if bound == 0 || 16384 ≤ bound || (h.drop 4).any (· != 0) then .trap s1 causeLAYOUT e table
    else
      let indices := (lanesOf c.width e).map fun l => (l, match index with
        | .v n => (c.readV n.toNat l).setWidth 64
        | .sp x => if x == 0x12 then (readW32 s c l (.sp x)).setWidth 64 else readU s c (.sp x)
        | o => readU s c o)
      let (s2, ts) := tableLanes s1 f table label bound c.budget indices
      if tableWaits ts then .wait s
      else match tableCause ts with
        | some (cause, m, a) => .trap s2 cause m (BitVec.ofNat 64 a)
        | none =>
          let c2 := s2.convoy f.convoy
          let c3 := match link with
            | some n => writeLink c2 e n f.addr
            | none => c2
          .done (s2.setConvoy f.convoy c3) (lanesTo (tableTargets ts))

/-- JMPT (R201). -/
def execJmpt (w : CWord) (s : State) : Host.Outcome State Fault Refusal :=
  let table : BitVec 6 := w.aux.extractLsb' 0 6
  runWord (cInfo w (Legal.jmpt w) [(w.opr, 1), (.s table, 1)] []) s fun f c e =>
    tableJump s f c e w.opr (c.readS table.toNat) none

/-- CALLT (R201). -/
def execCallt (w : CWord) (s : State) : Host.Outcome State Fault Refusal :=
  let table : BitVec 6 := w.aux.extractLsb' 0 6
  let link : BitVec 8 := w.aux.extractLsb' 6 8
  runWord (cInfo w (Legal.callt w) [(w.opr, 1), (.s table, 1)] [(.v link, 2)]) s fun f c e =>
    tableJump s f c e w.opr (c.readS table.toNat) (some link.toNat)

/-- LPAD (R202). -/
def execLpad (w : CWord) (s : State) : Host.Outcome State Fault Refusal :=
  runWord (cInfo w (Legal.lpad w) [] []) s fun f c e =>
    if c.budget < 8 * w.aux.toNat then .trap s causeBUDGET e (f.addr.setWidth 64) else .done s stay

/-- The words of a loop body, or the memory cause of the first that cannot be fetched (R203). -/
inductive Body where
  | words (s : State) (ws : List W64)
  | bad (s : State) (cause : Nat) (addr : Pc)
  | stall

def fetchBody (ci : Nat) : Nat → Pc → State → List W64 → Body
  | 0, _, s, acc => .words s acc
  | n + 1, a, s, acc =>
    match fetchWord s ci a with
    | .stall => .stall
    | .fault s1 cause => .bad s1 cause a
    | .word s1 w => fetchBody ci n a.next s1 (acc ++ [w])

/-- May a word end a loop body: it is no C-format word other than NOP (R57)? -/
def mayEndBody (w : W64) : Bool := wordFmt w != 3 || (w.extractLsb' 51 6).toNat == 0

/-- LOOP (R57, R203): its causes in their order, then the level opens, or the body is skipped. -/
def execLoop (w : CWord) (s : State) : Host.Outcome State Fault Refusal :=
  runWord { hdr := w.hdr, legal := Legal.loop w, reads := [(w.opr, 1)], uni := true } s fun f c e =>
    let opened := c.loops.filter fun v => !v.suspended
    let off := w.off.toInt
    let last := branchTarget f.addr w.off
    if 3 ≤ opened.length then raise s causeLOOPDEPTH e
    else if off < 1 || 256 < off || opened.any (fun v => v.spans f.addr && decide (v.size ≤ v.place f.addr + off.toNat)) then
      raise s causeLOOPSIZE e
    else match fetchBody f.convoy off.toNat f.addr.next s [] with
      | .stall => .wait s
      | .bad s1 cause a => .trap s1 cause e (a.setWidth 64)
      | .words s1 ws =>
        if !mayEndBody (ws.getLastD 0) then raise s1 causeLOOPSIZE e
        else
          let count : W32 := (readU s c w.opr).setWidth 32
          if count == 0 then .done s1 (allTo e last.next)
          else
            let level : LoopLevel :=
              { count := count, counter := 0, first := f.addr.next, last := last, owner := c.priv, suspended := false, words := ws }
            .done (s1.modConvoy f.convoy fun c => { c with loops := c.loops ++ [level] }) stay

/-- TRAP (R204): the word completes, and the convoy then traps. -/
def execTrap (w : CWord) (s : State) : Host.Outcome State Fault Refusal :=
  runWord (cInfo w (Legal.trap w) [] []) s fun _ _ _ => .after s causeSWTRAP (w.aux.setWidth 64)

/-- BRK (R204). -/
def execBrk (w : CWord) (s : State) : Host.Outcome State Fault Refusal :=
  runWord (cInfo w (Legal.trap w) [] []) s fun _ _ _ => .after s causeBREAK (w.aux.setWidth 64)

end Sys2Proof.Machine
end

