-- ==== Sys2Proof/Machine/Memory.lean ====
section
/-! DEFINITION. The memory words (R268 to R278, R266): loads, stores, atomics, fences, waits on memory and prefetch. -/

namespace Sys2Proof.Machine

/-- The bytes of a load or a store (R269). -/
def accessSize (w : FWord) : Nat := 2 ^ w.fld 0 3

/-- The tag of a word with .T (R133). -/
def tagOf (c : Convoy) : Opnd → Option (BitVec 12)
  | .s n => some ((c.readS n.toNat).setWidth 12)
  | _ => none

/-- The parts of the access of a group of lanes in an itinerary. -/
def itinOf (info : List (Option Nat × ItinInfo)) (ls : List Nat) : List ItinInfo :=
  (info.filter fun p => match p.1 with
    | none => true
    | some l => ls.contains l).map Prod.snd

/-- A trap of a memory word. -/
def memTrap (s : State) (cause : Nat) (mask : Mask) (addr : Nat) : Res := .trap s cause mask (BitVec.ofNat 64 addr)

/-- Is an address shared, in a CANONICAL launch (R154)? -/
def sharedAt (s : State) (c : Convoy) (a : LaneAddr) : Bool :=
  isCanonical (s.launchOf c) && isShared (ownOf s (s.launchOf c) a.va a.leaf)

/-- The accesses of issue n of a convoy that wait under the constraints of a replay of a FINE itinerary (R139). -/
def constrained (s : State) (ci n : Nat) : List Access :=
  s.accesses.filter fun a => a.convoy == ci && a.number == n && a.unperformed && !a.itin.isEmpty &&
    !replayOk (s.launch a.launch) a

/-- The end of a word that sent its accesses: lanes whose access waits in a replay are held until it is performed, an actor that is the convoy for all of its accesses (R67, R134, R139). At the end of a loop body the others wait with them (R58). -/
def afterSend (s : State) (f : Focus) (e : Mask) : Res :=
  let n := issueNumber s f
  match constrained s f.convoy n with
  | [] => .done s stay
  | a :: r =>
    if a.itin.any (fun i => i.lane.isNone) then .hold s [(e, .access n none)]
    else .hold s ((a :: r).map fun b => (maskOf b.lanes, .access n (some b.id)))

/-- The checks that a global word shares: R101, with an uncorrectable error after them (assumption log 43), then who owns what it touches (R151). A word that meets an armed frame holds its lanes and is tried again (R357). -/
def globalCheck (s : State) (f : Focus) (c : Convoy) (e : Mask) (i : Instr) (size : Nat) (reads write : Bool) (as : List (Nat × Nat))
    (k : State → List LaneAddr → Res) : Res :=
  match checkWord s (convoyReq s c write) size reads as with
  | .stall => .hold s [(e, .retry i)]
  | .bad s1 cause m a => memTrap s1 cause m a
  | .ok s1 lanes =>
    if ownersStall s1 (s1.convoy f.convoy) lanes then .hold s [(e, .retry i)]
    else match readOwners s1 (s1.convoy f.convoy) lanes with
    | some (cause, m, a) => memTrap s1 cause m a
    | none => k s1 lanes

/-- Send one load: a shared granule of a CANONICAL launch reads as the interval began (R154). -/
def sendRead (s : State) (f : Focus) (c : Convoy) (at_ : LaneAddr) (a : Access) : State :=
  if sharedAt s c at_ then
    let s1 := sendAccess s f { a with phase := .performed s.steps [memRead (s.launchOf c).snapshot a.pa a.size] }
    if a.acq then acquireBound s1 f.convoy a.scope s.steps else s1
  else sendLoad s f a

/-- Does a word with a tag act as tagged? Not in a REVERSE launch (R142), nor in a REPLAY of an itinerary of another grain than FINE (R141). -/
def actsTagged (l : Launch) (tag : Option (BitVec 12)) : Bool :=
  tag.isSome && l.rec_.mode != 3 && !(l.rec_.mode == 2 && l.boundGrain != 2)

/-- The executing set of a word whose lanes have passed their checks. -/
def lanesMask (lanes : List LaneAddr) : Mask := maskOf (lanes.map LaneAddr.lane)

/-- The sender of an access that is buffered (R154). -/
def senderOf (s : State) (f : Focus) (rel acq : Bool) (scope : Nat) : Sender :=
  { core := f.core, seq := seqOf f.slot, convoy := f.convoy, number := issueNumber s f, rel := rel, acq := acq, scope := scope }

/-- The loads of a word: one for the convoy, or one for each lane (R134, R271). -/
def sendReads (s : State) (f : Focus) (c : Convoy) (w : FWord) (size : Nat) (one : Bool) (info : List (Option Nat × ItinInfo))
    (lanes : List LaneAddr) : State :=
  let groups : List (List Nat × LaneAddr) :=
    if one then (match lanes with
      | [] => []
      | a :: _ => [(lanes.map LaneAddr.lane, a)])
    else lanes.map fun a => ([a.lane], a)
  groups.foldl (fun s g => sendRead s f c g.2
    { plainAccess g.1 g.2.va g.2.pa g.2.leaf size (.load w.d size (w.bit 3)) with
      acq := w.bit 7 && scopeActs (s.launchOf c) w.scope.toNat, scope := w.scope.toNat, itin := itinOf info g.1,
      home := actsTagged (s.launchOf c) (tagOf c w.z), mask := lanesMask lanes }) s

/-- LD (R271). -/
def execLd (w : FWord) (s : State) : Host.Outcome State Fault Refusal :=
  let size := accessSize w
  runWord { hdr := w.hdr, legal := Legal.ld w, reads := [(w.x, 2), (w.y, 1), (w.z, 1)], writes := [(w.d, regsOfSize size)] } s
    fun f c e =>
      let as := laneAddrs c e w.x w.y
      globalCheck s f c e (.ld w) size true false as fun s1 lanes =>
        let order := match tagOf c w.z with
          | some t => orderWord s1 f.convoy { kind := 2, tag := t, opcode := 0, cls := 0 } e (isConvoyBase w.x) as
          | none => .ok s1 []
        match order with
        | .bad cause m a => memTrap s1 cause m a
        | .wait => .hold s [(e, .retry (.ld w))]
        | .ok s2 info =>
          let one := w.d.isSReg || (actsTagged (s.launchOf c) (tagOf c w.z) && isConvoyBase w.x)
          afterSend (sendReads s2 f c w size one info lanes) f e

/-- The bytes a lane stores (R270, R272). -/
def storeBytes (s : State) (c : Convoy) (size : Nat) (z : Opnd) (l : Nat) : List Byte :=
  match z with
  | .v n =>
    if size == 16 then (List.range 4).flatMap fun i => leBytes 4 (c.readV (n.toNat + i) l).toNat
    else if size == 8 then leBytes 8 (readW64 s c l z).toNat
    else leBytes size (c.readV n.toNat l).toNat
  | .sp _ => leBytes size (if size == 8 then (readW64 s c l z).toNat else (readW32 s c l z).toNat)
  | o => leBytes size (readU s c o).toNat

/-- The stores of a word, in lane order; those to shared granules of a CANONICAL launch are buffered (R93, R154). -/
def sendWrites (s : State) (f : Focus) (c : Convoy) (size : Nat) (rel : Bool) (scope : Nat) (bytes : Nat → List Byte)
    (info : List (Option Nat × ItinInfo)) (lanes : List LaneAddr) : State :=
  let final := (lanes.getLast?.map LaneAddr.lane).getD 0
  lanes.foldl (fun s a =>
    if sharedAt s c a then bufferAccess s f.convoy a.lane a.va a.pa (.store (bytes a.lane)) (senderOf s f rel false scope)
    else sendAccess s f { plainAccess [a.lane] a.va a.pa a.leaf size (.store (bytes a.lane)) with
      rel := rel, scope := scope, mask := lanesMask lanes,
      itin := (itinOf info [a.lane]).map fun i => { i with last := i.lane.isSome || a.lane == final } }) s

/-- The lanes of a word that would pass the quota (R155). -/
def quotaCause (s : State) (c : Convoy) (lanes : List LaneAddr) : Option (Mask × Nat) :=
  match overQuota s c (lanes.filter (sharedAt s c)) with
  | [] => none
  | a :: r => some (maskOf ((a :: r).map LaneAddr.lane), a.va)

/-- ST (R272). -/
def execSt (w : FWord) (s : State) : Host.Outcome State Fault Refusal :=
  let size := accessSize w
  runWord { hdr := w.hdr, legal := Legal.st w, reads := [(w.x, 2), (w.y, 1), (w.z, regsOfSize size), (w.d, 1)] } s
    fun f c e =>
      let as := laneAddrs c e w.x w.y
      globalCheck s f c e (.st w) size false true as fun s1 lanes =>
        let order := match tagOf c w.d with
          | some t => orderWord s1 f.convoy { kind := 1, tag := t, opcode := 0, cls := 0 } e (isConvoyBase w.x) as
          | none => .ok s1 []
        match order with
        | .bad cause m a => memTrap s1 cause m a
        | .wait => .hold s [(e, .retry (.st w))]
        | .ok s2 info =>
          match quotaCause s2 c lanes with
          | some (m, a) => memTrap s1 causeCROSSFULL m a
          | none => afterSend (sendWrites s2 f c size (w.bit 7) w.scope.toNat (storeBytes s c size w.z) info lanes) f e

/-- The operand bytes of an atomic in a lane (R273). -/
def atomOperand (s : State) (c : Convoy) (op : BitVec 4) (mmrg : Bool) (y : Opnd) (l : Nat) : List Byte :=
  if op == 15 && mmrg then momentBytes (readMom c l y)
  else if atomIsPair op mmrg then leBytes 8 (readW64 s c l y).toNat
  else leBytes 4 (readW32 s c l y).toNat

/-- The operation of ATOM and ATOML. -/
def atomOp (w : FWord) : BitVec 4 := w.mod.extractLsb' 0 4
def atomMmrg (w : FWord) : Bool := w.bit 7

/-- The destination of an atomic, none for the non-returning form. -/
def atomDest (w : FWord) : Option Opnd := if w.d.isNone then none else some w.d

/-- Do the lanes of a word reach the location of one of them by its virtual address only? -/
def oneName (all : List LaneAddr) (a : LaneAddr) : Bool := all.all fun b => b.pa != a.pa || b.va == a.va

/-- Lanes by location: lanes that name it by one virtual address share an access, in ascending order; where a word names it by several, each lane has its own, and they are performed in lane order all the same (R93). -/
def groupLanes (all : List LaneAddr) : List LaneAddr → List (List Nat × LaneAddr)
  | [] => []
  | a :: r =>
    let rest := groupLanes all r
    match (if oneName all a then rest.find? fun g => g.2.pa == a.pa else none) with
    | some g => (a.lane :: g.1, a) :: rest.filter fun h => h.2.pa != a.pa
    | none => ([a.lane], a) :: rest

/-- The atomics of a word, one access for each location, or for each lane (R93, R274). -/
def sendAtoms (s : State) (f : Focus) (c : Convoy) (w : FWord) (operand : Nat → List Byte) (info : List (Option Nat × ItinInfo))
    (lanes : List LaneAddr) : State :=
  let op := atomOp w
  let ord := w.scope != 0
  (groupLanes lanes lanes).foldl (fun s g =>
    if sharedAt s c g.2 then
      g.1.foldl (fun s l => bufferAccess s f.convoy l g.2.va g.2.pa (.atom op (atomMmrg w) [operand l] none) (senderOf s f ord ord w.scope.toNat)) s
    else sendAccess s f
      { plainAccess g.1 g.2.va g.2.pa g.2.leaf (atomSize op) (.atom op (atomMmrg w) (g.1.map operand) (atomDest w)) with
        acq := ord, rel := ord, scope := w.scope.toNat, home := true, itin := itinOf info g.1, mask := lanesMask lanes }) s

/-- ATOM (R274). -/
def execAtom (w : FWord) (s : State) : Host.Outcome State Fault Refusal :=
  let op := atomOp w
  runWord { hdr := w.hdr, legal := Legal.atom w, reads := [(w.x, 2), (w.y, if atomIsPair op (atomMmrg w) then 2 else 1), (w.z, 1)],
            writes := [(w.d, 1)] } s
    fun f c e =>
      let as := laneAddrs c e w.x (.sp 0x3F)
      globalCheck s f c e (.atom w) (atomSize op) true true as fun s1 lanes =>
        match (if (atomDest w).isSome then lanes.filter (sharedAt s1 c) else []) with
        | a :: r => memTrap s1 causeCANONRET (maskOf ((a :: r).map LaneAddr.lane)) a.va
        | [] =>
          let o : OrderWord := { kind := 3, tag := (tagOf c w.z).getD 0, opcode := atomOpByte op.toNat (atomMmrg w), cls := atomClass op.toNat }
          match orderWord s1 f.convoy o e (isConvoyBase w.x) as with
          | .bad cause m a => memTrap s1 cause m a
          | .wait => .hold s [(e, .retry (.atom w))]
          | .ok s2 info =>
            match quotaCause s2 c lanes with
            | some (m, a) => memTrap s1 causeCROSSFULL m a
            | none => afterSend (sendAtoms s2 f c w (atomOperand s c op (atomMmrg w) w.y) info lanes) f e

/-- The checks and replays that a local word shares (R73, R268). -/
def localCheck (s : State) (f : Focus) (c : Convoy) (n : Nat) (reads writes : Bool) (lanes : List (Nat × Nat)) (k : State → Res) : Res :=
  match localCause (lsOf s c) (s.blockOf c).size n reads writes lanes with
  | some (cause, m, a) => memTrap s cause m a
  | none => k (countReplays s f n (lanes.map Prod.snd))

/-- LDL (R271): every lane reads in the one order of the block's local store. -/
def execLdl (w : FWord) (s : State) : Host.Outcome State Fault Refusal :=
  let size := accessSize w
  runWord { hdr := w.hdr, legal := Legal.ldl w, reads := [(w.x, 1), (w.y, 1)], writes := [(w.d, regsOfSize size)] } s
    fun f c e =>
      let lanes := laneOffs c e w.x w.y
      localCheck s f c size true false lanes fun s1 =>
        doneWith s1 f (lanes.foldl (fun c p => writeLoaded c (laneBit p.1) w.d size (w.bit 3) (memRead (lsOf s c).mem p.2 size)) c)

/-- STL (R272): the lanes write in ascending order. -/
def execStl (w : FWord) (s : State) : Host.Outcome State Fault Refusal :=
  let size := accessSize w
  runWord { hdr := w.hdr, legal := Legal.stl w, reads := [(w.x, 1), (w.y, 1), (w.z, regsOfSize size)] } s
    fun f c e =>
      let lanes := laneOffs c e w.x w.y
      localCheck s f c size false true lanes fun s1 =>
        .done (modLs s1 c.block (onFollower s c) fun ls => lanes.foldl (fun ls p => ls.write p.2 (storeBytes s c size w.z p.1)) ls) stay

/-- Atomics on a local store, lane by lane: the store, and what each lane saw (R74, R274). -/
def localAtoms (op : BitVec 4) (mmrg : Bool) (operand : Nat → List Byte) : List (Nat × Nat) → LocalStore → LocalStore × List (Nat × List Byte)
  | [], ls => (ls, [])
  | (l, off) :: r, ls =>
    let old := memRead ls.mem off (atomSize op)
    let (ls1, olds) := localAtoms op mmrg operand r (ls.write off (atomApply op mmrg old (operand l)))
    (ls1, (l, old) :: olds)

/-- ATOML (R274). -/
def execAtoml (w : FWord) (s : State) : Host.Outcome State Fault Refusal :=
  let op := atomOp w
  runWord { hdr := w.hdr, legal := Legal.atoml w, reads := [(w.x, 1), (w.y, if atomIsPair op (atomMmrg w) then 2 else 1)], writes := [(w.d, 1)] } s
    fun f c e =>
      let lanes := laneOffs c e w.x (.sp 0x3F)
      localCheck s f c (atomSize op) true true lanes fun s1 =>
        let r := localAtoms op (atomMmrg w) (atomOperand s c op (atomMmrg w) w.y) lanes (lsOf s c)
        let c1 := r.2.foldl (fun c p => writeLoaded c (laneBit p.1) w.d (atomSize op) false p.2) c
        .done (modLs (s1.setConvoy f.convoy c1) c.block (onFollower s c) fun _ => r.1) stay

/-- FENCE (R275): it waits as a release, then bounds as an acquire. -/
def execFence (w : FWord) (s : State) : Host.Outcome State Fault Refusal :=
  runWord { hdr := w.hdr, legal := Legal.fence w } s fun f c _ =>
    if scopeActs (s.launchOf c) w.scope.toNat && !releaseClear s f.core (seqOf f.slot) f.convoy (issueNumber s f) then .wait s
    else .done (acquireBound s f.convoy w.scope.toNat s.steps) stay

/-- The condition of MWAIT on an observed word (R276). -/
def mwaitTrue (s : State) (c : Convoy) (w : FWord) (v : W64) : Bool :=
  intCond (w.fld 0 4) (if w.z.isNone then v else v &&& readU s c w.z) (readU s c w.y)

/-- The word an MWAIT or a WAITSTAMP reads: in local store, or at its home (R276, R277). -/
def waitRead (s : State) (f : Focus) (c : Convoy) (e : Mask) (x : Opnd) (isLocal : Bool) : ItemRes :=
  let va := baseOf c 0 x
  if isLocal then
    let off := (va.setWidth 32).toNat
    match localCause (lsOf s c) (s.blockOf c).size 8 true false ((lanesOf c.width e).map fun l => (l, off)) with
    | some (cause, m, a) => .bad s cause m a
    | none => .ok s (memRead (lsOf s c).mem off 8) { lane := 0, va := off, pa := off, leaf := 0 }
  else readItem s f e va.toNat 8 8 true

/-- The 8-byte word of a list of bytes. -/
def wordOf (bs : List Byte) : W64 := BitVec.ofNat 64 (leNat bs)

/-- MWAIT (R276): the first issue and, for a local word, every later test. Once waiting has begun no cause is raised. -/
def execMwait (w : FWord) (s : State) : Host.Outcome State Fault Refusal :=
  runWord { hdr := w.hdr, legal := Legal.mwait w, reads := [(w.x, 2), (w.y, 1), (w.z, 1)], writes := [(w.d, 1)], switch := true,
            quiet := s.focus.any (isRetest s) } s
    fun f c e =>
      let again : State → Res := fun s => .hold s [(e, .retry (.mwait w))]
      match waitRead s f c e w.x (w.bit 7) with
      | .wait => if isRetest s f then again s else .wait s
      | .bad s1 cause m a => if isRetest s f then again s else memTrap s1 cause m a
      | .ok s1 bs at_ =>
        if !w.bit 7 && sharedAt s1 c at_ then memTrap s1 causeCANONRET e at_.va
        else if mwaitTrue s c w (wordOf bs) then
          let s2 := s1.setConvoy f.convoy (writeRes64 (s1.convoy f.convoy) e w.d fun _ => wordOf bs)
          .done (if w.scope == 0 then s2 else acquireBound s2 f.convoy w.scope.toNat s.steps) stay
        else again s1

/-- Is a hold the wait of an MWAIT.G? -/
def mwaitWord (h : Hold) : Option FWord :=
  match h.kind with
  | .retry (.mwait w) => if w.bit 7 then none else some w
  | _ => none

/-- MWAIT_REREAD (R276): a held MWAIT.G reads its word at the home once more. -/
def rereadMwait (s : State) (ci : Nat) : State :=
  let c := s.convoy ci
  match (c.holds.find? fun h => (mwaitWord h).isSome).bind fun h => (mwaitWord h).map fun w => (h, w) with
  | none => s
  | some (h, w) =>
    let f : Focus := { core := c.core, slot := c.slot, convoy := ci, active := h.lanes, addr := h.pc }
    match waitRead s f c (execSet w.hdr c h.lanes) w.x false with
    | .ok s1 bs _ =>
      if mwaitTrue s c w (wordOf bs) then
        let s2 := s1.modConvoy ci fun c => writeRes64 c h.lanes w.d fun _ => wordOf bs
        releaseHolds (if w.scope == 0 then s2 else acquireBound s2 ci w.scope.toNat s.steps) ci fun k => k == h
      else s1
    | _ => s

/-- MWAIT_REREAD (R276). -/
def execMwaitReread (n : Nat) (s : State) : Host.Outcome State Fault Refusal := stepTo (rereadMwait s n)

/-- WAITSTAMP (R107, R277). -/
def execWaitstamp (w : FWord) (s : State) : Host.Outcome State Fault Refusal :=
  runWord { hdr := w.hdr, legal := Legal.waitstamp w, reads := [(w.x, 2), (w.y, 1)], writes := [(w.d, 1)], switch := true } s
    fun f c e =>
      match waitRead s f c e w.x (w.bit 0) with
      | .wait => if isRetest s f then .hold s [(e, .retry (.waitstamp w))] else .wait s
      | .bad s1 cause m a => memTrap s1 cause m a
      | .ok s1 bs at_ =>
        let v := wordOf bs
        if !stampReached v ((readU s c w.y).setWidth 56) then .hold s1 [(e, .retry (.waitstamp w))]
        else
          let s2 := acquireBound s1 f.convoy w.scope.toNat s.steps
          if v.extractLsb' 56 8 == 3 then memTrap s2 causeCOLLFAIL e at_.va
          else doneWith s2 f (writeRes64 (s2.convoy f.convoy) e w.d fun _ => v)

/-- PREF (R278): a lane that fails a check, or breaks an ownership rule, is dropped. -/
def prefetchLane (f : Focus) (w : FWord) (s : State) (p : Nat × Nat) : State :=
  let c := s.convoy f.convoy
  match checkLane s (convoyReq s c false) 0 false p.1 p.2 with
  | some (s1, .good a) =>
    if ownersStall s1 c [a] || (readOwners s1 c [a]).isSome || sharedAt s1 c a then s1
    else sendAccess s1 f { plainAccess [a.lane] a.va a.pa a.leaf 1 (.fill (w.bit 0)) with itin := [] }
  | some (s1, .fails ..) => s1
  | none => s

/-- PREF (R278). -/
def execPref (w : FWord) (s : State) : Host.Outcome State Fault Refusal :=
  runWord { hdr := w.hdr, legal := Legal.pref w, reads := [(w.x, 2), (w.y, 1)] } s fun f c e =>
    .done ((laneAddrs c e w.x w.y).foldl (prefetchLane f w) s) stay

/-- The address of a moment in lane l, and the word's lanes (R266): displacements count 16 bytes. -/
def momentAddrs (c : Convoy) (e : Mask) (x y : Opnd) : List (Nat × Nat) :=
  (lanesOf c.width e).map fun l => (l, (baseOf c l x + dispOf c 16 y).toNat)

/-- MLD (R266). -/
def execMld (w : FWord) (s : State) : Host.Outcome State Fault Refusal :=
  runWord { hdr := w.hdr, legal := Legal.mld w, reads := [(w.x, if w.bit 0 then 1 else 2), (w.y, 1)], writes := [(w.d, 1)] } s
    fun f c e =>
      if w.bit 0 then
        let lanes := laneOffs c e w.x w.y
        localCheck s f c 16 true false lanes fun s1 =>
          doneWith s1 f (lanes.foldl (fun c p => writeLoaded c (laneBit p.1) w.d 16 false (memRead (lsOf s c).mem p.2 16)) c)
      else
        globalCheck s f c e (.mld w) 16 true false (momentAddrs c e w.x w.y) fun s1 lanes =>
          .done (sendReads s1 f c { w with mod := 0, z := .sp 0x3F } 16 w.d.isG [] lanes) stay

/-- MST (R266). -/
def execMst (w : FWord) (s : State) : Host.Outcome State Fault Refusal :=
  runWord { hdr := w.hdr, legal := Legal.mst w, reads := [(w.x, if w.bit 0 then 1 else 2), (w.y, 1), (w.z, 1)] } s
    fun f c e =>
      let bytes : Nat → List Byte := fun l => momentBytes (readMom c l w.z)
      if w.bit 0 then
        let lanes := laneOffs c e w.x w.y
        localCheck s f c 16 false true lanes fun s1 =>
          .done (modLs s1 c.block (onFollower s c) fun ls => lanes.foldl (fun ls p => ls.write p.2 (bytes p.1)) ls) stay
      else
        globalCheck s f c e (.mst w) 16 false true (momentAddrs c e w.x w.y) fun s1 lanes =>
          match quotaCause s1 c lanes with
          | some (m, a) => memTrap s1 causeCROSSFULL m a
          | none => .done (sendWrites s1 f c 16 false 0 bytes [] lanes) stay

end Sys2Proof.Machine
end

