-- ==== Sys2Proof/Machine/Privileged.lean ====
section
/-! DEFINITION. The privileged words (R183, R310 to R313, R318, R319, R326 to R328, R330, R331), but for those that save and load a context. -/

namespace Sys2Proof.Machine

/-- What the checks know of a privileged word with register operands. -/
def privInfo (w : FWord) (legal : Bool) : WordInfo :=
  { hdr := w.hdr, legal := legal, reads := [(w.x, 1), (w.y, 1)], writes := [(w.d, 1)] }

/-- PRIV, first among a word's own causes, outside the supervisor state (R183, R311). -/
def supervisorOnly (s : State) (c : Convoy) (e : Mask) (k : Res) : Res := if c.priv == 2 then k else raise s causePRIV e

/-- ERET (R318, R331), for the whole convoy. -/
def execEret (w : CWord) (s : State) : Host.Outcome State Fault Refusal :=
  runWord (cInfo w (Legal.cNone w) [] []) s fun f c e =>
    if c.priv == 0 then raise s causePRIV e else .jumped (returnFromTrap s f.convoy f.addr)

/-- PARK (R331): the word completes, and the convoy issues nothing more. -/
def execPark (w : CWord) (s : State) : Host.Outcome State Fault Refusal :=
  runWord (cInfo w (Legal.cNone w) [] []) s fun f c e =>
    supervisorOnly s c e (.done (s.setConvoy f.convoy { c with parked := true }).noteParked stay)

/-- The value of a CSR (R312, R313). -/
def csrRead (s : State) (c : Convoy) (n : Nat) : W64 :=
  let k := s.core c.core
  let r := (s.launchOf c).rec_
  if n == 0x00 then 0x00010100
  else if n == 0x01 then BitVec.ofNat 64 c.priv
  else if n == 0x02 then k.perfen
  else if n == 0x08 then c.trap.cause
  else if n == 0x09 then c.trap.pc
  else if n == 0x0A then c.trap.addr
  else if n == 0x0B then c.trap.mask
  else if n == 0x0C then c.trap.act
  else if n == 0x0D then c.trap.status
  else if n == 0x0E then BitVec.ofNat 64 r.utvec
  else if n == 0x0F then r.deleg.setWidth 64
  else if n == 0x10 then k.tvec
  else if n ≤ 0x14 then c.scratch.getD (n - 0x11) 0
  else if n == 0x18 then c.held.cause
  else if n == 0x19 then c.held.pc
  else if n == 0x1A then c.held.addr
  else if n == 0x1B then c.held.mask
  else if n == 0x1C then c.held.act
  else if n == 0x1D then c.held.status
  else if n == 0x20 then k.wdctl
  else if n == 0x21 then k.secnt
  else if 0x30 ≤ n && n ≤ 0x37 then (k.perfsel.getD (n - 0x30) 0).setWidth 64
  else 0

/-- May a state read a CSR (R311, R312)? -/
def csrReadable (priv n : Nat) : Bool := n ≤ 2 || n == 0x0E || n == 0x0F || (priv == 1 && 0x08 ≤ n && n ≤ 0x0D) || priv == 2

/-- CSRR (R326). -/
def execCsrr (w : FWord) (s : State) : Host.Outcome State Fault Refusal :=
  runWord (privInfo w (Legal.csrr w)) s fun f c e =>
    if csrReadable c.priv w.mod.toNat then doneWith s f (writeRes64 c e w.d fun _ => csrRead s c w.mod.toNat) else raise s causePRIV e

/-- The writable bits of TCAUSE and TSTATUS (R313). -/
def causeBits (v : W64) : W64 := v &&& 0xFF
def statusBits (v : W64) : W64 := v &&& 0xFB

/-- The writable bits of TVEC (R312). -/
def vecBits (v : W64) : W64 := v &&& 0xFFFFFFFFFFF8

/-- Write register n of a set of trap registers, numbered as TCAUSE to TSTATUS and HTCAUSE to HTSTATUS stand (R312). -/
def writeTrapReg (t : TrapRegs) (n : Nat) (v : W64) : TrapRegs :=
  match n with
  | 0 => { t with cause := causeBits v }
  | 1 => { t with pc := v }
  | 2 => { t with addr := v }
  | 3 => { t with mask := v }
  | 4 => { t with act := v }
  | 5 => { t with status := statusBits v }
  | _ => t

/-- Write a convoy CSR (R312): the trap registers from 0x08, the scratch registers from 0x11, the held set from 0x18. -/
def csrWriteConvoy (c : Convoy) (n : Nat) (v : W64) : Convoy :=
  if n < 0x08 then c
  else if n ≤ 0x0D then { c with trap := writeTrapReg c.trap (n - 0x08) v }
  else if n < 0x11 then c
  else if n ≤ 0x14 then { c with scratch := c.scratch.set (n - 0x11) v }
  else if n < 0x18 then c
  else { c with held := writeTrapReg c.held (n - 0x18) v }

/-- Write a core CSR (R312, R313): reserved fields ignore the write. -/
def csrWriteCore (k : Core) (n : Nat) (v : W64) : Core :=
  if n == 0x02 then { k with perfen := v &&& 0xFF }
  else if n == 0x10 then { k with tvec := vecBits v }
  else if n == 0x21 then { k with secnt := v &&& 0xFFFFFFFFFFFF }
  else k

/-- A write of a CSR: a uniform write (R49, R326), then PRIV. -/
def runCsrw (w : FWord) (legal : Bool) (s : State) (body : Focus → Convoy → W64 → Res) : Host.Outcome State Fault Refusal :=
  runWord { hdr := w.hdr, legal := legal, reads := [(w.x, 1)] } s fun f c e =>
    if e != c.live then raise s causeUNIFWR e else supervisorOnly s c e (body f c (readU s c w.x))

/-- CSRW (R326) of every writable CSR but those with a row of their own. -/
def execCsrw (w : FWord) (s : State) : Host.Outcome State Fault Refusal :=
  runCsrw w (Legal.csrw w) s fun f c v =>
    let n := w.mod.toNat
    .done ((s.setConvoy f.convoy (csrWriteConvoy c n v)).modCore f.core fun k => csrWriteCore k n v) stay

/-- CSRW of KILL (R319): with bit 0 set the launch of the convoy is terminated, with its TCAUSE as the cause. -/
def execKillCsrWrite (w : FWord) (s : State) : Host.Outcome State Fault Refusal :=
  runCsrw w (Legal.killCsrWrite w) s fun _ c v =>
    if v.getLsbD 0 then .done (terminateLaunch s c.launch (c.trap.cause.toNat % 256)) stay else .done s stay

/-- CSRW of WDCTL (R84, R313): a write of 1 resets every slot's count. -/
def execWdctlWrite (w : FWord) (s : State) : Host.Outcome State Fault Refusal :=
  runCsrw w (Legal.wdctlWrite w) s fun f _ v =>
    let s1 := s.modCore f.core fun k => { k with wdctl := v &&& 1 }
    .done (if v.getLsbD 0 then (List.range 32).foldl (fun s h => resetWatchdog s f.core h) s1 else s1) stay

/-- CSRW of PERFSELn (R327): it selects the event of counter n and sets the counter to 0. -/
def execPerfselWrite (w : FWord) (s : State) : Host.Outcome State Fault Refusal :=
  runCsrw w (Legal.perfselWrite w) s fun f _ v =>
    let n := w.mod.toNat - 0x30
    .done (s.modCore f.core fun k => { k with perfsel := k.perfsel.set n (v.setWidth 8), perf := k.perf.set n 0 }) stay

/-- PERFR (R327). -/
def execPerfr (w : FWord) (s : State) : Host.Outcome State Fault Refusal :=
  runWord (privInfo w (Legal.perfr w)) s fun f c e =>
    let n := (readU s c w.x).toNat % 8
    let k := s.core f.core
    doneWith s f (writeRes64 c e w.d fun _ => if c.priv == 2 || k.perfen.getLsbD n then k.perf.getD n 0 else 0)

/-- Does a TLB entry belong to what a TLBINV names (R328)? -/
def invNames (ctx : Option Nat) (va : Option Nat) (t : TlbEntry) : Bool :=
  (match ctx with
   | some x => t.ctx == x
   | none => true) &&
  (match va with
   | some a => t.page == a / (if t.large then 2 ^ 21 else 2 ^ 16)
   | none => true)

/-- Remove the named entries from every TLB of the module (R328). -/
def invalidate (s : State) (ctx va : Option Nat) : State :=
  let keep : List TlbEntry → List TlbEntry := fun l => l.filter fun t => !invNames ctx va t
  { s with cores := s.cores.map fun c => { c with tlb := keep c.tlb }, dieTlbs := s.dieTlbs.map keep }

/-- Is a store of a context to an address one that may have gone through a named entry (R328)? -/
def invMeets (ctx va : Option Nat) (q a : Nat) : Bool :=
  (match ctx with
   | some x => q == x
   | none => true) &&
  (match va with
   | some v => a / 2 ^ 21 == v / 2 ^ 21
   | none => true)

/-- Is a store still to be performed or acknowledged that may have gone through a named entry: one in flight, of a lane or of an engine, one buffered in a CANONICAL launch, or one in the queue of the host link (R99, R328, R355)? One that has been answered RETRY holds no translation until it has walked again (R357). -/
def invWaits (s : State) (ctx va : Option Nat) : Bool :=
  (s.accesses.any fun a => a.isWrite && !a.retrying && invMeets ctx va (s.launch a.launch).queue a.va) ||
  (s.copies.any fun o => o.flight.any fun f => !f.retrying && invMeets ctx va (s.launch o.launch).queue f.va) ||
  (s.colls.any fun c => c.flight.any fun f => !f.retrying && invMeets ctx va c.ctx f.va) ||
  (s.launches.any fun l => l.buffer.any fun b => invMeets ctx va l.queue b.va) || !s.hub.posted.isEmpty

/-- TLBINV (R328): the convoy waits until the stores through the removed entries are acknowledged. -/
def execTlbinv (w : FWord) (s : State) : Host.Outcome State Fault Refusal :=
  runWord (privInfo w (Legal.tlbinv w)) s fun _ c e =>
    supervisorOnly s c e
      (let y := readU s c w.y
       let x := readU s c w.x
       if !w.y.isNone && decide (16 < y.toNat) then raise s causeLAYOUT e
       else if !w.bit 0 && decide (2 ^ 48 ≤ x.toNat) then .trap s causeACCESS e x
       else
        let ctx := if w.y.isNone then none else some y.toNat
        let va := if w.bit 0 then none else some x.toNat
        if invWaits s ctx va then .wait (invalidate s ctx va) else .done (invalidate s ctx va) stay)

/-- Raise the bounds of every convoy of a core, on lines of the L1 and on copies in the squares (R330). -/
def boundCore (s : State) (core : Nat) : State :=
  { s with convoys := s.convoys.map fun (c : Convoy) => if c.core == core then { c with bound := max c.bound s.steps, domBound := max c.domBound s.steps } else c }

/-- CACHEOP (R330). -/
def execCacheop (w : FWord) (s : State) : Host.Outcome State Fault Refusal :=
  runWord (privInfo w (Legal.cacheop w)) s fun f c e =>
    supervisorOnly s c e
      (match w.rm.toNat with
       | 0 => .done (boundCore (s.modCore f.core fun k => { k with l1 := [] }) f.core) stay
       | 1 => .done { s with squares := [] } stay
       | _ => .done (s.modCore f.core fun k => { k with ibuf := [] }) stay)

end Sys2Proof.Machine
end

