-- ==== Sys2Proof/Machine/Sync.lean ====
section
/-! DEFINITION. Barriers, crossings, events and launches from the device (R75 to R80, R157, R279 to R283, R332). -/

namespace Sys2Proof.Machine

/-- Does a releasing word at a scope still wait (R95)? -/
def releaseMustWait (s : State) (f : Focus) (c : Convoy) (scope : Nat) : Bool :=
  scopeActs (s.launchOf c) scope && !releaseClear s f.core (seqOf f.slot) f.convoy (issueNumber s f)

/-- The object and the mask of a barrier word. -/
def barOffset (c : Convoy) (x : Opnd) : Nat := ((baseOf c 0 x).setWidth 32).toNat
def barMask (s : State) (c : Convoy) (y : Opnd) : BitVec 16 := (readU s c y).setWidth 16

/-- The convoys of a block as a member mask: only convoys 0 to 15 can be members (R75). -/
def blockMembers (b : Block) : BitVec 16 := BitVec.ofNat 16 (2 ^ b.convoys.length - 1)

/-- The causes that come before an object is named (R279), then an uncorrectable error in it (R321). -/
def objectCause (s : State) (c : Convoy) (off : Nat) (m : BitVec 16) : Option Nat :=
  let b := s.blockOf c
  match itemCause b.size 8 8 off with
  | some cause => some cause
  | none =>
    if m == 0 || m &&& ~~~ blockMembers b != 0 then some causeBARMASK
    else if b.ls.errs.any (fun x => decide (off ≤ x) && decide (x < off + 8)) then some causeSOFTERR
    else none

/-- Name an object: it is marked (R75). -/
def nameObject (s : State) (c : Convoy) (off : Nat) : State := modLs s c.block false fun l => addMark l off

/-- Write an object. -/
def putObject (s : State) (c : Convoy) (off : Nat) (w : W64) : State := modLs s c.block false fun l => l.write off (leBytes 8 w.toNat)

/-- Does a convoy present a wrong mask (R77)? -/
def wrongMask (w : W64) (m : BitVec 16) (index : Nat) (arrives : Bool) : Bool :=
  m != objMember w || !m.getLsbD index || (arrives && (objArrived w).getLsbD index)

/-- The barrier words with the causes that all share; the body has the object's word and the mask. -/
def runBarrier (i : WordInfo) (w : FWord) (s : State) (body : State → Focus → Convoy → Mask → Nat → W64 → BitVec 16 → Res) :
    Host.Outcome State Fault Refusal :=
  runWord i s fun f c e =>
    let off := barOffset c w.x
    let m := barMask s c w.y
    match objectCause s c off m with
    | some cause => memTrap s cause e off
    | none => body (nameObject s c off) f c e off ((s.blockOf c).ls.word off) m

/-- What the checks know of a barrier word. -/
def barInfo (w : FWord) (legal switch : Bool) : WordInfo :=
  { hdr := w.hdr, legal := legal, reads := [(w.x, 1), (w.y, 1), (w.z, 1)], writes := [(w.d, 1)], uni := true, switch := switch }

/-- BARINIT (R76). -/
def execBarinit (w : FWord) (s : State) : Host.Outcome State Fault Refusal :=
  runBarrier (barInfo w (Legal.bar w) false) w s fun s _ c e off v m =>
    if objArrived v == 0 then .done (putObject s c off (objWord m 0 0)) stay
    else if objMember v == m then .done s stay
    else memTrap s causeBARCLOBBER e off

/-- Is a hold the wait for a generation of an object? -/
def waitsGen (off : Nat) (gen : BitVec 16) (h : Hold) : Bool := h.kind == .bar off gen

/-- What the arrivals at an object order before the convoys that it releases (R79). -/
def arrivedBefore (s : State) (b : Block) (off : Nat) : List Before :=
  let full : Mask := BitVec.allOnes 64
  (b.ls.arrivals.filter fun x => x.off == off).flatMap fun x =>
    ({ convoy := x.convoy, lanes := full, until_ := x.at_, mine := full, from_ := s.steps } : Before) ::
      x.befores.map fun y => { y with mine := full, from_ := s.steps }

/-- A convoy passes the object at an offset: a release from BAR or BARWT (R79). -/
def passObject (s : State) (ci off : Nat) : State := passBarrier s ci (arrivedBefore s (s.blockOf (s.convoy ci)) off)

/-- A convoy arrives at an object (R79). -/
def noteArrival (s : State) (f : Focus) (off : Nat) : State :=
  let c := s.convoy f.convoy
  let a : Arrival := { off := off, convoy := f.convoy, at_ := issueNumber s f, befores := liveBefores s c.befores }
  modLs s c.block false fun l => { l with arrivals := a :: l.arrivals.filter fun x => !(x.off == off && x.convoy == f.convoy) }

/-- Release the waiters of a generation in every convoy of a block (R77, R79). -/
def releaseGen (s : State) (b : Block) (off : Nat) (gen : BitVec 16) : State :=
  b.convoys.foldl (fun s ci =>
    if anyHold (s.convoy ci) (waitsGen off gen) then releaseHolds (passObject s ci off) ci (waitsGen off gen) else s) s

/-- The BAR record of a completed generation (R130, R137). -/
def barRecord (l : Launch) (b : Block) (off : Nat) (gen : BitVec 16) : ItinRec :=
  { addr := off, seqpos := 0, block := b.index, convoy := 0xFF, lane := 0xFF, tag := 0, occ := 0, kind := 5, cls := 0,
    opcode := 0, grain := l.rec_.grain, extra := gen.toNat }

/-- The outcome of an arrival: the next state, whether the generation is complete and which it was; a cause; or not yet. -/
inductive ArriveRes where
  | ok (s : State) (complete : Bool) (gen : BitVec 16)
  | bad (cause addr : Nat)
  | wait

/-- ARRIVE (R77): the arrival that completes a generation records it first (R137), and then releases its waiters. -/
def arrive (s : State) (c : Convoy) (off : Nat) (v : W64) : ArriveRes :=
  let l := s.launchOf c
  let b := s.blockOf c
  let arrived := objArrived v ||| BitVec.ofNat 16 (2 ^ c.index)
  if arrived != objMember v then .ok (putObject s c off (objWord (objMember v) arrived (objGen v))) false (objGen v)
  else
    let finish : State → State := fun s =>
      let s1 := (putObject s c off (objWord (objMember v) 0 (objGen v + 1))).modBlock c.block fun b => { b with gens := b.gens + 1 }
      releaseGen s1 b off (objGen v)
    if l.recording && l.rec_.grain != 0 then
      (match reserveSlots s l 1 with
       | .bad cause a => .bad cause a
       | .wait => .wait
       | .ok slots =>
         let s1 := writeRecord s l (slots.headD 0) (barRecord l b off (objGen v + 1))
         .ok (finish (s1.modLaunch c.launch fun l => { l with reserved := l.reserved + 1 })) true (objGen v))
    else .ok (finish s) true (objGen v)

/-- BAR and BARARV up to the arrival, which is a release at scope BLK (R79). -/
def runArrival (i : WordInfo) (w : FWord) (s : State) (after : State → Focus → Convoy → Mask → Nat → Bool → BitVec 16 → Res) :
    Host.Outcome State Fault Refusal :=
  runBarrier i w s fun s f c e off v m =>
    if wrongMask v m c.index true then memTrap s causeBARMASK e off
    else if releaseMustWait s f c 1 then .wait s
    else match arrive (noteArrival s f off) c off v with
      | .bad cause a => memTrap s cause e a
      | .wait => .wait s
      | .ok s1 complete gen => after s1 f c e off complete gen

/-- BAR (R77). -/
def execBar (w : FWord) (s : State) : Host.Outcome State Fault Refusal :=
  runArrival (barInfo w (Legal.bar w) true) w s fun s f _ e off complete gen =>
    if complete then .done (passObject s f.convoy off) stay else .hold s [(e, .bar off gen)]

/-- BARARV (R77). -/
def execBararv (w : FWord) (s : State) : Host.Outcome State Fault Refusal :=
  runArrival (barInfo w (Legal.bararv w) false) w s fun s f _ e _ _ gen =>
    doneWith s f (writeRes64 (s.convoy f.convoy) e w.d fun _ => gen.setWidth 64)

/-- BARWT (R77). -/
def execBarwt (w : FWord) (s : State) : Host.Outcome State Fault Refusal :=
  runBarrier (barInfo w (Legal.barwt w) true) w s fun s f c e off v m =>
    if wrongMask v m c.index false then memTrap s causeBARMASK e off
    else
      let g : BitVec 16 := (readU s c w.z).setWidth 16
      if objGen v == g then .hold s [(e, .bar off g)] else .done (passObject s f.convoy off) stay

/-- A waiter for a generation may go once it observes another (R77). -/
def genPassed (s : State) (ci : Nat) (h : Hold) : Bool :=
  match h.kind with
  | .bar off gen => objGen ((s.blockOf (s.convoy ci)).ls.word off) != gen
  | _ => false

/-- Lanes arrive at a BARL (R80). -/
def arriveBarl (s : State) (f : Focus) (e : Mask) (b : Barl) : Res :=
  let c := s.convoy f.convoy
  let arr := e &&& b.mask
  let b1 := { b with arrived := b.arrived ||| arr }
  if arr == 0 then .done s stay
  else if b1.mask &&& c.live &&& ~~~ b1.arrived == 0 then
    .done (releaseBarl (s.setConvoy f.convoy { c with barl := none }) f.convoy b1) stay
  else .hold (s.setConvoy f.convoy { c with barl := some b1 }) [(arr, .barl)]

/-- BARL (R80, R280). -/
def execBarl (w : FWord) (s : State) : Host.Outcome State Fault Refusal :=
  runWord { hdr := w.hdr, legal := Legal.barl w, reads := [(w.x, 1)], switch := true, ends := true } s fun f c e =>
    let k := readK c f.active w.x &&& c.live
    if releaseMustWait s f c 1 then .wait s
    else match c.barl with
      | none => if e &&& k == 0 then .done s stay else arriveBarl s f e { addr := f.addr, mask := k, arrived := 0 }
      | some b => if f.addr != b.addr || k != b.mask &&& c.live then raise s causeBARMASK e else arriveBarl s f e b

/-- The record of a crossing is reserved by its first arrival (R137). -/
def reserveCrossing (l : Launch) (s : State) : Reserve :=
  if l.recording && l.rec_.grain != 0 && l.crossSlot.isNone then reserveSlots s l 1 else .ok []

/-- Note the slot of a crossing's record. -/
def noteCrossing (s : State) (li : Nat) (slots : List Nat) : State :=
  if slots.isEmpty then s else s.modLaunch li fun l => { l with reserved := l.reserved + 1, crossSlot := slots.head? }

/-- CROSS (R157, R281): the convoy is held; the last arrival completes the crossing. -/
def execCross (w : FWord) (s : State) : Host.Outcome State Fault Refusal :=
  runWord { hdr := w.hdr, legal := Legal.cross w, uni := true, switch := true } s fun f c e =>
    let l := s.launchOf c
    if !l.rec_.allResident then raise s causeORDMODE e
    else if !isCanonical l && releaseMustWait s f c 3 then .wait s
    else match reserveCrossing l s with
      | .bad cause a => memTrap s cause e a
      | .wait => .wait s
      | .ok slots =>
        let s1 := noteCrossing s c.launch slots
        let s2 := s1.modConvoy f.convoy fun c => { c with holds := c.holds ++ [{ lanes := e, pc := f.addr, kind := .cross, y := false }] }
        if crossComplete s2 c.launch then .done (closeCrossing s1 c.launch) stay else .hold s1 [(e, .cross)]

/-- The event a word names (R282). -/
def eventName (s : State) (c : Convoy) (x : Opnd) : BitVec 16 := (readU s c x).setWidth 16

/-- WAITEV (R282, R336): the lanes take hardware entries first, in ascending order. -/
def execWaitev (w : FWord) (s : State) : Host.Outcome State Fault Refusal :=
  runWord { hdr := w.hdr, legal := Legal.waitev w, reads := [(w.x, 1)], switch := true } s fun f c e =>
    let ev := eventName s c w.x
    let sc := w.scope.toNat
    if eventSet s ev.toNat then .done (acquireBound s f.convoy sc s.steps) stay
    else
      let lanes := lanesOf c.width e
      let hard := lanes.take (4096 - waitEntries s false)
      let spill := lanes.drop (4096 - waitEntries s false)
      if s.hub.waitListSize < waitEntries s true + spill.length then raise s causeEVOVF e
      else .hold s ((if hard.isEmpty then [] else [(maskOf hard, .waitev ev sc none)]) ++
        (if spill.isEmpty then [] else [(maskOf spill, .waitev ev sc (some s.steps))]))

/-- SETEV (R282): .SET is a releasing word; .CLR orders nothing. -/
def execSetev (w : FWord) (s : State) : Host.Outcome State Fault Refusal :=
  runWord { hdr := w.hdr, legal := Legal.setev w, reads := [(w.x, 1)] } s fun f c _ =>
    let ev := (eventName s c w.x).toNat
    if w.bit 0 then .done (clearEvent s ev) stay
    else if releaseMustWait s f c w.scope.toNat then .wait s
    else .done (setEvent s ev) stay

/-- A record enters a launch queue, and its id is written to an S register (R283, R332). -/
def enterQueue (s : State) (ci q dest : Nat) (record : List Byte) : State :=
  (enqueueRecord s q record).modConvoy ci fun c => c.writeS dest (BitVec.ofNat 64 s.hub.nextId)

/-- The number of an S operand. -/
def sNumber : Opnd → Nat
  | .s n => n.toNat
  | _ => 0

/-- LAUNCH (R283): it reads the record, and offers it to the queue from the next cycle on, where it enters in the order of R332 (assumption logs 27 and 44). -/
def execLaunch (w : FWord) (s : State) : Host.Outcome State Fault Refusal :=
  runWord { hdr := w.hdr, legal := Legal.launch w, reads := [(w.x, 2), (w.y, 1)], writes := [(w.d, 1)], uni := true } s fun f c e =>
    let q := readU s c w.y
    if 15 < q.toNat then raise s causeLAYOUT e
    else if !readsClear s f.convoy || (w.bit 7 && releaseMustWait s f c w.scope.toNat) then .wait s
    else match readItem s f e (baseOf c 0 w.x).toNat 128 128 false with
      | .wait => .wait s
      | .bad s1 cause m a => memTrap s1 cause m a
      | .ok s1 bs _ => .hold s1 [(e, .launch bs q.toNat (sNumber w.d) (s.clock + 1))]

/-- The LAUNCH word of a convoy that offers its record: the hold, the record, the queue and the destination. -/
def offerOf (c : Convoy) : Option (Hold × List Byte × Nat × Nat) :=
  c.holds.findSome? fun h => match h.kind with
    | .launch record q dest _ => some (h, record, q, dest)
    | _ => none

/-- Can the record of a LAUNCH word enter its queue now: it is the next of its offers, and there is room (R332)? -/
def mayEnter (s : State) (ci : Nat) : Bool :=
  match offerOf (s.convoy ci) with
  | some (_, _, q, _) => !queueFull s q && nextOffer s q == some ci
  | none => false

/-- LAUNCH_QUEUE_ENTRY (R283, R332): the record of a held LAUNCH enters its queue. -/
def enterHeld (s : State) (ci : Nat) : State :=
  match offerOf (s.convoy ci) with
  | some (h, record, q, dest) =>
    if !mayEnter s ci then s else releaseHolds (enterQueue s ci q dest record) ci fun k => k == h
  | none => s

/-- LAUNCH_QUEUE_ENTRY (R283, R332). -/
def execLaunchQueueEntry (n : Nat) (s : State) : Host.Outcome State Fault Refusal := stepTo (enterHeld s n)

end Sys2Proof.Machine
end

