-- ==== Sys2Proof/Machine/Events.lean ====
section
/-! DEFINITION. The steps that are no instruction word and need no host: issue timers, accesses at their homes, engines, launches, migration, avenues. Each names what it acts on; where nothing is due there, nothing happens. -/

namespace Sys2Proof.Machine

/-- FAIRNESS_TIMER_EXPIRY (R82, R303). -/
def execFairnessTimerExpiry (core slot : Nat) (s : State) : Host.Outcome State Fault Refusal := stepTo (startHandover s core slot)

/-- LIVELOCK (R84, R305). -/
def execLivelock (core slot : Nat) (s : State) : Host.Outcome State Fault Refusal := stepTo (raiseLivelock s core slot)

/-- Act on an access in flight. -/
def onAccess (s : State) (id : Nat) (k : Access → State) : State :=
  match findAccess s id with
  | some a => k a
  | none => s

/-- HOME_ACCESS_PERFORM (R90 to R93). -/
def execHomeAccessPerform (id : Nat) (s : State) : Host.Outcome State Fault Refusal :=
  stepTo (onAccess s id fun a => if eligible s a then performGroup s a else s)

/-- READ_RESPONSE (R91). -/
def execReadResponse (id : Nat) (s : State) : Host.Outcome State Fault Refusal := stepTo (onAccess s id (returnRead s))

/-- WRITE_ACKNOWLEDGEMENT (R95). -/
def execWriteAcknowledgement (id : Nat) (s : State) : Host.Outcome State Fault Refusal := stepTo (onAccess s id (acknowledge s))

/-- RETRY (R357). -/
def execRetry (id : Nat) (s : State) : Host.Outcome State Fault Refusal := stepTo (onAccess s id (retryAccess s))

/-- Has an access waited 2^24 cycles for a path to its peer (R375)? -/
def pathLost (s : State) (a : Access) : Bool := a.unperformed && !a.retrying && !paMapped s a.pa && decide (2 ^ 24 ≤ s.clock - a.waiting)

/-- A launch is terminated because a path is lost: with CAUSE ACCESS, and ERRSUM.PEERLOST is set (R375). -/
def peerLost (s : State) (li : Nat) : State := (terminateLaunch s li causeACCESS).setErr 9

/-- The access is given up (R375). -/
def losePath (s : State) (a : Access) : State :=
  if !pathLost s a then s else peerLost { s with accesses := s.accesses.filter fun b => b.id != a.id } a.launch

/-- Has a write that an engine has sent waited 2^24 cycles for a path (R375)? -/
def flightLost (s : State) (f : Flight) : Bool := !f.retrying && !paMapped s f.pa && decide (2 ^ 24 ≤ s.clock - f.waiting)

/-- Writes of a copy are given up, and chunks of a collective as a whole (R123, R375). -/
def loseCopy (s : State) (i : Nat) : State :=
  match s.copyAt i with
  | some o => if o.flight.any (flightLost s) then peerLost (s.setCopy i { o with flight := o.flight.filter fun f => !flightLost s f }) o.launch else s
  | none => s

def loseColl (s : State) (i : Nat) : State :=
  match s.collAt i with
  | some c =>
    if c.flight.any (flightLost s) then
      let lost : List Nat := (c.flight.filter (flightLost s)).map Flight.element
      peerLost (failColl (s.setColl i { c with flight := c.flight.filter fun f => !lost.contains f.element }) i) c.launch
    else s
  | none => s

/-- Has a buffered access of a CANONICAL launch, which is past its checks, waited as long (R154, R375)? -/
def bufferLost (s : State) (l : Launch) : Bool := l.buffer.any fun x => !paMapped s x.pa && decide (2 ^ 24 ≤ s.clock - x.waiting)

def loseBuffer (s : State) (li : Nat) : State := if bufferLost s (s.launch li) then peerLost s li else s

/-- Is some write of an engine, or a buffered access, to be given up? -/
def flightsLost (s : State) : Bool :=
  s.copies.any (fun o => o.flight.any (flightLost s)) || s.colls.any (fun c => c.flight.any (flightLost s)) || s.launches.any (bufferLost s)

def loseFlights (s : State) : State :=
  (List.range s.launches.length).foldl loseBuffer
    ((List.range s.colls.length).foldl loseColl ((List.range s.copies.length).foldl loseCopy s))

/-- Everything that has waited 2^24 cycles is given up before a path can return (R375). -/
def loseOverdue (s : State) : State := s.accesses.foldl losePath (loseFlights s)

/-- PEER_PATH_TIMEOUT (R375). -/
def execPeerPathTimeout (id : Nat) (s : State) : Host.Outcome State Fault Refusal := stepTo (onAccess s id (losePath s))

/-- An access of a peer module to this module's memory (R97): performed at its home here, once the avenues are in use (R362); an armed frame answers RETRY (R356). An uncorrectable error is not passed on (R321). -/
def peerAccess (s : State) (r : PeerReq) : State :=
  let n := match r.op with
    | .read n => n
    | .write bs => bs.length
    | .atom op _ _ => atomSize op
  let bad := s.memBad r.offset n
  if localSize < r.offset + n || !s.hub.ready.getLsbD 8 then s.emit (.peerReply r.peer none)
  else if armedFrame s r.offset then s.emit (.peerRetry r.peer)
  else match r.op with
    | .read n => s.emit (.peerReply r.peer (if bad then none else some (memRead s.mem r.offset n)))
    | .write bs => (s.putMem r.offset bs).emit (.peerReply r.peer (some []))
    | .atom op mmrg v =>
      if bad then s.emit (.peerReply r.peer none)
      else
        let (olds, last) := atomRun op mmrg (memRead s.mem r.offset n) [v]
        (s.putMem r.offset last).emit (.peerReply r.peer (some (olds.headD [])))

/-- PEER_REQUEST (R97). -/
def execPeerRequest (r : PeerReq) (s : State) : Host.Outcome State Fault Refusal := stepTo (peerAccess s r)

/-- COPY_END (R106, R113). -/
def execCopyEnd (op : Nat) (s : State) : Host.Outcome State Fault Refusal := stepTo (copyEndOp s op)

/-- COPY_TRANSLATION_FAULT (R114, R354). -/
def execCopyTranslationFault (op : Nat) (s : State) : Host.Outcome State Fault Refusal := stepTo (copyFaultOp s op)

/-- ENGINE_FAULT_RECORD (R354). -/
def execEngineFaultRecord (s : State) : Host.Outcome State Fault Refusal := stepTo (writeFaultRecord s)

/-- FAULT_ACTION_RESUME (R354). -/
def execFaultActionResume (op : Nat) (s : State) : Host.Outcome State Fault Refusal := stepTo (copyActOn s op 1 .moving)

/-- FAULT_ACTION_ABORT (R354). -/
def execFaultActionAbort (op : Nat) (s : State) : Host.Outcome State Fault Refusal := stepTo (copyActOn s op 2 (.ending 1))

/-- MATRIX_OPERATION_END (R118). -/
def execMatrixOperationEnd (core : Nat) (s : State) : Host.Outcome State Fault Refusal := stepTo (matEnd s core)

/-- AVENUE_CHUNK_RECEIVE (R121). -/
def execAvenueChunkReceive (c : Chunk) (s : State) : Host.Outcome State Fault Refusal := stepTo (receiveChunk s c)

/-- REDUCE_BLOCK_DISPATCH (R122). -/
def execReduceBlockDispatch (coll node : Nat) (s : State) : Host.Outcome State Fault Refusal := stepTo (dispatchReduce s coll node)

/-- COLLECTIVE_END (R124). -/
def execCollectiveEnd (coll : Nat) (s : State) : Host.Outcome State Fault Refusal := stepTo (collEnd s coll)

/-- Accesses, writes of engines and buffered accesses that lose their last path begin to wait for one (R375); collectives learn of the lost paths (R123). -/
def startWaits (old s : State) : State :=
  let gone : Nat → Bool := fun pa => paMapped old pa && !paMapped s pa
  let wait : Flight → Flight := fun f => if gone f.pa then { f with waiting := s.clock } else f
  noteLostAll { s with
    accesses := s.accesses.map fun (a : Access) => if gone a.pa then { a with waiting := s.clock } else a
    copies := s.copies.map fun (o : CopyOp) => { o with flight := o.flight.map wait }
    colls := s.colls.map fun (c : Coll) => { c with flight := c.flight.map wait }
    launches := s.launches.map fun (l : Launch) => { l with
      buffer := l.buffer.map fun (x : Buffered) => if gone x.pa then { x with waiting := s.clock } else x } }

/-- A change of the avenue paths (R375): what is overdue is given up first; what loses its last path begins to wait. -/
def changePaths (s : State) (f : Hub → Hub) : State :=
  let s1 := loseOverdue s
  startWaits s1 (s1.modHub f)

/-- PORT_DOWN (R375): the port goes down, and ERRSUM.PORT is set. -/
def execPortDown (p : Nat) (s : State) : Host.Outcome State Fault Refusal :=
  stepTo ((changePaths s fun h => { h with ports := h.ports.set p false }).setErr 5)

/-- AVENUE_PORT_UP (R375): an enabled port comes back into use (R369). -/
def execAvenuePortUp (p : Nat) (s : State) : Host.Outcome State Fault Refusal :=
  stepTo (changePaths s fun h => { h with ports := h.ports.set p (h.blob.ports.getLsbD p) })

/-- LAUNCH_ADMISSION (R337). -/
def execLaunchAdmission (q : Nat) (s : State) : Host.Outcome State Fault Refusal := stepTo (admitHead s q)

/-- BLOCK_PLACEMENT (R340). -/
def execBlockPlacement (lid : Nat) (s : State) : Host.Outcome State Fault Refusal := stepTo (placeBlock s lid)

/-- BLOCK_RELEASE (R69, R108, R340). -/
def execBlockRelease (blk : Nat) (s : State) : Host.Outcome State Fault Refusal := stepTo (releaseBlock s blk)

/-- LAUNCH_COMPLETION (R341). -/
def execLaunchCompletion (lid : Nat) (s : State) : Host.Outcome State Fault Refusal := stepTo (completeLaunch s lid)

end Sys2Proof.Machine
end

