-- ==== Sys2Proof/Machine/Windows.lean ====
section
/-! DEFINITION. What the host reaches in the control window and the memory window (R333, R347, R353, R356, R359 to R361, R364, R365). -/

namespace Sys2Proof.Machine

/-- ERRSUM bits that a write of 1 clears (R364). -/
def errClearable : W64 := 0xFAA

/-- The fields of registers (R347, R353, R356). -/
def rootTable : W64 := 0x3FFFFFFE0000
def fqBaseBits : W64 := 0x3FFFFFFFF000
def fqCtlBits : W64 := 0x3FFFF000F

/-- A queue register by its offset in the block (R333). -/
def queueRead (q : Queue) (r : Nat) : W64 :=
  match r with
  | 0x00 => q.rbase
  | 0x08 => q.qctl
  | 0x10 => q.tail
  | 0x18 => q.head
  | _ => 0

/-- A register of a migration slot (R356). -/
def migrationRead (m : Migration) (r : Nat) : W64 :=
  match r with
  | 0x00 => m.msrc
  | 0x08 => m.mdst
  | 0x10 => m.mctl
  | _ => 0

/-- What an aligned 8-byte read of the control window gives (R361): an offset that no rule assigns reads 0. -/
def controlRead (s : State) (off : Nat) : W64 :=
  let h := s.hub
  if off == 0x0000 then 0x00010100
  else if off == 0x0008 then Sys2Proof.Config.serial
  else if off == 0x0010 then h.ready
  else if off == 0x0020 then h.errsum
  else if off == 0x0028 then h.mwbase
  else if off == 0x0030 then h.ckstat
  else if 0x0108 ≤ off && off ≤ 0x0130 then h.mbarg.getD ((off - 0x0108) / 8) 0
  else if off == 0x0138 then h.mbstat ||| (if h.mbcmd.isSome then 0x1000000 else 0)
  else if 0x1000 ≤ off && off < 0x1400 then queueRead (s.queue ((off - 0x1000) / 0x40)) ((off - 0x1000) % 0x40)
  else if 0x1400 ≤ off && off < 0x1510 then (if off % 0x10 == 0 then h.roots.getD ((off - 0x1400) / 0x10) 0 else 0)
  else if off == 0x1600 then h.fqbase
  else if off == 0x1608 then h.fqctl
  else if 0x1800 ≤ off && off < 0x1880 then migrationRead (h.migrations.getD ((off - 0x1800) / 0x20) Migration.reset) ((off - 0x1800) % 0x20)
  else 0

/-- QCTL's legal ring size (R333). -/
def ringSize (v : W64) : Option Nat := if 4 ≤ v.toNat % 16 ∧ v.toNat % 16 ≤ 12 then some (2 ^ (v.toNat % 16)) else none

/-- TAIL − HEAD modulo 2^32 (R333). -/
def ringAhead (q : Queue) : Nat := (q.tail.toNat + 2 ^ 32 - q.head.toNat) % 2 ^ 32

/-- A doorbell (R333): a difference beyond 2^RSIZE, whatever RSIZE holds, sets ERR and clears EN, and the hub reads nothing until TAIL has been written again. -/
def writeTail (s : State) (q : Nat) (v : W64) : State :=
  s.modQueue q fun x =>
    let x1 := { x with tail := (v.setWidth 32).setWidth 64, stale := false }
    if 2 ^ (x.qctl.toNat % 16) < ringAhead x1 then { x1 with qctl := (x1.qctl ||| 0x200) &&& ~~~ 0x100#64, stale := true } else x1

/-- A write to QCTL (R333): ERR is cleared by a 1; RSIZE and QPRIO are taken only while EN is clear. -/
def writeQctl (s : State) (q : Nat) (v : W64) : State :=
  s.modQueue q fun x =>
    let shape := if x.qctl.getLsbD 8 then x.qctl &&& 0xC0F else v &&& 0xC0F
    { x with qctl := shape ||| (v &&& 0x100) ||| (x.qctl &&& ~~~ v &&& 0x200) }

/-- A write to RBASE (R333): a multiple of 4,096, taken only while EN is clear. -/
def writeRbase (s : State) (q : Nat) (v : W64) : State :=
  s.modQueue q fun x => if x.qctl.getLsbD 8 then x else { x with rbase := v &&& ~~~ 0xFFF#64 }

/-- A write to ROOT (R347): TABLE is taken only while EN is clear. -/
def writeRoot (s : State) (ctx : Nat) (v : W64) : State :=
  s.modHub fun h =>
    let old := h.roots.getD ctx 0
    { h with roots := h.roots.set ctx ((if old.getLsbD 0 then old &&& rootTable else v &&& rootTable) ||| (v &&& 1)) }

/-- A migration slot. -/
def State.migration (s : State) (i : Nat) : Migration := s.hub.migrations.getD i Migration.reset

/-- The bytes of the frame of a migration slot. -/
def frameSize (mctl : W64) : Nat := if mctl.getLsbD 1 then 2 ^ 21 else 2 ^ 16

def setMigration (s : State) (i : Nat) (m : Migration) : State := s.modHub fun h => { h with migrations := h.migrations.set i m }

/-- A write to MCTL (R356): setting ARM takes the frame as it stands, clearing it clears DONE and ERR, and SIZE changes only while ARM is clear. -/
def writeMctl (s : State) (i : Nat) (v : W64) : State :=
  let m := s.migration i
  if m.mctl.getLsbD 0 then (if v.getLsbD 0 then s else setMigration s i { m with mctl := m.mctl &&& 2, frame := [] })
  else if v.getLsbD 0 then setMigration s i { m with mctl := v &&& 3, frame := memRead s.mem m.msrc.toNat (frameSize v) }
  else setMigration s i { m with mctl := v &&& 2 }

/-- A write to MSRC or MDST (R356), taken only while ARM is clear. -/
def writeFrame (s : State) (i : Nat) (dst : Bool) (v : W64) : State :=
  let m := s.migration i
  if m.mctl.getLsbD 0 then s else setMigration s i (if dst then { m with mdst := v } else { m with msrc := v })

/-- A write to MBCMD (R365): it starts a command, or is discarded and sets MBOVR. -/
def writeMbcmd (s : State) (v : W64) : State :=
  if s.hub.mbcmd.isSome then s.setErr 8
  else s.modHub fun h => { h with mbcmd := some (v.extractLsb' 16 8, v.extractLsb' 0 16) }

/-- Write an aligned 8-byte register; `half` is the mask of the bits that are written. -/
def controlWrite8 (s : State) (off : Nat) (half v : W64) : State :=
  let merged := (controlRead s off &&& ~~~ half) ||| (v &&& half)
  let low := half.getLsbD 0
  if off == 0x0020 then s.modHub fun h => { h with errsum := h.errsum &&& ~~~ (v &&& half &&& errClearable) }
  else if off == 0x0028 then s.modHub fun h => { h with mwbase := BitVec.ofNat 64 (merged.toNat / h.window * h.window) }
  else if off == 0x0100 then (if low then writeMbcmd s v else s)
  else if 0x0108 ≤ off && off ≤ 0x0130 then s.modHub fun h => { h with mbarg := h.mbarg.set ((off - 0x0108) / 8) merged }
  else if 0x1000 ≤ off && off < 0x1400 then
    (let q := (off - 0x1000) / 0x40
     match (off - 0x1000) % 0x40 with
     | 0x00 => writeRbase s q merged
     | 0x08 => if low then writeQctl s q v else s
     | 0x10 => if low then writeTail s q v else s
     | _ => s)
  else if 0x1400 ≤ off && off < 0x1510 then (if off % 0x10 == 0 then writeRoot s ((off - 0x1400) / 0x10) merged else s)
  else if off == 0x1600 then s.modHub fun h => { h with fqbase := merged &&& fqBaseBits }
  else if off == 0x1608 then s.modHub fun h => { h with fqctl := merged &&& fqCtlBits }
  else if 0x1800 ≤ off && off < 0x1880 then
    (let i := (off - 0x1800) / 0x20
     match (off - 0x1800) % 0x20 with
     | 0x00 => writeFrame s i false merged
     | 0x08 => writeFrame s i true merged
     | 0x10 => if low then writeMctl s i v else s
     | _ => s)
  else s

/-- Is the control window usable (R362, R363)? -/
def windowUp (s : State) : Bool := s.hub.ready.getLsbD 0

/-- Is a control-window access of legal size and alignment, and within the 64 MiB of BAR0 (R359, R361)? -/
def controlFits (off size : Nat) : Bool := (size == 4 || size == 8) && off % size == 0 && decide (off < 2 ^ 26)

/-- A write of 4 or 8 bytes to the control window; any other is an Unsupported Request (R361). Before READY.CFG it has no effect (R362). -/
def controlWrite (s : State) (off size : Nat) (v : W64) : State :=
  if !controlFits off size then s.emit (.registerReply none)
  else if !windowUp s then s
  else if size == 8 then controlWrite8 s off (BitVec.allOnes 64) v
  else if off % 8 == 0 then controlWrite8 s off 0xFFFFFFFF v
  else controlWrite8 s (off - 4) 0xFFFFFFFF00000000 (v <<< 32)

/-- A read of 4 or 8 bytes of the control window (R361). Any other, and one before READY.CFG (R362), is an Unsupported Request. -/
def registerRead (s : State) (off size : Nat) : State :=
  if !controlFits off size || !windowUp s then s.emit (.registerReply none)
  else if size == 8 then s.emit (.registerReply (some (controlRead s off)))
  else s.emit (.registerReply (some (((controlRead s (off / 8 * 8)) >>> (8 * (off % 8))).setWidth 32 |>.setWidth 64)))

/-- A new size of the memory window through the Resizable BAR capability (R359): a power of two from 256 MiB to 256 GiB, and no more than the configuration allows (R369). MWBASE stays a multiple of the size (R361). -/
def resizeWindow (s : State) (n : Nat) : State :=
  if !windowUp s || n < 28 || 38 < n || s.hub.blob.window < 2 ^ n then s
  else s.modHub fun h => { h with window := 2 ^ n, mwbase := BitVec.ofNat 64 (h.mwbase.toNat / 2 ^ n * 2 ^ n) }

/-- CONTROL_REGISTER_WRITE (R361). -/
def execControlRegisterWrite (off size : Nat) (v : BitVec 64) (s : State) : Host.Outcome State Fault Refusal :=
  stepTo (controlWrite s off size v)

/-- TAIL (R333). -/
def execTail (q : Nat) (v : BitVec 64) (s : State) : Host.Outcome State Fault Refusal := stepTo (if windowUp s then writeTail s q v else s)

/-- QCTL (R333). -/
def execQctl (q : Nat) (v : BitVec 64) (s : State) : Host.Outcome State Fault Refusal := stepTo (if windowUp s then writeQctl s q v else s)

/-- MIGRATION_ARM (R356): a write to MCTL with ARM set. -/
def execMigrationArm (i : Nat) (v : BitVec 64) (s : State) : Host.Outcome State Fault Refusal :=
  stepTo (if windowUp s then writeMctl s i (v ||| 1) else s)

/-- MIGRATION_DISARM (R356): a write to MCTL with ARM clear. -/
def execMigrationDisarm (i : Nat) (v : BitVec 64) (s : State) : Host.Outcome State Fault Refusal :=
  stepTo (if windowUp s then writeMctl s i (v &&& ~~~ 1#64) else s)

/-- Can the copy of an armed slot be done now (R356)? Device memory is in use (R362), and the new frame is not itself armed. -/
def migrating (s : State) (i : Nat) : Bool :=
  let m := s.migration i
  s.hub.ready.getLsbD 6 && m.mctl.getLsbD 0 && !m.mctl.getLsbD 2 && !m.mctl.getLsbD 3 && !armedRange s m.mdst.toNat (frameSize m.mctl)

/-- What stands beside the bytes of a frame goes with them: line sequences and positions (R136, R137), and the snapshots of CANONICAL launches (R154). No L1 keeps an older line of the new frame. -/
def moveFrame (s : State) (src dst n : Nat) : State :=
  let moved : Nat → List (Nat × Nat) → List (Nat × Nat) := fun unit l =>
    ((l.filter fun p => rangesMeet (unit * p.1) unit src n).map fun p => (p.1 + dst / unit - src / unit, p.2)) ++
      l.filter fun p => !rangesMeet (unit * p.1) unit dst n
  { s with
    launches := s.launches.map fun (l : Launch) => { l with
      lineSeq := moved 128 l.lineSeq, positions := moved 1 l.positions
      snapshot := if isCanonical l && !l.completed then memWrite l.snapshot dst (memRead l.snapshot src n) else l.snapshot }
    cores := s.cores.map fun (c : Core) => { c with l1 := c.l1.filter fun x => !rangesMeet (128 * x.line) 128 dst n } }

/-- The frame as it stood when ARM was set goes into the new frame, or an uncorrectable error stops the copy; so does a frame that is not local or not aligned (R356). -/
def finishMigration (s : State) (i : Nat) : State :=
  if !migrating s i then s
  else
    let m := s.migration i
    let n := frameSize m.mctl
    let src := m.msrc.toNat
    let dst := m.mdst.toNat
    let fits : Nat → Bool := fun a => a % n == 0 && decide (a + n ≤ localSize)
    if !fits src || !fits dst || s.memBad src n then
      setMigration s i { m with mctl := m.mctl ||| 8, frame := [] }
    else
      setMigration (moveFrame (s.putMem dst m.frame) src dst n) i { m with mctl := m.mctl ||| 4, frame := [] }

/-- MIGRATION_COPY_DONE (R356). -/
def execMigrationCopyDone (i : Nat) (s : State) : Host.Outcome State Fault Refusal := stepTo (finishMigration s i)

/-- How a memory-window access ends: an address, an Unsupported Request, a window that is not usable yet, or an armed frame that answers RETRY. -/
inductive WindowRes where
  | at_ (a : Nat)
  | unsupported
  | early
  | retry
  deriving DecidableEq, Repr

/-- The local address of an access of the memory window (R356, R360, R363). -/
def windowAt (s : State) (off n : Nat) : WindowRes :=
  let a := s.hub.mwbase.toNat + off
  if !s.hub.ready.getLsbD 6 then .early
  else if s.hub.window < off + n || localSize < a + n then .unsupported
  else if armedFrame s a || armedFrame s (a + n - 1) then .retry
  else .at_ a

/-- An Unsupported Request. -/
def refuseWindow (s : State) : State := s.emit (.windowReply none)

/-- A read through the memory window (R360): it is answered at the home; an uncorrectable error is not passed on as data (R321). One to an armed frame is not performed, and stays first on its link (R357, assumption log 35). -/
def windowRead (s : State) (off n : Nat) : State :=
  match windowAt s off n with
  | .early => (refuseWindow s).setErr 7
  | .unsupported => refuseWindow s
  | .retry => s
  | .at_ a =>
    if s.memBad a n then refuseWindow s
    else s.emit (.windowReply (some (memRead s.mem a n)))

/-- A write through the memory window (R360). -/
def windowWrite (s : State) (off : Nat) (bs : List Byte) : State :=
  match windowAt s off bs.length with
  | .early => (refuseWindow s).setErr 7
  | .unsupported => refuseWindow s
  | .retry => s
  | .at_ a => s.putMem a bs

/-- MEMORY_WINDOW_READ (R360). -/
def execMemoryWindowRead (off size : Nat) (s : State) : Host.Outcome State Fault Refusal := stepTo (windowRead s off size)

/-- MEMORY_WINDOW_WRITE (R360). -/
def execMemoryWindowWrite (off : Nat) (bytes : List (BitVec 8)) (s : State) : Host.Outcome State Fault Refusal := stepTo (windowWrite s off bytes)

/-- Must a host access wait at the head of its link, because it goes to an armed frame (R356, R357)? -/
def hostWaits (s : State) : Instr → Bool
  | .memoryWindowRead off n => windowAt s off n == .retry
  | .memoryWindowWrite off bs => windowAt s off bs.length == .retry
  | _ => false

/-- May the hub copy a ring record into a FIFO (R333, R363)? TAIL has been rewritten after an error, a LAUNCH word's record does not come first (R332), and the read of host memory follows the posted writes (R99). -/
def ringReady (s : State) (q : Nat) : Bool :=
  let x := s.queue q
  s.hub.ready.getLsbD 7 && x.qctl.getLsbD 8 && !x.qctl.getLsbD 9 && !x.stale && !queueFull s q && (nextOffer s q).isNone &&
  s.hub.posted.isEmpty &&
  (match ringSize x.qctl with
   | some n => decide (1 ≤ ringAhead x) && decide (ringAhead x ≤ n)
   | none => false)

/-- Record HEAD of the ring enters the FIFO, and HEAD advances (R332, R333). -/
def fetchRecord (s : State) (q : Nat) : State :=
  if !ringReady s q then s
  else
    let x := s.queue q
    let n := (ringSize x.qctl).getD 1
    let bs := memRead s.mem (hostPa (x.rbase.toNat + 128 * (x.head.toNat % n))) 128
    enqueueRecord (s.modQueue q fun x => { x with head := BitVec.ofNat 64 ((x.head.toNat + 1) % 2 ^ 32) }) q bs

/-- RING_RECORD_FETCH (R332, R333). -/
def execRingRecordFetch (q : Nat) (s : State) : Host.Outcome State Fault Refusal := stepTo (fetchRecord s q)

end Sys2Proof.Machine
end

