-- ==== Sys2Proof/Machine/Start.lean ====
section
/-! DEFINITION. Staged start, measured boot, power, heat and links (R320, R362 to R364, R368, R369, R376). -/

namespace Sys2Proof.Machine

/-- READY bits (R362). -/
def readyCFG : Nat := 0
def readyPROT : Nat := 1
def readySUMM : Nat := 2
def readyATTR : Nat := 3
def readyFIRM : Nat := 4
def readyLINK : Nat := 5
def readyMEM : Nat := 6
def readyCORE : Nat := 7
def readyAVE : Nat := 8

def isReady (s : State) (b : Nat) : Bool := s.hub.ready.getLsbD b
def setReady (s : State) (b : Nat) : State := s.modHub fun h => { h with ready := h.ready ||| (1#64 <<< b) }

/-- Has a start stage failed (R363)? -/
def startFailed (s : State) : Bool := s.hub.ready.extractLsb' 24 8 != 0

/-- A stage fails: FAILSTAGE and FAILCODE are written, and ERRSUM.STAGE is set (R362 to R364). -/
def failStage (s : State) (stage : Nat) (code : Byte) : State :=
  (s.modHub fun h => { h with ready := h.ready ||| BitVec.ofNat 64 (stage * 2 ^ 24 + code.toNat * 2 ^ 16) }).setErr 10

/-- The deadlines of stages A to D in cycles at 700 MHz, by READY bit and FAILSTAGE (R362, R363). -/
def deadlines : List (Nat × Nat × Nat) :=
  [(readyCFG, 1, 35000000), (readyFIRM, 1, 84000000), (readyLINK, 2, 210000000), (readyMEM, 3, 840000000), (readyCORE, 4, 1120000000)]

/-- The stage that has missed its deadline: one of A to D, from power-good, or E, 500 ms after DOMSET where some port is trained (R363). -/
def missedStage (s : State) : Option Nat :=
  if startFailed s || !s.hub.powered then none
  else match deadlines.find? fun d => !isReady s d.1 with
    | some d => if s.hub.goodAt + d.2.2 ≤ s.clock then some d.2.1 else none
    | none => match s.hub.domsetAt with
      | some t => if !isReady s readyAVE && s.hub.ports.any id && decide (t + 350000000 ≤ s.clock) then some 5 else none
      | none => none

/-- May a stage be done now: the stage before it is done, it is not, none has failed, and its deadline has not passed (R363)? -/
def stageDue (s : State) (before mine : Nat) : Bool :=
  s.hub.powered && isReady s before && !isReady s mine && !startFailed s && (missedStage s).isNone

/-- A stage that is due fails with a code, or has its effect and sets its bit (R363). -/
def runStage (s : State) (stage before mine : Nat) (fail : Byte) (effect : State → State) : State :=
  if !stageDue s before mine then s else if fail != 0 then failStage s stage fail else setReady (effect s) mine

/-- Measure an image: one entry of the log (R368, R370). -/
def measure (s : State) (kind slot : Nat) (image : List Byte) : State :=
  s.modHub fun h => { h with log := h.log ++ [{ kind := kind, version := Sys2Proof.Config.imageVersion image, length := image.length,
                                                slot := slot, digest := sha3_256 image }] }

/-- The supply is good: the deadlines count from now, and the start uses the flash as it stands (R363, R366). -/
def supplyGood (s : State) : State :=
  if s.hub.powered then s
  else s.modHub fun h => { h with powered := true, goodAt := s.clock, bootFlash := h.flash, bootSlot := h.activeSlot }

/-- POWER_GOOD (R363, R368): the boot ROM's stage A, which measures the ROM's own image. -/
def startRom (s : State) : State :=
  let s1 := supplyGood s
  if isReady s1 readyCFG || startFailed s1 || (missedStage s1).isSome then s1
  else [readyCFG, readyPROT, readySUMM, readyATTR].foldl setReady (measure s1 1 0 Sys2Proof.Config.romImage)

def execPowerGood (s : State) : Host.Outcome State Fault Refusal := stepTo (startRom s)

/-- A flash slot as power-good found it (R366). -/
def bootImage (h : Hub) (slot : Nat) : FlashSlot := h.bootFlash.getD slot FlashSlot.default

/-- Measure and check the two images of a flash slot (R368). -/
def tryFlash (s : State) (slot : Nat) : State × Bool :=
  let f := bootImage s.hub slot
  (measure (measure s 2 slot f.blob) 3 slot f.firmware, f.genuine)

/-- The firmware of a slot runs, under the slot's configuration blob (R368, R369). -/
def runFirmware (s : State) (slot : Nat) : State :=
  let b := (bootImage s.hub slot).config
  setReady (s.modHub fun h => { h with bootSlot := slot, blob := b, cap := b.cap, window := min h.window b.window }) readyFIRM

/-- FIRMWARE_MEASURE (R368): the slot that was active at power-good, or else the other one. -/
def measureFirmware (s : State) : State :=
  if !stageDue s readyCFG readyFIRM then s
  else
    let a := s.hub.bootSlot
    let (s1, ok) := tryFlash s a
    if ok then runFirmware s1 a
    else
      let (s2, ok2) := tryFlash s1 (1 - a)
      if ok2 then runFirmware s2 (1 - a) else failStage s2 1 1

def execFirmwareMeasure (s : State) : Host.Outcome State Fault Refusal := stepTo (measureFirmware s)

/-- The microcode image that the firmware loads into the hub next (R368). -/
def nextMicrocode (s : State) : Option (List Byte) :=
  if isReady s readyFIRM then (Sys2Proof.Config.imageMicrocode (bootImage s.hub s.hub.bootSlot).firmware)[s.hub.loaded]? else none

/-- The firmware measures a microcode image before it loads it into the hub (R368). -/
def loadMicrocode (s : State) : State :=
  match nextMicrocode s with
  | some image => (measure s 4 s.hub.bootSlot image).modHub fun h => { h with loaded := h.loaded + 1 }
  | none => s

/-- STAGE_B (R363): both host links come to full speed. -/
def execStageB (fail : BitVec 8) (s : State) : Host.Outcome State Fault Refusal :=
  stepTo (runStage s 2 readyFIRM readyLINK fail id)

/-- Device memory is trained and cleared to zero (R363). -/
def clearMemory (s : State) : State :=
  { s with mem := s.mem.filter fun p => !paIsLocal p.1, memErrs := [] }

/-- STAGE_C (R363). -/
def execStageC (fail : BitVec 8) (s : State) : Host.Outcome State Fault Refusal := stepTo (runStage s 3 readyLINK readyMEM fail clearMemory)

/-- A core after stage D: enabled by the blob, its core CSRs written, its caches clear (R363, R369). -/
def coreAtStart (b : Blob) (n : Nat) (c : Core) : Core :=
  { c with enabled := b.cores.getLsbD n, tvec := vecBits b.tvec, wdctl := b.wdctl &&& 1, perfen := b.perfen &&& 0xFF,
           l1 := [], tlb := [] }

/-- Core CSRs are written, squares and TLBs cleared (R363). -/
def startCores (s : State) : State :=
  { s with
    cores := (indexed s.cores).map fun p => coreAtStart s.hub.blob p.1 p.2
    squares := []
    dieTlbs := s.dieTlbs.map fun _ => [] }

/-- STAGE_D (R363). -/
def execStageD (fail : BitVec 8) (s : State) : Host.Outcome State Fault Refusal := stepTo (runStage s 4 readyMEM readyCORE fail startCores)

/-- STAGE_E (R363): after DOMSET; a module with no trained port leaves AVE clear without failing. -/
def stageE (s : State) (fail : Byte) : State :=
  if s.hub.domsetAt.isNone then s
  else if fail == 0 && !s.hub.ports.any id then s
  else runStage s 5 readyCORE readyAVE fail id

def execStageE (fail : BitVec 8) (s : State) : Host.Outcome State Fault Refusal := stepTo (stageE s fail)

/-- STAGE_DEADLINE_EXPIRY (R363): the stage fails with FAILCODE 0x02. -/
def missDeadline (s : State) : State :=
  match missedStage s with
  | some n => failStage s n 2
  | none => s

def execStageDeadlineExpiry (s : State) : Host.Outcome State Fault Refusal := stepTo (missDeadline s)

/-- THERMAL_THROTTLE (R376): idle cycles change timing only; ERRSUM.THROT tells of them. -/
def execThermalThrottle (s : State) : Host.Outcome State Fault Refusal := stepTo (s.setErr 2)

/-- THERMAL_THROTTLE_END (R376). -/
def execThermalThrottleEnd (s : State) : Host.Outcome State Fault Refusal := stepTo (s.clearErr 2)

/-- THERMAL_TRIP (R376): every core and engine stops issuing. -/
def execThermalTrip (s : State) : Host.Outcome State Fault Refusal :=
  stepTo ((s.modHub fun h => { h with tripped := true }).setErr 3)

/-- POWER_CAP_ENGAGE (R376). -/
def execPowerCapEngage (s : State) : Host.Outcome State Fault Refusal := stepTo (s.setErr 4)

/-- POWER_CAP_RELEASE (R376). -/
def execPowerCapRelease (s : State) : Host.Outcome State Fault Refusal := stepTo (s.clearErr 4)

/-- LINK_DEGRADE (R364). -/
def execLinkDegrade (s : State) : Host.Outcome State Fault Refusal := stepTo (s.setErr 6)

/-- HOST_LINK_RESTORE (R364). -/
def execHostLinkRestore (s : State) : Host.Outcome State Fault Refusal := stepTo (s.clearErr 6)

/-- What the loss of the supply leaves: flash, and what lies outside the module (R376). -/
def losePower (s : State) : State :=
  { State.reset with
    mem := s.mem.filter fun p => !paIsLocal p.1
    hub := { Hub.reset with flash := s.hub.flash, activeSlot := s.hub.activeSlot, powered := false }
    outputs := s.outputs
    nextAccess := s.nextAccess
    steps := s.steps
    turn := s.turn
    links := s.links
    inputs := s.inputs
    outside := s.outside
    upsets := s.upsets }

/-- POWER_LOSS (R376). -/
def execPowerLoss (s : State) : Host.Outcome State Fault Refusal := stepTo (losePower s)

/-- Bits of a register cell flip (R63). The parity of detection mode sees an odd number of flips in a V cell; after an even number the cell holds another value, which the model leaves free (assumption log 36). -/
def strikeCell (s : State) (ci : Nat) (x : ErrCell) : State :=
  let c := s.convoy ci
  let same : ErrCell → Bool := fun y => y.reg == x.reg && y.lane == x.lane
  let total := c.errs.foldl (fun n y => if same y then n + y.bits else n) x.bits
  let rest := c.errs.filter fun y => !same y
  let kept : Convoy := { c with errs := { x with bits := total } :: rest }
  match x.reg, x.lane with
  | .v n, some l =>
    if (s.launchOf c).rec_.detection && total % 2 == 0 then
      s.setConvoy ci ({ c with errs := rest }.writeV (laneBit l) n fun _ => Config.freeCell s.steps)
    else s.setConvoy ci kept
  | _, _ => s.setConvoy ci kept

/-- One more on an error counter of the module; an uncorrectable error, in a square or in device memory, also sets ERRSUM.UNCORR (R364, R367). -/
def countError (s : State) (n : Nat) : State :=
  let s1 := s.modHub fun h => { h with counters := h.counters.set n (h.counters.getD n 0 + 1) }
  if n == 1 || n == 3 then s1.setErr 1 else s1

/-- A soft error strikes (R63, R64, R320, R321, R376). -/
def strike (s : State) : State :=
  match s.upsets with
  | [] => s
  | u :: r =>
    let s1 := { s with upsets := r }
    match u with
    | .cell ci x => if x.bits == 0 then s1 else strikeCell s1 ci x
    | .store bi second off => modLs s1 bi second fun l => { l with errs := off :: l.errs }
    | .tile core n => s1.modCore core fun c => c.setTile n { c.tile n with bad := true }
    | .memory pa => if paIsLocal pa then countError { s1 with memErrs := pa / 32 :: s1.memErrs } 3 else s1
    | .corrected core => s1.modCore core fun c => { c with secnt := secntAdd c.secnt 32 1 }
    | .counted n => countError s1 n

end Sys2Proof.Machine
end

