-- ==== Sys2Proof/Machine/Mailbox.lean ====
section
/-! DEFINITION. The command mailbox (R365, R366) with its commands but for those of checkpoints and of pre-emption: SUMMARY, attestation, events, termination, communicators, the domain, power and flash. -/

namespace Sys2Proof.Machine

/-- How a command goes: it completes with a status and a result, or goes on. -/
inductive CmdRes where
  | ends (s : State) (status result : Nat)
  | goesOn (s : State)

def cmdDone (s : State) : CmdRes := .ends s 0 0
def badArgument (s : State) : CmdRes := .ends s 2 0
def notReady (s : State) : CmdRes := .ends s 3 0
def conflict (s : State) : CmdRes := .ends s 4 0
def cmdFails (s : State) : CmdRes := .ends s 5 0

/-- At completion RESULT, STATUS and SEQ are written, BUSY clears, and MSI-X vector 0 is raised (R365). -/
def finishCommand (s : State) (seq : BitVec 16) (status result : Nat) : State :=
  (s.modHub fun h => { h with
    mbstat := BitVec.ofNat 64 (result % 2 ^ 32 * 2 ^ 32 + status * 2 ^ 16 + seq.toNat), mbcmd := none, attesting := none }).emit (.msix 0)

/-- The command that the mailbox holds is performed, if the READY bit it needs is set (R363, R365, R366). -/
def runCommand (s : State) (code : Byte) (seq : BitVec 16) (need : Nat) (body : State → CmdRes) : Host.Outcome State Fault Refusal :=
  stepTo (if s.hub.mbcmd != some (code, seq) || s.hub.attesting.isSome then s
    else match (if isReady s need then body s else notReady s) with
      | .ends s1 status result => finishCommand s1 seq status result
      | .goesOn s1 => s1)

/-- An argument register. -/
def mbarg (s : State) (i : Nat) : Nat := (s.hub.mbarg.getD i 0).toNat

/-- Is a host buffer addressable, and aligned (R346, R366)? -/
def hostFits (a align n : Nat) : Bool := a % align == 0 && decide (a + n ≤ 2 ^ 44)

/-- Read and write host memory for a command. -/
def hostRead (s : State) (a n : Nat) : List Byte := memRead s.mem (hostPa a) n
def hostWrite (s : State) (a : Nat) (bs : List Byte) : State := s.putMem (hostPa a) bs

/-! ### SUMMARY (R367) -/

def padBytes (n : Nat) (bs : List Byte) : List Byte := bs.take n ++ List.replicate (n - bs.length) 0

def summaryQueue (q : Queue) : List Byte :=
  leBytes 4 q.head.toNat ++ leBytes 4 q.tail.toNat ++ leBytes 2 q.fifo.length ++
    leBytes 1 (match q.fifo with
      | h :: _ => if h.eligible then 0 else 1
      | [] => 0) ++ leBytes 1 (q.qctl.toNat / 256 % 16) ++ leBytes 4 0

/-- The running launches: admitted and not complete, by ascending id. -/
def runningLaunches (s : State) : List (Nat × Launch) :=
  ((indexed s.launches).filter fun p => !p.2.completed).foldr (fun x acc =>
    (acc.filter fun y => decide (y.2.id < x.2.id)) ++ [x] ++ acc.filter fun y => !decide (y.2.id < x.2.id)) []

def launchState (l : Launch) : Nat :=
  if l.terminated.isSome then 4 else if l.nextBlock == 0 then 1 else if l.nextBlock < l.rec_.grid then 2 else 3

def summaryLaunch (s : State) (p : Nat × Launch) : List Byte :=
  let l := p.2
  let itState := if l.rec_.itin == 0 then 0 else match deviceNat s l.queue (l.rec_.itin + 7) 1 with
    | .inr v => v
    | .inl _ => 0
  leBytes 8 l.id ++ leBytes 1 l.queue ++ leBytes 1 (modeWord l).toNat ++ leBytes 1 (launchState l) ++ leBytes 1 itState ++
    leBytes 4 l.endedBlocks ++ leBytes 4 (s.blocks.filter fun b => b.launch == p.1 && b.state == .saved).length ++
    leBytes 8 l.rec_.itin ++ leBytes 4 0

/-- The handle of a convoy (R329). -/
def handleOf (c : Convoy) : Nat := c.pos + 256 * c.slot

def summaryParked (c : Convoy) : List Byte :=
  leBytes 1 c.core ++ leBytes 2 (handleOf c) ++ leBytes 1 c.trap.cause.toNat ++ leBytes 4 0 ++ leBytes 8 c.trap.pc.toNat

/-- An entry of the measurement log (R370); the signer's key digest stands for the first 16 bytes of its SHA3-256. -/
def logBytes (e : LogEntry) : List Byte :=
  leBytes 4 e.kind ++ leBytes 4 e.version ++ leBytes 4 e.length ++ leBytes 4 e.slot ++ padBytes 32 e.digest ++
    padBytes 16 (Sys2Proof.Config.signerKeyDigest e.kind)

/-- The 4,096 bytes of a summary. -/
def summaryBytes (s : State) : List Byte :=
  let h := s.hub
  let run := runningLaunches s
  let parked := s.convoys.filter fun c => c.parked && !c.ended
  padBytes 0x140 (padBytes 0x40 (leBytes 4 0x4D4D5553 ++ leBytes 4 1 ++ leBytes 8 h.ready.toNat ++ leBytes 8 h.errsum.toNat ++
    leBytes 8 h.ckstat.toNat ++ leBytes 8 s.clock ++ leBytes 8 h.nextId) ++ h.queues.flatMap summaryQueue) ++
  padBytes 0x40 (h.counters.flatMap fun v => leBytes 8 v.toNat) ++
  padBytes 0x20 (sha3_256 (h.log.flatMap logBytes)) ++
  padBytes 0x60 (leBytes 1 h.activeSlot) ++
  padBytes 0x700 ((run.take 56).flatMap (summaryLaunch s)) ++
  padBytes 0x10 (leBytes 4 run.length) ++
  padBytes 0x6F0 ((parked.take 32).flatMap summaryParked)

/-- SUMMARY (R366, R367). -/
def execSummary (seq : BitVec 16) (s : State) : Host.Outcome State Fault Refusal :=
  runCommand s 0x01 seq readySUMM fun s =>
    if hostFits (mbarg s 0) 4096 4096 then cmdDone (hostWrite s (mbarg s 0) (summaryBytes s)) else badArgument s

/-! ### Attestation (R370) -/

/-- The response of this module to a nonce. -/
def attestBytes (s : State) (nonce : List Byte) : List Byte :=
  let m := s.hub.log.length
  let body := padBytes 0x80 (leBytes 4 0x54415441 ++ leBytes 4 1 ++ leBytes 4 m ++ leBytes 4 (0x80 + 64 * m) ++ padBytes 32 nonce ++
    leBytes 8 Sys2Proof.Config.serial.toNat ++ leBytes 8 s.hub.ready.toNat) ++ s.hub.log.flatMap logBytes
  body ++ padBytes 2420 (Sys2Proof.Config.identitySignature body) ++ Sys2Proof.Config.identityKeyAndCertificate

/-- The response goes into the host buffer; RESULT is its length. -/
def answerAttest (s : State) (bs : List Byte) : CmdRes := .ends (hostWrite s (mbarg s 0) bs) 0 bs.length

/-- ATTEST (R366, R370): for this module, or, with AVE set, by asking a peer. -/
def execAttest (seq : BitVec 16) (s : State) : Host.Outcome State Fault Refusal :=
  runCommand s 0x02 seq readyATTR fun s =>
    let who := mbarg s 1
    let nonce := hostRead s (mbarg s 0) 32
    if !hostFits (mbarg s 0) 1 32 then badArgument s
    else if who == 0xFF then answerAttest s (attestBytes s nonce)
    else if 63 < who then badArgument s
    else if !isReady s readyAVE then notReady s
    else if !peerReachable s.hub who then cmdFails s
    else .goesOn ((s.modHub fun h => { h with attesting := some seq }).emit (.attestRequest who nonce))

/-- A peer's response, or none where the peer has not set AVE (R370). -/
def peerAnswer (s : State) (bs : List Byte) : State :=
  match s.hub.attesting with
  | none => s
  | some seq => match (if bs.isEmpty then cmdFails s else answerAttest s bs) with
    | .ends s1 status result => finishCommand s1 seq status result
    | .goesOn s1 => s1

/-- PEER_ATTEST_RESPONSE (R370). -/
def execPeerAttestResponse (bytes : List (BitVec 8)) (s : State) : Host.Outcome State Fault Refusal := stepTo (peerAnswer s bytes)

/-- PEER_ATTEST_REQUEST (R370): this module signs and returns its response, or none while AVE is clear. -/
def execPeerAttestRequest (peer : Nat) (nonce : List (BitVec 8)) (s : State) : Host.Outcome State Fault Refusal :=
  stepTo (s.emit (.attestResponse peer (if isReady s readyAVE then attestBytes s nonce else [])))

/-! ### Events, termination and parked convoys -/

/-- EVSET (R336, R366). -/
def execEvset (seq : BitVec 16) (s : State) : Host.Outcome State Fault Refusal :=
  runCommand s 0x05 seq readyCORE fun s => cmdDone (setEvent s (mbarg s 0 % 65536))

/-- EVCLR (R336, R366). -/
def execEvclr (seq : BitVec 16) (s : State) : Host.Outcome State Fault Refusal :=
  runCommand s 0x06 seq readyCORE fun s => cmdDone (clearEvent s (mbarg s 0 % 65536))

/-- A launch that is running: admitted, neither complete nor terminated. -/
def findLaunch (s : State) (id : Nat) : Option Nat :=
  (List.range s.launches.length).find? fun li => (s.launch li).id == id && !(s.launch li).completed && (s.launch li).terminated.isNone

/-- KILL (R319, R345, R366). -/
def execKill (seq : BitVec 16) (s : State) : Host.Outcome State Fault Refusal :=
  runCommand s 0x07 seq readyCORE fun s => match findLaunch s (mbarg s 0) with
    | some li => cmdDone (terminateLaunch s li 0)
    | none => conflict s

/-- The parked convoy that a PARKCTL names: core in [7:0], handle in [20:8] (R329, R366). -/
def parkedAt (s : State) : Option Nat :=
  let a := mbarg s 0
  ((s.slotAt (a % 256) (a / 2 ^ 16 % 32)).positions.getD (a / 256 % 256) none).filter fun ci =>
    (s.convoy ci).parked && !(s.convoy ci).ended

/-- PARKCTL with MBARG1 = 1 (R317, R331, R366): a double-trapped convoy is not resumed. -/
def resumeParked (s : State) : CmdRes :=
  match parkedAt s with
  | some ci => if (s.convoy ci).doubled then conflict s else cmdDone (s.modConvoy ci fun c => { c with parked := false }).noteParked
  | none => conflict s

/-- End a service block from outside: it belongs to no launch. -/
def endService (s : State) (ci : Nat) : State := (endConvoy (s.modConvoy ci fun c => { c with live := 0 }) ci).noteParked

/-- PARKCTL with MBARG1 = 2 (R319, R331, R366). -/
def terminateParked (s : State) : CmdRes :=
  match parkedAt s with
  | some ci =>
    if s.launches.length ≤ (s.convoy ci).launch then cmdDone (endService s ci)
    else cmdDone (terminateLaunch s (s.convoy ci).launch ((s.convoy ci).trap.cause.toNat % 256))
  | none => conflict s

/-- PARKCTL_RESUME (R331, R366): PARKCTL with any MBARG1 but 2; only 1 is a legal argument. -/
def execParkctlResume (seq : BitVec 16) (s : State) : Host.Outcome State Fault Refusal :=
  if mbarg s 1 == 2 then stepTo s
  else runCommand s 0x08 seq readyCORE fun s => if mbarg s 1 == 1 then resumeParked s else badArgument s

/-- PARKCTL_TERMINATE (R331, R366): PARKCTL with MBARG1 = 2. -/
def execParkctlTerminate (seq : BitVec 16) (s : State) : Host.Outcome State Fault Refusal :=
  if mbarg s 1 == 2 then runCommand s 0x08 seq readyCORE terminateParked else stepTo s

/-! ### Communicators, service program, wait list, domain -/

/-- Has a communicator slot collectives in flight? -/
def commBusy (s : State) (slot : Nat) : Bool := s.colls.any fun c => c.slot == slot && !c.ended

/-- COMMSET (R119, R366). -/
def execCommset (seq : BitVec 16) (s : State) : Host.Outcome State Fault Refusal :=
  runCommand s 0x09 seq readyCORE fun s =>
    let slot := mbarg s 0
    let n := mbarg s 1
    let rank := mbarg s 2
    let modules := (hostRead s (mbarg s 4) 64).map BitVec.toNat
    if 63 < slot || n < 2 || 64 < n || n ≤ rank || !hostFits (mbarg s 4) 1 64 || (modules.take n).any (fun m => decide (63 < m)) then badArgument s
    else if commBusy s slot then conflict s
    else cmdDone (s.modHub fun h => { h with comms := h.comms.set slot (some
      { n := n, rank := rank, seed := h.mbarg.getD 3 0, modules := modules.take n, taken := 0 }) })

/-- COMMCLR (R366). -/
def execCommclr (seq : BitVec 16) (s : State) : Host.Outcome State Fault Refusal :=
  runCommand s 0x0A seq readyCORE fun s =>
    if 63 < mbarg s 0 then badArgument s
    else if commBusy s (mbarg s 0) then conflict s
    else cmdDone (s.modHub fun h => { h with comms := h.comms.set (mbarg s 0) none })

/-- SVCSET (R342, R366): a virtual address of words. -/
def execSvcset (seq : BitVec 16) (s : State) : Host.Outcome State Fault Refusal :=
  runCommand s 0x0B seq readyCORE fun s =>
    if mbarg s 0 % 8 != 0 || 2 ^ 48 ≤ mbarg s 0 then badArgument s
    else cmdDone (s.modHub fun h => { h with svcProgram := h.mbarg.getD 0 0 })

/-- WLSET (R336, R366): 16 bytes per entry in local memory. -/
def execWlset (seq : BitVec 16) (s : State) : Host.Outcome State Fault Refusal :=
  runCommand s 0x0C seq readyCORE fun s =>
    if mbarg s 0 % 16 != 0 || localSize < mbarg s 0 + 16 * mbarg s 1 then badArgument s
    else if waitEntries s true != 0 then conflict s
    else cmdDone (s.modHub fun h => { h with waitListAt := mbarg s 0, waitListSize := mbarg s 1 })

/-- The 16-bit port masks of a host buffer. -/
def portMasksOf (bs : List Byte) : List (BitVec 16) := (List.range 64).map fun p => BitVec.ofNat 16 (bytesNat bs (2 * p) 2)

/-- DOMSET (R366, R375). -/
def execDomset (seq : BitVec 16) (s : State) : Host.Outcome State Fault Refusal :=
  runCommand s 0x0D seq readyLINK fun s =>
    if 63 < mbarg s 0 || !hostFits (mbarg s 1) 1 128 then badArgument s
    else if isReady s readyCORE && mbarg s 0 != s.hub.ownModule then conflict s
    else cmdDone (changePaths s fun h => { h with
      ownModule := mbarg s 0, portMasks := portMasksOf (hostRead s (mbarg s 1) 128), domsetAt := some s.clock })

/-! ### Power and flash -/

/-- PWRLIM (R366, R376). -/
def execPwrlim (seq : BitVec 16) (s : State) : Host.Outcome State Fault Refusal :=
  runCommand s 0x0E seq readyPROT fun s =>
    let w := mbarg s 0
    if w < 600 || 1500 < w || w % 10 != 0 then badArgument s else cmdDone (s.modHub fun h => { h with cap := w })

/-- FWLOAD (R366): the image goes into a flash slot if its signature verifies; it takes effect at the next reset. -/
def execFwload (seq : BitVec 16) (s : State) : Host.Outcome State Fault Refusal :=
  runCommand s 0x0F seq readyATTR fun s =>
    let image := hostRead s (mbarg s 0) (mbarg s 1)
    let slot := mbarg s 2
    if 1 < slot || 1 < mbarg s 3 || !hostFits (mbarg s 0) 1 (mbarg s 1) then badArgument s
    else if !Sys2Proof.Config.imageVerifies image then cmdFails s
    else cmdDone (s.modHub fun h => { h with
      flash := h.flash.set slot { h.flash.getD slot FlashSlot.default with firmware := image, genuine := true }
      activeSlot := if mbarg s 3 == 1 then slot else h.activeSlot })

/-- Does a code name a command (R366)? -/
def codeAssigned (code : Byte) : Bool := decide (1 ≤ code.toNat) && decide (code.toNat ≤ 0x11)

/-- MBCMD_UNASSIGNED (R365). -/
def execMbcmdUnassigned (code : BitVec 8) (seq : BitVec 16) (s : State) : Host.Outcome State Fault Refusal :=
  if codeAssigned code then stepTo s else runCommand s code seq readyCFG badArgument

end Sys2Proof.Machine
end

