-- ==== Sys2Proof/Machine/Checkpoint.lean ====
section
/-! DEFINITION. Checkpoint and restore (R371 to R374). -/

namespace Sys2Proof.Machine

/-- CKSTAT.STATE (R371). -/
def ckState (s : State) : Nat := s.hub.ckstat.toNat % 16

/-- Set CKSTAT; an entry into DONE or FAIL raises MSI-X vector 2 (R371). -/
def setCk (s : State) (st chunk : Nat) : State :=
  let s1 := s.modHub fun h => { h with ckstat := BitVec.ofNat 64 (chunk * 256 + st) }
  if 3 ≤ st then s1.emit (.msix 2) else s1

/-- Is a checkpoint or a restore under way? -/
def ckBusy (s : State) : Bool := ckState s == 1 || ckState s == 2

/-- No launch is admitted and not complete; saved blocks keep theirs from completing (R343, R372, R374). -/
def noLaunches (s : State) : Bool := s.launches.all fun l => l.completed

/-- The bytes of the header and of the image (R373). -/
def headerSize : Nat := 8192
def imageSize : Nat := headerSize + localSize
def chunkSize : Nat := 2 ^ 30

/-- CHKPT (R366, R372): admission stops, and quiescing begins. -/
def execChkpt (seq : BitVec 16) (s : State) : Host.Outcome State Fault Refusal :=
  runCommand s 0x03 seq readyCORE fun s =>
    if ckBusy s then conflict s
    else if !hostFits (mbarg s 0) 4096 imageSize then badArgument s
    else cmdDone (setCk (s.modHub fun h => { h with ckHost := mbarg s 0, ckRestore := false }) 1 0)

/-- Is the quiesce at its end (R372)? -/
def quiesced (s : State) : Bool := ckState s == 1 && noLaunches s && s.colls.all fun c => c.ended

/-- CHECKPOINT_QUIESCED (R372, R373): the header's fixed fields are written with the next launch id as it stands now, and streaming begins. -/
def beginStream (s : State) : State :=
  if !quiesced s then s
  else setCk (hostWrite (s.modHub fun h => { h with ckLines := [] }) s.hub.ckHost (padBytes 0x40 (leBytes 4 0x4B504843 ++ leBytes 4 1 ++
    leBytes 8 localSize ++ leBytes 8 Sys2Proof.Config.serial.toNat ++ leBytes 8 s.hub.nextId))) 2 0

def execCheckpointQuiesced (s : State) : Host.Outcome State Fault Refusal := stepTo (beginStream s)

/-- Copy n bytes between two ranges of physical memory: what the target lists goes, and what the source lists comes (R373, R374). -/
def memMove (m : Memory) (src dst n : Nat) : Memory :=
  (m.filter fun p => decide (src ≤ p.1) && decide (p.1 < src + n)).foldl (fun acc p => memSet acc (dst + (p.1 - src)) p.2)
    (m.filter fun p => !(decide (dst ≤ p.1) && decide (p.1 < dst + n)))

/-- CKSTAT.CHUNK (R371). -/
def ckChunk (s : State) : Nat := s.hub.ckstat.toNat / 256 % 2 ^ 32

/-- How many chunks an image has (R373). -/
def chunkCount : Nat := 192

/-- The digest of chunk j of an image at a physical address. -/
def chunkDigest (m : Memory) (at_ j : Nat) : List Byte := sha3_256 (memRead m (at_ + chunkSize * j) chunkSize)

/-- Is a checkpoint streaming, or a restore? -/
def streaming (s : State) : Bool := ckState s == 2 && !s.hub.ckRestore
def restoring (s : State) : Bool := ckState s == 2 && s.hub.ckRestore

/-- A chunk with an uncorrectable error is not passed on as data (R321). -/
def chunkBad (s : State) (j : Nat) : Bool := s.memBad (chunkSize * j) chunkSize

/-- Can the next chunk be streamed? -/
def streamReady (s : State) : Bool := streaming s && decide (ckChunk s < chunkCount) && !chunkBad s (ckChunk s)

/-- One chunk goes into the image with its digest; a line that was read before holds the value of that moment (R372, R373). -/
def streamChunk (s : State) : State :=
  if !streamReady s then s
  else
    let base := hostPa s.hub.ckHost
    let j := ckChunk s
    let m1 := memMove s.mem (chunkSize * j) (base + headerSize + chunkSize * j) chunkSize
    let m2 := (s.hub.ckLines.filter fun p => 128 * p.1 / chunkSize == j).foldl (fun m p => memWrite m (base + headerSize + 128 * p.1) p.2) m1
    let m3 := memWrite m2 (base + 0x40 + 32 * j) (chunkDigest m2 (base + headerSize) j)
    setCk { s with mem := m3 } 2 (j + 1)

/-- The line that the stream reads before the rest of its chunk: any of a chunk that is still to come (R372). -/
def earlyLine (s : State) : Option Nat :=
  let n := Config.freeElement s.steps % (localSize / 128)
  if streaming s && decide (ckChunk s ≤ 128 * n / chunkSize) && !s.memBad (128 * n) 128 && !s.hub.ckLines.any fun p => p.1 == n then some n else none

/-- The stream reads a line: each line of the image holds its value at some instant of the stream (R372). -/
def captureLine (s : State) : State :=
  match earlyLine s with
  | some n => s.modHub fun h => { h with ckLines := (n, lineBytes s n) :: h.ckLines }
  | none => s

/-- How the stream ends: with every chunk in the image, or at a chunk with an uncorrectable error (R321, R371). -/
def streamEnds (s : State) : Option (Nat × Nat) :=
  if !streaming s then none
  else if chunkCount ≤ ckChunk s then some (3, chunkCount)
  else if chunkBad s (ckChunk s) then some (4, ckChunk s)
  else none

/-- CHECKPOINT_STREAM_END (R372, R373): the rest of the header is zero, and admission resumes. -/
def endStream (s : State) : State :=
  match streamEnds s with
  | some (st, j) => setCk ({ s with mem := memWrite s.mem (hostPa s.hub.ckHost + 0x1840) (List.replicate 0x7C0 0) }.modHub fun h => { h with ckLines := [] }) st j
  | none => s

def execCheckpointStreamEnd (s : State) : Host.Outcome State Fault Refusal := stepTo (endStream s)

/-- RESTORE (R366, R374): no launch may be admitted or saved. -/
def execRestore (seq : BitVec 16) (s : State) : Host.Outcome State Fault Refusal :=
  runCommand s 0x04 seq readyCORE fun s =>
    if ckBusy s || !noLaunches s then conflict s
    else if !hostFits (mbarg s 0) 1 imageSize then badArgument s
    else cmdDone (setCk (s.modHub fun h => { h with ckHost := mbarg s 0, ckRestore := true }) 2 0)

/-- The header's magic, version and size (R374). -/
def headerGood (s : State) : Bool :=
  let h := hostRead s s.hub.ckHost 16
  bytesNat h 0 4 == 0x4B504843 && bytesNat h 4 4 == 1 && bytesNat h 8 8 == localSize

/-- Does a chunk of the image differ from its digest in the header? -/
def chunkMismatch (s : State) (j : Nat) : Bool :=
  let base := hostPa s.hub.ckHost
  memRead s.mem (base + 0x40 + 32 * j) 32 != chunkDigest s.mem (base + headerSize) j

/-- How a restore ends: at chunk 0 for a bad header, at a chunk whose digest does not match, or with every chunk in device memory (R374). -/
def restoreEnds (s : State) : Option (Nat × Nat) :=
  if !restoring s then none
  else if ckChunk s == 0 && !headerGood s then some (4, 0)
  else if chunkCount ≤ ckChunk s then some (3, chunkCount)
  else if chunkMismatch s (ckChunk s) then some (4, ckChunk s)
  else none

/-- Chunk j of the image goes into device memory. -/
def restoreBytes (s : State) (j : Nat) : State :=
  { s with
    mem := memMove s.mem (hostPa s.hub.ckHost + headerSize + chunkSize * j) (chunkSize * j) chunkSize
    memErrs := s.memErrs.filter fun x => !rangesMeet (32 * x) 32 (chunkSize * j) chunkSize }

/-- Can the next chunk be restored? An armed frame takes no bytes (R356). -/
def restoreReady (s : State) : Bool := restoring s && (restoreEnds s).isNone && !armedRange s (chunkSize * ckChunk s) chunkSize

/-- One chunk is restored, and its digest is right (R374). -/
def restoreChunk (s : State) : State :=
  if restoreReady s then setCk (restoreBytes s (ckChunk s)) 2 (ckChunk s + 1) else s

/-- Every L1, every TLB and every peer copy is emptied (R374). -/
def emptyCaches (s : State) : State :=
  { s with
    cores := s.cores.map fun (c : Core) => { c with l1 := [], tlb := [] }
    dieTlbs := s.dieTlbs.map fun _ => []
    squares := [] }

/-- RESTORE_END (R374). -/
def endRestore (s : State) : State :=
  match restoreEnds s with
  | some (st, j) => setCk (if st == 3 then emptyCaches s else s) st j
  | none => s

def execRestoreEnd (s : State) : Host.Outcome State Fault Refusal := stepTo (endRestore s)

end Sys2Proof.Machine
end

