-- ==== Sys2Proof/Machine/EngineWords.lean ====
section
/-! DEFINITION. The engine words (R103 to R105, R109 to R117, R119, R289 to R295): copies, free slots, the bank-conflict counter and collectives. -/

namespace Sys2Proof.Machine

/-- A cause with its TADDR. -/
abbrev Cause := Nat × Nat

/-- ALIGN for the first offset that is not a multiple of what it must be. -/
def alignCause (xs : List (Nat × Nat)) : Option Cause := (xs.find? fun p => p.1 % p.2 != 0).map fun p => (causeALIGN, p.1)

/-- ACCESS for the first item of some bytes outside an allocation. -/
def accessCause (size : Nat) (xs : List (Nat × Nat)) : Option Cause :=
  (xs.find? fun p => decide (size < p.1 + p.2)).map fun p => (causeACCESS, p.1)

/-- The offset of an item of local store that a word reads at its issue, where the item is aligned and inside and holds an uncorrectable error (R289, R321). -/
def localError (l : LocalStore) (size align off n : Nat) : Option Nat :=
  if off % align == 0 && decide (off + n ≤ size) && l.errs.any (fun x => decide (off ≤ x) && decide (x < off + n)) then some off else none

/-- LAYOUT where a test fails. -/
def layoutCause (bad : Bool) (addr : Nat) : Option Cause := if bad then some (causeLAYOUT, addr) else none

/-- A stamp operand: its offset, or none (R105). -/
def stampOf (s : State) (c : Convoy) (d : Opnd) : Option Nat := if d.isNone then none else some (readU s c d).toNat

/-- A stamp as an item of 8 bytes. -/
def stampItem (st : Option Nat) : List (Nat × Nat) :=
  match st with
  | some o => [(o, 8)]
  | none => []

/-- A signed 32-bit field of a list of bytes. -/
def bytesInt (b : List Byte) (off : Nat) : Int := (BitVec.ofNat 32 (bytesNat b off 4)).toInt

/-- A layout record (R109). -/
def parseLayout (b : List Byte) : Layout :=
  { e := (List.range 4).map fun i => bytesNat b (2 * i) 2,
    s := (List.range 4).map fun i => bytesInt b (8 + 4 * i),
    t := (List.range 4).map fun i => bytesInt b (0x18 + 4 * i),
    z := bytesNat b 0x28 1,
    zfill := bytesNat b 0x29 1 % 2 == 1 }

/-- Is a layout record itself malformed (R111)? -/
def badLayout (b : List Byte) : Bool :=
  (parseLayout b).e.contains 0 || decide (4 < (parseLayout b).z) || bytesNat b 0x29 1 / 2 != 0 || (b.drop 0x2A).any (· != 0)

/-- Is a base, or a stride, no multiple of the element size (R111)? -/
def unevenLayout (l : Layout) (bases : List Nat) (strides : List Int) : Bool :=
  bases.any (fun a => a % l.size != 0) || strides.any fun v => v % (l.size : Int) != 0

/-- The number of the register that holds the layout offset. -/
def layReg : Opnd → Nat
  | .s n => n.toNat
  | _ => 0

/-- The register k above the layout register. -/
def aboveLay (c : Convoy) (z : Opnd) (k : Nat) : Nat := (c.readS (layReg z + k)).toNat

/-- The record at an offset, once it can be read (R111). -/
def layoutReach (size off : Nat) : Option Cause :=
  alignCause [(off, 8)] <|> accessCause size [(off, 48)]

/-- The first element in layout order with local bytes outside the allocation (R111). -/
def outside (size base n count : Nat) (off : Nat → Int) (skip : Nat → Bool) : Option Cause :=
  ((List.range count).find? fun p => !skip p && (decide ((base : Int) + off p < 0) || decide ((size : Int) < base + off p + n))).map
    fun p => (causeACCESS, addOff base (off p))

/-- Is a copy in flight on a core? The copies of a block that has been saved have left it (R112, R114, R343). -/
def copyOn (s : State) (core : Nat) (o : CopyOp) : Bool :=
  o.core == core && o.phase != .joined && !(o.paused && (s.block o.block).state != .saving)

/-- The copy operations of a core that are in flight (R112). -/
def copiesFull (s : State) (core : Nat) : Bool := decide (128 ≤ (s.copies.filter (copyOn s core)).length)

/-- A copy as a word issues it: it waits for its start (R104, R112). -/
def newCopy (s : State) (f : Focus) (c : Convoy) (w : FWord) (kind : CopyKind) (lay : Layout) : CopyOp :=
  { kind := kind, core := f.core, seq := seqOf f.slot, convoy := f.convoy, block := c.block, launch := c.launch,
    fork := issueNumber s f, rel := w.bit 7 && scopeActs (s.launchOf c) w.scope.toNat, user := c.priv != 2, dst := (readU s c w.x).toNat, src := (readU s c w.y).toNat, lay := lay,
    boundary := 0, scales := 0, header := [], receivers := [], order := issueOrder (s.blockOf c) c.index 0, passed := 0,
    fetched := [], flight := [], stop := none, paused := false, phase := .waiting }

/-- A receiver that has taken nothing yet. -/
def newReceiver (block : Nat) (second : Bool) (stamp : Option Nat) : Receiver :=
  { block := block, second := second, stamp := stamp, progress := 0, ended := none, joined := false }

/-- Start a copy: it takes a place of lane 0 in the commit order of a CANONICAL launch (R158). -/
def startCopy (s : State) (c : Convoy) (o : CopyOp) : State :=
  ({ s with copies := s.copies ++ [o] }).modBlock c.block fun b =>
    { b with order := assocSet b.order (c.index * 64) (issueOrder b c.index 0 + 1) }

/-- The registers above the layout register that a copy reads: the scale address of MXFP4, then the bound of ZFILL (R290, R291). -/
def layoutRegs (s : State) (c : Convoy) (z : Opnd) (mx : Bool) : List (Opnd × Nat) :=
  let off := (readU s c z).toNat
  let zfill := (layoutReach (s.blockOf c).size off).isNone && (parseLayout (memRead (lsOf s c).mem off 48)).zfill
  let n := (if mx then 1 else 0) + if zfill then 1 else 0
  ((List.range n).filter fun k => layReg z + 1 + k < 64).map fun k => (.s (BitVec.ofNat 6 (layReg z + 1 + k)), 1)

/-- What depends on the convoy that a word runs in. -/
def inFocus {α : Type} (s : State) (d : α) (k : Convoy → α) : α :=
  match s.focus with
  | some f => k (s.convoy f.convoy)
  | none => d

/-- What the checks know of an engine word: every operand is read, none is written, and the word is uniform-class (R289). -/
def engInfo (w : FWord) (legal : Bool) : WordInfo :=
  { hdr := w.hdr, legal := legal, reads := [(w.d, 1), (w.x, 1), (w.y, 1), (w.z, 1)], uni := true }

/-- The same of a copy word: with the registers that its layout brings in, and an error in its record, or in the header of a COPYP (R289, R321). -/
def copyInfo (s : State) (w : FWord) (legal mx tile : Bool) : WordInfo :=
  { engInfo w legal with
    reads := (engInfo w legal).reads ++ inFocus s [] fun c => layoutRegs s c w.z mx
    soft := inFocus s none fun c =>
      (if tile then localError (lsOf s c) (s.blockOf c).size 256 (readU s c w.x).toNat 16 else none) <|>
        localError (lsOf s c) (s.blockOf c).size 8 (readU s c w.z).toNat 48 }

/-- An engine word up to its own causes: a fork waits until the convoy's reads have returned (R104). -/
def runFork (i : WordInfo) (s : State) (body : Focus → Convoy → Mask → Res) : Host.Outcome State Fault Refusal :=
  runWord i s fun f c e => if readsClear s f.convoy then body f c e else .wait s

/-- Raise a cause, or go on. -/
def orCause (s : State) (e : Mask) (x : Option Cause) (k : Res) : Res :=
  match x with
  | some (cause, a) => memTrap s cause e a
  | none => k

/-- COPY (R290). Within the check of R111 that finds several offenders, the stamp comes before the elements, the source before the destination, and TADDR is that of the first element in layout order (assumption log 21). -/
def execCopy (w : FWord) (s : State) : Host.Outcome State Fault Refusal :=
  runFork (copyInfo s w (Legal.copy w) false false) s fun f c e =>
    let size := (s.blockOf c).size
    let ls := lsOf s c
    let rec_ := (readU s c w.z).toNat
    let st := stampOf s c w.d
    orCause s e (layoutReach size rec_)
      (let b := memRead ls.mem rec_ 48
       let lay := parseLayout b
       let o : CopyOp := { newCopy s f c w (.copy (w.fld 0 2)) lay with
         boundary := if lay.zfill then aboveLay c w.z 1 else 0,
         receivers := [newReceiver c.block (onFollower s c) st] }
       orCause s e
        (layoutCause (badLayout b || unevenLayout lay [o.src, o.dst] (lay.s ++ lay.t) || (lay.zfill && layReg w.z == 63)) rec_ <|>
         alignCause (stampItem st) <|> accessCause size (stampItem st) <|>
         (if o.srcLocal then outside size o.src lay.size lay.count lay.srcOff (zeroFilled o) else none) <|>
         (if o.dstLocal then outside size o.dst lay.size lay.count lay.dstOff (fun _ => false) else none))
        (if copiesFull s f.core then .hold s [(e, .retry (.copy w))] else .done (startCopy s c o) stay))

/-- The element-size code of a COPYP source format (R291). -/
def copypCode (fmt : Nat) : Nat := match fmt with
  | 0 => 2
  | 1 => 1
  | 4 => 4
  | _ => 0

/-- Do the header, the extents, the element size and the strides of a COPYP break R291? -/
def badTileCopy (h : TileHdr) (fmt : Nat) (lay : Layout) (reg : Nat) : Bool :=
  let mx := fmt == 4
  !h.fits || (mx && (h.p != 4 || h.sparse)) || lay.z != copypCode fmt || lay.e.drop 1 != [64, 1, 1] ||
  lay.e.headD 0 != (if mx then h.k else if h.sparse then 48 * h.k else 32 * h.k) || lay.t.any (· != 0) ||
  ((mx || lay.zfill) && reg == 63) || (mx && lay.zfill && decide (62 ≤ reg))

/-- A scale byte that a block uses and that lies outside the allocation (R291). -/
def scaleOutside (o : CopyOp) (size : Nat) : Option Cause :=
  ((List.range o.lay.count).find? fun p => !zeroFilled o p && decide (size ≤ o.scales + p)).map fun p => (causeACCESS, o.scales + p)

/-- COPYP (R291): its checks in their order. -/
def execCopyp (w : FWord) (s : State) : Host.Outcome State Fault Refusal :=
  let fmt := w.fld 0 3
  let mx := fmt == 4
  runFork (copyInfo s w (Legal.copyp w) mx true) s fun f c e =>
    let size := (s.blockOf c).size
    let ls := lsOf s c
    let tile := (readU s c w.x).toNat
    let rec_ := (readU s c w.z).toNat
    let st := stampOf s c w.d
    orCause s e (alignCause [(tile, 256)] <|> accessCause size [(tile, 16)] <|> layoutReach size rec_)
      (let hb := memRead ls.mem tile 16
       let h := tileHdr hb
       let b := memRead ls.mem rec_ 48
       let lay := parseLayout b
       let o : CopyOp := { newCopy s f c w (.copyp fmt (w.bit 3)) lay with
         header := hb, scales := if mx then aboveLay c w.z 1 else 0,
         boundary := if lay.zfill then aboveLay c w.z (if mx then 2 else 1) else 0,
         receivers := [newReceiver c.block (onFollower s c) st] }
       orCause s e
        (layoutCause (badTileCopy h fmt lay (layReg w.z)) tile <|>
         layoutCause (badLayout b || unevenLayout lay [o.src] lay.s) rec_ <|>
         alignCause (stampItem st) <|> accessCause size (stampItem st) <|>
         (if w.bit 3 then outside size o.src lay.size lay.count lay.srcOff (zeroFilled o) else none) <|>
         accessCause size [(tile, h.bytes)] <|> (if w.bit 3 && mx then scaleOutside o size else none))
        (if copiesFull s f.core then .hold s [(e, .retry (.copyp w))] else .done (startCopy s c o) stay))

/-- The block that receives a multicast on a core: the resident one of the launch with the lowest index (R116). -/
def receiverOn (s : State) (li core : Nat) : Option Nat :=
  let here := (List.range s.blocks.length).filter fun bi =>
    let b := s.block bi
    b.launch == li && (b.core == core || b.follower == some core) && (b.state == .running || b.state == .ended || b.state == .saving)
  here.foldl (fun acc bi => match acc with
    | none => some bi
    | some x => if (s.block bi).index < (s.block x).index then some bi else some x) none

/-- A receiver of a multicast: its stamp lies just before the destination (R116). -/
def receiverFor (s : State) (li dst core : Nat) : Receiver :=
  let bi := (receiverOn s li core).getD 0
  newReceiver bi ((s.block bi).follower == some core) (some (dst - 8))

/-- The cores of the street that a mask names (R116). -/
def streetCores (core : Nat) (m : BitVec 16) : List Nat := ((List.range 16).filter fun i => m.getLsbD i).map fun i => 16 * (core / 16) + i

/-- ACCESS where a named core has no receiver, or the destination or its stamp lies outside the receiver's allocation (R116). -/
def receiverCause (s : State) (li dst : Nat) (lay : Layout) (cores : List Nat) : Option Cause :=
  if cores.any (fun k => match receiverOn s li k with
      | none => true
      | some bi => decide (dst < 8) || decide ((s.block bi).size < dst) ||
          (outside (s.block bi).size dst lay.size lay.count lay.dstOff fun _ => false).isSome) then some (causeACCESS, dst)
  else none

/-- The free-slot counters of a launch on a core (R117). -/
def slotCounts (s : State) (core li : Nat) : List Nat :=
  match (s.core core).free.find? fun x => x.launch == li with
  | some x => x.counts
  | none => []

/-- Change the free-slot counter of member i. -/
def changeCount (s : State) (core li i : Nat) (g : Nat → Nat) : State :=
  s.modCore core fun c => { c with free := c.free.map fun x =>
    if x.launch == li then { x with counts := x.counts.set i (g (x.counts.getD i 0)) } else x }

/-- The members that a mask names. -/
def membersOf (m : BitVec 16) : List Nat := (List.range 16).filter fun i => m.getLsbD i

/-- COPYM (R116, R117, R292). -/
def execCopym (w : FWord) (s : State) : Host.Outcome State Fault Refusal :=
  runFork (copyInfo s w (Legal.copym w) false false) s fun f c e =>
    let size := (s.blockOf c).size
    let ls := lsOf s c
    let m : BitVec 16 := (readU s c w.d).setWidth 16
    let dst := (readU s c w.x).toNat
    let rec_ := (readU s c w.z).toNat
    orCause s e (layoutReach size rec_)
      (let b := memRead ls.mem rec_ 48
       let lay := parseLayout b
       let cores := streetCores f.core m
       let o : CopyOp := { newCopy s f c w (.copym m (w.bit 0)) lay with
         boundary := if lay.zfill then aboveLay c w.z 1 else 0,
         receivers := cores.map (receiverFor s c.launch dst) }
       orCause s e
        (layoutCause (badLayout b || unevenLayout lay [o.src] (lay.s ++ lay.t) || (lay.zfill && layReg w.z == 63)) rec_ <|>
         alignCause [(dst, 8), (dst, lay.size)] <|>
         (if w.bit 0 then outside size o.src lay.size lay.count lay.srcOff (zeroFilled o) else none) <|>
         layoutCause (m == 0) 0 <|> receiverCause s c.launch dst lay cores)
        (if copiesFull s f.core || (membersOf m).any fun i => (slotCounts s f.core c.launch).getD i 0 == 0 then
          .hold s [(e, .retry (.copym w))]
         else .done ((membersOf m).foldl (fun s i => changeCount s f.core c.launch i (· - 1)) (startCopy s c o)) stay))

/-- SLOTFREE (R117, R293): a credit on each named member's counter for this core, up to 8. -/
def execSlotfree (w : FWord) (s : State) : Host.Outcome State Fault Refusal :=
  runWord { hdr := w.hdr, legal := Legal.slotfree w, reads := [(w.x, 1)], uni := true } s fun f c _ =>
    let m : BitVec 16 := (readU s c w.x).setWidth 16
    .done ((streetCores f.core m).foldl (fun s k => changeCount s k c.launch (f.core % 16) fun n => min 8 (n + 1)) s) stay

/-- BCCR (R294). -/
def execBccr (w : FWord) (s : State) : Host.Outcome State Fault Refusal :=
  runWord { hdr := w.hdr, legal := Legal.bccr w, writes := [(w.d, 1)] } s fun f c e =>
    doneWith s f (writeRes64 { c with conflicts := 0 } e w.d fun _ => c.conflicts.setWidth 64)

/-- Is a descriptor one that R119 or R295 calls LAYOUT? -/
def badDescriptor (b : List Byte) (slot : W64) (n : Nat) : Bool :=
  let op := bytesNat b 0x14 1
  let comb := bytesNat b 0x15 1
  let fmt := bytesNat b 0x16 1
  let root := bytesNat b 0x17 1
  let stamp := bytesNat b 0x18 8
  decide (63 < slot.toNat) || bytesNat b 0x10 4 == 0 || decide (5 < op) || decide (4 < fmt) ||
  (if op == 0 || op == 2 then decide (2 < comb) else comb != 0) || (fmt == 4) != (op == 1) ||
  (if op == 4 then decide (n ≤ root) else root != 0) || stamp == 0 || stamp % 8 != 0

/-- The collectives of a slot in flight (R295). -/
def collsFull (s : State) (slot : Nat) : Bool := decide (16 ≤ (s.colls.filter fun c => c.slot == slot && !c.ended).length)

/-- Hand a collective to the engine (R119, R295). -/
def startColl (s : State) (f : Focus) (c : Convoy) (w : FWord) (b : List Byte) (slot : Nat) (m : Comm) : State :=
  let x : Coll :=
    { slot := slot, number := m.taken, core := f.core, seq := seqOf f.slot, convoy := f.convoy, launch := c.launch, ctx := s.ctxOf c,
      user := c.priv != 2, fork := issueNumber s f, rel := w.bit 7 && scopeActs (s.launchOf c) w.scope.toNat,
      src := bytesNat b 0 8, dst := bytesNat b 8 8, k := bytesNat b 0x10 4, op := bytesNat b 0x14 1, combine := bytesNat b 0x15 1,
      fmt := bytesNat b 0x16 1, root := bytesNat b 0x17 1, stamp := bytesNat b 0x18 8, started := false, fetched := [], pieces := [], values := [],
      received := [], sent := [], seen := [], waiting := [], heard := [], gone := [], got := [], writes := [], flight := [],
      written := 0, failed := false, lost := false, ended := false }
  ({ s with colls := s.colls ++ [x] }).modHub fun h => { h with comms := h.comms.set slot (some { m with taken := m.taken + 1 }) }

/-- COLL (R119, R295). -/
def execColl (w : FWord) (s : State) : Host.Outcome State Fault Refusal :=
  runFork (engInfo w (Legal.coll w)) s fun f c e =>
    let slot := readU s c w.y
    match readItem s f e (baseOf c 0 w.x).toNat 32 32 false with
    | .wait => .wait s
    | .bad s1 cause m a => memTrap s1 cause m a
    | .ok s1 b _ =>
      let comm := if slot.toNat < 64 then s.hub.comms.getD slot.toNat none else none
      if badDescriptor b slot (match comm with
          | some m => m.n
          | none => 64) then raise s1 causeLAYOUT e
      else match comm with
        | none => raise s1 causeACCESS e
        | some m => if collsFull s slot.toNat then .hold s1 [(e, .retry (.coll w))] else .done (startColl s1 f c w b slot.toNat m) stay

end Sys2Proof.Machine
end

