-- ==== Sys2Proof/Machine/Context.lean ====
section
/-! DEFINITION. CTXSV and CTXLD (R117, R172, R322 to R325, R329): the context areas of a convoy and of a block. -/

namespace Sys2Proof.Machine

/-- Device-defined bytes lie under a mask of the implementation (assumption log 8); laying it twice takes it away. -/
def maskBytes (off : Nat) (bs : List Byte) : List Byte := (indexed bs).map fun p => p.2 ^^^ Sys2Proof.Config.contextMask (off + p.1)

def padTo (n : Nat) (bs : List Byte) : List Byte := bs ++ List.replicate (n - bs.length) 0

def roundUp (n k : Nat) : Nat := (n + k - 1) / k * k

/-! ### The convoy context area (R324) -/

/-- The total size of an area. -/
def areaSize (w b l n : Nat) : Nat := 0x648 + 160 * w + 4 * b * w + 2080 * l + 8 * n

/-- The lanes that hold for a BARL. -/
def barlLanes (hs : List Hold) : Mask := hs.foldl (fun m h => if h.kind == .barl then m ||| h.lanes else m) 0

/-- The barrier hold of a convoy: its object and generation (R77). -/
def barHold (c : Convoy) : Option (Nat × BitVec 16) :=
  c.holds.findSome? fun h => match h.kind with
    | .bar off gen => some (off, gen)
    | _ => none

/-- Does a hold of the convoy for its barrier object, or some hold for its BARL, complete a word with Y (R83)? -/
def barYields (c : Convoy) : Bool := c.holds.any fun h => h.y && h.kind != .barl
def barlYields (hs : List Hold) : Bool := hs.any fun h => h.y && h.kind == .barl

/-- The lanes that have done their part of the last word of a loop body (R58), and where they are: at it, or away in a handler, or in two. -/
def edgeLanes (hs : List Hold) : Mask := hs.foldl (fun m h => if h.kind == .edge then m ||| h.lanes else m) 0
def edgeSaved (c : Convoy) : Mask × Nat :=
  if edgeLanes c.holds != 0 then (edgeLanes c.holds, 0)
  else if edgeLanes c.rvHolds != 0 then (edgeLanes c.rvHolds, 1)
  else (edgeLanes c.hrvHolds, 2)

/-- The hold and BARL state, 56 bytes. -/
def holdBytes (c : Convoy) : List Byte :=
  let b : Barl := c.barl.getD { addr := 0, mask := 0, arrived := 0 }
  let g := (barHold c).getD (0, 0)
  leBytes 8 b.addr.toNat ++ leBytes 8 b.mask.toNat ++ leBytes 8 b.arrived.toNat ++ leBytes 8 (barlLanes c.holds).toNat ++
    leBytes 8 (barlLanes c.rvHolds).toNat ++ leBytes 8 (barlLanes c.hrvHolds).toNat ++ leBytes 4 g.1 ++ leBytes 2 g.2.toNat ++
    leBytes 2 ((if c.barl.isSome then 1 else 0) + (if (barHold c).isSome then 2 else 0) + (if c.parked then 4 else 0) +
      (if c.doubled then 8 else 0) + (if barYields c then 16 else 0) + (if barlYields c.holds then 32 else 0) +
      (if barlYields c.rvHolds then 64 else 0) + (if barlYields c.hrvHolds then 128 else 0) +
      (if c.watch then 256 else 0) + (if c.hwatch then 512 else 0) + 1024 * (edgeSaved c).2)

def trapBytes (t : TrapRegs) : List Byte :=
  leBytes 8 t.cause.toNat ++ leBytes 8 t.pc.toNat ++ leBytes 8 t.addr.toNat ++ leBytes 8 t.mask.toNat ++ leBytes 8 t.act.toNat

def levelBytes (v : LoopLevel) : List Byte :=
  leBytes 4 v.count.toNat ++ leBytes 4 v.counter.toNat ++ leBytes 8 v.first.toNat ++ leBytes 8 v.last.toNat ++
    leBytes 4 (v.owner + (if v.suspended then 4 else 0)) ++ leBytes 4 0

def occBytes (o : Occ) : List Byte := leBytes 2 o.tag.toNat ++ leBytes 1 (o.lane.getD 0xFF) ++ [0] ++ leBytes 4 o.count.toNat

/-- The fields at fixed offsets, 0x000 to 0x5FF. -/
def areaFixed (s : State) (c : Convoy) : List Byte :=
  leBytes 4 0x58544E43 ++ leBytes 2 1 ++ leBytes 1 c.width ++ leBytes 1 c.loops.length ++
  leBytes 4 (areaSize c.width c.budget c.loops.length c.occ.length) ++
  leBytes 4 (c.budget + (if (s.launchOf c).rec_.detection then 65536 else 0)) ++
  leBytes 8 (s.launchOf c).id ++ leBytes 4 (s.blockOf c).index ++
  leBytes 4 (c.index + 256 * c.priv + (if c.hrvValid then 1024 else 0)) ++
  leBytes 8 c.flags.toNat ++ leBytes 8 c.conflicts.toNat ++ leBytes 8 c.live.toNat ++ leBytes 8 c.heldLanes.toNat ++
  maskBytes 0x40 (holdBytes c) ++ leBytes 8 c.held.status.toNat ++
  trapBytes c.trap ++ leBytes 8 c.trap.status.toNat ++ trapBytes c.held ++
  (c.scratch.flatMap fun v => leBytes 8 v.toNat) ++ maskBytes 0xF8 (leBytes 8 (edgeSaved c).1.toNat) ++
  (c.s.flatMap fun v => leBytes 8 v.toNat) ++
  (c.a.flatMap fun a => leBytes 8 a.base.toNat ++ leBytes 4 a.stride.toNat ++ leBytes 4 0) ++
  c.g.flatMap momentBytes ++ List.replicate 0x80 0

/-- The fields of the lanes, K and the registers. -/
def areaLanes (c : Convoy) : List Byte :=
  (c.lanes.flatMap fun x => leBytes 8 x.pc.toNat) ++ (c.lanes.flatMap fun x => leBytes 8 x.rv.toNat) ++
  (c.lanes.flatMap fun x => leBytes 8 x.hrv.toNat) ++ (c.lanes.flatMap fun x => leBytes 8 x.draw.toNat) ++
  ((List.range 8).flatMap fun n => leBytes 8 (c.readKn n).toNat) ++
  ((List.range 8).flatMap fun n => c.lanes.flatMap fun x => momentBytes (x.getM n)) ++
  (List.range c.budget).flatMap fun n => c.lanes.flatMap fun x => leBytes 4 (x.getV n).toNat

/-- The whole area of a convoy. -/
def areaBytes (s : State) (c : Convoy) : List Byte :=
  areaFixed s c ++ areaLanes c ++ c.loops.flatMap levelBytes ++
  (c.loops.flatMap fun v => padTo 2048 ((v.words.take 256).flatMap fun x => leBytes 8 x.toNat)) ++
  leBytes 4 c.occ.length ++ leBytes 4 0 ++ c.occ.flatMap occBytes

/-- The 4-byte words of an area. -/
def areaWords (bs : List Byte) : List W32 := (piecesOf 4 (bs.length / 4 + 1) bs).map fun x => BitVec.ofNat 32 (leNat x)

def wordIn (ws : List W32) (i : Nat) : W32 := ws.getD i 0
def dwordIn (ws : List W32) (i : Nat) : W64 := wordIn ws (i + 1) ++ wordIn ws i
def pcIn (ws : List W32) (i : Nat) : Pc := (dwordIn ws i).setWidth 48 &&& ~~~ 7#48
def momentIn (ws : List W32) (i : Nat) : Moment :=
  { m2 := wordIn ws i, mean := wordIn ws (i + 1), w := wordIn ws (i + 2), n := wordIn ws (i + 3) }

/-- W, B and L of an area. -/
def areaW (ws : List W32) : Nat := (wordIn ws 1).toNat / 65536 % 256
def areaB (ws : List W32) : Nat := (wordIn ws 3).toNat % 65536
def areaL (ws : List W32) : Nat := (wordIn ws 1).toNat / 2 ^ 24

/-- The word index of the level records, and of the count n. -/
def levelsAt (ws : List W32) : Nat := 0x190 + 40 * areaW ws + areaB ws * areaW ws
def occAt (ws : List W32) : Nat := levelsAt ws + 520 * areaL ws

/-- The head of an area does not fit (R329). -/
def headBad (c : Convoy) (ws : List W32) : Bool :=
  wordIn ws 0 != 0x58544E43 || (wordIn ws 1).toNat % 65536 != 1 || areaW ws != c.width || areaB ws != c.budget || decide (9 < areaL ws)

/-- A reserved field or a zero field of an area is not zero (R329); no state of R310 has code 3. -/
def fieldsBad (ws : List W32) : Bool :=
  decide (2 ^ 17 ≤ (wordIn ws 3).toNat) || decide (2 ^ 11 ≤ (wordIn ws 7).toNat) || (wordIn ws 7).toNat / 256 % 4 == 3 ||
  (List.range 32).any (fun i => wordIn ws (0xC0 + 4 * i + 3) != 0) ||
  (List.range 32).any (fun i => wordIn ws (0x160 + i) != 0) ||
  (List.range (areaL ws)).any (fun i => decide (8 ≤ (wordIn ws (levelsAt ws + 8 * i + 6)).toNat) || wordIn ws (levelsAt ws + 8 * i + 7) != 0) ||
  wordIn ws (occAt ws + 1) != 0 ||
  (List.range (wordIn ws (occAt ws)).toNat).any fun i => decide (2 ^ 24 ≤ (wordIn ws (occAt ws + 2 + 2 * i)).toNat)

/-- One lane of an area. -/
def laneIn (ws : List W32) (w b l : Nat) : Lane :=
  { pc := pcIn ws (0x180 + 2 * l)
    rv := pcIn ws (0x180 + 2 * w + 2 * l)
    hrv := pcIn ws (0x180 + 4 * w + 2 * l)
    draw := dwordIn ws (0x180 + 6 * w + 2 * l)
    m := (List.range 8).map fun n => momentIn ws (0x190 + 8 * w + 4 * (n * w + l))
    v := (List.range b).map fun n => wordIn ws (0x190 + 40 * w + n * w + l) }

/-- One level of an area, with its loop buffer. -/
def levelIn (ws : List W32) (i : Nat) : LoopLevel :=
  let at_ := levelsAt ws + 8 * i
  let buf := levelsAt ws + 8 * areaL ws + 512 * i
  let st := (wordIn ws (at_ + 6)).toNat
  let v : LoopLevel := { count := wordIn ws at_, counter := wordIn ws (at_ + 1), first := pcIn ws (at_ + 2), last := pcIn ws (at_ + 4),
                         owner := st % 4, suspended := st / 4 % 2 == 1, words := [] }
  { v with words := (List.range (min 256 v.size)).map fun k => dwordIn ws (buf + 2 * k) }

def occIn (ws : List W32) (i : Nat) : Occ :=
  let x := (wordIn ws (occAt ws + 2 + 2 * i)).toNat
  { lane := if x / 65536 % 256 == 0xFF then none else some (x / 65536 % 256), tag := BitVec.ofNat 12 x, count := wordIn ws (occAt ws + 3 + 2 * i) }

/-- Trap registers at a word index, with their status at another. -/
def trapIn (ws : List W32) (i st : Nat) : TrapRegs :=
  { cause := causeBits (dwordIn ws i), pc := dwordIn ws (i + 2), addr := dwordIn ws (i + 4), mask := dwordIn ws (i + 6),
    act := dwordIn ws (i + 8), status := statusBits (dwordIn ws st) }

/-- A hold of some lanes, or none. -/
def holdIf (lanes : Mask) (pc : Pc) (kind : HoldKind) (y : Bool) : List Hold :=
  if lanes == 0 then [] else [{ lanes := lanes, pc := pc, kind := kind, y := y }]

/-- Install an area into a convoy (R324, R329): it stays stopped. -/
def installConvoy (s : State) (c : Convoy) (bs : List Byte) : Convoy :=
  let ws := areaWords bs
  let hs := areaWords (maskBytes 0x40 ((bs.drop 0x40).take 56))
  let st := (wordIn ws 7).toNat
  let live := dwordIn ws 12 &&& fullMask c.width
  let flags := (wordIn hs 13).toNat / 65536
  let lanes := (List.range c.width).map (laneIn ws c.width c.budget)
  let barl : Barl := { addr := pcIn hs 0, mask := dwordIn hs 2, arrived := dwordIn hs 4 }
  let inBarl := flags % 2 == 1
  let low := (lanes.getD (lowLane c.width live) Lane.blank).pc
  let edges := dwordIn (areaWords (maskBytes 0xF8 ((bs.drop 0xF8).take 8))) 0
  let stood := lanes.getD (lowLane c.width edges) Lane.blank
  let edgeIn : Nat → Pc → List Hold := fun k pc => if flags / 1024 % 4 == k then holdIf edges pc .edge false else []
  { c with
    index := st % 256, priv := st / 256 % 4, hrvValid := st / 1024 % 2 == 1, flags := (dwordIn ws 8).setWidth 6,
    conflicts := wordIn ws 10, live := live, trap := trapIn ws 0x20 0x2A, held := trapIn ws 0x2C 0x1E,
    scratch := (List.range 4).map fun i => dwordIn ws (0x36 + 2 * i)
    s := (List.range 64).map fun i => dwordIn ws (0x40 + 2 * i)
    a := (List.range 32).map fun i => ({ base := dwordIn ws (0xC0 + 4 * i), stride := wordIn ws (0xC0 + 4 * i + 2) } : Affine)
    g := (List.range 8).map fun i => momentIn ws (0x140 + 4 * i)
    lanes := lanes
    k := (List.range 8).map fun i => if i = 0 then 0 else dwordIn ws (0x180 + 8 * c.width + 2 * i) &&& fullMask c.width
    loops := (List.range (areaL ws)).map (levelIn ws)
    occ := (List.range (wordIn ws (occAt ws)).toNat).map (occIn ws)
    barl := if inBarl then some barl else none
    holds := (if flags / 2 % 2 == 1 then holdIf live low (.bar (wordIn hs 12).toNat ((wordIn hs 13).setWidth 16)) (flags / 16 % 2 == 1) else []) ++
      (if inBarl then holdIf (dwordIn hs 6) barl.addr .barl (flags / 32 % 2 == 1) else []) ++ edgeIn 0 stood.pc
    rvHolds := (if inBarl then holdIf (dwordIn hs 8) barl.addr .barl (flags / 64 % 2 == 1) else []) ++ edgeIn 1 stood.rv
    hrvHolds := (if inBarl then holdIf (dwordIn hs 10) barl.addr .barl (flags / 128 % 2 == 1) else []) ++ edgeIn 2 stood.hrv
    parked := flags / 4 % 2 == 1, doubled := flags / 8 % 2 == 1, stopped := true, ended := live == 0,
    watch := flags / 256 % 2 == 1, hwatch := flags / 512 % 2 == 1, ready := s.clock, busy := [], errs := [] }

/-! ### The block context area (R325) -/

/-- A queued matrix operation in 64 bytes. -/
def matRecord (m : MatOp) : List Byte :=
  let put : Nat → Nat → Nat → Nat → List Byte := fun code fr a b =>
    leBytes 1 code ++ leBytes 1 m.tile ++
    leBytes 1 ((if m.pair then 1 else 0) + (if m.cancelled then 2 else 0) + (if m.stamp.isSome then 4 else 0)) ++
    leBytes 1 fr ++ leBytes 4 a ++ leBytes 4 b
  (match m.kind with
   | .mma a b => put 0 0 a b
   | .mmas a b => put 1 0 a b
   | .azero => put 2 0 0 0
   | .accld a => put 3 0 a 0
   | .accst a fmt rm sc => put 4 (fmt + 4 * rm.toNat) a (sc + 128).toNat
   | .accstat n col first => put 5 ((if col then 1 else 0)) n first) ++
  leBytes 4 (m.stamp.getD 0) ++ leBytes 4 m.convoy ++ leBytes 8 m.id ++ padTo 16 m.headerA ++ padTo 16 m.headerB ++ leBytes 4 0

/-- A queued matrix operation of a block from its record. -/
def matFrom (bi : Nat) (r : List Byte) : MatOp :=
  let code := bytesNat r 0 1
  let fl := bytesNat r 2 1
  let fr := bytesNat r 3 1
  let a := bytesNat r 4 4
  let b := bytesNat r 8 4
  let hdrs := decide (code ≤ 1)
  { id := bytesNat r 20 8, tile := bytesNat r 1 1,
    kind := match code with
      | 0 => .mma a b
      | 1 => .mmas a b
      | 2 => .azero
      | 3 => .accld a
      | 4 => .accst a (fr % 4) (BitVec.ofNat 2 (fr / 4)) ((b : Int) - 128)
      | _ => .accstat a (fr % 2 == 1) b
    headerA := if hdrs then (r.drop 28).take 16 else [], headerB := if hdrs then (r.drop 44).take 16 else []
    stamp := if fl / 4 % 2 == 1 then some (bytesNat r 12 4) else none, convoy := bytesNat r 16 4, block := bi,
    pair := fl % 2 == 1, cancelled := fl / 2 % 2 == 1, rows := [], wrote := [], failed := false }

/-- The tiles of a core that a block claims. -/
def claimedTiles (s : State) (core bi : Nat) : List Nat :=
  (List.range 8).filter fun n => ((s.core core).tile n).claim == some bi

/-- The copies of a block on a core that are not over. -/
def blockCopies (s : State) (core bi : Nat) : List Nat :=
  (List.range s.copies.length).filter fun i => match s.copyAt i with
    | some o => o.block == bi && o.core == core && o.phase != .joined
    | none => false

def blockOps (s : State) (core bi : Nat) : List MatOp := (s.core core).queue.filter fun m => m.block == bi

def maskNat (l : List Nat) : Nat := l.foldl (fun m n => m + 2 ^ n) 0

/-- The barrier-object marks, one bit per 8-byte word of the allocation. -/
def markBytes (size : Nat) (l : LocalStore) : List Byte :=
  (List.range ((size + 63) / 64)).map fun i =>
    BitVec.ofNat 8 (maskNat ((List.range 8).filter fun j => l.marks.contains (64 * i + 8 * j)))

/-- The free-slot counters of a launch on a core (R117). -/
def areaCounts (s : State) (core li : Nat) : List Nat :=
  match (s.core core).free.find? fun x => x.launch == li with
  | some x => x.counts
  | none => List.replicate 16 8

/-- The block area that CTXSV.BLK writes on a core. -/
def blockArea (s : State) (core bi : Nat) : List Byte :=
  let b := s.block bi
  let l := blockLs b (isSecond b core)
  let tiles := claimedTiles s core bi
  let ops := blockOps s core bi
  let cps := blockCopies s core bi
  padTo 0x100 (leBytes 4 0x4B434C42 ++ leBytes 2 1 ++ leBytes 1 (maskNat tiles) ++ [0] ++ leBytes 4 b.size ++ leBytes 2 ops.length ++
    leBytes 2 cps.length ++ (areaCounts s core b.launch).map (BitVec.ofNat 8) ++ leBytes 1 core) ++
  padTo (roundUp b.size 256) (memRead l.mem 0 b.size) ++
  padTo (roundUp ((b.size + 63) / 64) 256) (markBytes b.size l) ++
  (tiles.flatMap fun n => ((s.core core).tile n).acc.flatMap fun x => leBytes 4 x.toNat) ++
  maskBytes 0x10000 (ops.flatMap matRecord ++ cps.flatMap fun i => padTo 128 (leBytes 8 i))

/-- The head of a block area does not fit its block (R325, R329). -/
def blockHeadBad (b : Block) (h : List Byte) : Bool :=
  bytesNat h 0 4 != 0x4B434C42 || bytesNat h 4 2 != 1 || bytesNat h 7 1 != 0 || bytesNat h 8 4 != b.size || (h.drop 0x21).any (· != 0)

/-- The size of a block area, from its head. -/
def blockAreaSize (b : Block) (h : List Byte) : Nat :=
  0x100 + roundUp b.size 256 + roundUp ((b.size + 63) / 64) 256 +
  16384 * ((List.range 8).filter fun n => bytesNat h 6 1 / 2 ^ n % 2 == 1).length + 64 * bytesNat h 0xC 2 + 128 * bytesNat h 0xE 2

/-- The tiles that a block area claims. -/
def areaTiles (h : List Byte) : List Nat := (List.range 8).filter fun n => bytesNat h 6 1 / 2 ^ n % 2 == 1

/-- The free-slot counters when a block is restored (R117). -/
def loadCounters (s : State) (core li : Nat) (h : List Byte) : State :=
  if (s.core core).free.any fun x => x.launch == li then s
  else
    let counts := if bytesNat h 0x20 1 / 16 == core / 16 then (List.range 16).map fun i => min 8 (bytesNat h (0x10 + i) 1)
      else List.replicate 16 8
    s.modCore core fun c => { c with free := c.free ++ [{ launch := li, counts := counts }] }

/-- Install a block area (R117, R167, R172, R325). Its operations go ahead of all others in the queue (assumption log 32). -/
def installBlock (s : State) (core bi : Nat) (bs : List Byte) : State :=
  let b := s.block bi
  let second := isSecond b core
  let n1 := 0x100 + roundUp b.size 256
  let n2 := n1 + roundUp ((b.size + 63) / 64) 256
  let tiles := areaTiles bs
  let n3 := n2 + 16384 * tiles.length
  let q := bytesNat bs 0xC 2
  let marks := (bs.drop n1).take ((b.size + 63) / 64)
  let s1 := modLs (loadCounters s core b.launch bs) bi second fun l => { l with
    mem := (indexed ((bs.drop 0x100).take b.size)).filter fun p => p.2 != 0
    marks := (indexed marks).flatMap fun p => ((List.range 8).filter fun j => p.2.getLsbD j).map fun j => 64 * p.1 + 8 * j }
  let s2 := (indexed tiles).foldl (fun s p => s.modCore core fun c => c.setTile p.2
    { claim := some bi, err := b.badTiles.contains ((if second then 8 else 0) + p.2), bad := false,
      acc := areaWords ((bs.drop (n2 + 16384 * p.1)).take 16384) }) s1
  let dev := maskBytes 0x10000 (bs.drop n3)
  let ops := (piecesOf 64 q dev).map (matFrom bi)
  let cps := (piecesOf 128 (bytesNat bs 0xE 2) (dev.drop (64 * q))).map fun r => bytesNat r 0 8
  let s3 := s2.modCore core fun c => { c with queue := ops ++ c.queue.filter fun m => m.block != bi }
  cps.foldl (fun s i => match s.copyAt i with
    | some o => if o.block == bi then s.setCopy i { o with core := core, seq := seqOf (s.convoy o.convoy).slot } else s
    | none => s) s3

/-! ### Reading and writing an area in memory -/

/-- The physical lines of an area, a cause, or not yet. -/
inductive AreaRes where
  | ok (s : State) (lines : List Nat)
  | bad (s : State) (cause addr : Nat)
  | wait

/-- Translate n bytes of an area in lines of 128 bytes (R101); each waits as an access that is made at its home in the step of its word. -/
def areaLines (s : State) (f : Focus) (c : Convoy) (e : Mask) (write : Bool) (va n : Nat) : AreaRes :=
  match checkWord s (convoyReq s c write) 0 false ((List.range ((n + 127) / 128)).map fun i => (0, va + 128 * i)) with
  | .stall => .wait
  | .bad s1 cause _ a => .bad s1 cause a
  | .ok s1 ls => if ls.any fun x => mustWait s1 (atOnce s1 f (lanesOf c.width e) x 128 write true) then .wait else .ok s1 (ls.map LaneAddr.pa)

/-- Store an area (R329): each line is a plain global write, performed at its home. -/
def storeArea (s : State) (f : Focus) (lanes lines : List Nat) (bs : List Byte) : State :=
  (lines.zip (piecesOf 128 lines.length bs)).foldl (fun s p =>
    writeHome s { plainAccess lanes 0 p.1 0 p.2.length (.store p.2) with core := f.core, convoy := f.convoy } p.2) s

/-- The bytes of the lines of an area, or the address of one with an uncorrectable error (R321). -/
def fetchArea (s : State) (va n : Nat) (lines : List Nat) : Nat ⊕ List Byte :=
  match (indexed lines).find? fun p => s.memBad p.2 (min 128 (n - 128 * p.1)) with
  | some p => .inl (va + 128 * p.1)
  | none => .inr ((lines.flatMap fun a => memRead s.mem a 128).take n)

/-- Read n bytes of an area, and go on with them. -/
def withArea (s : State) (f : Focus) (c : Convoy) (e : Mask) (va n : Nat) (k : State → List Byte → Res) : Res :=
  match areaLines s f c e false va n with
  | .wait => .wait s
  | .bad s1 cause a => memTrap s1 cause e a
  | .ok s1 lines => match fetchArea s1 va n lines with
    | .inl a => memTrap s1 causeSOFTERR e a
    | .inr bs => k (lines.foldl (fun s pa => raiseView s f.convoy (lanesOf c.width e) pa 128 s.steps) s1) bs

/-- Write an area, or wait. -/
def putArea (s : State) (f : Focus) (c : Convoy) (e : Mask) (va : Nat) (bs : List Byte) : Res :=
  match areaLines s f c e true va bs.length with
  | .wait => .wait s
  | .bad s1 cause a => memTrap s1 cause e a
  | .ok s1 lines => .done (storeArea s1 f (lanesOf c.width e) lines bs) stay

/-- The errors of a convoy's registers that CTXSV meets, since it reads them all: is there one that cannot be corrected, and how many are corrected, by SECNT field (R64, R320, R321)? -/
def contextBad (s : State) (t : Convoy) : Bool := t.errs.any fun x => !correctable (s.launchOf t).rec_.detection t x
def contextCorrected (s : State) (core : Nat) (t : Convoy) : State :=
  let ok := t.errs.filter (correctable (s.launchOf t).rec_.detection t)
  let isV : ErrCell → Bool := fun x => match x.reg with
    | .v _ => true
    | _ => false
  s.modCore core fun k => { k with secnt := secntAdd (secntAdd k.secnt 0 (ok.filter isV).length) 16 (ok.filter fun x => !isV x).length }

/-- The convoy at a handle on the issuing core (R329). -/
def handleConvoy (s : State) (core : Nat) (h : W64) : Option Nat :=
  (s.slotAt core (h.toNat / 256 % 32)).positions.getD (h.toNat % 256) none

/-- The checks that CTXSV and CTXLD share: the handle's other bits, and the alignment of the area (R329). -/
def runContext (w : FWord) (legal : Bool) (s : State) (body : Focus → Convoy → Mask → Nat → W64 → Res) : Host.Outcome State Fault Refusal :=
  runWord (privInfo w legal) s fun f c e =>
    supervisorOnly s c e
      (let area := (readU s c w.x).toNat
       let h := readU s c w.y
       if decide (2 ^ 13 ≤ h.toNat) then raise s causeLAYOUT e
       else if area % 256 != 0 then memTrap s causeALIGN e area
       else body f c e area h)

/-- CTXSV.BLK notes which tiles of its block are in the error state, or have an error that it meets now (R321). -/
def noteBadTiles (s : State) (core bi : Nat) : State :=
  s.modBlock bi fun b =>
    let off := if isSecond b core then 8 else 0
    { b with badTiles := (b.badTiles.filter fun x => x / 8 != off / 8) ++
        ((claimedTiles s core bi).filter fun n => ((s.core core).tile n).err || ((s.core core).tile n).bad).map (off + ·) }

/-- CTXSV (R324, R325, R329): it waits until the accesses of what it saves have come back. It reads every register of its convoy (R64). -/
def execCtxsv (w : FWord) (s : State) : Host.Outcome State Fault Refusal :=
  runContext w (Legal.ctx w) s fun f c e area h =>
    match handleConvoy s f.core h with
    | none => .trap s causeACCESS e h
    | some ti =>
      let t := s.convoy ti
      if w.bit 0 then
        (if (s.blockOf t).convoys.any fun i => !(s.convoy i).stopped || (s.convoy i).lanes.isEmpty then .trap s causeACCESS e h
         else if !blockQuiet s t.block then .wait s
         else putArea (noteBadTiles s f.core t.block) f c e area (blockArea s f.core t.block))
      else if !t.stopped || t.lanes.isEmpty then .trap s causeACCESS e h
      else if s.accesses.any fun a => a.convoy == ti then .wait s
      else if contextBad s t then raise s causeSOFTERR e
      else match putArea s f c e area (areaBytes s t) with
        | .done s1 move => .done (contextCorrected s1 f.core t) move
        | r => r

/-- Install a convoy area after its head has been checked, into a convoy that stands in the named position, by `put`. -/
def loadConvoy2 (s : State) (f : Focus) (c : Convoy) (e : Mask) (area : Nat) (t : Convoy) (put : State → Convoy → State) (head : List Byte) : Res :=
  let l := areaL (areaWords head)
  withArea s f c e area (areaSize t.width t.budget l 0) fun s1 pre =>
    let n := bytesNat pre (areaSize t.width t.budget l 0 - 8) 4
    withArea s1 f c e area (areaSize t.width t.budget l n) fun s2 bs =>
      if fieldsBad (areaWords bs) then memTrap s2 causeLAYOUT e area
      else .done (put s2 (installConvoy s2 t bs)) stay

/-- Load a convoy area into a position. -/
def loadArea (s : State) (f : Focus) (c : Convoy) (e : Mask) (area : Nat) (t : Convoy) (put : State → Convoy → State) : Res :=
  withArea s f c e area 16 fun s1 head =>
    if headBad t (areaWords head) then memTrap s1 causeLAYOUT e area else loadConvoy2 s1 f c e area t put head

/-- A convoy that comes into a free position that nothing has reserved: of the slot's launch and of the block that its area names (R324, R329; assumption log 32). -/
def strayConvoy (s : State) (core li : Nat) (h : W64) : Convoy :=
  let r := (s.launch li).rec_
  { newConvoy core (h.toNat / 256 % 32) (h.toNat % 256) r.width r.budget li noLaunch 0 0 0 with lanes := [], stopped := true }

/-- Seat such a convoy: its block is the one of its launch with the index in the area. -/
def seatStray (li : Nat) (index : Nat) (s : State) (t : Convoy) : State :=
  let bi := ((List.range s.blocks.length).find? fun bi => (s.block bi).launch == li && (s.block bi).index == index).getD noLaunch
  seatConvoy { s with convoys := s.convoys ++ [{ t with block := bi }] } s.convoys.length li

/-- The launch of a slot with a free position at a handle. -/
def freeAt (s : State) (core : Nat) (h : W64) : Option Nat :=
  let x := s.slotAt core (h.toNat / 256 % 32)
  if h.toNat % 256 < x.positions.length then x.launch else none

/-- Install a block area after its head has been checked: a tile that another block claims is waited for (R167). -/
def loadBlock2 (s : State) (f : Focus) (c : Convoy) (e : Mask) (area bi : Nat) (head : List Byte) : Res :=
  withArea s f c e area (blockAreaSize (s.block bi) head) fun s1 bs =>
    if (areaTiles bs).any fun n => match ((s1.core f.core).tile n).claim with
        | some b => b != bi
        | none => false then .wait s
    else .done (installBlock s1 f.core bi bs) stay

/-- CTXLD (R324, R325, R329): an area goes into a position that the distributor has reserved (R343), or into a free one of an open slot, where a convoy area names its block. A slot that no launch has opened has none that an area fits. -/
def execCtxld (w : FWord) (s : State) : Host.Outcome State Fault Refusal :=
  runContext w (Legal.ctx w) s fun f c e area h =>
    match handleConvoy s f.core h with
    | none =>
      (match (if w.bit 0 then none else freeAt s f.core h) with
       | none => memTrap s causeLAYOUT e area
       | some li => withArea s f c e area 0x20 fun s1 head =>
           loadArea s1 f c e area (strayConvoy s1 f.core li h) (seatStray li (bytesNat head 0x18 4)))
    | some ti =>
      let t := s.convoy ti
      if !t.lanes.isEmpty then .trap s causeACCESS e h
      else if w.bit 0 then
        withArea s f c e area 0x100 fun s1 head =>
          if blockHeadBad (s1.block t.block) head then memTrap s1 causeLAYOUT e area else loadBlock2 s1 f c e area t.block head
      else loadArea s f c e area t fun s2 t2 => s2.setConvoy ti t2

end Sys2Proof.Machine
end

