-- ==== Sys2Proof/Machine/Moving.lean ====
section
/-! DEFINITION. Type movement and masks (R205 to R214). -/

namespace Sys2Proof.Machine

/-- How many registers a value takes at a width. -/
def widthRegs (d64 : Bool) : Nat := if d64 then 2 else 1

/-- What MOV makes of the convoy, by its destination file (R205). -/
def moveValue (s : State) (f : Focus) (c : Convoy) (e : Mask) (d x : Opnd) (d64 : Bool) : Convoy :=
  match d with
  | .v n => if d64 then c.writeV64 e n.toNat fun l => readW64 s c l x else c.writeV e n.toNat fun l => readW32 s c l x
  | .s n => c.writeS n.toNat (readU s c x)
  | .a n => c.writeA n.toNat (readAffine s c x)
  | .m n => c.writeM e n.toNat fun l => readMom c l x
  | .g n => c.writeG n.toNat (readMom c 0 x)
  | .k n => c.writeK e n.toNat (readK c f.active x)
  | .sp _ => { c with flags := (readU s c x).setWidth 6 }
  | _ => c

/-- The latency of MOV by its destination (R185). -/
def moveLatency : Opnd → Nat
  | .v _ => 2
  | .m _ => 2
  | .k _ => 2
  | _ => 1

/-- MOV (R205). -/
def execMov (w : FWord) (s : State) : Host.Outcome State Fault Refusal :=
  let n := widthRegs (w.bit 0)
  runWord { hdr := w.hdr, legal := Legal.mov w, reads := [(w.x, n)], writes := [(w.d, n)], latency := some (moveLatency w.d) } s
    fun f c e => doneWith s f (moveValue s f c e w.d w.x (w.bit 0))

/-- MAT (R206). -/
def execMat (w : FWord) (s : State) : Host.Outcome State Fault Refusal :=
  runWord { hdr := w.hdr, legal := Legal.mat w, reads := [(w.x, 1)], writes := [(w.d, widthRegs (w.bit 0))], latency := some 2 } s
    fun f c e =>
      let v : Nat → W64 := fun l => affineAt (readAffine s c w.x) l
      doneWith s f (if w.bit 0 then writeRes64 c e w.d v else writeRes32 c e w.d fun l => (v l).setWidth 32)

/-- Is a signed value one of 32 bits (R53)? -/
def fits32 (i : Int) : Bool := decide (-(2 ^ 31) ≤ i) && decide (i < 2 ^ 31)

/-- Write an A register from an operand of that form. -/
def writeAff (c : Convoy) (d : Opnd) (v : Affine) : Convoy :=
  match d with
  | .a n => c.writeA n.toNat v
  | _ => c

/-- AFF (R207). -/
def execAff (w : FWord) (s : State) : Host.Outcome State Fault Refusal :=
  runWord { hdr := w.hdr, legal := Legal.aff w, reads := [(w.x, 1), (w.y, 1)], writes := [(w.d, 1)], latency := some 2 } s
    fun f c e =>
      let y := readU s c w.y
      if fits32 y.toInt || w.bit 0 then doneWith s f (writeAff c w.d { base := readU s c w.x, stride := y.setWidth 32 })
      else raise s causeAFOVF e

/-- DEM (R208). -/
def execDem (w : FWord) (s : State) : Host.Outcome State Fault Refusal :=
  let d64 := w.bit 1
  runWord { hdr := w.hdr, legal := Legal.dem w, reads := [(w.x, widthRegs d64)], writes := [(w.d, 1)], latency := some 2 } s
    fun f c e =>
      let v : Nat → W64 := fun l => if d64 then readW64 s c l w.x else (readW32 s c l w.x).setWidth 64
      let first := v (lowLane c.width e)
      let differ := maskWhere c.width fun l => e.getLsbD l && v l != first
      if !w.bit 0 && differ != 0 then raise s causeDEMFAIL differ
      else doneWith s f (writeRes64 c e w.d fun _ => first)

/-- The affine value that the lanes of E hold, or the lanes that fail (R209). -/
def demoteAffine (c : Convoy) (e : Mask) (x : Nat → W32) : Mask ⊕ Affine :=
  let check : Nat → Int → Mask ⊕ Affine := fun l0 s =>
    let bad := maskWhere c.width fun l => e.getLsbD l && x l0 + BitVec.ofInt 32 (((l : Int) - l0) * s) != x l
    if bad != 0 then .inl bad
    else .inr { base := (x l0).signExtend 64 - BitVec.ofInt 64 (l0 * s), stride := BitVec.ofInt 32 s }
  match lanesOf c.width e with
  | l0 :: l1 :: _ =>
    let d := (x l1 - x l0).toInt
    let gap : Int := (l1 : Int) - l0
    if d % gap != 0 then .inl (laneBit l1) else check l0 (d / gap)
  | l0 :: [] => check l0 0
  | [] => .inr Affine.zero

/-- DEMA (R209). -/
def execDema (w : FWord) (s : State) : Host.Outcome State Fault Refusal :=
  runWord { hdr := w.hdr, legal := Legal.dema w, reads := [(w.x, 1)], writes := [(w.d, 1)], latency := some 2 } s
    fun f c e =>
      match demoteAffine c e fun l => readW32 s c l w.x with
      | .inl bad => raise s causeDEMFAIL bad
      | .inr v => doneWith s f (writeAff c w.d v)

/-- MOVPC (R210). -/
def execMovpc (w : MovpcWord) (s : State) : Host.Outcome State Fault Refusal :=
  runWord { hdr := w.hdr, legal := Legal.movpc w, writes := [(w.d, match w.d with | .v _ => 2 | _ => 1)], latency := some 2 } s
    fun f c e => doneWith s f (writeRes64 c e w.d fun _ => (f.addr + w.disp.signExtend 48).setWidth 64)

/-- Write a K register from an operand of that form. -/
def writeMask (c : Convoy) (e : Mask) (d : Opnd) (m : Mask) : Convoy :=
  match d with
  | .k n => c.writeK e n.toNat m
  | _ => c

/-- ELECT (R211). -/
def execElect (w : FWord) (s : State) : Host.Outcome State Fault Refusal :=
  runWord { hdr := w.hdr, legal := Legal.elect w, reads := [(w.x, 1)], writes := [(w.d, 1)], latency := some 2 } s
    fun f c e =>
      let m := e &&& readK c f.active w.x
      doneWith s f (writeMask c e w.d (if m == 0 then 0 else laneBit (lowLane c.width m)))

/-- The lanes of E whose predicate holds, from a K or a V source (R212, R213). -/
def predicate (s : State) (f : Focus) (c : Convoy) (e : Mask) (x : Opnd) : Mask :=
  if x.isK then e &&& readK c f.active x else maskWhere c.width fun l => e.getLsbD l && readW32 s c l x != 0

/-- VOTE (R212). -/
def execVote (w : FWord) (s : State) : Host.Outcome State Fault Refusal :=
  runWord { hdr := w.hdr, legal := Legal.vote w, reads := [(w.x, 1)], writes := [(w.d, 1)], latency := some 2 } s
    fun f c e =>
      let p := predicate s f c e w.x
      let r : W64 := match w.rm.toNat with
        | 0 => p
        | 1 => if p != 0 then 1 else 0
        | _ => if p == e then 1 else 0
      doneWith s f (writeRes64 c e w.d fun _ => r)

/-- KSET (R213). -/
def execKset (w : FWord) (s : State) : Host.Outcome State Fault Refusal :=
  runWord { hdr := w.hdr, legal := Legal.kset w, reads := [(w.x, 1)], writes := [(w.d, 1)], latency := some 2 } s
    fun f c e => doneWith s f (writeMask c e w.d (if w.x.isS then readU s c w.x else predicate s f c e w.x))

/-- The mask operations of KOP (R214). -/
def maskOp (op : Nat) (a b : Mask) : Mask :=
  match op with
  | 0 => a &&& b
  | 1 => a ||| b
  | 2 => a ^^^ b
  | 3 => a &&& ~~~ b
  | _ => ~~~ a

/-- KOP (R214). -/
def execKop (w : FWord) (s : State) : Host.Outcome State Fault Refusal :=
  runWord { hdr := w.hdr, legal := Legal.kop w, reads := [(w.x, 1), (w.y, 1)], writes := [(w.d, 1)], latency := some 2 } s
    fun f c e => doneWith s f (writeMask c e w.d (maskOp (w.fld 0 3) (readK c f.active w.x) (readK c f.active w.y)))

end Sys2Proof.Machine
end

