-- ==== Sys2Proof/Machine/Integer.lean ====
section
/-! DEFINITION. Integer and address words, the long-immediate words and the pair word (R176, R184, R188, R215 to R228). -/

namespace Sys2Proof.Machine

/-- An integer operation at any width. -/
abbrev IntOp := (n : Nat) → BitVec n → BitVec n → BitVec n

/-- The latency of an integer word by its destination (R185). -/
def intLatency (v other : Nat) : Opnd → Nat
  | .v _ => v
  | _ => other

/-- What the checks know of a word of format F with one width (R215). -/
def fInfo (w : FWord) (legal : Bool) (n lat : Nat) : WordInfo :=
  { hdr := w.hdr, legal := legal, reads := [(w.x, n), (w.y, n), (w.z, n)], writes := [(w.d, n)], latency := some lat }

/-- The same of a word that may accrue flags. -/
def fpInfo (w : FWord) (legal : Bool) (n lat : Nat) : WordInfo := { fInfo w legal n lat with fixed := flagsAt lat }

/-- The results of an integer word at its width, written to V or S (R215). -/
def writeInt (s : State) (c : Convoy) (e : Mask) (w : FWord) (op : IntOp) : Convoy :=
  if w.d64 || w.d.isSReg then writeRes64 c e w.d fun l => op 64 (readW64 s c l w.x) (readW64 s c l w.y)
  else writeRes32 c e w.d fun l => op 32 (readW32 s c l w.x) (readW32 s c l w.y)

/-- The same with three operands. -/
def writeInt3 (s : State) (c : Convoy) (e : Mask) (w : FWord) (op : (n : Nat) → BitVec n → BitVec n → BitVec n → BitVec n) : Convoy :=
  if w.d64 || w.d.isSReg then
    writeRes64 c e w.d fun l => op 64 (readW64 s c l w.x) (readW64 s c l w.y) (readW64 s c l w.z)
  else writeRes32 c e w.d fun l => op 32 (readW32 s c l w.x) (readW32 s c l w.y) (readW32 s c l w.z)

/-- Write an affine result whose stride was computed exactly, or raise AFOVF (R53). -/
def finishAffine (s : State) (f : Focus) (c : Convoy) (e : Mask) (d : Opnd) (wrap : Bool) (base : W64) (stride : Int) : Res :=
  if fits32 stride || wrap then doneWith s f (writeAff c d { base := base, stride := BitVec.ofInt 32 stride })
  else raise s causeAFOVF e

/-- A two-operand integer word without an affine form. -/
def runInt (w : FWord) (legal : Bool) (v other : Nat) (s : State) (op : IntOp) : Host.Outcome State Fault Refusal :=
  runWord (fInfo w legal (widthRegs w.d64) (intLatency v other w.d)) s fun f c e => doneWith s f (writeInt s c e w op)

/-- A two-operand integer word with an affine form (R53). -/
def runIntAff (w : FWord) (legal : Bool) (v : Nat) (s : State) (op : IntOp) (stride : Affine → Affine → Int) :
    Host.Outcome State Fault Refusal :=
  runWord (fInfo w legal (widthRegs w.d64) (intLatency v 1 w.d)) s fun f c e =>
    if w.d.isAReg then
      let a := readAffine s c w.x
      let b := readAffine s c w.y
      finishAffine s f c e w.d w.wflag (op 64 a.base b.base) (stride a b)
    else doneWith s f (writeInt s c e w op)

/-- IADD (R217). -/
def execIadd (w : FWord) (s : State) : Host.Outcome State Fault Refusal :=
  runIntAff w (Legal.addSub w) 2 s (fun _ a b => a + b) fun a b => a.stride.toInt + b.stride.toInt

/-- ISUB (R217). -/
def execIsub (w : FWord) (s : State) : Host.Outcome State Fault Refusal :=
  runIntAff w (Legal.addSub w) 2 s (fun _ a b => a - b) fun a b => a.stride.toInt - b.stride.toInt

/-- IAND (R217). -/
def execIand (w : FWord) (s : State) : Host.Outcome State Fault Refusal :=
  runInt w (Legal.logic w) 2 1 s fun _ a b => a &&& b

/-- IOR (R217). -/
def execIor (w : FWord) (s : State) : Host.Outcome State Fault Refusal :=
  runInt w (Legal.logic w) 2 1 s fun _ a b => a ||| b

/-- IXOR (R217). -/
def execIxor (w : FWord) (s : State) : Host.Outcome State Fault Refusal :=
  runInt w (Legal.logic w) 2 1 s fun _ a b => a ^^^ b

/-- The lesser or the greater of two integers (R217). -/
def minMaxInt (isMax uns : Bool) : IntOp := fun _ a b =>
  let less := if uns then BitVec.ult a b else BitVec.slt a b
  if less == isMax then b else a

/-- IMIN (R217). -/
def execImin (w : FWord) (s : State) : Host.Outcome State Fault Refusal :=
  runInt w (Legal.minMax w) 2 1 s (minMaxInt false (w.bit 0))

/-- IMAX (R217). -/
def execImax (w : FWord) (s : State) : Host.Outcome State Fault Refusal :=
  runInt w (Legal.minMax w) 2 1 s (minMaxInt true (w.bit 0))

/-- IMUL (R219). One of two affine sources is uniform, and its base is the factor. -/
def execImul (w : FWord) (s : State) : Host.Outcome State Fault Refusal :=
  runIntAff w (Legal.imul w) 4 s (fun _ a b => a * b) fun a b =>
    a.stride.toInt * b.base.toInt + b.stride.toInt * a.base.toInt

/-- The high half of an exact product (R219). -/
def mulHigh (uns : Bool) : IntOp := fun n a b =>
  if uns then ((a.setWidth (n + n) * b.setWidth (n + n)).extractLsb' n n)
  else ((a.signExtend (n + n) * b.signExtend (n + n)).extractLsb' n n)

/-- IMULH (R219). -/
def execImulh (w : FWord) (s : State) : Host.Outcome State Fault Refusal :=
  runInt w (Legal.minMax w) 4 4 s (mulHigh (w.bit 0))

/-- IMAD (R220). -/
def execImad (w : FWord) (s : State) : Host.Outcome State Fault Refusal :=
  runWord (fInfo w (Legal.imad w) (widthRegs w.d64) 4) s fun f c e =>
    doneWith s f (writeInt3 s c e w fun _ a b z => a * b + z)

/-- The shift amount (R221). -/
def shiftAmount {n : Nat} (y : BitVec n) : Nat := y.toNat % 64

/-- ISHL (R221). -/
def execIshl (w : FWord) (s : State) : Host.Outcome State Fault Refusal :=
  runWord (fInfo w (Legal.ishl w) (widthRegs w.d64) (intLatency 2 1 w.d)) s fun f c e =>
    if w.d.isAReg then
      let a := readAffine s c w.x
      let n := shiftAmount (readU s c w.y)
      finishAffine s f c e w.d w.wflag (a.base <<< n) (a.stride.toInt * 2 ^ n)
    else doneWith s f (writeInt s c e w fun _ a b => a <<< shiftAmount b)

/-- ISHR (R221). -/
def execIshr (w : FWord) (s : State) : Host.Outcome State Fault Refusal :=
  runInt w (Legal.shr w) 2 1 s fun _ a b => a >>> shiftAmount b

/-- ISAR (R221). -/
def execIsar (w : FWord) (s : State) : Host.Outcome State Fault Refusal :=
  runInt w (Legal.shr w) 2 1 s fun _ a b => a.sshiftRight (shiftAmount b)

/-- Write one bit per lane of E to a K register (R222). -/
def writeBits (c : Convoy) (e : Mask) (d : Opnd) (p : Nat → Bool) : Convoy :=
  writeMask c e d (maskWhere c.width fun l => e.getLsbD l && p l)

/-- ICMP (R189, R222): 64 bits with .64 and where both sources are S. -/
def execIcmp (w : FWord) (s : State) : Host.Outcome State Fault Refusal :=
  let wide := w.d64 || (w.x.isS && w.y.isS)
  runWord { hdr := w.hdr, legal := Legal.icmp w, reads := [(w.x, widthRegs w.d64), (w.y, widthRegs w.d64)], writes := [(w.d, 1)],
            latency := some 3 } s fun f c e =>
    doneWith s f (writeBits c e w.d fun l =>
      if wide then intCond (w.fld 0 4) (readW64 s c l w.x) (readW64 s c l w.y)
      else intCond (w.fld 0 4) (readW32 s c l w.x) (readW32 s c l w.y))

/-- SEL (R223). -/
def execSel (w : FWord) (s : State) : Host.Outcome State Fault Refusal :=
  let n := widthRegs w.d64
  runWord { hdr := w.hdr, legal := Legal.sel w, reads := [(w.x, n), (w.y, n), (w.z, 1)], writes := [(w.d, n)], latency := some 2 } s
    fun f c e =>
      let k := readK c f.active w.z
      doneWith s f (
        if w.d64 then writeRes64 c e w.d fun l => readW64 s c l (if k.getLsbD l then w.x else w.y)
        else writeRes32 c e w.d fun l => readW32 s c l (if k.getLsbD l then w.x else w.y))

/-- How many bits are one (R224). -/
def popCount {n : Nat} (x : BitVec n) : Nat := ((List.range n).filter fun i => x.getLsbD i).length

/-- Zero bits above the highest one bit (R224). -/
def leadingZeros {n : Nat} (x : BitVec n) : Nat := if x.toNat == 0 then n else n - 1 - x.toNat.log2

/-- A count of the bits of X at its width (R224). -/
def runCount (w : FWord) (s : State) (f32 : W32 → Nat) (f64 : W64 → Nat) : Host.Outcome State Fault Refusal :=
  runWord { hdr := w.hdr, legal := Legal.count w, reads := [(w.x, widthRegs w.d64)], writes := [(w.d, 1)],
            latency := some (intLatency 2 1 w.d) } s fun f c e =>
    doneWith s f (
      if w.d64 || w.d.isSReg then writeRes32 c e w.d fun l => BitVec.ofNat 32 (f64 (readW64 s c l w.x))
      else writeRes32 c e w.d fun l => BitVec.ofNat 32 (f32 (readW32 s c l w.x)))

/-- POPC (R224). -/
def execPopc (w : FWord) (s : State) : Host.Outcome State Fault Refusal := runCount w s popCount popCount

/-- CLZ (R224). -/
def execClz (w : FWord) (s : State) : Host.Outcome State Fault Refusal := runCount w s leadingZeros leadingZeros

/-- Bit i moves to bit w-1-i (R224). -/
def bitReverse {n : Nat} (x : BitVec n) : BitVec n :=
  BitVec.ofNat n ((List.range n).foldl (fun a i => 2 * a + (if x.getLsbD i then 1 else 0)) 0)

/-- BREV (R224). -/
def execBrev (w : FWord) (s : State) : Host.Outcome State Fault Refusal :=
  runInt w (Legal.brev w) 2 1 s fun _ a _ => bitReverse a

/-- The position and the cut length of a bit field; none when it is empty (R225). -/
def bitField (n fieldWord : Nat) : Option (Nat × Nat) :=
  let p := fieldWord % 256
  let len := fieldWord / 256 % 256
  if len == 0 || n ≤ p then none else some (p, min len (n - p))

/-- BFE (R225). -/
def extractField (signed : Bool) : IntOp := fun n x y =>
  match bitField n y.toNat with
  | none => 0
  | some (p, m) => if signed then (x.extractLsb' p m).signExtend n else (x.extractLsb' p m).setWidth n

def execBfe (w : FWord) (s : State) : Host.Outcome State Fault Refusal := runInt w (Legal.bfe w) 2 1 s (extractField (w.bit 0))

/-- BFI (R225). -/
def insertField (n : Nat) (x y z : BitVec n) : BitVec n :=
  match bitField n z.toNat with
  | none => x
  | some (p, m) =>
    let mask : BitVec n := BitVec.ofNat n (2 ^ m - 1) <<< p
    (x &&& ~~~ mask) ||| ((y <<< p) &&& mask)

def execBfi (w : FWord) (s : State) : Host.Outcome State Fault Refusal :=
  runWord (fInfo w (Legal.bfi w) (widthRegs w.d64) (intLatency 2 1 w.d)) s fun f c e =>
    doneWith s f (writeInt3 s c e w insertField)

/-- An index of LEA at 64 bits (R226). -/
def leaIndex (s : State) (c : Convoy) (l : Nat) (uns : Bool) (y : Opnd) : W64 :=
  if y.isV then (if uns then (readW32 s c l y).setWidth 64 else (readW32 s c l y).signExtend 64) else readW64 s c l y

/-- LEA (R226). -/
def execLea (w : FWord) (s : State) : Host.Outcome State Fault Refusal :=
  let n := w.fld 0 6
  runWord { hdr := w.hdr, legal := Legal.lea w, reads := [(w.x, 2), (w.y, 1)], writes := [(w.d, 2)],
            latency := some (intLatency 2 1 w.d) } s fun f c e =>
    if w.d.isAReg then
      let a := readAffine s c w.x
      let b := readAffine s c w.y
      finishAffine s f c e w.d (w.bit 7) (a.base + (b.base <<< n)) (a.stride.toInt + b.stride.toInt * 2 ^ n)
    else doneWith s f (writeRes64 c e w.d fun l => readW64 s c l w.x + (leaIndex s c l (w.bit 6) w.y <<< n))

/-- One byte of a word as an integer. -/
def byteInt (uns : Bool) (x : W32) (i : Nat) : Int :=
  let b : BitVec 8 := x.extractLsb' (8 * i) 8
  if uns then b.toNat else b.toInt

/-- The sum of IDOT4 (R227). -/
def dot4 (xu yu : Bool) (x y z : W32) : W32 :=
  z + BitVec.ofInt 32 ((List.range 4).foldl (fun t i => t + byteInt xu x i * byteInt yu y i) 0)

/-- IDOT4 (R227): an S destination takes the sign-extended sum. -/
def execIdot4 (w : FWord) (s : State) : Host.Outcome State Fault Refusal :=
  runWord (fInfo w (Legal.idot4 w) 1 4) s fun f c e =>
    let t : Nat → W32 := fun l => dot4 (w.bit 0) (w.bit 1) (readW32 s c l w.x) (readW32 s c l w.y) (readW32 s c l w.z)
    doneWith s f (if w.d.isSReg then writeRes64 c e w.d fun l => (t l).signExtend 64 else writeRes32 c e w.d t)

/-- What the checks know of a long-immediate word that rewrites D (R188). -/
def iInfo (w : IWord) (legal : Bool) (reads : List (Opnd × Nat)) : WordInfo :=
  { hdr := w.hdr, legal := legal, reads := reads, writes := [(w.d, 1)], latency := some (intLatency 2 1 w.d) }

/-- An I-format word that combines D with its immediate at the width of D (R188). -/
def runImm (w : IWord) (s : State) (op : IntOp) : Host.Outcome State Fault Refusal :=
  runWord (iInfo w (Legal.iReg w) [(w.d, 1)]) s fun f c e =>
    doneWith s f (
      if w.d.isSReg then writeRes64 c e w.d fun l => op 64 (readW64 s c l w.d) (w.imm.signExtend 64)
      else writeRes32 c e w.d fun l => op 32 (readW32 s c l w.d) w.imm)

/-- MOVI (R188). -/
def execMovi (w : IWord) (s : State) : Host.Outcome State Fault Refusal :=
  let hi := w.imod.getLsbD 1
  runWord (iInfo w (Legal.movi w) (if hi then [(w.d, 1)] else [])) s fun f c e =>
    doneWith s f (
      if w.d.isSReg then writeRes64 c e w.d fun l =>
        if hi then w.imm ++ (readW64 s c l w.d).setWidth 32
        else if w.imod.getLsbD 0 then w.imm.setWidth 64 else w.imm.signExtend 64
      else writeRes32 c e w.d fun _ => w.imm)

/-- IADDI (R188). -/
def execIaddi (w : IWord) (s : State) : Host.Outcome State Fault Refusal := runImm w s fun _ a b => a + b

/-- IANDI (R188). -/
def execIandi (w : IWord) (s : State) : Host.Outcome State Fault Refusal := runImm w s fun _ a b => a &&& b

/-- IORI (R188). -/
def execIori (w : IWord) (s : State) : Host.Outcome State Fault Refusal := runImm w s fun _ a b => a ||| b

/-- IXORI (R188). -/
def execIxori (w : IWord) (s : State) : Host.Outcome State Fault Refusal := runImm w s fun _ a b => a ^^^ b

/-- ICMPI (R188, R189). -/
def execIcmpi (w : IWord) (s : State) : Host.Outcome State Fault Refusal :=
  let k : BitVec 3 := w.imm.extractLsb' 24 3
  let v : BitVec 24 := w.imm.extractLsb' 0 24
  runWord { hdr := w.hdr, legal := Legal.icmpi w, reads := [(w.d, 1)], writes := [(.k k, 1)], latency := some 3 } s fun f c e =>
    doneWith s f (writeBits c e (.k k) fun l =>
      if w.d.isSReg then intCond w.imod.toNat (readW64 s c l w.d) (v.signExtend 64)
      else intCond w.imod.toNat (readW32 s c l w.d) (v.signExtend 32))

/-- FMOVI (R188). -/
def execFmovi (w : IWord) (s : State) : Host.Outcome State Fault Refusal :=
  runWord (iInfo w (Legal.iReg w) []) s fun f c e => doneWith s f (writeRes32 c e w.d fun _ => w.imm)

/-- The second source of a half: an S source gives its low 32 bits, and a small immediate is a constant in a floating-point half (R175, R176). -/
def halfSource (s : State) (c : Convoy) (l : Nat) (h : Half) : W32 := if h.pop.isFp then readF s c l h.x else readW32 s c l h.x

/-- The result of one half, with its flags (R176, R191, R218, R231, R233). -/
def halfValue (s : State) (c : Convoy) (l : Nat) (h : Half) : W32 × FlagSet :=
  let d := c.readV h.d.toNat l
  let x := halfSource s c l h
  let rm : BitVec 2 := h.hm.extractLsb' 0 2
  match h.pop with
  | .mov => (x, flagNone)
  | .iadd => (d + x, flagNone)
  | .isub => (d - x, flagNone)
  | .iand => (d &&& x, flagNone)
  | .ior => (d ||| x, flagNone)
  | .ixor => (d ^^^ x, flagNone)
  | .ishl => (d <<< shiftAmount x, flagNone)
  | .ishr => (d >>> shiftAmount x, flagNone)
  | .imin => (minMaxInt false false 32 d x, flagNone)
  | .imax => (minMaxInt true false 32 d x, flagNone)
  | .fadd => f32Add rm d x
  | .fmul => f32Mul rm d x
  | .fmin => f32MinMax false false d x
  | .fmax => f32MinMax true false d x
  | .empty => (d, flagNone)

/-- The registers of a half. -/
def halfReads (h : Half) : List (Opnd × Nat) :=
  match h.pop with
  | .empty => []
  | .mov => [(h.x, 1)]
  | _ => [(.v h.d, 1), (h.x, 1)]

def halfWrites (h : Half) : List (Opnd × Nat) :=
  match h.pop with
  | .empty => []
  | _ => [(.v h.d, 1)]

def halfLatency (h : Half) : Nat := if h.pop.isFp then 4 else if h.pop == .empty then 0 else 2

/-- Write the result of a half that was computed before either half wrote. -/
def writeHalf (c : Convoy) (e : Mask) (h : Half) (v : Nat → W32) : Convoy :=
  match h.pop with
  | .empty => c
  | _ => c.writeV e h.d.toNat v

/-- PAIR_WORD (R176, R184): both halves read before either writes, for the whole active set; each half's register is ready by its own latency. -/
def execPairWord (w : PWord) (s : State) : Host.Outcome State Fault Refusal :=
  runWord { hdr := { stall := w.stall, y := w.y, gn := false, gk := 0 }, legal := Legal.pair w,
            reads := halfReads w.h1 ++ halfReads w.h2, writes := halfWrites w.h1 ++ halfWrites w.h2,
            fixed := [(.v w.h1.d, halfLatency w.h1), (.v w.h2.d, halfLatency w.h2)] ++ (if w.h1.pop.isFp || w.h2.pop.isFp then flagsAt 4 else []) } s fun f c e =>
    let c1 := writeHalf (writeHalf c e w.h1 fun l => (halfValue s c l w.h1).1) e w.h2 fun l => (halfValue s c l w.h2).1
    doneWith s f (c1.orFlags (flagsOver c.width e fun l => (halfValue s c l w.h1).2 ||| (halfValue s c l w.h2).2))

end Sys2Proof.Machine
end

