-- ==== Sys2Proof/Machine/FloatWords.lean ====
section
/-! DEFINITION. The floating-point words (R229 to R241): their operands, modes, results and flags; the arithmetic stands in Float.lean and Transc.lean. -/

namespace Sys2Proof.Machine

/-- A floating-point word with one FP32 result per lane (R229): its flags are those of the lanes of E (R40). -/
def runFp (w : FWord) (legal : Bool) (lat : Nat) (s : State) (val : Convoy → Nat → W32 × FlagSet) : Host.Outcome State Fault Refusal :=
  runValue (fpInfo w legal 1 lat) w.d s val

/-- FADD (R231). -/
def execFadd (w : FWord) (s : State) : Host.Outcome State Fault Refusal :=
  runFp w (Legal.fpTwo w) 4 s fun c l => f32Add w.rm (readF s c l w.x) (readF s c l w.y)

/-- FSUB (R231). -/
def execFsub (w : FWord) (s : State) : Host.Outcome State Fault Refusal :=
  runFp w (Legal.fpTwo w) 4 s fun c l => f32Sub w.rm (readF s c l w.x) (readF s c l w.y)

/-- FMUL (R231). -/
def execFmul (w : FWord) (s : State) : Host.Outcome State Fault Refusal :=
  runFp w (Legal.fpTwo w) 4 s fun c l => f32Mul w.rm (readF s c l w.x) (readF s c l w.y)

/-- FFMA (R232). -/
def execFfma (w : FWord) (s : State) : Host.Outcome State Fault Refusal :=
  runFp w (Legal.ffma w) 4 s fun c l => f32Fma w.rm (readF s c l w.x) (readF s c l w.y) (readF s c l w.z)

/-- FMIN (R24, R233). -/
def execFmin (w : FWord) (s : State) : Host.Outcome State Fault Refusal :=
  runFp w (Legal.fminmax w) 4 s fun c l => f32MinMax false (w.bit 2) (readF s c l w.x) (readF s c l w.y)

/-- FMAX (R24, R233). -/
def execFmax (w : FWord) (s : State) : Host.Outcome State Fault Refusal :=
  runFp w (Legal.fminmax w) 4 s fun c l => f32MinMax true (w.bit 2) (readF s c l w.x) (readF s c l w.y)

/-- FCMP (R234). -/
def execFcmp (w : FWord) (s : State) : Host.Outcome State Fault Refusal :=
  runMask (fpInfo w (Legal.fcmp w) 1 3) w.d s fun c _ l => fpCond (w.fld 0 4) (readF s c l w.x) (readF s c l w.y)

/-- A transcendental of one operand (R23, R235). -/
def runTransc (w : FWord) (s : State) (fn : Nat → Nat × FlagSet) : Host.Outcome State Fault Refusal :=
  runFp w (Legal.fpOne w) 12 s fun c l => fr32 (fn (readF s c l w.x).toNat)

/-- FRCP (R235). -/
def execFrcp (w : FWord) (s : State) : Host.Outcome State Fault Refusal := runTransc w s fRcp

/-- FRSQ (R235). -/
def execFrsq (w : FWord) (s : State) : Host.Outcome State Fault Refusal := runTransc w s fRsqrt

/-- FSQRT (R235). -/
def execFsqrt (w : FWord) (s : State) : Host.Outcome State Fault Refusal := runTransc w s fSqrt

/-- FEXP2 (R235). -/
def execFexp2 (w : FWord) (s : State) : Host.Outcome State Fault Refusal := runTransc w s fExp2

/-- FLOG2 (R235). -/
def execFlog2 (w : FWord) (s : State) : Host.Outcome State Fault Refusal := runTransc w s fLog2

/-- FSIN (R235). -/
def execFsin (w : FWord) (s : State) : Host.Outcome State Fault Refusal := runTransc w s fSinPi

/-- FCOS (R235). -/
def execFcos (w : FWord) (s : State) : Host.Outcome State Fault Refusal := runTransc w s fCosPi

/-- FTANH (R235). -/
def execFtanh (w : FWord) (s : State) : Host.Outcome State Fault Refusal := runTransc w s fTanh

/-- FDIV (R235). -/
def execFdiv (w : FWord) (s : State) : Host.Outcome State Fault Refusal :=
  runFp w (Legal.fdiv w) 12 s fun c l => f32Div (readF s c l w.x) (readF s c l w.y)

/-- Round to an integral value (R236): only NV, for a signalling NaN. -/
def f32Integral (rm : BitVec 2) (x : W32) : W32 × FlagSet :=
  match fDecode fmtFP32 x.toNat with
  | .nan sig => (f32Canon, if sig then flagNV else flagNone)
  | .inf _ => (x, flagNone)
  | .fin neg m e =>
    let (n, d) := scaleFrac m 1 e
    (BitVec.ofNat 32 (fRound fmtFP32 0 neg (roundInt rm neg n d).1 1 0).1, flagNone)

/-- FRND (R236). -/
def execFrnd (w : FWord) (s : State) : Host.Outcome State Fault Refusal :=
  runFp w (Legal.frnd w) 4 s fun c l => f32Integral w.rm (readF s c l w.x)

/-- FP32 to an integer of v bits (R237). -/
def f32ToInt (rm : BitVec 2) (uns : Bool) (v : Nat) (x : W32) : Int × FlagSet :=
  let lo : Int := if uns then 0 else -(2 ^ (v - 1) : Nat)
  let hi : Int := if uns then (2 ^ v : Nat) - 1 else (2 ^ (v - 1) : Nat) - 1
  match fDecode fmtFP32 x.toNat with
  | .nan _ => (0, flagNV)
  | .inf neg => (if neg then lo else hi, flagNV)
  | .fin neg m e =>
    let (n, d) := scaleFrac m 1 e
    let (q, inexact) := roundInt rm neg n d
    let r : Int := if neg then -(q : Int) else q
    if r < lo then (lo, flagNV) else if hi < r then (hi, flagNV) else (r, if inexact then flagNX else flagNone)

/-- F2I (R237): an S destination always takes 64 bits. -/
def execF2i (w : FWord) (s : State) : Host.Outcome State Fault Refusal :=
  let wide := w.d64 || w.d.isSReg
  let val : Convoy → Nat → Int × FlagSet := fun c l => f32ToInt w.rm (w.bit 2) (if wide then 64 else 32) (readF s c l w.x)
  runWord { hdr := w.hdr, legal := Legal.f2i w, reads := [(w.x, 1)], writes := [(w.d, widthRegs w.d64)], latency := some 4, fixed := flagsAt 4 } s
    fun f c e =>
      let c1 := if wide then writeRes64 c e w.d fun l => BitVec.ofInt 64 (val c l).1
        else writeRes32 c e w.d fun l => BitVec.ofInt 32 (val c l).1
      doneWith s f (c1.orFlags (if w.d.isSReg then (val c (lowLane c.width e)).2 else flagsOver c.width e fun l => (val c l).2))

/-- An integer of n bits to FP32 (R238). -/
def intToF32 (rm : BitVec 2) (x : Int) : W32 × FlagSet := fr32 (fRound fmtFP32 rm (decide (x < 0)) x.natAbs 1 0)

/-- I2F (R238): an S source is always read at 64 bits. -/
def execI2f (w : FWord) (s : State) : Host.Outcome State Fault Refusal :=
  runValue { hdr := w.hdr, legal := Legal.i2f w, reads := [(w.x, widthRegs w.d64)], writes := [(w.d, 1)], latency := some 4, fixed := flagsAt 4 } w.d s
    fun c l =>
      if w.d64 || w.x.isS then
        let x := readW64 s c l w.x
        intToF32 w.rm (if w.bit 2 then x.toNat else x.toInt)
      else
        let x := readW32 s c l w.x
        intToF32 w.rm (if w.bit 2 then x.toNat else x.toInt)

/-- The format codes of FCVT (R239). -/
def cvtFmt (code : Nat) : Fmt := match code with
  | 0 => fmtFP32
  | 1 => fmtFP16
  | _ => fmtBF16

/-- Put n bits at a place of a register value. -/
def putBits (old : W32) (at_ n v : Nat) : W32 :=
  BitVec.ofNat 32 (old.toNat % 2 ^ at_ + v % 2 ^ n * 2 ^ at_ + old.toNat / 2 ^ (at_ + n) * 2 ^ (at_ + n))

/-- A destination read as 32 bits: V in the lane, or S[31:0]. -/
def oldValue (s : State) (c : Convoy) (l : Nat) (d : Opnd) : W32 := readW32 s c l d

/-- FCVT (R239): a 16-bit destination keeps the other element of D. -/
def cvtValue (s : State) (c : Convoy) (l : Nat) (w : FWord) : W32 × FlagSet :=
  let dst := w.fld 2 2
  let src := w.fld 4 2
  let x := if src == 0 then readF s c l w.x else readPacked s c (cvtFmt src) l w.x
  let bits := if src == 0 then x.toNat else if w.bit 6 then x.toNat / 65536 else x.toNat % 65536
  let (r, fl) := fConvert (cvtFmt src) (cvtFmt dst) w.rm bits
  (if dst == 0 then BitVec.ofNat 32 r else putBits (oldValue s c l w.d) (if w.bit 7 then 16 else 0) 16 r, fl)

def execFcvt (w : FWord) (s : State) : Host.Outcome State Fault Refusal :=
  runValue { hdr := w.hdr, legal := Legal.fcvt w, reads := (w.x, 1) :: (if w.fld 2 2 == 0 then [] else [(w.d, 1)]),
             writes := [(w.d, 1)], latency := some 4, fixed := flagsAt 4 } w.d s fun c l => cvtValue s c l w

/-- The element format of the packed words (R240). -/
def halfFmt (w : FWord) : Fmt := if w.bit 2 then fmtBF16 else fmtFP16

/-- Two 16-bit elements, each on its own (R240). -/
def packed2 (op : Nat → Nat × FlagSet) : W32 × FlagSet :=
  let a := op 0
  let b := op 1
  (BitVec.ofNat 32 (b.1 * 65536 + a.1), a.2 ||| b.2)

def elem16 (x : W32) (i : Nat) : Nat := (x.extractLsb' (16 * i) 16).toNat

/-- HADD2 (R240). -/
def execHadd2 (w : FWord) (s : State) : Host.Outcome State Fault Refusal :=
  let m := halfFmt w
  runFp w (Legal.hTwo w) 4 s fun c l =>
    let x := readPacked s c m l w.x
    let y := readPacked s c m l w.y
    packed2 fun i => fAdd m w.rm (elem16 x i) (elem16 y i)

/-- HMUL2 (R240). -/
def execHmul2 (w : FWord) (s : State) : Host.Outcome State Fault Refusal :=
  let m := halfFmt w
  runFp w (Legal.hTwo w) 4 s fun c l =>
    let x := readPacked s c m l w.x
    let y := readPacked s c m l w.y
    packed2 fun i => fMul m w.rm (elem16 x i) (elem16 y i)

/-- HFMA2 (R240). -/
def execHfma2 (w : FWord) (s : State) : Host.Outcome State Fault Refusal :=
  let m := halfFmt w
  runFp w (Legal.hfma2 w) 4 s fun c l =>
    let x := readPacked s c m l w.x
    let y := readPacked s c m l w.y
    let z := readPacked s c m l w.z
    packed2 fun i => fFma m w.rm (elem16 x i) (elem16 y i) (elem16 z i)

/-- The class bit of a value (R241). -/
def classBit (x : W32) : Nat :=
  match fDecode fmtFP32 x.toNat with
  | .nan true => 8
  | .nan false => 9
  | .inf neg => if neg then 0 else 7
  | .fin neg m _ =>
    if m == 0 then (if neg then 3 else 4)
    else if m < 2 ^ 23 then (if neg then 2 else 5)
    else if neg then 1 else 6

/-- FCLASS (R241). -/
def execFclass (w : FWord) (s : State) : Host.Outcome State Fault Refusal :=
  runValue (fInfo w (Legal.fpOne w) 1 4) w.d s fun c l => (1#32 <<< classBit (readF s c l w.x), flagNone)

end Sys2Proof.Machine
end

