-- ==== Sys2Proof/Machine/Lanes.lean ====
section
/-! DEFINITION. The cross-lane words (R252 to R258). -/

namespace Sys2Proof.Machine

/-- The segment size (R252). -/
def segSize (w : FWord) (c : Convoy) : Nat := min (2 ^ w.fld 5 3) c.width

/-- The source lane of SHFL, when it is valid (R253). -/
def shflSource (mode g l y : Nat) : Option Nat :=
  let r := l % g
  let b := l - r
  match mode with
  | 0 => some (b + y % g)
  | 1 => if y ≤ r then some (l - y) else none
  | 2 => if r + y < g then some (l + y) else none
  | _ => some (b + (r ^^^ (y % g)))

/-- The lane whose X a lane receives: its own where the source is not valid or not in E (R253). -/
def shflLane (s : State) (c : Convoy) (e : Mask) (w : FWord) (l : Nat) : Nat :=
  match shflSource w.rm.toNat (segSize w c) l ((readW32 s c l w.y).toNat % 64) with
  | some m => if e.getLsbD m then m else l
  | none => l

/-- SHFL (R253). -/
def execShfl (w : FWord) (s : State) : Host.Outcome State Fault Refusal :=
  let n := widthRegs w.d64
  runWord { hdr := w.hdr, legal := Legal.shfl w, reads := [(w.x, n), (w.y, 1)], writes := [(w.d, n)], latency := some 6 } s
    fun f c e =>
      doneWith s f (
        if w.d64 then writeRes64 c e w.d fun l => readW64 s c (shflLane s c e w l) w.x
        else writeRes32 c e w.d fun l => readW32 s c (shflLane s c e w l) w.x)

/-- The rank of a floating-point value (R25): every NaN above +∞, +0 above −0. -/
def fpRank (f : Fmt) (x : Nat) : Int := if fIsNaN f x then 2 ^ 40 else fOrderKey f x

/-- Is a value of lower rank than another in an order of CMPX (R254)? -/
def cmpxLess (order : Nat) (a b : W32) : Bool :=
  match order with
  | 0 => BitVec.slt a b
  | 1 => BitVec.ult a b
  | _ => decide (fpRank fmtFP32 a.toNat < fpRank fmtFP32 b.toNat)

/-- What a lane receives from its pair (R254). -/
def cmpxValue (s : State) (c : Convoy) (e : Mask) (w : FWord) (l : Nat) : W32 :=
  let p := l ^^^ ((readU s c w.y).toNat % 64)
  let z := (readU s c w.z).toNat % 64
  let mine := readW32 s c l w.x
  if p == l || c.width ≤ p || !e.getLsbD p then mine
  else
    let other := readW32 s c p w.x
    let lo := min l p
    let desc := w.bit 2 != ((lo &&& z) != 0)
    let takesLess := (l == lo) != desc
    if takesLess then (if cmpxLess w.rm.toNat other mine then other else mine)
    else (if cmpxLess w.rm.toNat mine other then other else mine)

/-- CMPX (R254). -/
def execCmpx (w : FWord) (s : State) : Host.Outcome State Fault Refusal :=
  runWord (if w.rm == 2 then fpInfo w (Legal.cmpx w) 1 6 else fInfo w (Legal.cmpx w) 1 6) s fun f c e =>
    doneWith s f ((writeRes32 c e w.d fun l => cmpxValue s c e w l).orFlags
      (if w.rm == 2 then flagsOver c.width e fun l => fSigFlag fmtFP32 (readW32 s c l w.x).toNat else flagNone))

/-- The combine of SCAN and IRED (R255). -/
def scanOp (op : Nat) (a b : W32) : W32 :=
  match op with
  | 0 => a + b
  | 1 => if BitVec.slt a b then b else a
  | 2 => if BitVec.slt b a then b else a
  | 3 => if BitVec.ult a b then b else a
  | 4 => if BitVec.ult b a then b else a
  | 5 => a &&& b
  | 6 => a ||| b
  | _ => a ^^^ b

/-- Its identity (R255). -/
def scanIdentity (op : Nat) : W32 :=
  match op with
  | 1 => 0x80000000
  | 2 => 0x7FFFFFFF
  | 4 => 0xFFFFFFFF
  | 5 => 0xFFFFFFFF
  | _ => 0

/-- The combine over the lanes of E that pass a test. -/
def combineOver (s : State) (c : Convoy) (e : Mask) (w : FWord) (p : Nat → Bool) : W32 :=
  ((lanesOf c.width e).filter p).foldl (fun acc m => scanOp (w.fld 0 3) acc (readW32 s c m w.x)) (scanIdentity (w.fld 0 3))

/-- SCAN (R256). -/
def execScan (w : FWord) (s : State) : Host.Outcome State Fault Refusal :=
  runWord (fInfo w (Legal.scan w) 1 8) s fun f c e =>
    let g := segSize w c
    doneWith s f (writeRes32 c e w.d fun l =>
      combineOver s c e w fun m => m / g == l / g && (if w.bit 3 then decide (m < l) else decide (m ≤ l)))

/-- IRED (R255, R256). -/
def execIred (w : FWord) (s : State) : Host.Outcome State Fault Refusal :=
  runWord (fInfo w (Legal.ired w) 1 8) s fun f c e =>
    let g := segSize w c
    doneWith s f (
      if w.d.isSReg then
        let r := combineOver s c e w fun _ => true
        writeRes64 c e w.d fun _ => if w.fld 0 3 ≤ 2 then r.signExtend 64 else r.setWidth 64
      else writeRes32 c e w.d fun l => combineOver s c e w fun m => m / g == l / g)

/-- The format of REDMAXI. -/
def maxiFmt (code : Nat) : Fmt := match code with
  | 0 => fmtFP32
  | 1 => fmtFP16
  | _ => fmtBF16

/-- What a lane offers: its value and its index (R257). -/
def maxiOffer (s : State) (c : Convoy) (w : FWord) (l : Nat) : Nat × Nat :=
  let x := readW32 s c l w.x
  (if w.rm == 0 then x.toNat else x.toNat % 65536, if w.y.isNone then l else (readW32 s c l w.y).toNat)

/-- The better of two offers (R25): higher rank, then lower index; the first, of the lower lane, where both are equal. -/
def maxiBetter (m : Fmt) (a b : Nat × Nat) : Nat × Nat :=
  if fpRank m a.1 < fpRank m b.1 then b
  else if fpRank m b.1 < fpRank m a.1 then a
  else if b.2 < a.2 then b else a

/-- The winner of the lanes of E (R25): with .NUM, NaNs take part only where there is nothing else. -/
def maxiWinner (s : State) (c : Convoy) (e : Mask) (w : FWord) : Nat × Nat :=
  let m := maxiFmt w.rm.toNat
  let all := (lanesOf c.width e).map (maxiOffer s c w)
  let nums := all.filter fun o => !fIsNaN m o.1
  match (if w.bit 2 && !nums.isEmpty then nums else all) with
  | o :: r => r.foldl (maxiBetter m) o
  | [] => (0, 0)

/-- REDMAXI (R257). -/
def execRedmaxi (w : FWord) (s : State) : Host.Outcome State Fault Refusal :=
  runWord { hdr := w.hdr, legal := Legal.redmaxi w, reads := [(w.x, 1), (w.y, 1)], writes := [(w.d, 2)], latency := some 8, fixed := flagsAt 8 } s
    fun f c e =>
      let m := maxiFmt w.rm.toNat
      let o := maxiWinner s c e w
      let v := if fIsNaN m o.1 then fmtCanon m else o.1
      let r : W64 := BitVec.ofNat 64 (o.2 * 2 ^ 32 + v)
      doneWith s f ((writeRes64 c e w.d fun _ => r).orFlags
        (flagsOver c.width e fun l => fSigFlag m (maxiOffer s c w l).1))

/-- The lanes of E with the value of lane l (R258). -/
def matchSet (s : State) (c : Convoy) (e : Mask) (w : FWord) (l : Nat) : Mask :=
  maskWhere c.width fun m => e.getLsbD m &&
    (if w.d64 then readW64 s c m w.x == readW64 s c l w.x else readW32 s c m w.x == readW32 s c l w.x)

/-- MATCH (R258). -/
def execMatchLanes (w : FWord) (s : State) : Host.Outcome State Fault Refusal :=
  runWord { hdr := w.hdr, legal := Legal.matchLanes w, reads := [(w.x, widthRegs w.d64)], writes := [(w.d, if w.rm == 0 then 2 else 1)],
            latency := some 6 } s fun f c e =>
    doneWith s f (match w.rm.toNat with
      | 0 => writeRes64 c e w.d fun l => matchSet s c e w l
      | 1 => writeBits c e w.d fun l => matchSet s c e w l != laneBit l
      | _ => writeBits c e w.d fun l => lowLane c.width (matchSet s c e w l) == l)

end Sys2Proof.Machine
end

