-- ==== Sys2Proof/Machine/MatrixWords.lean ====
section
/-! DEFINITION. The matrix words (R86, R118, R163, R166 to R172, R296 to R299): their checks at issue, the claim of a tile and their place in the queue. -/

namespace Sys2Proof.Machine

/-- Is .PAIR legal where the word stands (R171, R296)? -/
def pairLegal (s : State) (w : FWord) : Bool :=
  !w.bit 7 || (match s.focus with
    | some f => (s.launchOf (s.convoy f.convoy)).rec_.tandem
    | none => false)

/-- The cores a word acts on (R171). -/
def wordCores (core : Nat) (pair : Bool) : List Nat := if pair then [core / 2 * 2, core / 2 * 2 + 1] else [core]

/-- LAYOUT for a tile number above 7 (R296). -/
def tileCause (t : W64) : Option Cause := if 7 < t.toNat then some (causeLAYOUT, t.toNat) else none

/-- Is a tile of one of the cores in the error state (R321)? -/
def tileErr (s : State) (cores : List Nat) (t : Nat) : Bool := decide (t < 8) && cores.any fun k => ((s.core k).tile t).err

/-- What the checks know of a matrix word; one that names a tile in error raises SOFTERR at place 4 unless it clears the state (R289, R321). -/
def matInfo (s : State) (w : FWord) (legal clears : Bool) (writes : List (Opnd × Nat)) : WordInfo :=
  { hdr := w.hdr, legal := legal && pairLegal s w, reads := (if writes.isEmpty then [(w.d, 1)] else []) ++ [(w.x, 1), (w.y, 1), (w.z, 1)],
    writes := writes, uni := true,
    soft := inFocus s none fun c =>
      if !clears && tileErr s (wordCores c.core (w.bit 7)) (readU s c w.x).toNat then some 0 else none }

/-- Must a matrix word wait: a pair operation runs on the follower, another block claims the tile, or a queue is full (R86, R167, R168)? -/
def matHeld (s : State) (c : Convoy) (core t : Nat) (cores : List Nat) : Bool :=
  pairHolds s core || cores.any fun k =>
    decide (4 ≤ (s.core k).queue.length) || (match ((s.core k).tile t).claim with
      | some b => b != c.block
      | none => false)

/-- May a block claim a tile: a lay-by block claims none (R167)? -/
def claimsTiles (b : Block) : Bool := b.kind == .ordinary

/-- Claim a tile that no block claims: its entries become +0 (R167). -/
def claimTile (s : State) (bi t core : Nat) : State :=
  if claimsTiles (s.block bi) && ((s.core core).tile t).claim.isNone then
    s.modCore core fun k => k.setTile t { k.tile t with claim := some bi, bad := false, acc := List.replicate 4096 0 }
  else s

/-- Put an operation into the queue of each of its arrays. -/
def queueMat (s : State) (o : MatOp) (cores : List Nat) : State :=
  cores.foldl (fun s k => (claimTile s o.block o.tile k).modCore k fun x => { x with queue := x.queue ++ [o] }) s

/-- The end of a matrix word whose checks pass: its holds, then the queue. -/
def enterMat (s : State) (f : Focus) (c : Convoy) (e : Mask) (i : Instr) (w : FWord) (kind : MatKind) (ha hb : List Byte) (stamp : Option Nat) : Res :=
  let t := (readU s c w.x).toNat
  let cores := wordCores f.core (w.bit 7)
  if matHeld s c f.core t cores then .hold s [(e, .retry i)]
  else .done (queueMat s { id := s.steps, kind := kind, tile := t, headerA := ha, headerB := hb, stamp := stamp, convoy := f.convoy,
                           block := c.block, pair := w.bit 7, cancelled := false, rows := [], wrote := [], failed := false } cores) stay

/-- The local store that holds the A tile: the leader's for a pair operation (R171). -/
def aStore (s : State) (c : Convoy) (pair : Bool) : LocalStore := if pair then (s.blockOf c).ls else lsOf s c

/-- The LAYOUT causes of R163, in its order. -/
def multiplyCause (ha hb : TileHdr) (a b : Nat) (sparse : Bool) : Option Cause :=
  layoutCause (!ha.fits) a <|> layoutCause (!hb.fits) b <|> layoutCause ha.sparse a <|> layoutCause (hb.sparse != sparse) b <|>
  layoutCause (if sparse then 32 * ha.k != 48 * hb.k || hb.n * hb.k % 32 != 0 else ha.k != hb.k) b <|>
  layoutCause (decide (4096 < mulDuration ha hb)) b

/-- What the checks know of MMA and MMAS: with an error in one of the two headers, which they read at issue (R163, R289). -/
def multiplyInfo (s : State) (w : FWord) : WordInfo :=
  let i := matInfo s w (Legal.mma w) false []
  { i with soft := i.soft <|> inFocus s none fun c =>
      localError (aStore s c (w.bit 7)) (s.blockOf c).size 256 (readU s c w.y).toNat 16 <|>
        localError (lsOf s c) (s.blockOf c).size 256 (readU s c w.z).toNat 16 }

/-- MMA and MMAS up to the queue (R163, R296, R297): the tile number comes after the checks of R163, as another cause of the entry (R289; assumption log 21). -/
def multiplyWord (s : State) (f : Focus) (c : Convoy) (e : Mask) (i : Instr) (w : FWord) (sparse : Bool) : Res :=
  let size := (s.blockOf c).size
  let a := (readU s c w.y).toNat
  let b := (readU s c w.z).toNat
  let st := stampOf s c w.d
  let la := aStore s c (w.bit 7)
  let lb := lsOf s c
  orCause s e (alignCause [(a, 256), (b, 256)] <|> accessCause size [(a, 16), (b, 16)])
    (let ha := memRead la.mem a 16
     let hb := memRead lb.mem b 16
     orCause s e (multiplyCause (tileHdr ha) (tileHdr hb) a b sparse <|> alignCause (stampItem st) <|>
         accessCause size ([(a, (tileHdr ha).bytes), (b, (tileHdr hb).bytes)] ++ stampItem st) <|> tileCause (readU s c w.x))
       (enterMat s f c e i w (if sparse then .mmas a b else .mma a b) ha hb st))

/-- MMA (R297). -/
def execMma (w : FWord) (s : State) : Host.Outcome State Fault Refusal :=
  runFork (multiplyInfo s w) s fun f c e => multiplyWord s f c e (.mma w) w false

/-- MMAS (R297). -/
def execMmas (w : FWord) (s : State) : Host.Outcome State Fault Refusal :=
  runFork (multiplyInfo s w) s fun f c e => multiplyWord s f c e (.mmas w) w true

/-- The causes of a word with a stamp and perhaps a region (R169, R296): ALIGN of both, ACCESS of both, then the tile number (assumption log 21). -/
def regionCause (s : State) (c : Convoy) (w : FWord) (region : List (Nat × Nat)) (st : Option Nat) : Option Cause :=
  alignCause (region.map (fun r => (r.1, 1024)) ++ stampItem st) <|> accessCause (s.blockOf c).size (region ++ stampItem st) <|>
    tileCause (readU s c w.x)

/-- AZERO (R298). -/
def execAzero (w : FWord) (s : State) : Host.Outcome State Fault Refusal :=
  runFork (matInfo s w (Legal.azero w) true []) s fun f c e =>
    let st := stampOf s c w.d
    orCause s e (regionCause s c w [] st) (enterMat s f c e (.azero w) w .azero [] [] st)

/-- ACCLD (R298). -/
def execAccld (w : FWord) (s : State) : Host.Outcome State Fault Refusal :=
  runFork (matInfo s w (Legal.accld w) true []) s fun f c e =>
    let st := stampOf s c w.d
    let src := (readU s c w.y).toNat
    orCause s e (regionCause s c w [(src, 16384)] st) (enterMat s f c e (.accld w) w (.accld src) [] [] st)

/-- ACCST (R298). -/
def execAccst (w : FWord) (s : State) : Host.Outcome State Fault Refusal :=
  runFork (matInfo s w (Legal.accst w) false []) s fun f c e =>
    let st := stampOf s c w.d
    let dst := (readU s c w.y).toNat
    let scale : BitVec 8 := (readU s c w.z).setWidth 8
    orCause s e (regionCause s c w [(dst, 4096 * (accstFmt (w.fld 2 2)).2)] st)
      (enterMat s f c e (.accst w) w (.accst dst (w.fld 2 2) w.rm scale.toInt) [] [] st)

/-- The number of an M operand. -/
def mNumber : Opnd → Nat
  | .m n => n.toNat
  | _ => 0

/-- ACCSTAT (R170, R171, R299). -/
def execAccstat (w : FWord) (s : State) : Host.Outcome State Fault Refusal :=
  runFork (matInfo s w (Legal.accstat w) false [(w.d, 1)]) s fun f c e =>
    let first := readU s c w.y
    let top := if w.bit 7 && w.bit 0 then 127 else 63
    orCause s e (tileCause (readU s c w.x) <|> layoutCause (decide (top < first.toNat)) 0)
      (enterMat s f c e (.accstat w) w (.accstat (mNumber w.d) (w.bit 0) first.toNat) [] [] none)

end Sys2Proof.Machine
end

