-- ==== Sys2Proof/Machine/MomentWords.lean ====
section
/-! DEFINITION. The moment words that stay in registers (R259 to R265, R267); MLD and MST stand with the memory words. -/

namespace Sys2Proof.Machine

/-- A word with one moment result per lane, or one for G (R259), and its flags (R34). -/
def runMoment (i : WordInfo) (d : Opnd) (s : State) (val : Convoy → Nat → Moment × FlagSet) : Host.Outcome State Fault Refusal :=
  runWord i s fun f c e =>
    doneWith s f ((writeMom c e d fun l => (val c l).1).orFlags
      (match d with
       | .g _ => (val c (lowLane c.width e)).2
       | _ => flagsOver c.width e fun l => (val c l).2))

/-- A moment result with NV for each signalling NaN among the FP32 operands the word reads, whether or not a step takes them in (R20). -/
def withSig {α : Type} (xs : List W32) (r : α × FlagSet) : α × FlagSet := (r.1, r.2 ||| xs.foldl (fun f x => f ||| f32Sig x) flagNone)

/-- An FP32 operand with a value for NONE (R259). -/
def readFOr (s : State) (c : Convoy) (l : Nat) (o : Opnd) (d : W32) : W32 := if o.isNone then d else readF s c l o

/-- MINIT (R260). -/
def execMinit (w : FWord) (s : State) : Host.Outcome State Fault Refusal :=
  runMoment (fpInfo w (Legal.minit w) 1 1) w.d s fun c l =>
    if w.x.isNone then (Moment.zero, flagNone) else momentInit (readF s c l w.x)

/-- MUPD (R32, R261). -/
def execMupd (w : FWord) (s : State) : Host.Outcome State Fault Refusal :=
  runMoment (fpInfo w (Legal.mupd w) 1 6) w.d s fun c l =>
    withSig [readF s c l w.y, readFOr s c l w.z f32One] (momentUpdate (readMom c l w.x) (readF s c l w.y) (readFOr s c l w.z f32One))

/-- MMRG (R33, R262). -/
def execMmrg (w : FWord) (s : State) : Host.Outcome State Fault Refusal :=
  runMoment (fpInfo w (Legal.mmrg w) 1 6) w.d s fun c l => momentMerge (readMom c l w.x) (readMom c l w.y)

/-- The leaves of MRED (R36, R263). -/
def redLeaves (c : Convoy) (f : Focus) (e : Mask) (w : FWord) : List Moment :=
  let in_ := if w.y.isNone then e else e &&& readK c f.active w.y
  (List.range c.width).map fun l => if in_.getLsbD l then readMom c l w.x else Moment.zero

/-- MRED (R36, R263): the tree's shape depends on the width alone. -/
def execMred (w : FWord) (s : State) : Host.Outcome State Fault Refusal :=
  runWord { hdr := w.hdr, legal := Legal.mred w, reads := [(w.x, 1), (w.y, 1)], writes := [(w.d, 1)],
            within := if w.y.isNone then none else some w.y, latency := some 10, fixed := flagsAt 10 } s fun f c e =>
    let r := mergeTree c.width.log2 (redLeaves c f e w)
    doneWith s f ((writeMom c e w.d fun _ => r.1).orFlags r.2)

/-- MDRAIN (R35, R264). -/
def execMdrain (w : FWord) (s : State) : Host.Outcome State Fault Refusal :=
  runValue (fpInfo w (Legal.mdrain w) 1 8) w.d s fun c l =>
    withSig [readFOr s c l w.y 0] (momentDrain (w.fld 0 3) (readMom c l w.x) (readFOr s c l w.y 0))

/-- MNORM (R265). -/
def execMnorm (w : FWord) (s : State) : Host.Outcome State Fault Refusal :=
  runValue (fpInfo w (Legal.mnorm w) 1 6) w.d s fun c l =>
    withSig [readF s c l w.x, readF s c l w.z] (momentNorm (readF s c l w.x) (readMom c l w.y) (readF s c l w.z))

/-- MDECAY (R267). -/
def execMdecay (w : FWord) (s : State) : Host.Outcome State Fault Refusal :=
  runMoment (fpInfo w (Legal.mdecay w) 1 4) w.d s fun c l =>
    withSig [readF s c l w.y] (momentDecay (readMom c l w.x) (readF s c l w.y))

end Sys2Proof.Machine
end

