-- ==== Sys2Proof/Machine/Narrow.lean ====
section
/-! DEFINITION. The narrow formats (R242 to R251): FP8, E2M1, FP6 and INT4, block scales, the scale stream and stochastic narrowing. -/

namespace Sys2Proof.Machine

/-- Byte i of a register value. -/
def byteOf (x : W32) (i : Nat) : Nat := (x.extractLsb' (8 * i) 8).toNat

/-- The scale of a lane (R26): byte BS of the register in the first lane of its group of four. -/
def scaleOf (c : Convoy) (z : Opnd) (l bs : Nat) : Nat :=
  match z with
  | .v n => byteOf (c.readV n.toNat (4 * (l / 4))) bs
  | _ => 0

/-- The FP8 format of a flag. -/
def fp8Fmt (e5m2 : Bool) : Fmt := if e5m2 then fmtE5M2 else fmtE4M3

/-- The result of CVT8 in a lane (R243). -/
def cvt8Value (s : State) (c : Convoy) (l : Nat) (w : FWord) : W32 × FlagSet :=
  let m := fp8Fmt (w.bit 2)
  if w.bit 3 then fr32 (fConvert m fmtFP32 0 (byteOf (readPacked s c m l w.x) (w.fld 4 2)))
  else
    let a := fConvert fmtFP32 m w.rm (readF s c l w.x).toNat
    let b := fConvert fmtFP32 m w.rm (readF s c l w.y).toNat
    (putBits (oldValue s c l w.d) (16 * w.fld 4 1) 16 (b.1 * 256 + a.1), a.2 ||| b.2)

/-- CVT8 (R243). -/
def execCvt8 (w : FWord) (s : State) : Host.Outcome State Fault Refusal :=
  runValue { hdr := w.hdr, legal := Legal.cvt8 w, reads := [(w.x, 1), (w.y, 1)] ++ (if w.bit 3 then [] else [(w.d, 1)]),
             writes := [(w.d, 1)], latency := some 4, fixed := flagsAt 4 } w.d s fun c l => cvt8Value s c l w

/-- v · 2^k of a finite value, rounded to a format. -/
def roundScaled (f : Fmt) (rm : BitVec 2) (v : FVal) (k : Int) : Nat × FlagSet :=
  match v with
  | .fin neg m e => fRound f rm neg m 1 (e + k)
  | .inf neg => if f.top == .ieee then (fPack f neg (fmtInfMag f), flagNone) else (fmtCanon f, flagNV)
  | .nan sig => (fmtCanon f, if sig then flagNV else flagNone)

/-- The small immediate n of the widening form of CVT4. -/
def immNat : Opnd → Nat
  | .imm n => n.toNat
  | _ => 0

/-- The widening form of CVT4 (R244). -/
def cvt4Wide (s : State) (c : Convoy) (l : Nat) (w : FWord) : W32 × FlagSet :=
  let sc := scaleOf c w.z l (w.fld 2 2)
  if sc == 0xFF then (f32Canon, flagNone)
  else
    let nib := (readPacked s c fmtE2M1 l w.x).toNat / 16 ^ (immNat w.y % 8) % 16
    fr32 (roundScaled fmtFP32 w.rm (fDecode fmtE2M1 nib) ((sc : Int) - 127))

def notFinite (x : W32) : Bool := f32IsNaN x || f32IsInf x

/-- The groups of four in which an executing lane offers a NaN or an infinity (R244): their lanes. -/
def badGroups (s : State) (c : Convoy) (e : Mask) (w : FWord) : Mask :=
  let bad := (lanesOf c.width e).filter fun l => notFinite (readF s c l w.x) || notFinite (readF s c l w.y)
  maskWhere c.width fun l => bad.any fun b => b / 4 == l / 4

/-- The two nibbles of one lane in the narrowing form (R244). -/
def cvt4Narrow (s : State) (c : Convoy) (bad : Mask) (l : Nat) (w : FWord) : W32 × FlagSet :=
  let sc := scaleOf c w.z l (w.fld 2 2)
  let put : Nat → W32 := fun v => putBits (oldValue s c l w.d) (8 * w.fld 4 2) 8 v
  if bad.getLsbD l then (put 0, flagNV)
  else if sc == 0xFF then (put 0, flagNone)
  else
    let a := roundScaled fmtE2M1 w.rm (fDecode fmtFP32 (readF s c l w.x).toNat) (127 - (sc : Int))
    let b := roundScaled fmtE2M1 w.rm (fDecode fmtFP32 (readF s c l w.y).toNat) (127 - (sc : Int))
    (put (b.1 * 16 + a.1), a.2 ||| b.2)

/-- Set the scale byte of the first lane of every bad group, in or out of E (R21, R244). -/
def poisonScales (c : Convoy) (bad : Mask) (z : Opnd) (bs cycle : Nat) : Convoy :=
  match z with
  | .v n =>
    let firsts := maskWhere c.width fun l => l % 4 == 0 && bad.getLsbD l
    let c1 := c.writeV firsts n.toNat fun l => putBits (c.readV n.toNat l) (8 * bs) 8 0xFF
    if firsts == 0 then c1 else { c1 with busy := c1.busy ++ [{ reg := .v n.toNat, cycle := cycle, checked := true }] }
  | _ => c

/-- CVT4 (R244). -/
def execCvt4 (w : FWord) (s : State) : Host.Outcome State Fault Refusal :=
  runWord { hdr := w.hdr, legal := Legal.cvt4 w, reads := [(w.x, 1), (w.y, 1)] ++ (if w.bit 6 then [] else [(w.d, 1)]),
            writes := [(w.d, 1)], scale := some (w.z, false), latency := some 4, fixed := flagsAt 4 } s fun f c e =>
    if w.bit 6 then
      doneWith s f ((writeRes32 c e w.d fun l => (cvt4Wide s c l w).1).orFlags (flagsOver c.width e fun l => (cvt4Wide s c l w).2))
    else
      let bad := badGroups s c e w
      let c1 := writeRes32 c e w.d fun l => (cvt4Narrow s c bad l w).1
      doneWith s f ((poisonScales c1 bad w.z (w.fld 2 2) (s.clock + 4)).orFlags
        (flagsOver c.width e fun l => (cvt4Narrow s c bad l w).2))

/-- One element of XPAND as an E4M3 byte (R17, R245). -/
def xpandElem (fm q : Nat) (x : W32) (i : Nat) : Nat :=
  if fm == 2 then
    let n : BitVec 4 := x.extractLsb' (16 * q + 4 * i) 4
    (fRound fmtE4M3 0 (decide (n.toInt < 0)) n.toInt.natAbs 1 0).1
  else (fConvert (if fm == 0 then fmtE2M3 else fmtE3M2) fmtE4M3 0 (x.extractLsb' (6 * i) 6).toNat).1

/-- XPAND (R245). A small immediate in the S source is the sign-extended integer: R28 narrows no constant to FP6 or INT4 elements (log 16). -/
def execXpand (w : FWord) (s : State) : Host.Outcome State Fault Refusal :=
  runValue (fInfo w (Legal.xpand w) 1 4) w.d s fun c l =>
    let x := readW32 s c l w.x
    let at_ := xpandElem w.rm.toNat (w.fld 2 1) x
    (BitVec.ofNat 32 (at_ 0 + 256 * at_ 1 + 65536 * at_ 2 + 16777216 * at_ 3), flagNone)

/-- The result of UNPK8 in a lane (R246). -/
def unpk8Value (s : State) (c : Convoy) (l : Nat) (w : FWord) : W32 × FlagSet :=
  let m := fp8Fmt (w.bit 6)
  let sc := scaleOf c w.z l (w.fld 2 2)
  if sc == 0xFF then (f32Canon, flagNone)
  else fr32 (roundScaled fmtFP32 w.rm (fDecode m (byteOf (readPacked s c m l w.x) (w.fld 4 2))) ((sc : Int) - 127))

/-- UNPK8 (R246). -/
def execUnpk8 (w : FWord) (s : State) : Host.Outcome State Fault Refusal :=
  runValue { hdr := w.hdr, legal := Legal.unpk8 w, reads := [(w.x, 1)], writes := [(w.d, 1)], scale := some (w.z, false),
             latency := some 4, fixed := flagsAt 4 } w.d s fun c l => unpk8Value s c l w

/-- The elements of a packed register. -/
def packedElems (m : Fmt) (x : W32) : List FVal :=
  let n := fmtMagBits m + 1
  (List.range (32 / n)).map fun i => fDecode m (x.toNat / 2 ^ (n * i) % 2 ^ n)

/-- The exact sum of products in the extended reals: invalid, infinite, or a dyadic number (R247). -/
inductive DotSum where
  | invalid
  | inf (neg : Bool)
  | num (neg : Bool) (m : Nat) (e : Int)
  deriving DecidableEq, Repr

def dotStep (acc : DotSum) (p : FVal × FVal) : DotSum :=
  let addInf : Bool → DotSum := fun neg => match acc with
    | .invalid => .invalid
    | .inf n => if n == neg then .inf n else .invalid
    | .num .. => .inf neg
  match p with
  | (.fin na ma ea, .fin nb mb eb) =>
    (match acc with
     | .num n m e => let (n', m', e') := dyadicAdd n m e (na != nb) (ma * mb) (ea + eb); .num n' m' e'
     | x => x)
  | (.inf na, .inf nb) => addInf (na != nb)
  | (.inf na, .fin nb mb _) => if mb == 0 then .invalid else addInf (na != nb)
  | (.fin na ma _, .inf nb) => if ma == 0 then .invalid else addInf (na != nb)
  | _ => .invalid

/-- D + P · 2^k, rounded once (R247); a P of zero leaves D. -/
def dotAdd (rm : BitVec 2) (d : W32) (p : DotSum) (k : Int) : W32 × FlagSet :=
  match p with
  | .invalid => (f32Canon, flagNV)
  | .inf neg => (match fDecode fmtFP32 d.toNat with
      | .inf nd => if nd == neg then (d, flagNone) else (f32Canon, flagNV)
      | _ => (BitVec.ofNat 32 (fPack fmtFP32 neg (fmtInfMag fmtFP32)), flagNone))
  | .num neg m e =>
    if m == 0 then (d, flagNone)
    else match fDecode fmtFP32 d.toNat with
      | .fin nd md ed =>
        let (n', m', e') := dyadicAdd nd md ed neg m (e + k)
        if m' == 0 then fr32 (fPack fmtFP32 (zeroSumSign rm nd neg) 0, flagNone) else fr32 (fRound fmtFP32 rm n' m' 1 e')
      | _ => (d, flagNone)

def FVal.isNaN : FVal → Bool
  | .nan _ => true
  | _ => false

def FVal.isSignalling : FVal → Bool
  | .nan sig => sig
  | _ => false

/-- The element format of MXDOT. -/
def mxFmt (code : Nat) : Fmt := match code with
  | 0 => fmtE2M1
  | 1 => fmtE4M3
  | _ => fmtE5M2

/-- The result of MXDOT in a lane (R247). -/
def mxdotValue (s : State) (c : Convoy) (l : Nat) (w : FWord) : W32 × FlagSet :=
  let m := mxFmt (w.fld 6 2)
  let d := oldValue s c l w.d
  let sa := scaleOf c w.z l (w.fld 2 2)
  let sb := scaleOf c w.z l (w.fld 4 2)
  let a := packedElems m (readPacked s c m l w.x)
  let b := packedElems m (readPacked s c m l w.y)
  let sig := if (a ++ b).any FVal.isSignalling then flagNV else fSigFlag fmtFP32 d.toNat
  if sa == 0xFF || sb == 0xFF || f32IsNaN d || (a ++ b).any FVal.isNaN then (f32Canon, sig)
  else
    let (r, fl) := dotAdd w.rm d ((a.zip b).foldl dotStep (.num false 0 0)) ((sa : Int) + sb - 254)
    (r, fl ||| sig)

/-- MXDOT (R247). -/
def execMxdot (w : FWord) (s : State) : Host.Outcome State Fault Refusal :=
  runValue { hdr := w.hdr, legal := Legal.mxdot w, reads := [(w.x, 1), (w.y, 1), (w.d, 1)], writes := [(w.d, 1)],
             scale := some (w.z, false), latency := some 6, fixed := flagsAt 6 } w.d s fun c l => mxdotValue s c l w

/-- Is a scale pointer well formed (R248)? -/
def pointerFits (p : W64) : Bool := p.extractLsb' 40 24 == 0 && p.extractLsb' 20 12 == 0 && p.extractLsb' 32 8 != 0xFF

def pointerNib (p : W64) : Nat := (p.extractLsb' 0 20).toNat
def pointerRun (p : W64) : Nat := (p.extractLsb' 32 8).toNat
def pointerOf (run nib : Nat) : W64 := BitVec.ofNat 64 (run * 2 ^ 32 + nib)

/-- Read one nibble of a stream in an allocation, or the cause and TADDR (R249). -/
def readNib (l : LocalStore) (size p : Nat) : (Nat × Nat) ⊕ Nat :=
  if size ≤ p / 2 then .inl (causeACCESS, p / 2)
  else if l.errs.contains (p / 2) then .inl (causeSOFTERR, p / 2)
  else .inr ((memGet l.mem (p / 2)).toNat / 16 ^ (p % 2) % 16)

/-- Decode n scales (R27, R249): the scales with the pointer after them, or the first failure. -/
def decodeScales (l : LocalStore) (size : Nat) : Nat → Nat → Nat → (Nat × Nat) ⊕ (List Nat × Nat × Nat)
  | 0, p, run => .inr ([], p, run)
  | n + 1, p, run =>
    match readNib l size p with
    | .inl x => .inl x
    | .inr d =>
      if d == 8 then
        match readNib l size (p + 1) with
        | .inl x => .inl x
        | .inr a => match readNib l size (p + 2) with
          | .inl x => .inl x
          | .inr b => match decodeScales l size n (p + 3) (scaleRun (a + 16 * b)) with
            | .inl x => .inl x
            | .inr (sc, q, r) => .inr ((a + 16 * b) :: sc, q, r)
      else
        let v : Int := (run : Int) + (BitVec.ofNat 4 d).toInt
        if v < 0 || 254 < v then .inl (causeLAYOUT, p / 2)
        else match decodeScales l size n (p + 1) v.toNat with
          | .inl x => .inl x
          | .inr (sc, q, r) => .inr (v.toNat :: sc, q, r)

/-- The bytes from one nibble offset to another. -/
def nibBytes (p q : Nat) : List Nat := (List.range ((q + 1) / 2 - p / 2)).map (p / 2 + ·)

/-- The extra cycles of a stream access hold its readers, and raise no STALLSHORT (R185). -/
def holdExtra (c : Convoy) (regs : List Reg) (cycle extra : Nat) : Convoy :=
  if extra == 0 then c
  else { c with busy := c.busy ++ regs.map fun r => { reg := r, cycle := cycle + extra, checked := false } }

/-- Write one byte field of D in the lanes of E. -/
def writeByteField (s : State) (c : Convoy) (e : Mask) (d : Opnd) (bs : Nat) (v : Nat → Nat) : Convoy :=
  writeRes32 c e d fun l => putBits (oldValue s c l d) (8 * bs) 8 (v l)

/-- SCDEC (R249). -/
def execScdec (w : FWord) (s : State) : Host.Outcome State Fault Refusal :=
  let i : WordInfo :=
    { hdr := w.hdr, legal := Legal.scdec w, reads := [(w.x, 1), (w.d, 1)], writes := [(w.d, 1), (w.x, 1)], latency := some 8 }
  runWord i s fun f c e =>
    let p := readU s c w.x
    if !pointerFits p then .trap s causeLAYOUT e p
    else match decodeScales (lsOf s c) (s.blockOf c).size (c.width / 4) (pointerNib p) (pointerRun p) with
      | .inl (cause, a) => .trap s cause e (BitVec.ofNat 64 a)
      | .inr (sc, q, run) =>
        let bytes := nibBytes (pointerNib p) q
        let c1 := writeByteField s c e w.d (w.fld 2 2) fun l => sc.getD (l / 4) 0
        let c2 := holdExtra (writeRes64 c1 e w.x fun _ => pointerOf run q) (writeRegs i) (s.clock + 8) (bankReplays 1 bytes)
        doneWith (countReplays s f 1 bytes) f c2

/-- The bytes that a list of nibbles makes from nibble offset p: the first keeps a low nibble that is not written, the last has 0 in a high nibble that is not (R250). -/
def packNibbles (l : LocalStore) (p : Nat) (nibs : List Nat) : List Byte :=
  (nibBytes p (p + nibs.length)).map fun a =>
    let low := if 2 * a < p then (memGet l.mem a).toNat % 16 else nibs.getD (2 * a - p) 0
    let high := if 2 * a + 1 < p then 0 else nibs.getD (2 * a + 1 - p) 0
    BitVec.ofNat 8 (low + 16 * high)

/-- The byte of which SCENC keeps the low nibble, when it has an uncorrectable error: the kept nibble is a read (R250, R321). -/
def keptByteBad (l : LocalStore) (nib : Nat) : Bool := nib % 2 == 1 && l.errs.contains (nib / 2)

/-- SCENC (R250): the causes of SCDEC, LAYOUT and ACCESS, then BARCLOBBER, then the SOFTERR of a byte of which a nibble is kept. -/
def execScenc (w : FWord) (s : State) : Host.Outcome State Fault Refusal :=
  let i : WordInfo :=
    { hdr := w.hdr, legal := Legal.scenc w, reads := [(w.d, 1)], writes := [(w.d, 1)], scale := some (w.x, true), latency := some 8 }
  runWord i s fun f c e =>
    let p := readU s c w.d
    let b := s.blockOf c
    if !pointerFits p then .trap s causeLAYOUT e p
    else
      let sc := (List.range (c.width / 4)).map fun j => scaleOf c w.x (4 * j) (w.fld 2 2)
      let nibs := scaleEncode (pointerRun p) sc
      let nib := pointerNib p
      let bytes := nibBytes nib (nib + nibs.length)
      match bytes.find? fun a => b.size ≤ a with
      | some a => .trap s causeACCESS e (BitVec.ofNat 64 a)
      | none => match armedObject (lsOf s c) (nib / 2) bytes.length with
        | some m => .trap s causeBARCLOBBER e (BitVec.ofNat 64 m)
        | none =>
          if keptByteBad (lsOf s c) nib then .trap s causeSOFTERR e (BitVec.ofNat 64 (nib / 2))
          else
          let s1 := countReplays (modLs s c.block (onFollower s c) fun l => l.write (nib / 2) (packNibbles l nib nibs)) f 1 bytes
          let c1 := writeRes64 c e w.d fun _ => pointerOf (scaleRunAll (pointerRun p) sc) (nib + nibs.length)
          doneWith s1 f (holdExtra c1 (writeRegs i) (s.clock + 8) (bankReplays 1 bytes))

/-- The formats of SRND. -/
def srndFmt (code : Nat) : Fmt := match code with
  | 0 => fmtBF16
  | 1 => fmtE4M3
  | _ => fmtE5M2

/-- SRND (R29, R251). The random word is an integer operand, not a constant of R28. -/
def execSrnd (w : FWord) (s : State) : Host.Outcome State Fault Refusal :=
  let n := if w.fld 2 2 == 0 then 16 else 8
  runValue { hdr := w.hdr, legal := Legal.srnd w, reads := [(w.x, 1), (w.y, 1), (w.d, 1)], writes := [(w.d, 1)], latency := some 4,
             fixed := flagsAt 4 } w.d s fun c l =>
      let (r, fl) := fSround (srndFmt (w.fld 2 2)) (readW32 s c l w.y) (readF s c l w.x).toNat
      (putBits (oldValue s c l w.d) (n * w.fld 4 2) n r, fl)

end Sys2Proof.Machine
end

