-- ==== Sys2Proof/Machine/OrderWords.lean ====
section
/-! DEFINITION. The reverse counterparts, queries, random words and milestones (R142 to R150, R284 to R288). -/

namespace Sys2Proof.Machine

/-- An actor of a word with the lane that gives its address. -/
abbrev Actor := Option Nat × LaneAddr

/-- The actors of a reverse word: the convoy, or each lane (R134, R284). -/
def reverseActors (x : Opnd) (lanes : List LaneAddr) : List Actor :=
  if isConvoyBase x then (match lanes with
    | [] => []
    | a :: _ => [(none, a)])
  else lanes.map fun a => (some a.lane, a)

/-- The counter of an actor for a tag in a REVERSE launch (R143): it starts at the greatest occurrence recorded. -/
def revCount (l : Launch) (b : Block) (c : Convoy) (lane : Option Nat) (tag : BitVec 12) : Nat :=
  if occUsed c lane tag then occGet c lane tag
  else (l.bound.filter fun r => r.block == b.index && r.convoy == c.index && r.lane == lane.getD 0xFF && r.tag == tag.toNat &&
      (r.kind == 1 || r.kind == 2 || r.kind == 3 || r.kind == 7)).foldl (fun m r => max m r.occ) 0

/-- Count one reverse use: the counter goes down, modulo 2^32 (R143). -/
def countDown (l : Launch) (b : Block) (c : Convoy) (lane : Option Nat) (tag : BitVec 12) : Convoy :=
  occSet c lane tag ((revCount l b c lane tag + 2 ^ 32 - 1) % 2 ^ 32)

/-- The record that an actor's counterpart of a kind matches (R143). -/
def revMatch (l : Launch) (b : Block) (c : Convoy) (kind : Nat) (tag : BitVec 12) (a : Actor) : Option ItinRec :=
  (findRecord l b.index c.index a.1 tag.toNat (revCount l b c a.1 tag) kind).filter fun r => r.addr == a.2.va

/-- The lanes of the actors that pass a test, and the address of the first. -/
def actorLanes (e : Mask) (as : List Actor) : Mask := as.foldl (fun m a => m ||| actorMask e a.1) 0
def actorAddr (as : List Actor) : Nat := (as.head?.map fun a => a.2.va).getD 0

/-- A cause of some actors, or go on. -/
def failActors (s : State) (cause : Nat) (e : Mask) (bad : List Actor) (k : Res) : Res :=
  if bad.isEmpty then k else memTrap s cause (actorLanes e bad) (actorAddr bad)

/-- A reverse word up to its own matching: the memory causes of its address, then ORDMODE outside REVERSE launches (R149). -/
def runReverse (i : WordInfo) (ins : Instr) (w : FWord) (size : Nat) (reads write : Bool) (s : State)
    (body : State → Focus → Convoy → Mask → List Actor → BitVec 12 → Res) : Host.Outcome State Fault Refusal :=
  runWord i s fun f c e =>
    globalCheck s f c e ins size reads write (laneAddrs c e w.x (.sp 0x3F)) fun s1 lanes =>
      let as := reverseActors w.x lanes
      if (s.launchOf c).rec_.mode != 3 then memTrap s1 causeORDMODE e (actorAddr as)
      else body s1 f c e as ((tagOf c w.z).getD 0)

/-- Does the launch bind a CANONICAL recording (R150)? -/
def bindsCanonical (l : Launch) : Bool := l.boundMode == 1

/-- The REL record that an ACQ record is paired with, by its sequence (R144). -/
def pairedRel (l : Launch) (r : ItinRec) : Option Nat :=
  ((l.bound.filter fun x => x.kind == 1 && x.addr == r.addr && decide (x.seqpos ≤ r.seqpos)).map ItinRec.seqpos).max?

/-- A REL record as a key. -/
def relKey (addr seq : Nat) : Nat := addr * 2 ^ 32 + seq

/-- The ACQ records paired with a REL record (R144). -/
def pairedCount (l : Launch) (r : ItinRec) : Nat :=
  (l.bound.filter fun x => x.kind == 2 && x.addr == r.addr && pairedRel l x == some r.seqpos).length

/-- Has each RSIG matched with a paired ACQ of a REL record been performed (R144)? -/
def relSignalled (l : Launch) (r : ItinRec) : Bool :=
  decide (pairedCount l r ≤ assoc l.signalled (relKey r.addr r.seqpos) 0)

/-- An RSIG of an actor is performed: its counter goes down, and the REL record it is paired with counts it. -/
def signalActor (tag : BitVec 12) (ci : Nat) (s : State) (a : Actor) : State :=
  let c := s.convoy ci
  let l := s.launchOf c
  let s1 := s.setConvoy ci (countDown l (s.blockOf c) c a.1 tag)
  match (revMatch l (s.blockOf c) c 2 tag a).bind fun r => (pairedRel l r).map fun q => relKey r.addr q with
  | some k => s1.modLaunch c.launch fun l => { l with signalled := assocSet l.signalled k (assoc l.signalled k 0 + 1) }
  | none => s1

/-- RSIG (R144, R147, R148, R150). Where it matches nothing by occurrence, the counter stays (R143; assumption log 23). -/
def execRsig (w : FWord) (s : State) : Host.Outcome State Fault Refusal :=
  runReverse { hdr := w.hdr, legal := Legal.rsig w, reads := [(w.x, 2), (w.z, 1)] } (.rsig w) w 0 false false s fun s1 f c e as tag =>
    let l := s1.launchOf c
    let plain : Bool := bindsCanonical l || l.boundGrain == 1
    failActors s1 causeORDAMBIG e (if plain then [] else as.filter fun a => l.boundGrain == 0 || (revMatch l (s1.blockOf c) c 2 tag a).isNone)
      (if releaseMustWait s1 f c w.scope.toNat then .wait s1
       else if plain then .done s1 stay
       else .done (as.foldl (signalActor tag f.convoy) s1) stay)

/-- Lanes of actors that must wait are held, the others go on; at the end of a loop body all wait together (R58, R67). -/
def holdActors (s : State) (f : Focus) (c : Convoy) (e : Mask) (i : Instr) (wait : List Actor) (done : Res) (s' : State) : Res :=
  if wait.isEmpty then done
  else if (backEdge c f.addr).isSome then .hold s [(e, .retry i)]
  else .hold s' [(actorLanes e wait, .retry i)]

/-- RWAIT (R144, R147, R148, R150). -/
def execRwait (w : FWord) (s : State) : Host.Outcome State Fault Refusal :=
  runReverse { hdr := w.hdr, legal := Legal.rsig w, reads := [(w.x, 2), (w.z, 1)] } (.rwait w) w 0 false false s fun s1 f c e as tag =>
    let l := s1.launchOf c
    let b := s1.blockOf c
    let sc := w.scope.toNat
    if bindsCanonical l then .done (acquireBound s1 f.convoy sc s.steps) stay
    else
      let rec_ : Actor → Option ItinRec := revMatch l b c 1 tag
      failActors s1 causeORDAMBIG e (as.filter fun a => l.boundGrain != 2 || (rec_ a).isNone)
        (let go := as.filter fun a => (rec_ a).any (relSignalled l)
         let s2 := go.foldl (fun s a => s.modConvoy f.convoy fun c => countDown l b c a.1 tag) s1
         let s3 := if go.isEmpty then s2 else acquireBound s2 f.convoy sc s.steps
         holdActors s1 f c e (.rwait w) (as.filter fun a => !(rec_ a).any (relSignalled l)) (.done s3 stay) s3)

/-- The class-2 ATOM records of an address, and its ASET records. -/
def orderedAtoms (l : Launch) (va : Nat) : List ItinRec := l.bound.filter fun r => r.kind == 3 && r.cls == 2 && r.addr == va
def addrSets (l : Launch) (va : Nat) : List ItinRec := l.bound.filter fun r => r.kind == 4 && r.addr == va

/-- The last position a record covers (R145). -/
def lastPos (r : ItinRec) : Nat := r.seqpos + r.extra - 1

/-- The reverse cursor of an address (R145, R147). -/
def cursorOf (l : Launch) (va : Nat) : Nat :=
  assoc l.cursors va (if l.boundGrain == 1 then (addrSets l va).length else ((orderedAtoms l va).map lastPos).max?.getD 0)

/-- Is the op of a record one of 16 bytes (R285)? -/
def isMomentOp (r : ItinRec) : Bool := r.opcode == 15 || r.opcode == 0x10

/-- What an ORDRD of an actor matches: position and count (R143, R147, R285). -/
def ordMatch (l : Launch) (b : Block) (c : Convoy) (m : Bool) (tag : BitVec 12) (a : Actor) : Option (Nat × Nat) :=
  if l.boundGrain == 2 then
    ((revMatch l b c 3 tag a).filter fun r => r.cls == 2 && isMomentOp r == m).map fun r => (r.seqpos, r.extra)
  else if l.boundGrain == 1 then
    let key := intervalKey l b
    let sets := addrSets l a.2.va
    let now := sets.filter fun r => r.seqpos / 65536 == l.crossings
    if now.all (fun r => r.block == b.index && r.extra == 1) && now.any (fun r => r.block == b.index && r.seqpos == key) then
      some (1 + (sets.filter fun r => decide (r.seqpos < key)).length, 1)
    else none
  else none

/-- The pending match of an actor (R285). -/
def pendingMatch (c : Convoy) (lane : Option Nat) : Option OrdMatch := c.ord.find? fun m => m.lane == lane

/-- The lanes of an actor. -/
def actorList (c : Convoy) (e : Mask) (lane : Option Nat) : List Nat :=
  match lane with
  | none => lanesOf c.width e
  | some l => [l]

/-- The read of an ORDRD: at the home, as an acquire at its scope (R145). -/
def ordRead (f : Focus) (w : FWord) (e : Mask) (s : State) (a : Actor) : State :=
  let size := if w.bit 0 then 16 else 4
  sendLoad s f { plainAccess (actorList (s.convoy f.convoy) e a.1) a.2.va a.2.pa a.2.leaf size (.load w.d size false) with
    acq := true, home := true, scope := w.scope.toNat }

/-- ORDRD (R145, R147, R148, R150, R285). -/
def execOrdrd (w : FWord) (s : State) : Host.Outcome State Fault Refusal :=
  runReverse { hdr := w.hdr, legal := Legal.ordrd w, reads := [(w.x, 2), (w.z, 1)], writes := [(w.d, 1)] } (.ordrd w) w (if w.bit 0 then 16 else 4)
      true false s fun s1 f c e as tag =>
    let l := s1.launchOf c
    let b := s1.blockOf c
    if bindsCanonical l then .done (as.foldl (ordRead f w e) s1) stay
    else
      let found : Actor → Option (Nat × Nat) := ordMatch l b c (w.bit 0) tag
      let ready : Actor → Bool := fun a => (found a).any fun p => cursorOf l a.2.va == p.1 + p.2 - 1
      failActors s1 causeORDMODE e (as.filter fun a => (pendingMatch c a.1).isSome)
        (failActors s1 causeORDAMBIG e (as.filter fun a => (found a).isNone)
          (let go := as.filter ready
           let note : State → Actor → State := fun s a => s.modConvoy f.convoy fun c => { c with
             ord := c.ord ++ (match found a with
               | some p => [{ lane := a.1, tag := tag, addr := a.2.va, position := p.1, count := p.2 }]
               | none => []) }
           let s2 := go.foldl (fun s a => ordRead f w e (note s a) a) s1
           holdActors s1 f c e (.ordrd w) (as.filter fun a => !ready a) (.done s2 stay) s2))

/-- Where the cursor goes after the ORDWR of a match (R145, R147). -/
def cursorAfter (l : Launch) (m : OrdMatch) : Nat :=
  if l.boundGrain == 1 then m.position - 1
  else
    let lower := (orderedAtoms l m.addr).filter fun r => decide (r.seqpos < m.position)
    ((lower.map ItinRec.seqpos).max?.bind fun p => (lower.find? fun r => r.seqpos == p).map lastPos).getD 0

/-- Does an ORDWR of an actor find the match of its ORDRD (R145, R285)? At grain FINE its own record must be the same one. -/
def ordPaired (l : Launch) (b : Block) (c : Convoy) (tag : BitVec 12) (a : Actor) : Bool :=
  match pendingMatch c a.1 with
  | none => false
  | some m => m.addr == a.2.va && (l.boundGrain != 2 || (revMatch l b c 3 tag a).any fun r => r.seqpos == m.position)

/-- The write of an ORDWR: at the home, as a release at its scope; the cursor moves when it is performed. -/
def ordWrite (f : Focus) (w : FWord) (e : Mask) (bytes : Nat → List Byte) (cursor : Option Nat) (s : State) (a : Actor) : State :=
  let c := s.convoy f.convoy
  let ls := actorList c e a.1
  let info : List ItinInfo := match cursor with
    | none => []
    | some k => [{ kind := 8, slot := none, block := 0, convoy := 0, lane := a.1, tag := 0, occ := 0, opcode := 0, cls := 0, key := k, ops := 0, last := true }]
  sendAccess s f { plainAccess ls a.2.va a.2.pa a.2.leaf (if w.bit 0 then 16 else 4) (.store (bytes (ls.headD 0))) with
    rel := true, scope := w.scope.toNat, itin := info }

/-- ORDWR (R145, R147, R148, R150, R285). At grain BARRIER it matches nothing by occurrence, and the counter stays (R143; assumption log 23). -/
def execOrdwr (w : FWord) (s : State) : Host.Outcome State Fault Refusal :=
  runReverse { hdr := w.hdr, legal := Legal.ordwr w, reads := [(w.x, 2), (w.y, 1), (w.z, 1)] } (.ordwr w) w (if w.bit 0 then 16 else 4)
      false true s fun s1 f c e as tag =>
    let l := s1.launchOf c
    let b := s1.blockOf c
    let bytes : Nat → List Byte := fun n => if w.bit 0 then momentBytes (readMom c n w.y) else leBytes 4 (readW32 s c n w.y).toNat
    if bindsCanonical l then .done (as.foldl (ordWrite f w e bytes none) s1) stay
    else
      failActors s1 causeORDAMBIG e (if l.boundGrain == 0 then as else [])
        (failActors s1 causeORDMODE e (as.filter fun a => !ordPaired l b c tag a)
          (failActors s1 causeORDAMBIG e (as.filter fun a => l.boundGrain == 2 && !((revMatch l b c 3 tag a).any fun r => isMomentOp r == w.bit 0))
            (let one : State → Actor → State := fun s a =>
              let m := pendingMatch c a.1
              let s2 := s.modConvoy f.convoy fun c => { c with ord := c.ord.filter fun x => x.lane != a.1 }
              let s3 := if l.boundGrain == 2 then s2.modConvoy f.convoy fun c => countDown l b c a.1 tag else s2
              ordWrite f w e bytes (m.map (cursorAfter l)) s3 a
             .done (as.foldl one s1) stay)))

/-- The counter that ITQ.OCC reads (R286). -/
def occRead (s : State) (c : Convoy) (lane : Option Nat) (tag : BitVec 12) : W64 :=
  let l := s.launchOf c
  BitVec.ofNat 64 (if l.rec_.mode == 3 then revCount l (s.blockOf c) c lane tag else occGet c lane tag)

/-- ITQ (R286). -/
def execItq (w : FWord) (s : State) : Host.Outcome State Fault Refusal :=
  runWord { hdr := w.hdr, legal := Legal.itq w, reads := [(w.x, 2), (w.z, 1)], writes := [(w.d, 1)] } s fun f c e =>
    let l := s.launchOf c
    match w.fld 0 2 with
    | 0 =>
      let tag := (tagOf c w.z).getD 0
      (match w.d with
       | .s n => doneWith s f (c.writeS n.toNat (occRead s c none tag))
       | d => doneWith s f (writeRes32 c e d fun n => (occRead s c (some n) tag).setWidth 32))
    | 1 =>
      if l.rec_.mode != 3 then raise s causeORDMODE e
      else doneWith s f (writeRes64 c e w.d fun _ => BitVec.ofNat 64 (if bindsCanonical l then 0 else cursorOf l (baseOf c 0 w.x).toNat))
    | _ => doneWith s f (writeRes64 c e w.d fun _ => BitVec.ofNat 64 l.rec_.itin)

/-- The random word of a lane (R287). -/
def randWord (s : State) (c : Convoy) (l : Nat) : W32 :=
  let dc := (c.lane l).draw
  philox0 (s.launchOf c).key (BitVec.ofNat 32 (s.blockOf c).index) (BitVec.ofNat 32 (c.index * c.width + l)) (dc.setWidth 32) (dc.extractLsb' 32 32)

/-- RAND (R287): the word, and one more draw. -/
def execRand (w : FWord) (s : State) : Host.Outcome State Fault Refusal :=
  runWord { hdr := w.hdr, legal := Legal.rand w, writes := [(w.d, 1)] } s fun f c e =>
    doneWith s f ((writeRes32 c e w.d (randWord s c)).onLanes e fun _ x => { x with draw := x.draw + 1 })

/-- The value of a milestone of an actor. -/
def mileValue (s : State) (c : Convoy) (y : Opnd) (lane : Option Nat) : W32 := readW32 s c (lane.getD 0) y

/-- The MILE record of an actor (R130). -/
def mileRecord (s : State) (c : Convoy) (tag : BitVec 12) (y : Opnd) (lane : Option Nat) : ItinRec :=
  { addr := 0, seqpos := 0, block := (s.blockOf c).index, convoy := c.index, lane := lane.getD 0xFF, tag := tag.toNat,
    occ := occGet c lane tag + 1, kind := 7, cls := 0, opcode := 0, grain := (s.launchOf c).rec_.grain,
    extra := (mileValue s c y lane).toNat }

/-- MILE in FREE and CANONICAL launches: the occurrence is counted, and recorded at grain FINE or BARRIER (R288). -/
def mileRecords (s : State) (f : Focus) (c : Convoy) (e : Mask) (tag : BitVec 12) (y : Opnd) (as : List (Option Nat)) : Res :=
  let l := s.launchOf c
  let s1 := s.setConvoy f.convoy (countOccurrences c tag as)
  if l.recording && l.rec_.grain != 0 then
    match reserveSlots s l as.length with
    | .bad cause a => memTrap s cause e a
    | .wait => .wait s
    | .ok slots =>
      let s2 := s1.modLaunch c.launch fun l => { l with reserved := l.reserved + as.length }
      .done ((as.zip slots).foldl (fun s p => writeRecord s l p.2 (mileRecord s1 c tag y p.1)) s2) stay
  else .done s1 stay

/-- The actors whose MILE record is missing or holds another value (R288). -/
def mileMisses (s : State) (c : Convoy) (tag : BitVec 12) (y : Opnd) (occ : Option Nat → Nat) (as : List (Option Nat)) : List (Option Nat) :=
  as.filter fun a => ((findRecord (s.launchOf c) (s.blockOf c).index c.index a tag.toNat (occ a) 7).map ItinRec.extra) !=
    some (mileValue s c y a).toNat

/-- MILE (R288). -/
def execMile (w : FWord) (s : State) : Host.Outcome State Fault Refusal :=
  runWord { hdr := w.hdr, legal := Legal.mile w, reads := [(w.x, 1), (w.y, 1)] } s fun f c e =>
    let l := s.launchOf c
    let b := s.blockOf c
    let tag := (tagOf c w.x).getD 0
    let as := actorsOf c e (!w.y.isV)
    let none_ : Bool := bindsCanonical l || l.boundGrain == 0
    if l.rec_.mode == 3 then
      let down := as.foldl (fun c a => countDown l b c a tag) c
      let bad := if none_ then [] else mileMisses s c tag w.y (fun a => revCount l b c a tag) as
      if bad.isEmpty then doneWith s f down else raise s causeORDAMBIG (actorsWhere e bad fun _ => true)
    else
      let full := actorsWhere e as fun a => decide (2 ^ 32 ≤ occGet c a tag + 1)
      if full != 0 then raise s causeORDMODE full
      else if l.rec_.mode == 2 then
        (let bad := if none_ then [] else mileMisses s c tag w.y (fun a => occGet c a tag + 1) as
         if bad.isEmpty then doneWith s f (countOccurrences c tag as) else raise s causeORDAMBIG (actorsWhere e bad fun _ => true))
      else mileRecords s f c e tag w.y as

end Sys2Proof.Machine
end

