-- ==== Sys2Proof/Machine/Service.lean ====
section
/-! DEFINITION. Pre-emption and restore (R322, R323, R342 to R344): the commands PREEMPT and REINSTATE, and the dispatch of a service block into a lay-by. -/

namespace Sys2Proof.Machine

/-- The accesses that a hold waits for under the constraints of a replay (R139). -/
def heldAccesses (s : State) (ci : Nat) (h : Hold) : List Access :=
  match h.kind with
  | .access n (some id) => s.accesses.filter fun a => a.convoy == ci && a.number == n && a.id == id
  | .access n none => s.accesses.filter fun a => a.convoy == ci && a.number == n
  | _ => []

/-- Take back the occurrence of an actor (R135). -/
def uncount (c : Convoy) (x : Option Nat × BitVec 12) : Convoy := occSet c x.1 x.2 (occGet c x.1 x.2 - 1)

/-- A stop takes back a word, or a lane of it, that waits under the constraints of a replay, with nothing performed: it sends its accesses again on restore (R139, R323). Where the constraints hold no more the accesses are under way, and the hold stays until they are performed (assumption log 13). -/
def withdraw (s : State) (ci : Nat) (h : Hold) : State :=
  let as : List Access := heldAccesses s ci h
  if as.isEmpty || !as.all (fun a => a.unperformed && !replayOk (s.launch a.launch) a) then s
  else ({ s with accesses := s.accesses.filter fun a => !as.contains a }).modConvoy ci fun c =>
    let drop : List Hold → List Hold := fun l => l.filter fun x => x != h
    ((as.flatMap fun (a : Access) => a.itin.map fun (i : ItinInfo) => (i.lane, i.tag)).eraseDups).foldl uncount
      { c with holds := drop c.holds, rvHolds := drop c.rvHolds, hrvHolds := drop c.hrvHolds }

/-- The holds that a stop keeps: barriers (R323), words of a replay that are under way, and lanes that have done their part of the last word of a loop body (R58). -/
def keptHold (h : Hold) : Bool :=
  match h.kind with
  | .bar _ _ => true
  | .barl => true
  | .access _ _ => true
  | .edge => true
  | _ => false

/-- A convoy stops: every other hold is dropped, so that its word issues again on restore (R322, R323). -/
def stopConvoy (c : Convoy) : Convoy :=
  { c with stopped := true, holds := c.holds.filter keptHold, rvHolds := c.rvHolds.filter keptHold, hrvHolds := c.hrvHolds.filter keptHold }

/-- Stop a block on every core it lies on: its convoys stop, its copies pause, and hand-overs in its slots end (R114, R322). -/
def stopBlock (s : State) (bi : Nat) : State :=
  let s1 := (s.block bi).convoys.foldl (fun s ci =>
    let c := s.convoy ci
    let s0 := (c.holds ++ c.rvHolds ++ c.hrvHolds).foldl (fun s h => withdraw s ci h) s
    let s1 := s0.modConvoy ci stopConvoy
    if (s1.slotAt c.core c.slot).handover.isSome then endHandover s1 c.core c.slot else s1) s
  ({ s1 with copies := s1.copies.map fun (o : CopyOp) => if o.block == bi && o.phase != CopyPhase.joined then { o with paused := true } else o }).modBlock bi
    fun b => { b with state := .saving }

/-- The block of a running launch with an index. -/
def findBlock (s : State) (id index : Nat) : Option Nat :=
  (findLaunch s id).bind fun li =>
    (List.range s.blocks.length).find? fun bi =>
      (s.block bi).kind == .ordinary && (s.block bi).launch == li && (s.block bi).index == index

/-- Is a save or restore of a block under way? -/
def serviceOpen (s : State) (bi : Nat) : Bool := s.services.any fun v => v.block == bi && !v.closed

/-- May a service record be used: aligned, and writable in context 16 (R344)? The model looks at nothing else of it here: non-zero bytes at 0x34 to 0x3F, and bits above [16] at 0x2C, are ignored (assumption log 31). -/
def recordUsable (s : State) (a : Nat) : Bool := a % 256 == 0 && writable s 16 a

/-- A service operation that waits for its lay-by. -/
def newService (record : Nat) (restore : Bool) (core bi : Nat) (second : Bool) : ServiceOp :=
  { record := record, restore := restore, core := core, block := bi, second := second, since := none, layby := none, done := false, failed := false, closed := false }

/-- The operations of a block: one for each of its cores (R344). -/
def blockServices (b : Block) (bi : Nat) (restore : Bool) (record record2 : Nat) : List ServiceOp :=
  newService record restore b.core bi false ::
    (match b.follower with
     | some c => [newService record2 restore c bi true]
     | none => [])

/-- The convoys of a block on a core, in order. -/
def coreConvoysOf (s : State) (bi core : Nat) : List Nat := (s.block bi).convoys.filter fun ci => (s.convoy ci).core == core

/-- The hub's fields of a service record (R344). -/
def fillRecord (s : State) (v : ServiceOp) : State :=
  let b := s.block v.block
  let cs := coreConvoysOf s v.block v.core
  let put : State → Nat → List Byte → State := fun s off bs => (deviceWrite s 16 (v.record + off) bs).getD s
  let s1 := put s 0 (leBytes 4 (if v.restore then 2 else 1) ++ leBytes 4 cs.length ++ leBytes 8 (s.launch b.launch).id ++
    leBytes 4 b.index ++ leBytes 4 v.core)
  let s2 := put s1 0x30 (leBytes 4 0)
  (indexed cs).foldl (fun s p => put s (0x40 + 8 * p.1) (leBytes 8 (handleOf (s.convoy p.2)))) s2

/-- PREEMPT (R322, R344, R366): the hub fills its fields of the records, and stops the block. -/
def execPreempt (seq : BitVec 16) (s : State) : Host.Outcome State Fault Refusal :=
  runCommand s 0x10 seq readyCORE fun s =>
    match findBlock s (mbarg s 0) (mbarg s 1) with
    | none => conflict s
    | some bi =>
      let b := s.block bi
      let tandem := b.follower.isSome
      if (b.state != .running && b.state != .saving) || serviceOpen s bi || (tandem && mbarg s 3 == 0) then conflict s
      else if !recordUsable s (mbarg s 2) || (tandem && !recordUsable s (mbarg s 3)) then badArgument s
      else
        let ops := blockServices b bi false (mbarg s 2) (mbarg s 3)
        let s1 := stopBlock (ops.foldl fillRecord s) bi
        cmdDone { s1 with services := s1.services ++ ops }

/-- Give the convoys of a block the places of its room; they hold nothing until they are loaded (R343). -/
def reserveRoom (s : State) (bi core : Nat) (room : Room) : State :=
  let b := s.block bi
  let s1 := (b.convoys.zip room.places).foldl (fun s p =>
    seatConvoy (s.modConvoy p.1 fun c => { emptyConvoy c with core := p.2.1, slot := p.2.2.1, pos := p.2.2.2, stopped := true }) p.1 b.launch) s
  let s2 := (b.convoys.map fun ci => ((s1.convoy ci).core, (s1.convoy ci).slot)).eraseDups.foldl (fun s p =>
    s.modSlot p.1 p.2 fun x => { x with timer := 0, backward := false }) s1
  noteFull (s2.modBlock bi fun b => { b with
    core := core, follower := if b.follower.isSome then some (core + 1) else none, base := room.base, state := .restoring })

/-- May a launch's block be restored on a core (R334, R366)? -/
def restoreEligible (s : State) (b : Block) (core : Nat) : Bool :=
  (placeCores s (s.launch b.launch).rec_).contains core

/-- REINSTATE (R343, R344, R366): room is reserved on the named core ahead of every pending block, and the records take the new handles and core. -/
def execReinstate (seq : BitVec 16) (s : State) : Host.Outcome State Fault Refusal :=
  runCommand s 0x11 seq readyCORE fun s =>
    let record := mbarg s 0
    let core := mbarg s 1
    if !recordUsable s record then badArgument s
    else match findBlock s (recordField s (record + 8) 8) (recordField s (record + 0x10) 4) with
      | none => conflict s
      | some bi =>
        let b := s.block bi
        let tandem := b.follower.isSome
        if b.state != .saved || !restoreEligible s b core || (tandem && mbarg s 2 == 0) then conflict s
        else if tandem && !recordUsable s (mbarg s 2) then badArgument s
        else match findRoom s b.launch core with
          | none => conflict s
          | some room =>
            let s1 := reserveRoom s bi core room
            let ops := blockServices (s1.block bi) bi true record (mbarg s 2)
            let s2 := ops.foldl fillRecord s1
            cmdDone { s2 with services := s2.services ++ ops }

/-- Has an operation of a block's matrix queue started: it then ends before the block is saved (R172, R322)? -/
def opStarted (s : State) (bi : Nat) : Bool := s.cores.any fun c => c.queue.any fun o => o.block == bi && o.started

/-- Does a service operation wait for its lay-by: its block is to be restored, or has stopped and come to rest (R322, R342, R344)? -/
def serviceWaits (s : State) (v : ServiceOp) : Bool :=
  !v.closed && !v.done && !v.failed && v.layby.isNone && (s.block v.block).state == (if v.restore then .restoring else .saving) &&
    (v.restore || (blockQuiet s v.block && !opStarted s v.block))

/-- Service blocks wait for a lay-by from the step on in which they are dispatched to it (R342). -/
def queueServices (s : State) : State :=
  { s with services := s.services.map fun (v : ServiceOp) => { v with since := if serviceWaits s v then some (v.since.getD s.steps) else none } }

/-- Can a service operation have its lay-by now: it is free, and nothing waits for it since before (R342)? -/
def serviceReady (s : State) (sv : Nat) : Bool :=
  match s.services[sv]? with
  | some v => serviceWaits s v && laybyFree s v.core && v.since.any (fun n =>
      !laybyAsked s v.core n && !(s.hub.nodes.any fun x => decide (x.2.2 ≤ n)) &&
      !(s.services.take sv).any fun u => u.core == v.core && u.since == some n)
  | none => false

/-- SERVICE_BLOCK_DISPATCH (R310, R342, R344): a service block starts in the lay-by in supervisor state with S0 the record's address. -/
def dispatchService (s : State) (sv : Nat) : State :=
  match s.services[sv]? with
  | none => s
  | some v =>
    if !serviceReady s sv then s
    else
      let bi := s.blocks.length
      let ci := s.convoys.length
      let c := newConvoy v.core 31 0 64 64 noLaunch bi 0 (s.hub.svcProgram.setWidth 48) 2
      let s2 := { s with
        convoys := s.convoys ++ [{ c with s := c.s.set 0 (BitVec.ofNat 64 v.record) }]
        blocks := s.blocks ++ [{ Block.blank with
          kind := .service sv, launch := noLaunch, core := v.core, base := 491520, size := 32768, convoys := [ci], state := .running }]
        services := s.services.set sv { v with since := none, layby := some bi } }
      seatConvoy s2 ci noLaunch

def execServiceBlockDispatch (sv : Nat) (s : State) : Host.Outcome State Fault Refusal := stepTo (dispatchService s sv)

end Sys2Proof.Machine
end

