-- ==== Sys2Proof/Machine/Dispatch.lean ====
section
/-! DEFINITION. The meaning of every row of spec/opcode_table.json: one arm per constructor of Instr, each a direct call of its own meaning. -/

namespace Sys2Proof.Machine

/-- What one instruction or event does. -/
def exec (i : Instr) (s : State) : Host.Outcome State Fault Refusal :=
  match i with
  | .nop w => Sys2Proof.Machine.execNop w s
  | .bra w => Sys2Proof.Machine.execBra w s
  | .jmpt w => Sys2Proof.Machine.execJmpt w s
  | .call w => Sys2Proof.Machine.execCall w s
  | .callt w => Sys2Proof.Machine.execCallt w s
  | .ret w => Sys2Proof.Machine.execRet w s
  | .lpad w => Sys2Proof.Machine.execLpad w s
  | .loop w => Sys2Proof.Machine.execLoop w s
  | .loopbrk w => Sys2Proof.Machine.execLoopbrk w s
  | .exit w => Sys2Proof.Machine.execExit w s
  | .yield w => Sys2Proof.Machine.execYield w s
  | .trap w => Sys2Proof.Machine.execTrap w s
  | .brk w => Sys2Proof.Machine.execBrk w s
  | .eret w => Sys2Proof.Machine.execEret w s
  | .park w => Sys2Proof.Machine.execPark w s
  | .mov w => Sys2Proof.Machine.execMov w s
  | .mat w => Sys2Proof.Machine.execMat w s
  | .aff w => Sys2Proof.Machine.execAff w s
  | .dem w => Sys2Proof.Machine.execDem w s
  | .dema w => Sys2Proof.Machine.execDema w s
  | .movpc w => Sys2Proof.Machine.execMovpc w s
  | .elect w => Sys2Proof.Machine.execElect w s
  | .vote w => Sys2Proof.Machine.execVote w s
  | .kset w => Sys2Proof.Machine.execKset w s
  | .kop w => Sys2Proof.Machine.execKop w s
  | .iadd w => Sys2Proof.Machine.execIadd w s
  | .isub w => Sys2Proof.Machine.execIsub w s
  | .iand w => Sys2Proof.Machine.execIand w s
  | .ior w => Sys2Proof.Machine.execIor w s
  | .ixor w => Sys2Proof.Machine.execIxor w s
  | .imin w => Sys2Proof.Machine.execImin w s
  | .imax w => Sys2Proof.Machine.execImax w s
  | .imul w => Sys2Proof.Machine.execImul w s
  | .imulh w => Sys2Proof.Machine.execImulh w s
  | .imad w => Sys2Proof.Machine.execImad w s
  | .ishl w => Sys2Proof.Machine.execIshl w s
  | .ishr w => Sys2Proof.Machine.execIshr w s
  | .isar w => Sys2Proof.Machine.execIsar w s
  | .icmp w => Sys2Proof.Machine.execIcmp w s
  | .sel w => Sys2Proof.Machine.execSel w s
  | .popc w => Sys2Proof.Machine.execPopc w s
  | .clz w => Sys2Proof.Machine.execClz w s
  | .brev w => Sys2Proof.Machine.execBrev w s
  | .bfe w => Sys2Proof.Machine.execBfe w s
  | .bfi w => Sys2Proof.Machine.execBfi w s
  | .lea w => Sys2Proof.Machine.execLea w s
  | .idot4 w => Sys2Proof.Machine.execIdot4 w s
  | .movi w => Sys2Proof.Machine.execMovi w s
  | .iaddi w => Sys2Proof.Machine.execIaddi w s
  | .iandi w => Sys2Proof.Machine.execIandi w s
  | .iori w => Sys2Proof.Machine.execIori w s
  | .ixori w => Sys2Proof.Machine.execIxori w s
  | .icmpi w => Sys2Proof.Machine.execIcmpi w s
  | .fmovi w => Sys2Proof.Machine.execFmovi w s
  | .pairWord w => Sys2Proof.Machine.execPairWord w s
  | .fadd w => Sys2Proof.Machine.execFadd w s
  | .fsub w => Sys2Proof.Machine.execFsub w s
  | .fmul w => Sys2Proof.Machine.execFmul w s
  | .ffma w => Sys2Proof.Machine.execFfma w s
  | .fmin w => Sys2Proof.Machine.execFmin w s
  | .fmax w => Sys2Proof.Machine.execFmax w s
  | .fcmp w => Sys2Proof.Machine.execFcmp w s
  | .frcp w => Sys2Proof.Machine.execFrcp w s
  | .frsq w => Sys2Proof.Machine.execFrsq w s
  | .fsqrt w => Sys2Proof.Machine.execFsqrt w s
  | .fexp2 w => Sys2Proof.Machine.execFexp2 w s
  | .flog2 w => Sys2Proof.Machine.execFlog2 w s
  | .fsin w => Sys2Proof.Machine.execFsin w s
  | .fcos w => Sys2Proof.Machine.execFcos w s
  | .ftanh w => Sys2Proof.Machine.execFtanh w s
  | .fdiv w => Sys2Proof.Machine.execFdiv w s
  | .frnd w => Sys2Proof.Machine.execFrnd w s
  | .f2i w => Sys2Proof.Machine.execF2i w s
  | .i2f w => Sys2Proof.Machine.execI2f w s
  | .fcvt w => Sys2Proof.Machine.execFcvt w s
  | .hadd2 w => Sys2Proof.Machine.execHadd2 w s
  | .hmul2 w => Sys2Proof.Machine.execHmul2 w s
  | .hfma2 w => Sys2Proof.Machine.execHfma2 w s
  | .fclass w => Sys2Proof.Machine.execFclass w s
  | .cvt8 w => Sys2Proof.Machine.execCvt8 w s
  | .cvt4 w => Sys2Proof.Machine.execCvt4 w s
  | .xpand w => Sys2Proof.Machine.execXpand w s
  | .unpk8 w => Sys2Proof.Machine.execUnpk8 w s
  | .mxdot w => Sys2Proof.Machine.execMxdot w s
  | .scdec w => Sys2Proof.Machine.execScdec w s
  | .scenc w => Sys2Proof.Machine.execScenc w s
  | .srnd w => Sys2Proof.Machine.execSrnd w s
  | .shfl w => Sys2Proof.Machine.execShfl w s
  | .cmpx w => Sys2Proof.Machine.execCmpx w s
  | .scan w => Sys2Proof.Machine.execScan w s
  | .ired w => Sys2Proof.Machine.execIred w s
  | .redmaxi w => Sys2Proof.Machine.execRedmaxi w s
  | .matchLanes w => Sys2Proof.Machine.execMatchLanes w s
  | .minit w => Sys2Proof.Machine.execMinit w s
  | .mupd w => Sys2Proof.Machine.execMupd w s
  | .mmrg w => Sys2Proof.Machine.execMmrg w s
  | .mred w => Sys2Proof.Machine.execMred w s
  | .mdrain w => Sys2Proof.Machine.execMdrain w s
  | .mnorm w => Sys2Proof.Machine.execMnorm w s
  | .mld w => Sys2Proof.Machine.execMld w s
  | .mst w => Sys2Proof.Machine.execMst w s
  | .mdecay w => Sys2Proof.Machine.execMdecay w s
  | .ld w => Sys2Proof.Machine.execLd w s
  | .ldl w => Sys2Proof.Machine.execLdl w s
  | .st w => Sys2Proof.Machine.execSt w s
  | .stl w => Sys2Proof.Machine.execStl w s
  | .atom w => Sys2Proof.Machine.execAtom w s
  | .atoml w => Sys2Proof.Machine.execAtoml w s
  | .fence w => Sys2Proof.Machine.execFence w s
  | .mwait w => Sys2Proof.Machine.execMwait w s
  | .mwaitReread n => Sys2Proof.Machine.execMwaitReread n s
  | .waitstamp w => Sys2Proof.Machine.execWaitstamp w s
  | .pref w => Sys2Proof.Machine.execPref w s
  | .barinit w => Sys2Proof.Machine.execBarinit w s
  | .bar w => Sys2Proof.Machine.execBar w s
  | .bararv w => Sys2Proof.Machine.execBararv w s
  | .barwt w => Sys2Proof.Machine.execBarwt w s
  | .barl w => Sys2Proof.Machine.execBarl w s
  | .cross w => Sys2Proof.Machine.execCross w s
  | .waitev w => Sys2Proof.Machine.execWaitev w s
  | .setev w => Sys2Proof.Machine.execSetev w s
  | .launch w => Sys2Proof.Machine.execLaunch w s
  | .launchQueueEntry n => Sys2Proof.Machine.execLaunchQueueEntry n s
  | .rsig w => Sys2Proof.Machine.execRsig w s
  | .rwait w => Sys2Proof.Machine.execRwait w s
  | .ordrd w => Sys2Proof.Machine.execOrdrd w s
  | .ordwr w => Sys2Proof.Machine.execOrdwr w s
  | .itq w => Sys2Proof.Machine.execItq w s
  | .rand w => Sys2Proof.Machine.execRand w s
  | .mile w => Sys2Proof.Machine.execMile w s
  | .copy w => Sys2Proof.Machine.execCopy w s
  | .copyp w => Sys2Proof.Machine.execCopyp w s
  | .copym w => Sys2Proof.Machine.execCopym w s
  | .slotfree w => Sys2Proof.Machine.execSlotfree w s
  | .bccr w => Sys2Proof.Machine.execBccr w s
  | .coll w => Sys2Proof.Machine.execColl w s
  | .mma w => Sys2Proof.Machine.execMma w s
  | .mmas w => Sys2Proof.Machine.execMmas w s
  | .azero w => Sys2Proof.Machine.execAzero w s
  | .accld w => Sys2Proof.Machine.execAccld w s
  | .accst w => Sys2Proof.Machine.execAccst w s
  | .accstat w => Sys2Proof.Machine.execAccstat w s
  | .csrr w => Sys2Proof.Machine.execCsrr w s
  | .csrw w => Sys2Proof.Machine.execCsrw w s
  | .killCsrWrite w => Sys2Proof.Machine.execKillCsrWrite w s
  | .wdctlWrite w => Sys2Proof.Machine.execWdctlWrite w s
  | .perfselWrite w => Sys2Proof.Machine.execPerfselWrite w s
  | .perfr w => Sys2Proof.Machine.execPerfr w s
  | .tlbinv w => Sys2Proof.Machine.execTlbinv w s
  | .ctxsv w => Sys2Proof.Machine.execCtxsv w s
  | .ctxld w => Sys2Proof.Machine.execCtxld w s
  | .cacheop w => Sys2Proof.Machine.execCacheop w s
  | .fairnessTimerExpiry core slot => Sys2Proof.Machine.execFairnessTimerExpiry core slot s
  | .livelock core slot => Sys2Proof.Machine.execLivelock core slot s
  | .writeAcknowledgement id => Sys2Proof.Machine.execWriteAcknowledgement id s
  | .retry id => Sys2Proof.Machine.execRetry id s
  | .peerRequest r => Sys2Proof.Machine.execPeerRequest r s
  | .copyEnd op => Sys2Proof.Machine.execCopyEnd op s
  | .copyTranslationFault op => Sys2Proof.Machine.execCopyTranslationFault op s
  | .engineFaultRecord => Sys2Proof.Machine.execEngineFaultRecord s
  | .faultActionResume op => Sys2Proof.Machine.execFaultActionResume op s
  | .faultActionAbort op => Sys2Proof.Machine.execFaultActionAbort op s
  | .matrixOperationEnd core => Sys2Proof.Machine.execMatrixOperationEnd core s
  | .avenueChunkReceive c => Sys2Proof.Machine.execAvenueChunkReceive c s
  | .reduceBlockDispatch coll node => Sys2Proof.Machine.execReduceBlockDispatch coll node s
  | .collectiveEnd coll => Sys2Proof.Machine.execCollectiveEnd coll s
  | .portDown p => Sys2Proof.Machine.execPortDown p s
  | .peerPathTimeout id => Sys2Proof.Machine.execPeerPathTimeout id s
  | .ringRecordFetch q => Sys2Proof.Machine.execRingRecordFetch q s
  | .launchAdmission q => Sys2Proof.Machine.execLaunchAdmission q s
  | .blockPlacement lid => Sys2Proof.Machine.execBlockPlacement lid s
  | .blockRelease blk => Sys2Proof.Machine.execBlockRelease blk s
  | .launchCompletion lid => Sys2Proof.Machine.execLaunchCompletion lid s
  | .serviceBlockDispatch sv => Sys2Proof.Machine.execServiceBlockDispatch sv s
  | .migrationArm n v => Sys2Proof.Machine.execMigrationArm n v s
  | .migrationCopyDone n => Sys2Proof.Machine.execMigrationCopyDone n s
  | .migrationDisarm n v => Sys2Proof.Machine.execMigrationDisarm n v s
  | .tail q v => Sys2Proof.Machine.execTail q v s
  | .qctl q v => Sys2Proof.Machine.execQctl q v s
  | .controlRegisterWrite off size v => Sys2Proof.Machine.execControlRegisterWrite off size v s
  | .memoryWindowRead off size => Sys2Proof.Machine.execMemoryWindowRead off size s
  | .memoryWindowWrite off bytes => Sys2Proof.Machine.execMemoryWindowWrite off bytes s
  | .summary seq => Sys2Proof.Machine.execSummary seq s
  | .attest seq => Sys2Proof.Machine.execAttest seq s
  | .peerAttestResponse bytes => Sys2Proof.Machine.execPeerAttestResponse bytes s
  | .chkpt seq => Sys2Proof.Machine.execChkpt seq s
  | .checkpointQuiesced => Sys2Proof.Machine.execCheckpointQuiesced s
  | .checkpointStreamEnd => Sys2Proof.Machine.execCheckpointStreamEnd s
  | .restore seq => Sys2Proof.Machine.execRestore seq s
  | .restoreEnd => Sys2Proof.Machine.execRestoreEnd s
  | .evset seq => Sys2Proof.Machine.execEvset seq s
  | .evclr seq => Sys2Proof.Machine.execEvclr seq s
  | .kill seq => Sys2Proof.Machine.execKill seq s
  | .parkctlResume seq => Sys2Proof.Machine.execParkctlResume seq s
  | .parkctlTerminate seq => Sys2Proof.Machine.execParkctlTerminate seq s
  | .commset seq => Sys2Proof.Machine.execCommset seq s
  | .commclr seq => Sys2Proof.Machine.execCommclr seq s
  | .svcset seq => Sys2Proof.Machine.execSvcset seq s
  | .wlset seq => Sys2Proof.Machine.execWlset seq s
  | .domset seq => Sys2Proof.Machine.execDomset seq s
  | .pwrlim seq => Sys2Proof.Machine.execPwrlim seq s
  | .fwload seq => Sys2Proof.Machine.execFwload seq s
  | .preempt seq => Sys2Proof.Machine.execPreempt seq s
  | .reinstate seq => Sys2Proof.Machine.execReinstate seq s
  | .mbcmdUnassigned code seq => Sys2Proof.Machine.execMbcmdUnassigned code seq s
  | .powerGood => Sys2Proof.Machine.execPowerGood s
  | .firmwareMeasure => Sys2Proof.Machine.execFirmwareMeasure s
  | .stageB fail => Sys2Proof.Machine.execStageB fail s
  | .stageC fail => Sys2Proof.Machine.execStageC fail s
  | .stageD fail => Sys2Proof.Machine.execStageD fail s
  | .stageE fail => Sys2Proof.Machine.execStageE fail s
  | .stageDeadlineExpiry => Sys2Proof.Machine.execStageDeadlineExpiry s
  | .thermalThrottle => Sys2Proof.Machine.execThermalThrottle s
  | .thermalTrip => Sys2Proof.Machine.execThermalTrip s
  | .linkDegrade => Sys2Proof.Machine.execLinkDegrade s
  | .homeAccessPerform id => Sys2Proof.Machine.execHomeAccessPerform id s
  | .readResponse id => Sys2Proof.Machine.execReadResponse id s
  | .peerAttestRequest peer nonce => Sys2Proof.Machine.execPeerAttestRequest peer nonce s
  | .avenuePortUp p => Sys2Proof.Machine.execAvenuePortUp p s
  | .hostLinkRestore => Sys2Proof.Machine.execHostLinkRestore s
  | .thermalThrottleEnd => Sys2Proof.Machine.execThermalThrottleEnd s
  | .powerCapEngage => Sys2Proof.Machine.execPowerCapEngage s
  | .powerCapRelease => Sys2Proof.Machine.execPowerCapRelease s
  | .powerLoss => Sys2Proof.Machine.execPowerLoss s

end Sys2Proof.Machine
end

