-- ==== Sys2Proof/Machine/Agents.lean ====
section
/-! DEFINITION. Who may move next (assumption log 1): the slots, the accesses in flight, the engines, the hub, the inputs and the caches, in one list from which a free value picks. -/

namespace Sys2Proof.Machine

/-- One move of the module: a slot issues, a held word is tested again, an event happens, an input is taken, or the first access of a host link; an engine, the host link's queue, a barrier object (R77), the wait list (R336), a crossing (R157), a checkpoint (R372, R374) or the firmware (R368) goes on; an outside agent stores into its own memory, a soft error strikes, a cache forgets, or a cycle passes. -/
inductive Move where
  | issue (core slot : Nat)
  | retest (ci : Nat) (h : Hold) (i : Instr)
  | event (i : Instr)
  | input (i : Instr)
  | link (k : Nat)
  | copyStart (i : Nat)
  | copyRead (i : Nat)
  | copyReadAhead (i : Nat)
  | copyWrite (i k : Nat)
  | copyPerform (i j : Nat)
  | copyRetry (i j : Nat)
  | matStep (core : Nat)
  | collStart (i : Nat)
  | collRead (i : Nat)
  | collDeliver (i : Nat)
  | collPerform (i j : Nat)
  | collRetry (i j : Nat)
  | endReduce (k : Nat)
  | loseFlights
  | drainPosted
  | scanList
  | crossing (li : Nat)
  | streamChunk
  | captureLine
  | restoreChunk
  | loadMicrocode
  | outsideStore
  | forgetLine (core i : Nat)
  | forgetEntry (core i : Nat)
  | forgetDie (die i : Nat)
  | forgetWord (core i : Nat)
  | forgetCopy (i : Nat)
  | barFree (ci off : Nat) (h : Hold)
  | strike
  | cycle
  deriving DecidableEq, Repr

/-- Execute the word that the head of an issue meets at its address. -/
def stepWord (s : State) (core slot : Nat) : Host.Outcome State Fault Refusal :=
  match focusHead s core slot with
  | none => .next s
  | some (s1, f) =>
    match (s1.slotAt core slot).pending.bind Pending.retest with
    | some i => exec i s1
    | none =>
      match fetchWord s1 f.convoy f.addr with
      | .stall => .next s1
      | .fault s2 cause => execFetchFault cause s2
      | .word s2 w =>
        match decodeWord w with
        | .ok i => exec i s2
        | .error _ => execIllegal w s2

/-- Execute an issue for at most n of its convoys, in position order, each in the state the one before it left (R68, R74). -/
def runConvoys (core slot : Nat) : Nat → State → Host.Outcome State Fault Refusal
  | 0, s => .next s
  | n + 1, s =>
    match stepWord (cleanIssue s core slot) core slot with
    | .next t => runConvoys core slot n t
    | o => o

/-- Execute an issue that has begun for all its convoys. -/
def runIssue (s : State) (core slot : Nat) : Host.Outcome State Fault Refusal :=
  runConvoys core slot (((s.slotAt core slot).pending.map fun p => p.todo.length).getD 0) s

/-- Has an issue been through all its convoys? A convoy whose word must wait is still in it. -/
def issueOver (core slot : Nat) : Host.Outcome State Fault Refusal → Bool
  | .next t => (t.slotAt core slot).pending.isNone
  | _ => true

/-- Do the stall counts, the interlock, the fetches and the waits of the word itself let the slot issue (R54, R68, R95, R104, R183)? -/
def slotReady (s : State) (core h : Nat) : Bool := issueOver core h (runIssue (beginIssue s core h) core h)

/-- An issue, or nothing where some convoy's word must wait. -/
def issueStep (s s1 : State) (core h : Nat) : Host.Outcome State Fault Refusal :=
  let o := runIssue s1 core h
  if issueOver core h o then o else .next s

/-- What a slot can do (R68, R71, R82, R84). -/
def slotMoves (s : State) (core h : Nat) : List Move :=
  if !slotOpen s core h then []
  else if handoverDue s core h then [.event (.fairnessTimerExpiry core h)]
  else if canonBusy s core h || !slotReady s core h then []
  else if livelockDue s core h then (if livelockWaits s core h then [] else [.event (.livelock core h)])
  else [.issue core h]

/-- The slots of a sequencer, from the one after the last it issued from (R68). -/
def robin (last seq : Nat) : List Nat := (List.range 8).map fun i => 8 * seq + (last + 1 + i) % 8

/-- The moves of a sequencer: the next ready slot in turn (R68). -/
def seqMoves (s : State) (core seq : Nat) : List Move :=
  (((robin ((s.core core).seqs.getD seq { last := 7, next := 0 }).last seq).map (slotMoves s core)).find? fun l => !l.isEmpty).getD []

def coreMoves (s : State) (core : Nat) : List Move := (List.range 4).flatMap (seqMoves s core)

/-- All slots' moves. -/
def issueMoves (s : State) : List Move := (List.range s.cores.length).flatMap (coreMoves s)

/-- May a slot take up the retest of a held word: it is not in the middle of an issue? -/
def mayRetest (s : State) (c : Convoy) : Bool :=
  !halted s.hub && !c.stopped && !c.parked && !c.ended && (s.slotAt c.core c.slot).pending.isNone && decide (c.ready ≤ s.clock)

/-- What the held words of a convoy can do. -/
def holdMoves (s : State) (ci : Nat) : List Move :=
  let c := s.convoy ci
  if !mayRetest s c then []
  else c.holds.flatMap fun h => match h.kind with
    | .retry (.mwait w) => if w.mod.getLsbD 7 then [.retest ci h (.mwait w)] else [.event (.mwaitReread ci)]
    | .retry i => [.retest ci h i]
    | .launch _ _ _ _ => if mayEnter s ci then [.event (.launchQueueEntry ci)] else []
    | .bar off _ => if genPassed s ci h then [.barFree ci off h] else []
    | _ => []

def allHoldMoves (s : State) : List Move := (List.range s.convoys.length).flatMap (holdMoves s)

/-- What an access in flight can do. -/
def accessMoves (s : State) (a : Access) : List Move :=
  if !a.unperformed then [.event (if a.returns then .readResponse a.id else .writeAcknowledgement a.id)]
  else if a.retrying || armedFrame s a.pa then [.event (.retry a.id)]
  else if eligible s a then [.event (.homeAccessPerform a.id)]
  else if pathLost s a then [.event (.peerPathTimeout a.id)]
  else []

/-- Does an access of an engine end now, rather than fault or wait? -/
def EngRes.goes {α : Type} : EngRes α → Bool
  | .ok _ => true
  | .ends => true
  | _ => false

/-- Can a copy read under a key now? -/
def canFetch (s : State) (o : CopyOp) : Option Nat → Bool
  | some k => (copyFetch s o k).goes
  | none => false

/-- What a copy can do. -/
def copyMoves (s : State) (i : Nat) : List Move :=
  match s.copyAt i with
  | none => []
  | some o =>
    (if copyStarts s i then [.copyStart i] else []) ++
    (if canFetch s o (nextKey o) then [.copyRead i] else []) ++
    (if canFetch s o (aheadKey s o) then [.copyReadAhead i] else []) ++
    ((indexed o.receivers).filter fun p => mayWrite s o p.2 && (copyPut s o p.2).goes).map (fun p => .copyWrite i p.1) ++
    ((indexed o.flight).filter fun p => (flightHome s o p.2).goes).map (fun p => .copyPerform i p.1) ++
    ((indexed o.flight).filter fun p => flightRefused s p.2).map (fun p => .copyRetry i p.1) ++
    (if (copyFault s i).isSome then [.event (.copyTranslationFault i)] else []) ++
    (if (copyEnds s o).isEmpty then [] else [.event (.copyEnd i)]) ++
    (if copyAction s i == 1 then [.event (.faultActionResume i)] else []) ++
    (if copyAction s i == 2 then [.event (.faultActionAbort i)] else [])

/-- What a collective can do. -/
def collMoves (s : State) (i : Nat) : List Move :=
  match s.collAt i with
  | none => []
  | some c =>
    (if collStarts s i then [.collStart i] else []) ++
    (if (collNext s c).isSome then [.collRead i] else []) ++
    (if c.writes.isEmpty then [] else [.collDeliver i]) ++
    ((indexed c.flight).filter fun p => (collPut c (c.chunkOf p.2) s).goes).map (fun p => .collPerform i p.1) ++
    ((indexed c.flight).filter fun p => flightRefused s p.2).map (fun p => .collRetry i p.1) ++
    (if collDone s i then [.event (.collectiveEnd i)] else [])

/-- What a matrix array can do. -/
def matMovesOf (s : State) (core : Nat) : List Move :=
  (if matMoves s core then [.matStep core] else []) ++ (if matEnds s core then [.event (.matrixOperationEnd core)] else [])

/-- The engines, which a thermal trip stops (R376). -/
def engineMoves (s : State) : List Move :=
  if halted s.hub then []
  else
    (List.range s.copies.length).flatMap (copyMoves s) ++ (List.range s.cores.length).flatMap (matMovesOf s) ++
    (List.range s.colls.length).flatMap (collMoves s) ++
    ((s.hub.nodes.take 1).map fun p => .event (.reduceBlockDispatch p.1 p.2.1)) ++
    (List.range s.hub.reduces.length).map .endReduce

/-- The command that the mailbox holds (R365, R366). -/
def commandOf (code : Byte) (seq : BitVec 16) (arg1 : Nat) : Instr :=
  match code.toNat with
  | 0x01 => .summary seq
  | 0x02 => .attest seq
  | 0x03 => .chkpt seq
  | 0x04 => .restore seq
  | 0x05 => .evset seq
  | 0x06 => .evclr seq
  | 0x07 => .kill seq
  | 0x08 => if arg1 == 2 then .parkctlTerminate seq else .parkctlResume seq
  | 0x09 => .commset seq
  | 0x0A => .commclr seq
  | 0x0B => .svcset seq
  | 0x0C => .wlset seq
  | 0x0D => .domset seq
  | 0x0E => .pwrlim seq
  | 0x0F => .fwload seq
  | 0x10 => .preempt seq
  | 0x11 => .reinstate seq
  | _ => .mbcmdUnassigned code seq

/-- Must the command that the mailbox holds wait: for the posted writes that its reads and writes of host memory follow (R99), or for a record or header in an armed frame (R356)? -/
def commandWaits (s : State) (code : Byte) : Bool :=
  let record : Nat → Bool := fun a => deviceStalls s 16 a 256
  !s.hub.posted.isEmpty ||
  (match code.toNat with
   | 0x01 => (runningLaunches s).any fun p => p.2.rec_.itin != 0 && deviceStalls s p.2.queue p.2.rec_.itin 64
   | 0x10 => record (mbarg s 2) || (mbarg s 3 != 0 && record (mbarg s 3))
   | 0x11 => record (mbarg s 0) || (mbarg s 2 != 0 && record (mbarg s 2))
   | _ => false)

/-- The stage of the start that may come next, without a failure (R363). -/
def startMoves (s : State) : List Move :=
  if !s.hub.powered then []
  else
    (if !isReady s readyCFG && (missedStage s).isNone && !startFailed s then [.event .powerGood] else []) ++
    (if stageDue s readyCFG readyFIRM then [.event .firmwareMeasure] else []) ++
    (if stageDue s readyFIRM readyLINK then [.event (.stageB 0)] else []) ++
    (if stageDue s readyLINK readyMEM then [.event (.stageC 0)] else []) ++
    (if stageDue s readyMEM readyCORE then [.event (.stageD 0)] else []) ++
    (if stageDue s readyCORE readyAVE && s.hub.domsetAt.isSome && s.hub.ports.any id then [.event (.stageE 0)] else []) ++
    (if (missedStage s).isSome then [.event .stageDeadlineExpiry] else []) ++
    (if (nextMicrocode s).isSome then [.loadMicrocode] else [])

/-- The hub: the mailbox, the queues, the distributor, blocks and launches that end, service blocks, migration, checkpoints. -/
def hubMoves (s : State) : List Move :=
  (match s.hub.mbcmd with
   | some (code, seq) => if s.hub.attesting.isSome || commandWaits s code then [] else [.event (commandOf code seq (mbarg s 1))]
   | none => []) ++
  (if fqReady s then [.event .engineFaultRecord] else []) ++
  ((List.range 16).filter (ringReady s)).map (fun q => .event (.ringRecordFetch q)) ++
  ((List.range 16).filter fun q => (match (s.queue q).fifo with
    | h :: _ => admissible s q h
    | [] => false)).map (fun q => .event (.launchAdmission q)) ++
  (if mayPlace s then (match placingLaunch s (placingOrder s) with
   | some li => [.event (.blockPlacement li)]
   | none => []) else []) ++
  (match nextRelease s with
   | some bi => [.event (.blockRelease bi)]
   | none => []) ++
  ((List.range s.launches.length).filter (crossComplete s)).map .crossing ++
  ((List.range s.launches.length).filter (completable s)).map (fun li => .event (.launchCompletion li)) ++
  ((List.range s.services.length).filter (serviceReady s)).map (fun sv => .event (.serviceBlockDispatch sv)) ++
  ((List.range 4).filter (migrating s)).map (fun i => .event (.migrationCopyDone i)) ++
  (if s.hub.posted.isEmpty || drainStalls s then [] else [.drainPosted]) ++
  (if s.hub.scans.isEmpty then [] else [.scanList]) ++
  (if flightsLost s then [.loseFlights] else []) ++
  (if quiesced s then [.event .checkpointQuiesced] else []) ++
  (if streamReady s then [.streamChunk] else []) ++
  (if (earlyLine s).isSome then [.captureLine] else []) ++
  (if (streamEnds s).isSome then [.event .checkpointStreamEnd] else []) ++
  (if restoreReady s then [.restoreChunk] else []) ++
  (if (restoreEnds s).isSome then [.event .restoreEnd] else [])

/-- Everything that may be forgotten (R91, R98, R330, R352). -/
def forgetMoves (s : State) : List Move :=
  (List.range s.cores.length).flatMap (fun c =>
    (List.range (s.core c).l1.length).map (.forgetLine c) ++ (List.range (s.core c).tlb.length).map (.forgetEntry c) ++
    (List.range (s.core c).ibuf.length).map (.forgetWord c)) ++
  (List.range 4).flatMap (fun d => (List.range (s.dieTlb d).length).map (.forgetDie d)) ++
  (List.range s.squares.length).map .forgetCopy

/-- The rows that a host link carries (R360, R361). -/
def isHostRow : Instr → Bool
  | .memoryWindowRead .. => true
  | .memoryWindowWrite .. => true
  | .controlRegisterWrite .. => true
  | .tail .. => true
  | .qctl .. => true
  | .migrationArm .. => true
  | .migrationDisarm .. => true
  | _ => false

/-- The rows that come from outside by another way: from peers, from the supply, the coolant and the links, and the end of a start stage, with its code. -/
def isOuterRow : Instr → Bool
  | .peerRequest _ => true
  | .avenueChunkReceive _ => true
  | .portDown _ => true
  | .avenuePortUp _ => true
  | .peerAttestRequest .. => true
  | .peerAttestResponse _ => true
  | .powerGood => true
  | .powerLoss => true
  | .stageB _ => true
  | .stageC _ => true
  | .stageD _ => true
  | .stageE _ => true
  | .thermalThrottle => true
  | .thermalThrottleEnd => true
  | .thermalTrip => true
  | .powerCapEngage => true
  | .powerCapRelease => true
  | .linkDegrade => true
  | .hostLinkRestore => true
  | _ => false

/-- Must an input wait: a peer's response is written behind the posted writes (R99)? -/
def inputWaits (s : State) : Instr → Bool
  | .peerAttestResponse _ => !s.hub.posted.isEmpty
  | _ => false

/-- May a soft error strike now? A read or an atomic that has passed its check, in flight or buffered, comes before an error of its sector, and lanes that are held at the last word of a loop body, whose back-edge has still to read the counter, before one of it (R58, R64, R321; assumption log 36). -/
def strikeReady (s : State) : Upset → Bool
  | .memory pa =>
    let meets : Nat → Nat → Bool := fun a n => rangesMeet a n (pa / 32 * 32) 32
    !(s.accesses.any fun a => a.unperformed && a.isRead && meets a.pa a.size) &&
    !s.launches.any fun l => l.buffer.any fun b => match b.kind with
      | .atom op _ _ _ => meets b.pa (atomSize op)
      | _ => false
  | .cell ci x =>
    let c := s.convoy ci
    !(x.reg == .lc && c.holds.any fun h => (backEdge c h.pc).isSome)
  | _ => true

/-- The first access of a host link. -/
def linkMoves (s : State) (k : Nat) : List Move :=
  match s.links.getD k [] with
  | [] => []
  | .row i :: _ => if hostWaits s i then [] else [.link k]
  | _ :: _ => [.link k]

/-- Inputs, the two host links (R359, R360), and outside stores. -/
def outerMoves (s : State) : List Move :=
  (match s.inputs with
   | i :: _ => if inputWaits s i then [] else [.input i]
   | [] => []) ++
  (List.range s.links.length).flatMap (linkMoves s) ++
  (if s.outside.isEmpty then [] else [.outsideStore]) ++
  (match s.upsets with
   | u :: _ => if strikeReady s u then [.strike] else []
   | [] => [])

/-- What a cycle adds to the performance counters of a core (R327): one cycle, and a free count of the cycles of the interlock and of the matrix array. -/
def countCycle (s : State) (k : Nat) : State :=
  s.modCore k fun c => { c with
    perf := perfBump 0x06 (Config.freeHeldCycles k s.steps) c.perfsel
      (perfBump 0x07 (Config.freeBusyCycles k s.steps) c.perfsel (perfBump 0x01 1 c.perfsel c.perf)) }

/-- A cycle passes: the clock and the cycle counters advance (R327). -/
def passCycle (s : State) : State :=
  (List.range s.cores.length).foldl countCycle { s with clock := s.clock + 1 }

/-- A host agent, or a peer, stores into its own memory, which this module reaches as physical addresses with selector 01 or 10. -/
def storeOutside (s : State) : State :=
  match s.outside with
  | [] => s
  | (a, bs) :: r =>
    if paIsHost a || paIsPeer a then { s with mem := memWrite s.mem a bs, outside := r } else { s with outside := r }

/-- Remove element i of a list. -/
def dropAt {α : Type} (l : List α) (i : Nat) : List α := l.eraseIdx i

/-- Take the first access from a host link. -/
def dropLink (s : State) (k : Nat) : State := { s with links := s.links.set k ((s.links.getD k []).drop 1) }

/-- An access of the host that is no row of the table (R359, R361). -/
def hostAccess (s : State) : HostAccess → State
  | .registerRead off size => registerRead s off size
  | .serialRead => if windowUp s then s.emit (.registerReply (some Sys2Proof.Config.serial)) else s
  | .resize n => resizeWindow s n
  | .row _ => s

/-- The moves that execute no row of the table. -/
def quietMove (s : State) : Move → State
  | .copyStart i => copyStart s i
  | .copyRead i => copyRead s i
  | .copyReadAhead i => copyReadAhead s i
  | .copyWrite i k => copyWrite s i k
  | .copyPerform i j => copyPerform s i j
  | .copyRetry i j => copyRetry s i j
  | .matStep core => matStep s core
  | .collStart i => collStart s i
  | .collRead i => collRead s i
  | .collDeliver i => collDeliver s i
  | .collPerform i j => collPerform s i j
  | .collRetry i j => collRetry s i j
  | .endReduce k => endReduce s k
  | .loseFlights => loseFlights s
  | .drainPosted => drainPosted s
  | .scanList => scanList s
  | .crossing li => finishCrossing s li
  | .streamChunk => streamChunk s
  | .captureLine => captureLine s
  | .restoreChunk => restoreChunk s
  | .loadMicrocode => loadMicrocode s
  | .outsideStore => storeOutside s
  | .forgetLine c i => s.modCore c fun k => { k with l1 := dropAt k.l1 i }
  | .forgetEntry c i => s.modCore c fun k => { k with tlb := dropAt k.tlb i }
  | .forgetDie d i => s.modDieTlb d fun l => dropAt l i
  | .forgetWord c i => s.modCore c fun k => { k with ibuf := dropAt k.ibuf i }
  | .forgetCopy i => { s with squares := dropAt s.squares i }
  | .strike => strike s
  | .barFree ci off h => releaseHolds (passObject s ci off) ci fun k => k == h
  | .cycle => passCycle s
  | _ => s

/-- Every move, in one order; a cycle may always pass. -/
def moves (s : State) : List Move :=
  issueMoves s ++ allHoldMoves s ++ outerMoves s ++ s.accesses.flatMap (accessMoves s) ++
  engineMoves s ++ hubMoves s ++ startMoves s ++ forgetMoves s ++ [.cycle]

/-- The n-th move; the first when there are fewer. -/
def pickFrom (first : Move) : Nat → List Move → Move
  | _, [] => first
  | 0, m :: _ => m
  | n + 1, _ :: r => pickFrom first n r

def pickMove (n : Nat) (l : List Move) : Move :=
  match l with
  | [] => .cycle
  | m :: r => pickFrom m n (m :: r)

/-- The launch record of a program that a loader places in core 0: one block of one convoy of 8 lanes, every V register in the budget. -/
def loaderRecord : LaunchRec := { LaunchRec.blank with blanes := 8, width := 8, budget8 := 32 }

/-- One convoy alone in slot 0 of core 0, at its entry PC. -/
def loadConvoy (s : State) : State :=
  let li := s.launches.length
  let bi := s.blocks.length
  let ci := s.convoys.length
  let s1 : State := { s with
    launches := s.launches ++ [{ Launch.blank with rec_ := loaderRecord, queue := 0, nextBlock := 1 }]
    blocks := s.blocks ++ [{ Block.blank with launch := li, size := 32768, convoys := [ci], state := .running }]
    convoys := s.convoys ++ [newConvoy 0 0 0 8 256 li bi 0 0 0]
    hub := { s.hub with tripped := false, powered := true } }
  s1.modCore 0 fun c => { c with
    slots := c.slots.set 0 { Slot.closed with launch := some li, positions := [some ci] }
    seqs := c.seqs.set 0 { last := 7, next := 0 } }

/-- The slots of the module that may issue, but for the interlock. -/
def openSlots (s : State) : List (Nat × Nat) :=
  (List.range s.cores.length).flatMap fun core => ((List.range 32).filter (slotOpen s core)).map fun h => (core, h)

/-- The place of a slot's issue among the moves; none has it beyond the last. -/
def issuePlace (core h : Nat) : List Move → Nat
  | [] => 0
  | .issue c k :: r => if c = core ∧ k = h then 0 else issuePlace core h r + 1
  | _ :: r => issuePlace core h r + 1

/-- Put a word where the slot's next issue fetches it, and pick that issue. -/
def setWord (s : State) (core h : Nat) (w : W64) : State :=
  match focusHead (cleanIssue (beginIssue s core h) core h) core h with
  | none => s
  | some (_, f) =>
    let c := s.convoy f.convoy
    let s1 := s.modCore core fun k => { k with ibuf := (fetchKey (s.ctxOf c) (c.priv != 2) f.addr, w) :: k.ibuf }
    let s2 := s1.modConvoy f.convoy fun c => { c with loops := c.loops.map fun v => { v with words := [] } }
    { s2 with turn := issuePlace core h (issueMoves s2) }

/-- Place a word so that the very next step runs it: at the address of the first slot that can issue, or, where none can, as a program that a loader places. -/
def placeWord (s : State) (w : W64) : State :=
  match (if s.convoys.isEmpty then [] else openSlots s) with
  | (core, h) :: _ => setWord s core h w
  | [] => setWord (loadConvoy s) 0 0 w

end Sys2Proof.Machine
end

