-- ==== Sys2Proof/Machine/Step.lean ====
section
/-! DEFINITION. One step of the module: one move of one agent. -/

namespace Sys2Proof.Machine

/-- The first access of a host link, taken from it (R359, R360); a row that no host access is, is dropped. -/
def stepLink (s : State) (k : Nat) : Host.Outcome State Fault Refusal :=
  match s.links.getD k [] with
  | .row i :: _ => if isHostRow i then exec i (dropLink s k) else .next (dropLink s k)
  | x :: _ => .next (hostAccess (dropLink s k) x)
  | [] => .next s

/-- A move. An input that is no row of an outside agent is dropped. -/
def stepMove (s : State) : Move → Host.Outcome State Fault Refusal
  | .issue core slot => issueStep s (beginIssue s core slot) core slot
  | .retest ci h i => issueStep s (beginRetest s ci h i) (s.convoy ci).core (s.convoy ci).slot
  | .event i => exec i s
  | .input i => if isOuterRow i then exec i { s with inputs := s.inputs.drop 1 } else .next { s with inputs := s.inputs.drop 1 }
  | .link k => stepLink s k
  | m => .next (quietMove s m)

/-- What a step brings about at its end: hand-overs by words with Y that it has completed (R83), the choice of current convoys (R70), and who waits for a lay-by (R342). -/
def settleStep (s : State) : State := queueServices (queueNodes (settleCurrents (startYields s)))

/-- What closes every step: what it brings about is settled, the focus is left, and the next free choice is drawn (assumption log 1). -/
def closeStep : Host.Outcome State Fault Refusal → Host.Outcome State Fault Refusal
  | .next s => .next { settleStep s with focus := none, turn := Sys2Proof.Config.freeTurn s.steps, steps := s.steps + 1 }
  | o => o

/-- One step. -/
def step (s : State) : Host.Outcome State Fault Refusal := closeStep (stepMove s (pickMove s.turn (moves s)))

/-- The state in which the very next step runs the instruction whose bits are w, as a program that a loader has placed. -/
def State.withFetchWord (s : State) (nbits w : Nat) : State := placeWord s (BitVec.ofNat 64 (w % 2 ^ nbits))

end Sys2Proof.Machine
end

