-- ==== Sys2Proof/Safety.lean ====
section
/-! DEFINITION. The terms of the claims: a safe step, the invariant of every step, what a word needs to run and what it leaves alone. -/

namespace Sys2Proof.Machine

/-- A step that neither faults nor is refused. -/
def SafeStep (s : State) : Prop := ∃ t, step s = .next t

/-- The register files of a convoy have their sizes: V registers up to the budget and M0 to M7 in every lane, K0 to K7, S0 to S63, A0 to A31, G0 to G7 and four scratch registers (R10, R312). A convoy without lanes is one whose registers lie in a context area (R343). -/
def shapedParts (lanes : List Lane) (width budget : Nat) (k : List Mask) (s : List W64) (a : List Affine) (g : List Moment) (sc : List W64) : Bool :=
  (lanes.isEmpty || lanes.length == width) && lanes.all (fun x => x.v.length == budget && x.m.length == 8) &&
  k.length == 8 && s.length == 64 && a.length == 32 && g.length == 8 && sc.length == 4

def Convoy.shaped (c : Convoy) : Bool := shapedParts c.lanes c.width c.budget c.k c.s c.a c.g c.scratch

/-- Both local stores of a block are in canonical form. -/
def Block.tidy (b : Block) : Bool := Memory.wf b.ls.mem && Memory.wf b.ls2.mem

/-- The parts of the invariant. -/
def soundParts (m : Memory) (bs : List Block) (ls : List Launch) (cs : List Convoy) : Bool :=
  m.wf && bs.all Block.tidy && ls.all (fun l => Memory.wf l.snapshot) && cs.all Convoy.shaped

/-- The invariant that every step keeps: device, host and peer memory, both local stores of every block and every snapshot of a CANONICAL launch are in canonical form, and every convoy has its register files. -/
def State.sound (s : State) : Bool := soundParts s.mem s.blocks s.launches s.convoys

/-- The parts of the state of which a frame says that a word leaves them alone. -/
inductive Part where
  | reg (r : Reg)
  | draws
  | vectors
  | live
  | conflicts
  | mode
  | trap
  | scratch
  | holds
  | barl
  | occ
  | ord
  | views
  | ends
  | others
  | memory
  | stores
  | blocks
  | launches
  | hub
  | outer
  | accesses
  | engines
  | coreRegs
  | caches
  | tiles
  deriving DecidableEq, Repr

/-- The part reads in t as it does in s, for the convoy in focus where it is a convoy's. The program counters are no part; the loop levels are one unless the word at the focus ends a loop body, whose counter goes on, with the lanes that have waited there for the others (R58). -/
def Same (s t : State) (f : Focus) : Part → Prop
  | .reg (.v n) => ∀ l, (t.convoy f.convoy).readV n l = (s.convoy f.convoy).readV n l
  | .reg (.m n) => ∀ l, (t.convoy f.convoy).readM n l = (s.convoy f.convoy).readM n l
  | .reg (.k n) => (t.convoy f.convoy).readKn n = (s.convoy f.convoy).readKn n
  | .reg (.s n) => (t.convoy f.convoy).readS n = (s.convoy f.convoy).readS n
  | .reg (.a n) => (t.convoy f.convoy).readAff n = (s.convoy f.convoy).readAff n
  | .reg (.g n) => (t.convoy f.convoy).readG n = (s.convoy f.convoy).readG n
  | .reg .flags => (t.convoy f.convoy).flags = (s.convoy f.convoy).flags
  | .reg .lc => backEdge (s.convoy f.convoy) f.addr = none → (t.convoy f.convoy).loops = (s.convoy f.convoy).loops
  | .draws => ∀ l, ((t.convoy f.convoy).lane l).draw = ((s.convoy f.convoy).lane l).draw
  | .vectors => ∀ l, ((t.convoy f.convoy).lane l).rv = ((s.convoy f.convoy).lane l).rv ∧
      ((t.convoy f.convoy).lane l).hrv = ((s.convoy f.convoy).lane l).hrv
  | .live => (t.convoy f.convoy).live = (s.convoy f.convoy).live
  | .conflicts => (t.convoy f.convoy).conflicts = (s.convoy f.convoy).conflicts
  | .mode => (t.convoy f.convoy).priv = (s.convoy f.convoy).priv
  | .trap => (t.convoy f.convoy).trap = (s.convoy f.convoy).trap ∧ (t.convoy f.convoy).held = (s.convoy f.convoy).held ∧
      (t.convoy f.convoy).hrvValid = (s.convoy f.convoy).hrvValid ∧ (t.convoy f.convoy).watch = (s.convoy f.convoy).watch ∧
      (t.convoy f.convoy).hwatch = (s.convoy f.convoy).hwatch
  | .scratch => (t.convoy f.convoy).scratch = (s.convoy f.convoy).scratch
  | .holds => (backEdge (s.convoy f.convoy) f.addr = none ∨ (∀ h ∈ (s.convoy f.convoy).holds, h.kind ≠ .edge) →
      (t.convoy f.convoy).holds = (s.convoy f.convoy).holds) ∧ (t.convoy f.convoy).rvHolds = (s.convoy f.convoy).rvHolds ∧
      (t.convoy f.convoy).hrvHolds = (s.convoy f.convoy).hrvHolds
  | .barl => (t.convoy f.convoy).barl = (s.convoy f.convoy).barl
  | .occ => (t.convoy f.convoy).occ = (s.convoy f.convoy).occ
  | .ord => (t.convoy f.convoy).ord = (s.convoy f.convoy).ord
  | .views => (t.convoy f.convoy).bound = (s.convoy f.convoy).bound ∧ (t.convoy f.convoy).domBound = (s.convoy f.convoy).domBound ∧
      (t.convoy f.convoy).views = (s.convoy f.convoy).views ∧ (t.convoy f.convoy).befores = (s.convoy f.convoy).befores
  | .ends => (t.convoy f.convoy).stopped = (s.convoy f.convoy).stopped ∧ (t.convoy f.convoy).parked = (s.convoy f.convoy).parked ∧
      (t.convoy f.convoy).doubled = (s.convoy f.convoy).doubled ∧ (t.convoy f.convoy).ended = (s.convoy f.convoy).ended
  | .others => t.convoys.length = s.convoys.length ∧ ∀ j, j ≠ f.convoy → t.convoy j = s.convoy j
  | .memory => (∀ a, memGet t.mem a = memGet s.mem a) ∧ t.memErrs = s.memErrs
  | .stores => ∀ b a, memGet (t.block b).ls.mem a = memGet (s.block b).ls.mem a ∧
      memGet (t.block b).ls2.mem a = memGet (s.block b).ls2.mem a
  | .blocks => t.blocks = s.blocks
  | .launches => t.launches = s.launches
  | .hub => t.hub = s.hub ∧ t.outputs = s.outputs
  | .outer => t.links = s.links ∧ t.inputs = s.inputs ∧ t.outside = s.outside ∧ t.upsets = s.upsets
  | .accesses => t.accesses = s.accesses
  | .engines => t.copies = s.copies ∧ t.colls = s.colls ∧ t.services = s.services ∧ ∀ k, (t.core k).queue = (s.core k).queue ∧
      (t.core k).free = (s.core k).free
  | .coreRegs => ∀ k, (t.core k).tvec = (s.core k).tvec ∧ (t.core k).perfen = (s.core k).perfen ∧ (t.core k).wdctl = (s.core k).wdctl ∧
      (t.core k).secnt = (s.core k).secnt ∧ (t.core k).perfsel = (s.core k).perfsel
  | .caches => t.squares = s.squares ∧ t.dieTlbs = s.dieTlbs ∧ ∀ k, (t.core k).l1 = (s.core k).l1 ∧ (t.core k).tlb = (s.core k).tlb ∧
      (t.core k).ibuf = (s.core k).ibuf ∧ (t.core k).storeFloor = (s.core k).storeFloor
  | .tiles => ∀ k, (t.core k).tiles = (s.core k).tiles

/-- A convoy stands ready at a word: it is in focus with an active set of its own lanes, its registers are there, and nothing of it is awaited or in error (R54, R64). The interlock itself is the subject of other statements. -/
structure Ready (s : State) (f : Focus) : Prop where
  focus : s.focus = some f
  active : ∀ l, (s.convoy f.convoy).width ≤ l → f.active.getLsbD l = false
  convoy : f.convoy < s.convoys.length
  place : f.core = (s.convoy f.convoy).core ∧ f.slot = (s.convoy f.convoy).slot ∧ f.core < s.cores.length
  lanes : (s.convoy f.convoy).lanes.length = (s.convoy f.convoy).width
  sound : s.sound = true
  time : (s.convoy f.convoy).ready ≤ s.clock
  pending : pendingRegs s f.convoy = []
  busy : (s.convoy f.convoy).busy = []
  errs : (s.convoy f.convoy).errs = []

/-- A ready convoy issues a word with a non-empty executing set e, and no check of R52 before the word's own fails: its V registers lie below the budget (R62), a loop body ends for the whole live set (R58), and a uniform destination is written by all of it (R49). `uses` are the operands with their numbers of registers, `dests` the destinations. -/
structure Issues (s : State) (f : Focus) (h : Hdr) (uses : List (Opnd × Nat)) (dests : List Opnd) (e : Mask) : Prop extends Ready s f where
  set : execSet h (s.convoy f.convoy) f.active = e
  some : e ≠ 0
  fits : ∀ p ∈ uses, overBudget (s.convoy f.convoy).budget p.1 p.2 = false
  edge : backEdge (s.convoy f.convoy) f.addr = none ∨ f.active = (s.convoy f.convoy).live
  whole : ∀ d ∈ dests, isUniformDest d = true → e = (s.convoy f.convoy).live

/-- The word is complete for its active set (R44): every part but those of `out` is as it was; the registers of lanes outside e are as they were, whatever the word writes; no time has passed; and unless the word ends a loop body, the active lanes stand at the next word and the others where they stood. -/
structure Completed (s t : State) (f : Focus) (e : Mask) (out : List Part) : Prop where
  frame : ∀ p, p ∉ out → Same s t f p
  away : ∀ l, e.getLsbD l = false → (∀ n, (t.convoy f.convoy).readV n l = (s.convoy f.convoy).readV n l) ∧
    (∀ n, (t.convoy f.convoy).readM n l = (s.convoy f.convoy).readM n l) ∧
    (∀ n, n ≠ 0 → ((t.convoy f.convoy).readKn n).getLsbD l = ((s.convoy f.convoy).readKn n).getLsbD l) ∧
    ((t.convoy f.convoy).lane l).draw = ((s.convoy f.convoy).lane l).draw
  time : t.clock = s.clock
  next : backEdge (s.convoy f.convoy) f.addr = none → ∀ l, l < (s.convoy f.convoy).width →
    ((t.convoy f.convoy).lane l).pc = if f.active.getLsbD l then f.addr.next else ((s.convoy f.convoy).lane l).pc

/-- The word is complete and has sent its lanes elsewhere: as Completed, but a lane of e stands where the word sent it. -/
structure Went (s t : State) (f : Focus) (e : Mask) (out : List Part) (goes : Nat → Pc) : Prop where
  frame : ∀ p, p ∉ out → Same s t f p
  time : t.clock = s.clock
  next : backEdge (s.convoy f.convoy) f.addr = none → ∀ l, l < (s.convoy f.convoy).width →
    ((t.convoy f.convoy).lane l).pc = if e.getLsbD l then goes l else if f.active.getLsbD l then f.addr.next else ((s.convoy f.convoy).lane l).pc

/-- The registers that an operand names, as parts. -/
def partsOf (o : Opnd) (n : Nat) : List Part := (opndRegs o n).map Part.reg

/-- A 32-bit result stands in a destination: in every lane of e of a V register, or zero-extended in an S register. -/
def Holds32 (c : Convoy) (e : Mask) (d : Opnd) (val : Nat → W32) : Prop :=
  match d with
  | .v n => ∀ l, l < c.width → e.getLsbD l = true → c.readV n.toNat l = val l
  | .s n => c.readS n.toNat = (val (lowLane c.width e)).setWidth 64
  | _ => False

/-- A 64-bit result stands in a destination: in a V pair with the low word first, or in an S register. -/
def Holds64 (c : Convoy) (e : Mask) (d : Opnd) (val : Nat → W64) : Prop :=
  match d with
  | .v n => ∀ l, l < c.width → e.getLsbD l = true → c.readV (n.toNat + 1) l ++ c.readV n.toNat l = val l
  | .s n => c.readS n.toNat = val (lowLane c.width e)
  | _ => False

/-- An affine value stands in an A register. -/
def HoldsAffine (c : Convoy) (d : Opnd) (base : W64) (stride : Int) : Prop :=
  match d with
  | .a n => c.readAff n.toNat = { base := base, stride := BitVec.ofInt 32 stride }
  | _ => False

/-- A mask stands in the lanes of e of a K register; a write that names K0 is discarded, and K0 reads the live set (R45, R46). -/
def HoldsMask (c : Convoy) (e : Mask) (d : Opnd) (val : Nat → Bool) : Prop :=
  match d with
  | .k n => if n = 0 then c.readKn 0 = c.live else ∀ l, l < c.width → e.getLsbD l = true → (c.readKn n.toNat).getLsbD l = val l
  | _ => False

/-- A moment stands in the lanes of e of an M register, or in a G register. -/
def HoldsMoment (c : Convoy) (e : Mask) (d : Opnd) (val : Nat → Moment) : Prop :=
  match d with
  | .m n => ∀ l, l < c.width → e.getLsbD l = true → c.readM n.toNat l = val l
  | .g n => c.readG n.toNat = val (lowLane c.width e)
  | _ => False

/-- How many V registers an integer word's operands take (R215). -/
def intRegs (w : FWord) : Nat := if w.d64 then 2 else 1

/-- The operands of an integer word of format F (R215). -/
def intUses (w : FWord) : List (Opnd × Nat) := [(w.x, intRegs w), (w.y, intRegs w), (w.z, intRegs w), (w.d, intRegs w)]

/-- The result of an integer word stands in D at its width: 64 bits with .64 or for S, else 32 bits (R215). `val` is the result from what the operands read, at any width. -/
def HoldsInt (s t : State) (f : Focus) (e : Mask) (w : FWord) (val : FWord → (n : Nat) → (Opnd → BitVec n) → BitVec n) : Prop :=
  if (w.d64 || w.d.isSReg) = true then
    Holds64 (t.convoy f.convoy) e w.d fun l => val w 64 (readW64 s (s.convoy f.convoy) l)
  else Holds32 (t.convoy f.convoy) e w.d fun l => val w 32 (readW32 s (s.convoy f.convoy) l)

/-- A bit field by its field operand (R225): position and length cut at the width, or none. -/
def fieldOf (n F : Nat) : Option (Nat × Nat) :=
  if F / 256 % 256 = 0 ∨ n ≤ F % 256 then none else some (F % 256, min (F / 256 % 256) (n - F % 256))

/-- The integer words with a V or S result and what they write there (R217 to R221, R224, R225). -/
def integerWords : List ((FWord → Instr) × (FWord → (n : Nat) → (Opnd → BitVec n) → BitVec n)) :=
  [(.iadd, fun w _ r => r w.x + r w.y),
   (.isub, fun w _ r => r w.x - r w.y),
   (.iand, fun w _ r => r w.x &&& r w.y),
   (.ior, fun w _ r => r w.x ||| r w.y),
   (.ixor, fun w _ r => r w.x ^^^ r w.y),
   (.imin, fun w _ r => if w.bit 0 then (if (r w.x).toNat < (r w.y).toNat then r w.x else r w.y)
      else if (r w.x).toInt < (r w.y).toInt then r w.x else r w.y),
   (.imax, fun w _ r => if w.bit 0 then (if (r w.x).toNat < (r w.y).toNat then r w.y else r w.x)
      else if (r w.x).toInt < (r w.y).toInt then r w.y else r w.x),
   (.imul, fun w _ r => r w.x * r w.y),
   (.imulh, fun w n r => if w.bit 0 then BitVec.ofNat n ((r w.x).toNat * (r w.y).toNat / 2 ^ n)
      else BitVec.ofInt n ((r w.x).toInt * (r w.y).toInt / 2 ^ n)),
   (.imad, fun w _ r => r w.x * r w.y + r w.z),
   (.ishl, fun w n r => BitVec.ofNat n ((r w.x).toNat * 2 ^ ((r w.y).toNat % 64))),
   (.ishr, fun w n r => BitVec.ofNat n ((r w.x).toNat / 2 ^ ((r w.y).toNat % 64))),
   (.isar, fun w n r => BitVec.ofInt n ((r w.x).toInt / 2 ^ ((r w.y).toNat % 64))),
   (.brev, fun w _ r => (r w.x).reverse),
   (.bfe, fun w n r => match fieldOf n (r w.y).toNat with
      | none => 0
      | some (p, m) => if w.bit 0 then BitVec.ofInt n (BitVec.ofNat m ((r w.x).toNat / 2 ^ p)).toInt
        else BitVec.ofNat n ((r w.x).toNat / 2 ^ p % 2 ^ m)),
   (.bfi, fun w n r => match fieldOf n (r w.z).toNat with
      | none => r w.x
      | some (p, m) => (r w.x &&& ~~~ (BitVec.ofNat n (2 ^ m - 1) <<< p)) ||| ((r w.y <<< p) &&& (BitVec.ofNat n (2 ^ m - 1) <<< p)))]

/-- The integer words with an A result: its base and its exact stride from the affine sources X and Y, where a uniform source u takes part as (u, 0), and whether the word wraps the stride (R53, R217, R219, R221, R226). -/
def affineWords : List ((FWord → Instr) × (FWord → Bool) × (FWord → Affine → Affine → W64 × Int)) :=
  [(.iadd, fun w => w.bit 5, fun _ x y => (x.base + y.base, x.stride.toInt + y.stride.toInt)),
   (.isub, fun w => w.bit 5, fun _ x y => (x.base - y.base, x.stride.toInt - y.stride.toInt)),
   (.imul, fun w => w.bit 5, fun _ x y => (x.base * y.base, x.stride.toInt * y.base.toInt + y.stride.toInt * x.base.toInt)),
   (.ishl, fun w => w.bit 5, fun _ x y => (BitVec.ofNat 64 (x.base.toNat * 2 ^ (y.base.toNat % 64)), x.stride.toInt * 2 ^ (y.base.toNat % 64))),
   (.lea, fun w => w.bit 7, fun w x y => (x.base + BitVec.ofNat 64 (y.base.toNat * 2 ^ w.fld 0 6), x.stride.toInt + y.stride.toInt * 2 ^ w.fld 0 6))]

/-- The convoy has taken a trap (R314, R316, R317): TCAUSE, TPC, TMASK, TADDR and TACT are those of the trapped word; TSTATUS keeps the number of open loop levels, whether the trap went to the user vector, whether it came from the user handler, and the privilege it came from; the open levels are suspended; every live lane stands at the vector, and the return vector keeps TPC for the active lanes and their own PC for the others; the registers are as they were. -/
structure TrapTaken (s t : State) (f : Focus) (code : Nat) (tpc : Pc) (lanes : Mask) (taddr : W64) : Prop where
  cause : (t.convoy f.convoy).trap.cause = BitVec.ofNat 64 code
  pc : (t.convoy f.convoy).trap.pc = tpc.setWidth 64
  addr : (t.convoy f.convoy).trap.addr = taddr
  mask : (t.convoy f.convoy).trap.mask = lanes
  act : (t.convoy f.convoy).trap.act = f.active
  status : (t.convoy f.convoy).trap.status = packStatus ((s.convoy f.convoy).loops.filter fun v => !v.suspended).length false
    (trapTarget (s.launchOf (s.convoy f.convoy)).rec_ (s.convoy f.convoy).priv code == 1) ((s.convoy f.convoy).priv == 1) (s.convoy f.convoy).priv
  mode : (t.convoy f.convoy).priv = trapTarget (s.launchOf (s.convoy f.convoy)).rec_ (s.convoy f.convoy).priv code
  loops : (t.convoy f.convoy).loops = (s.convoy f.convoy).loops.map suspendLevel
  holds : (t.convoy f.convoy).holds = [] ∧ (t.convoy f.convoy).rvHolds = (s.convoy f.convoy).holds
  stand : ∀ l, l < (s.convoy f.convoy).width → (s.convoy f.convoy).live.getLsbD l = true →
    ((t.convoy f.convoy).lane l).pc = (if trapTarget (s.launchOf (s.convoy f.convoy)).rec_ (s.convoy f.convoy).priv code = 1
      then BitVec.ofNat 48 (s.launchOf (s.convoy f.convoy)).rec_.utvec else (s.core (s.convoy f.convoy).core).tvec.setWidth 48) ∧
    ((t.convoy f.convoy).lane l).rv = if f.active.getLsbD l then tpc else ((s.convoy f.convoy).lane l).pc
  nested : (s.convoy f.convoy).priv = 1 → (t.convoy f.convoy).held = (s.convoy f.convoy).trap ∧ (t.convoy f.convoy).hrvValid = true ∧
    (t.convoy f.convoy).hrvHolds = (s.convoy f.convoy).rvHolds ∧
    ∀ l, l < (s.convoy f.convoy).width → (s.convoy f.convoy).live.getLsbD l = true → ((t.convoy f.convoy).lane l).hrv = ((s.convoy f.convoy).lane l).rv
  frame : ∀ p, p ∉ [Part.mode, .trap, .holds, .vectors, .reg .lc] → Same s t f p

/-- What a word claims: its guard, its operands with their numbers of registers, its destinations, the parts it may change, on what operands it has its effect, and what stands in the convoy afterwards. -/
structure WordClaim (W : Type) where
  word : W → Instr
  hdr : W → Hdr
  uses : W → List (Opnd × Nat)
  dests : W → List Opnd
  out : W → List Part
  ok : State → Focus → Mask → W → Prop
  result : State → Focus → Mask → W → Convoy → Prop

/-- A word with a claim completes: for every form and every state in which it issues, exec answers a next state with its effect and its frame. -/
def WordClaim.Completes {W : Type} (p : WordClaim W) : Prop :=
  ∀ (w : W) (s : State) (f : Focus) (e : Mask), (p.word w).WellFormed → Issues s f (p.hdr w) (p.uses w) (p.dests w) e → p.ok s f e w →
    ∃ t, exec (p.word w) s = .next t ∧ Completed s t f e (p.out w) ∧ p.result s f e w (t.convoy f.convoy)

/-- No condition on the operands. -/
def always {W : Type} : State → Focus → Mask → W → Prop := fun _ _ _ _ => True

/-- A word of format F with D as its one destination of `n` registers, and `n` registers for X, Y and Z. -/
def plainUses (n : Nat) (w : FWord) : List (Opnd × Nat) := [(w.x, n), (w.y, n), (w.z, n), (w.d, n)]

def oneDest (w : FWord) : List Opnd := [w.d]

/-- The lane value of an affine source (R53). -/
def affineLane (s : State) (c : Convoy) (x : Opnd) (l : Nat) : W64 :=
  (readAffine s c x).base + BitVec.ofNat 64 l * (readAffine s c x).stride.signExtend 64

/-- The stride that DEMA finds in the values of some lanes, from the lowest two (R209). -/
def strideOf (x : Nat → W32) : List Nat → Int
  | a :: b :: _ => (x b - x a).toInt / ((b : Int) - a)
  | _ => 0

/-- How many of the low n bits are one. -/
def onesOf (n : Nat) (x : Nat) : Nat := ((List.range n).filter fun i => x.testBit i).length

/-- A byte of a word as an integer, zero- or sign-extended. -/
def byteValue (uns : Bool) (x : W32) (i : Nat) : Int :=
  if uns then ((x.toNat / 2 ^ (8 * i) % 256 : Nat) : Int) else (BitVec.ofNat 8 (x.toNat / 2 ^ (8 * i))).toInt

/-- Type movement and masks (R205 to R209, R211 to R214), and the integer words that do not write D at one width (R222 to R224, R226, R227). -/
def movingClaims : List (WordClaim FWord) :=
  [{ word := .mov, hdr := FWord.hdr, uses := fun w => [(w.x, if w.bit 0 then 2 else 1), (w.d, if w.bit 0 then 2 else 1)], dests := oneDest,
     out := fun w => partsOf w.d (if w.bit 0 then 2 else 1), ok := always
     result := fun s f e w t =>
       let c := s.convoy f.convoy
       match w.d with
       | .v _ => if w.bit 0 = true then Holds64 t e w.d fun l => readW64 s c l w.x else Holds32 t e w.d fun l => readW32 s c l w.x
       | .s n => t.readS n.toNat = readU s c w.x
       | .a n => t.readAff n.toNat = readAffine s c w.x
       | .k _ => HoldsMask t e w.d fun l => (readK c f.active w.x).getLsbD l
       | .sp _ => t.flags = (readU s c w.x).setWidth 6
       | _ => HoldsMoment t e w.d fun l => readMom c l w.x },
   { word := .mat, hdr := FWord.hdr, uses := fun w => [(w.x, 1), (w.d, if w.bit 0 then 2 else 1)], dests := oneDest,
     out := fun w => partsOf w.d (if w.bit 0 then 2 else 1), ok := always
     result := fun s f e w t => if w.bit 0 = true then Holds64 t e w.d (affineLane s (s.convoy f.convoy) w.x)
       else Holds32 t e w.d fun l => (affineLane s (s.convoy f.convoy) w.x l).setWidth 32 },
   { word := .aff, hdr := FWord.hdr, uses := plainUses 1, dests := oneDest, out := fun w => partsOf w.d 1
     ok := fun s f _ w => w.bit 0 = true ∨ (-(2 ^ 31) ≤ (readU s (s.convoy f.convoy) w.y).toInt ∧ (readU s (s.convoy f.convoy) w.y).toInt < 2 ^ 31)
     result := fun s f _ w t => HoldsAffine t w.d (readU s (s.convoy f.convoy) w.x) (readU s (s.convoy f.convoy) w.y).toInt },
   { word := .dem, hdr := FWord.hdr, uses := fun w => [(w.x, if w.bit 1 then 2 else 1), (w.d, 1)], dests := oneDest, out := fun w => partsOf w.d 1
     ok := fun s f e w => w.bit 0 = true ∨ ∀ l m, l < (s.convoy f.convoy).width → m < (s.convoy f.convoy).width → e.getLsbD l = true → e.getLsbD m = true →
       (if w.bit 1 then readW64 s (s.convoy f.convoy) l w.x else (readW32 s (s.convoy f.convoy) l w.x).setWidth 64) =
       (if w.bit 1 then readW64 s (s.convoy f.convoy) m w.x else (readW32 s (s.convoy f.convoy) m w.x).setWidth 64)
     result := fun s f e w t => Holds64 t e w.d fun _ =>
       let l := lowLane (s.convoy f.convoy).width e
       if w.bit 1 then readW64 s (s.convoy f.convoy) l w.x else (readW32 s (s.convoy f.convoy) l w.x).setWidth 64 },
   { word := .dema, hdr := FWord.hdr, uses := plainUses 1, dests := oneDest, out := fun w => partsOf w.d 1
     ok := fun s f e w =>
       let x := fun l => readW32 s (s.convoy f.convoy) l w.x
       let ls := lanesOf (s.convoy f.convoy).width e
       let l0 := ls.headD 0
       (∀ l1, ls[1]? = some l1 → (x l1 - x l0).toInt % ((l1 : Int) - l0) = 0) ∧
         ∀ l ∈ ls, x l0 + BitVec.ofInt 32 (((l : Int) - l0) * strideOf x ls) = x l
     result := fun s f e w t =>
       let x := fun l => readW32 s (s.convoy f.convoy) l w.x
       let ls := lanesOf (s.convoy f.convoy).width e
       HoldsAffine t w.d ((x (ls.headD 0)).signExtend 64 - BitVec.ofInt 64 ((ls.headD 0 : Int) * strideOf x ls)) (strideOf x ls) },
   { word := .elect, hdr := FWord.hdr, uses := plainUses 1, dests := oneDest, out := fun w => partsOf w.d 1, ok := always
     result := fun s f e w t => HoldsMask t e w.d fun l => (readK (s.convoy f.convoy) f.active w.x).getLsbD l &&
       (List.range l).all fun m => !(e.getLsbD m && (readK (s.convoy f.convoy) f.active w.x).getLsbD m) },
   { word := .vote, hdr := FWord.hdr, uses := plainUses 1, dests := oneDest, out := fun w => partsOf w.d 1, ok := always
     result := fun s f e w t => Holds64 t e w.d fun _ =>
       let p := predicate s f (s.convoy f.convoy) e w.x
       if w.rm = 0 then p else if w.rm = 1 then (if p = 0 then 0 else 1) else if p = e then 1 else 0 },
   { word := .kset, hdr := FWord.hdr, uses := plainUses 1, dests := oneDest, out := fun w => partsOf w.d 1, ok := always
     result := fun s f e w t => HoldsMask t e w.d fun l =>
       if w.x.isS then (readU s (s.convoy f.convoy) w.x).getLsbD l else readW32 s (s.convoy f.convoy) l w.x != 0 },
   { word := .kop, hdr := FWord.hdr, uses := plainUses 1, dests := oneDest, out := fun w => partsOf w.d 1, ok := always
     result := fun s f e w t => HoldsMask t e w.d fun l =>
       let a := (readK (s.convoy f.convoy) f.active w.x).getLsbD l
       let b := (readK (s.convoy f.convoy) f.active w.y).getLsbD l
       if w.fld 0 3 = 0 then a && b else if w.fld 0 3 = 1 then a || b else if w.fld 0 3 = 2 then a != b else if w.fld 0 3 = 3 then a && !b else !a },
   { word := .icmp, hdr := FWord.hdr, uses := fun w => [(w.x, intRegs w), (w.y, intRegs w), (w.d, 1)], dests := oneDest, out := fun w => partsOf w.d 1, ok := always
     result := fun s f e w t => HoldsMask t e w.d fun l =>
       if w.d64 || (w.x.isS && w.y.isS) then intCond (w.fld 0 4) (readW64 s (s.convoy f.convoy) l w.x) (readW64 s (s.convoy f.convoy) l w.y)
       else intCond (w.fld 0 4) (readW32 s (s.convoy f.convoy) l w.x) (readW32 s (s.convoy f.convoy) l w.y) },
   { word := .sel, hdr := FWord.hdr, uses := fun w => [(w.x, intRegs w), (w.y, intRegs w), (w.z, 1), (w.d, intRegs w)], dests := oneDest,
     out := fun w => partsOf w.d (intRegs w), ok := always
     result := fun s f e w t =>
       if w.d64 = true then Holds64 t e w.d fun l => if (readK (s.convoy f.convoy) f.active w.z).getLsbD l then readW64 s (s.convoy f.convoy) l w.x
         else readW64 s (s.convoy f.convoy) l w.y
       else Holds32 t e w.d fun l => if (readK (s.convoy f.convoy) f.active w.z).getLsbD l then readW32 s (s.convoy f.convoy) l w.x
         else readW32 s (s.convoy f.convoy) l w.y },
   { word := .popc, hdr := FWord.hdr, uses := fun w => [(w.x, intRegs w), (w.d, 1)], dests := oneDest, out := fun w => partsOf w.d 1, ok := always
     result := fun s f e w t => Holds32 t e w.d fun l => BitVec.ofNat 32
       (if w.d64 || w.d.isSReg then onesOf 64 (readW64 s (s.convoy f.convoy) l w.x).toNat else onesOf 32 (readW32 s (s.convoy f.convoy) l w.x).toNat) },
   { word := .clz, hdr := FWord.hdr, uses := fun w => [(w.x, intRegs w), (w.d, 1)], dests := oneDest, out := fun w => partsOf w.d 1, ok := always
     result := fun s f e w t => Holds32 t e w.d fun l =>
       let n := if w.d64 || w.d.isSReg then 64 else 32
       let x := if w.d64 || w.d.isSReg then (readW64 s (s.convoy f.convoy) l w.x).toNat else (readW32 s (s.convoy f.convoy) l w.x).toNat
       BitVec.ofNat 32 (if x = 0 then n else n - 1 - x.log2) },
   { word := .lea, hdr := FWord.hdr, uses := fun w => [(w.x, 2), (w.y, 1), (w.d, 2)], dests := oneDest, out := fun w => partsOf w.d 2
     ok := fun _ _ _ w => w.d.isAReg = false
     result := fun s f e w t => Holds64 t e w.d fun l =>
       readW64 s (s.convoy f.convoy) l w.x +
         (if w.y.isV then (if w.bit 6 then (readW32 s (s.convoy f.convoy) l w.y).setWidth 64 else (readW32 s (s.convoy f.convoy) l w.y).signExtend 64)
          else readW64 s (s.convoy f.convoy) l w.y) * BitVec.ofNat 64 (2 ^ w.fld 0 6) },
   { word := .idot4, hdr := FWord.hdr, uses := plainUses 1, dests := oneDest, out := fun w => partsOf w.d 1, ok := always
     result := fun s f e w t =>
       let r : Nat → W32 := fun l =>
         let x := readW32 s (s.convoy f.convoy) l w.x
         let y := readW32 s (s.convoy f.convoy) l w.y
         readW32 s (s.convoy f.convoy) l w.z + BitVec.ofInt 32
           (byteValue (w.bit 0) x 0 * byteValue (w.bit 1) y 0 + byteValue (w.bit 0) x 1 * byteValue (w.bit 1) y 1 +
            byteValue (w.bit 0) x 2 * byteValue (w.bit 1) y 2 + byteValue (w.bit 0) x 3 * byteValue (w.bit 1) y 3)
       if w.d.isSReg = true then Holds64 t e w.d fun l => (r l).signExtend 64 else Holds32 t e w.d r }]

/-- A 32-bit result with flags: the flags of a lane of E, or of the one result of an S destination, are added to %flags (R40). -/
def HoldsFlagged (s : State) (f : Focus) (e : Mask) (d : Opnd) (t : Convoy) (val : Nat → W32 × FlagSet) : Prop :=
  Holds32 t e d (fun l => (val l).1) ∧
  t.flags = (s.convoy f.convoy).flags ||| (if d.isSReg then (val (lowLane (s.convoy f.convoy).width e)).2
    else flagsOver (s.convoy f.convoy).width e fun l => (val l).2)

/-- A word with one flagged 32-bit result per lane. -/
def flaggedClaim (word : FWord → Instr) (uses : FWord → List (Opnd × Nat)) (val : State → Convoy → Nat → FWord → W32 × FlagSet) : WordClaim FWord :=
  { word := word, hdr := FWord.hdr, uses := uses, dests := oneDest, out := fun w => partsOf w.d 1 ++ [.reg .flags], ok := always
    result := fun s f e w t => HoldsFlagged s f e w.d t fun l => val s (s.convoy f.convoy) l w }

/-- A 32-bit result of a word without flags. -/
def quietClaim (word : FWord → Instr) (uses : FWord → List (Opnd × Nat)) (val : State → Convoy → Mask → Nat → FWord → W32) : WordClaim FWord :=
  { word := word, hdr := FWord.hdr, uses := uses, dests := oneDest, out := fun w => partsOf w.d 1, ok := always
    result := fun s f e w t => Holds32 t e w.d fun l => val s (s.convoy f.convoy) e l w }

/-- Floating-point words (R229 to R241). -/
def floatClaims : List (WordClaim FWord) :=
  [flaggedClaim .fadd (plainUses 1) fun s c l w => f32Add w.rm (readF s c l w.x) (readF s c l w.y),
   flaggedClaim .fsub (plainUses 1) fun s c l w => f32Sub w.rm (readF s c l w.x) (readF s c l w.y),
   flaggedClaim .fmul (plainUses 1) fun s c l w => f32Mul w.rm (readF s c l w.x) (readF s c l w.y),
   flaggedClaim .ffma (plainUses 1) fun s c l w => f32Fma w.rm (readF s c l w.x) (readF s c l w.y) (readF s c l w.z),
   flaggedClaim .fmin (plainUses 1) fun s c l w => f32MinMax false (w.bit 2) (readF s c l w.x) (readF s c l w.y),
   flaggedClaim .fmax (plainUses 1) fun s c l w => f32MinMax true (w.bit 2) (readF s c l w.x) (readF s c l w.y),
   { word := .fcmp, hdr := FWord.hdr, uses := plainUses 1, dests := oneDest, out := fun w => partsOf w.d 1 ++ [.reg .flags], ok := always
     result := fun s f e w t =>
       let v := fun l => fpCond (w.fld 0 4) (readF s (s.convoy f.convoy) l w.x) (readF s (s.convoy f.convoy) l w.y)
       HoldsMask t e w.d (fun l => (v l).1) ∧ t.flags = (s.convoy f.convoy).flags ||| flagsOver (s.convoy f.convoy).width e fun l => (v l).2 },
   flaggedClaim .frcp (plainUses 1) fun s c l w => fr32 (fRcp (readF s c l w.x).toNat),
   flaggedClaim .frsq (plainUses 1) fun s c l w => fr32 (fRsqrt (readF s c l w.x).toNat),
   flaggedClaim .fsqrt (plainUses 1) fun s c l w => fr32 (fSqrt (readF s c l w.x).toNat),
   flaggedClaim .fexp2 (plainUses 1) fun s c l w => fr32 (fExp2 (readF s c l w.x).toNat),
   flaggedClaim .flog2 (plainUses 1) fun s c l w => fr32 (fLog2 (readF s c l w.x).toNat),
   flaggedClaim .fsin (plainUses 1) fun s c l w => fr32 (fSinPi (readF s c l w.x).toNat),
   flaggedClaim .fcos (plainUses 1) fun s c l w => fr32 (fCosPi (readF s c l w.x).toNat),
   flaggedClaim .ftanh (plainUses 1) fun s c l w => fr32 (fTanh (readF s c l w.x).toNat),
   flaggedClaim .fdiv (plainUses 1) fun s c l w => f32Div (readF s c l w.x) (readF s c l w.y),
   flaggedClaim .frnd (plainUses 1) fun s c l w => f32Integral w.rm (readF s c l w.x),
   { word := .f2i, hdr := FWord.hdr, uses := fun w => [(w.x, 1), (w.d, intRegs w)], dests := oneDest
     out := fun w => partsOf w.d (intRegs w) ++ [.reg .flags], ok := always
     result := fun s f e w t =>
       let v := fun l => f32ToInt w.rm (w.bit 2) (if w.d64 || w.d.isSReg then 64 else 32) (readF s (s.convoy f.convoy) l w.x)
       (if (w.d64 || w.d.isSReg) = true then Holds64 t e w.d (fun l => BitVec.ofInt 64 (v l).1) else Holds32 t e w.d fun l => BitVec.ofInt 32 (v l).1) ∧
       t.flags = (s.convoy f.convoy).flags ||| (if w.d.isSReg then (v (lowLane (s.convoy f.convoy).width e)).2
         else flagsOver (s.convoy f.convoy).width e fun l => (v l).2) },
   flaggedClaim .i2f (fun w => [(w.x, intRegs w), (w.d, 1)]) fun s c l w =>
     if w.d64 || w.x.isS then intToF32 w.rm (if w.bit 2 then (readW64 s c l w.x).toNat else (readW64 s c l w.x).toInt)
     else intToF32 w.rm (if w.bit 2 then (readW32 s c l w.x).toNat else (readW32 s c l w.x).toInt),
   flaggedClaim .fcvt (plainUses 1) fun s c l w => cvtValue s c l w,
   flaggedClaim .hadd2 (plainUses 1) fun s c l w =>
     packed2 fun i => fAdd (halfFmt w) w.rm (elem16 (readPacked s c (halfFmt w) l w.x) i) (elem16 (readPacked s c (halfFmt w) l w.y) i),
   flaggedClaim .hmul2 (plainUses 1) fun s c l w =>
     packed2 fun i => fMul (halfFmt w) w.rm (elem16 (readPacked s c (halfFmt w) l w.x) i) (elem16 (readPacked s c (halfFmt w) l w.y) i),
   flaggedClaim .hfma2 (plainUses 1) fun s c l w =>
     packed2 fun i => fFma (halfFmt w) w.rm (elem16 (readPacked s c (halfFmt w) l w.x) i) (elem16 (readPacked s c (halfFmt w) l w.y) i)
       (elem16 (readPacked s c (halfFmt w) l w.z) i),
   quietClaim .fclass (plainUses 1) fun s c _ l w => BitVec.ofNat 32 (2 ^ classBit (readF s c l w.x))]

/-- Narrow formats (R242 to R247, R251); the widening form of CVT4, and its narrowing form where no executing lane offers a NaN or an infinity. -/
def narrowClaims : List (WordClaim FWord) :=
  [flaggedClaim .cvt8 (plainUses 1) fun s c l w =>
     let m := if w.bit 2 then fmtE5M2 else fmtE4M3
     if w.bit 3 then fr32 (fConvert m fmtFP32 0 ((readPacked s c m l w.x).toNat / 2 ^ (8 * w.fld 4 2) % 256))
     else
       let lo := fConvert fmtFP32 m w.rm (readF s c l w.x).toNat
       let hi := fConvert fmtFP32 m w.rm (readF s c l w.y).toNat
       (putBits (putBits (readW32 s c l w.d) (8 * (2 * w.fld 4 1)) 8 lo.1) (8 * (2 * w.fld 4 1 + 1)) 8 hi.1, lo.2 ||| hi.2),
   { flaggedClaim .cvt4 (plainUses 1) (fun s c l w => if w.bit 6 then cvt4Wide s c l w else cvt4Narrow s c 0 l w) with
     ok := fun s f e w => w.bit 6 = true ∨ ∀ l, l < (s.convoy f.convoy).width → e.getLsbD l = true →
       notFinite (readF s (s.convoy f.convoy) l w.x) = false ∧ notFinite (readF s (s.convoy f.convoy) l w.y) = false },
   quietClaim .xpand (plainUses 1) fun s c _ l w =>
     BitVec.ofNat 32 (xpandElem w.rm.toNat (w.fld 2 1) (readW32 s c l w.x) 0 + 2 ^ 8 * xpandElem w.rm.toNat (w.fld 2 1) (readW32 s c l w.x) 1 +
       2 ^ 16 * xpandElem w.rm.toNat (w.fld 2 1) (readW32 s c l w.x) 2 + 2 ^ 24 * xpandElem w.rm.toNat (w.fld 2 1) (readW32 s c l w.x) 3),
   flaggedClaim .unpk8 (plainUses 1) fun s c l w =>
     let m := if w.bit 6 then fmtE5M2 else fmtE4M3
     let sc := scaleOf c w.z l (w.fld 2 2)
     if sc = 0xFF then (f32Canon, flagNone)
     else match fDecode m ((readPacked s c m l w.x).toNat / 2 ^ (8 * w.fld 4 2) % 256) with
       | .nan sig => (f32Canon, if sig && w.bit 6 then flagNV else flagNone)
       | .inf neg => (if neg then 0xFF800000 else 0x7F800000, flagNone)
       | .fin neg n x => fr32 (fRound fmtFP32 w.rm neg n 1 (x + sc - 127)),
   flaggedClaim .mxdot (plainUses 1) fun s c l w => mxdotValue s c l w,
   flaggedClaim .srnd (plainUses 1) fun s c l w =>
     let n := if w.fld 2 2 = 0 then 16 else 8
     let r := fSround (srndFmt (w.fld 2 2)) (readW32 s c l w.y) (readF s c l w.x).toNat
     (putBits (readW32 s c l w.d) (n * w.fld 4 2) n r.1, r.2)]

/-- The combine of SCAN and IRED over some values (R255). -/
def combined (op : Nat) (xs : List W32) : W32 :=
  if op = 0 then xs.foldl (· + ·) 0
  else if op = 1 then BitVec.ofInt 32 (xs.foldl (fun m x => max m x.toInt) (-2147483648))
  else if op = 2 then BitVec.ofInt 32 (xs.foldl (fun m x => min m x.toInt) 2147483647)
  else if op = 3 then BitVec.ofNat 32 (xs.foldl (fun m x => max m x.toNat) 0)
  else if op = 4 then BitVec.ofNat 32 (xs.foldl (fun m x => min m x.toNat) 4294967295)
  else if op = 5 then xs.foldl (· &&& ·) (BitVec.allOnes 32)
  else if op = 6 then xs.foldl (· ||| ·) 0
  else xs.foldl (· ^^^ ·) 0

/-- The combine of X over the lanes of E that pass a test. -/
def combinedOver (s : State) (c : Convoy) (e : Mask) (w : FWord) (p : Nat → Bool) : W32 :=
  combined (w.fld 0 3) (((lanesOf c.width e).filter p).map fun m => readW32 s c m w.x)

/-- Cross-lane words (R252 to R258). -/
def laneClaims : List (WordClaim FWord) :=
  [{ word := .shfl, hdr := FWord.hdr, uses := fun w => [(w.x, intRegs w), (w.y, 1), (w.d, intRegs w)], dests := oneDest, out := fun w => partsOf w.d (intRegs w), ok := always
     result := fun s f e w t =>
       let c := s.convoy f.convoy
       let from_ := fun l => match shflSource w.rm.toNat (min (2 ^ w.fld 5 3) c.width) l ((readW32 s c l w.y).toNat % 64) with
         | some m => if e.getLsbD m then m else l
         | none => l
       if w.d64 = true then Holds64 t e w.d fun l => readW64 s c (from_ l) w.x else Holds32 t e w.d fun l => readW32 s c (from_ l) w.x },
   { word := .cmpx, hdr := FWord.hdr, uses := plainUses 1, dests := oneDest, out := fun w => partsOf w.d 1 ++ [.reg .flags], ok := always
     result := fun s f e w t => Holds32 t e w.d (fun l =>
         let c := s.convoy f.convoy
         let x := fun m => readW32 s c m w.x
         let rank : Nat → Int := fun m => if w.rm = 0 then (x m).toInt else if w.rm = 1 then (x m).toNat else fpRank fmtFP32 (x m).toNat
         let j := (readU s c w.y).toNat % 64
         let p := l ^^^ j
         let desc := w.bit 2 != (min l p &&& ((readU s c w.z).toNat % 64) != 0)
         if j = 0 ∨ c.width ≤ p ∨ e.getLsbD p = false then x l
         else if (decide (l < p) != desc) = true then (if rank p < rank l then x p else x l)
         else if rank l < rank p then x p else x l) ∧
       t.flags = (s.convoy f.convoy).flags ||| (if w.rm = 2 then
         flagsOver (s.convoy f.convoy).width e fun l => fSigFlag fmtFP32 (readW32 s (s.convoy f.convoy) l w.x).toNat else 0) },
   quietClaim .scan (plainUses 1) fun s c e l w =>
     combinedOver s c e w fun m => m / min (2 ^ w.fld 5 3) c.width == l / min (2 ^ w.fld 5 3) c.width && (if w.bit 3 then decide (m < l) else decide (m ≤ l)),
   { word := .ired, hdr := FWord.hdr, uses := plainUses 1, dests := oneDest, out := fun w => partsOf w.d 1, ok := always
     result := fun s f e w t =>
       let c := s.convoy f.convoy
       if w.d.isSReg = true then Holds64 t e w.d fun _ =>
         if w.fld 0 3 ≤ 2 then (combinedOver s c e w fun _ => true).signExtend 64 else (combinedOver s c e w fun _ => true).setWidth 64
       else Holds32 t e w.d fun l => combinedOver s c e w fun m => m / min (2 ^ w.fld 5 3) c.width == l / min (2 ^ w.fld 5 3) c.width },
   { word := .redmaxi, hdr := FWord.hdr, uses := fun w => [(w.x, 1), (w.y, 1), (w.d, 2)], dests := oneDest, out := fun w => partsOf w.d 2 ++ [.reg .flags], ok := always
     result := fun s f e w t =>
       let c := s.convoy f.convoy
       let m := if w.rm = 0 then fmtFP32 else if w.rm = 1 then fmtFP16 else fmtBF16
       let v := fun l => (readW32 s c l w.x).toNat % (if w.rm = 0 then 2 ^ 32 else 2 ^ 16)
       let index := fun l => if w.y.isNone then l else (readW32 s c l w.y).toNat
       let offers : Nat → Prop := fun l => l < c.width ∧ e.getLsbD l = true ∧
         (w.bit 2 = true → fIsNaN m (v l) = true → ∀ k, k < c.width → e.getLsbD k = true → fIsNaN m (v k) = true)
       (∃ l, offers l ∧ (∀ k, offers k → fpRank m (v k) < fpRank m (v l) ∨ (fpRank m (v k) = fpRank m (v l) ∧ index l ≤ index k)) ∧
         Holds64 t e w.d fun _ => BitVec.ofNat 64 (index l * 2 ^ 32 + if fIsNaN m (v l) then fmtCanon m else v l)) ∧
       t.flags = c.flags ||| flagsOver c.width e fun l => fSigFlag m (v l) },
   { word := .matchLanes, hdr := FWord.hdr, uses := fun w => [(w.x, intRegs w), (w.d, if w.rm = 0 then 2 else 1)], dests := oneDest
     out := fun w => partsOf w.d (if w.rm = 0 then 2 else 1), ok := always
     result := fun s f e w t =>
       let c := s.convoy f.convoy
       let same := fun l m => e.getLsbD m && (if w.d64 then readW64 s c m w.x == readW64 s c l w.x else readW32 s c m w.x == readW32 s c l w.x)
       if w.rm = 0 then Holds64 t e w.d fun l => maskWhere c.width (same l)
       else if w.rm = 1 then HoldsMask t e w.d fun l => (List.range c.width).any fun m => m != l && same l m
       else HoldsMask t e w.d fun l => (List.range l).all fun m => !same l m }]

/-- A flagged moment result. -/
def momentClaim (word : FWord → Instr) (val : State → Convoy → Nat → FWord → Moment × FlagSet) : WordClaim FWord :=
  { word := word, hdr := FWord.hdr, uses := plainUses 1, dests := oneDest, out := fun w => partsOf w.d 1 ++ [.reg .flags], ok := always
    result := fun s f e w t =>
      let c := s.convoy f.convoy
      HoldsMoment t e w.d (fun l => (val s c l w).1) ∧
      t.flags = c.flags ||| (if w.d.isG then (val s c (lowLane c.width e) w).2 else flagsOver c.width e fun l => (val s c l w).2) }

/-- Moment words that stay in registers (R259 to R265, R267). -/
def momentClaims : List (WordClaim FWord) :=
  [momentClaim .minit fun s c l w => if w.x.isNone then (Moment.zero, 0) else momentUpdate Moment.zero (readF s c l w.x) f32One,
   momentClaim .mupd fun s c l w => momentUpdate (readMom c l w.x) (readF s c l w.y) (if w.z.isNone then f32One else readF s c l w.z),
   momentClaim .mmrg fun _ c l w => momentMerge (readMom c l w.x) (readMom c l w.y),
   momentClaim .mdecay fun s c l w => momentDecay (readMom c l w.x) (readF s c l w.y),
   { word := .mred, hdr := FWord.hdr, uses := plainUses 1, dests := oneDest, out := fun w => partsOf w.d 1 ++ [.reg .flags], ok := always
     result := fun s f e w t =>
       let c := s.convoy f.convoy
       let r := mergeTree c.width.log2 ((List.range c.width).map fun l =>
         if e.getLsbD l && (w.y.isNone || (readK c f.active w.y).getLsbD l) then readMom c l w.x else Moment.zero)
       HoldsMoment t e w.d (fun _ => r.1) ∧ t.flags = c.flags ||| r.2 },
   flaggedClaim .mdrain (plainUses 1) fun s c l w => momentDrain (w.fld 0 3) (readMom c l w.x) (if w.y.isNone then 0 else readF s c l w.y),
   flaggedClaim .mnorm (plainUses 1) fun s c l w => momentNorm (readF s c l w.x) (readMom c l w.y) (readF s c l w.z)]

/-- MOVPC (R210): the address of the word plus the displacement. -/
def movpcClaim : WordClaim MovpcWord :=
  { word := .movpc, hdr := MovpcWord.hdr, uses := fun w => [(w.d, 2)], dests := fun w => [w.d], out := fun w => partsOf w.d 2, ok := always
    result := fun _ f e w t => Holds64 t e w.d fun _ => (f.addr + BitVec.ofInt 48 w.disp.toInt).setWidth 64 }

/-- The long-immediate words (R188, R228). -/
def immediateClaims : List (WordClaim IWord) :=
  let rewrite : (IWord → Instr) → ((n : Nat) → BitVec n → BitVec n → BitVec n) → WordClaim IWord := fun word op =>
    { word := word, hdr := IWord.hdr, uses := fun w => [(w.d, 1)], dests := fun w => [w.d], out := fun w => partsOf w.d 1, ok := always
      result := fun s f e w t =>
        if w.d.isSReg = true then Holds64 t e w.d fun l => op 64 (readW64 s (s.convoy f.convoy) l w.d) (BitVec.ofInt 64 w.imm.toInt)
        else Holds32 t e w.d fun l => op 32 (readW32 s (s.convoy f.convoy) l w.d) w.imm }
  [rewrite .iaddi fun _ a b => a + b,
   rewrite .iandi fun _ a b => a &&& b,
   rewrite .iori fun _ a b => a ||| b,
   rewrite .ixori fun _ a b => a ^^^ b,
   { word := .fmovi, hdr := IWord.hdr, uses := fun w => [(w.d, 1)], dests := fun w => [w.d], out := fun w => partsOf w.d 1, ok := always
     result := fun _ _ e w t => Holds32 t e w.d fun _ => w.imm },
   { word := .movi, hdr := IWord.hdr, uses := fun w => [(w.d, 1)], dests := fun w => [w.d], out := fun w => partsOf w.d 1, ok := always
     result := fun s f e w t =>
       if w.d.isSReg = true then Holds64 t e w.d fun l =>
         if w.imod.getLsbD 1 then BitVec.ofNat 64 (w.imm.toNat * 2 ^ 32 + (readW64 s (s.convoy f.convoy) l w.d).toNat % 2 ^ 32)
         else if w.imod.getLsbD 0 then BitVec.ofNat 64 w.imm.toNat else BitVec.ofInt 64 w.imm.toInt
       else Holds32 t e w.d fun _ => w.imm },
   { word := .icmpi, hdr := IWord.hdr, uses := fun w => [(w.d, 1)], dests := fun _ => [], out := fun w => partsOf (.k (w.imm.extractLsb' 24 3)) 1, ok := always
     result := fun s f e w t => HoldsMask t e (.k (w.imm.extractLsb' 24 3)) fun l =>
       if w.d.isSReg then intCond w.imod.toNat (readW64 s (s.convoy f.convoy) l w.d) (BitVec.ofInt 64 (w.imm.extractLsb' 0 24).toInt)
       else intCond w.imod.toNat (readW32 s (s.convoy f.convoy) l w.d) (BitVec.ofInt 32 (w.imm.extractLsb' 0 24).toInt) }]

/-- The pair word (R175, R176): both halves read the registers as they stood before the word. -/
def pairClaim : WordClaim PWord :=
  { word := .pairWord, hdr := fun w => { stall := w.stall, y := w.y, gn := false, gk := 0 }
    uses := fun w => [(.v w.h1.d, 1), (w.h1.x, 1), (.v w.h2.d, 1), (w.h2.x, 1)], dests := fun _ => []
    out := fun w => (if w.h1.pop = .empty then [] else [.reg (.v w.h1.d.toNat)]) ++ (if w.h2.pop = .empty then [] else [.reg (.v w.h2.d.toNat)]) ++ [.reg .flags]
    ok := always
    result := fun s f e w t =>
      let c := s.convoy f.convoy
      (w.h1.pop ≠ .empty → Holds32 t e (.v w.h1.d) fun l => (halfValue s c l w.h1).1) ∧
      (w.h2.pop ≠ .empty → Holds32 t e (.v w.h2.d) fun l => (halfValue s c l w.h2).1) ∧
      t.flags = c.flags ||| flagsOver c.width e fun l => (halfValue s c l w.h1).2 ||| (halfValue s c l w.h2).2 }

/-- Control words that move no lane: NOP and YIELD, and LPAD where its budget fits (R196, R202). -/
def controlClaims : List (WordClaim CWord) :=
  let quiet : (CWord → Instr) → (State → Focus → Mask → CWord → Prop) → WordClaim CWord := fun word ok =>
    { word := word, hdr := CWord.hdr, uses := fun _ => [], dests := fun _ => [], out := fun _ => [], ok := ok, result := fun _ _ _ _ _ => True }
  [quiet .nop always, quiet .yield always, quiet .lpad fun s f _ w => 8 * w.aux.toNat ≤ (s.convoy f.convoy).budget]

/-- The address a displacement of n words away (R197). -/
def wordsAway (pc : Pc) (n : Int) : Pc := pc + BitVec.ofInt 48 (8 * n)

/-- The value that a CSR keeps of a write (R312, R313). -/
def csrKeeps (n : Nat) (v : W64) : W64 :=
  if n = 0x02 ∨ n = 0x08 ∨ n = 0x18 then v &&& 0xFF
  else if n = 0x0D ∨ n = 0x1D then v &&& 0xFB
  else if n = 0x10 then v &&& 0xFFFFFFFFFFF8
  else if n = 0x21 then v &&& 0xFFFFFFFFFFFF
  else v

/-- Words of the supervisor that write registers, and CSRR and PERFR (R312, R313, R326, R327). -/
def registerClaims : List (WordClaim FWord) :=
  [{ word := .csrr, hdr := FWord.hdr, uses := plainUses 1, dests := oneDest, out := fun w => partsOf w.d 1
     ok := fun s f _ w => csrReadable (s.convoy f.convoy).priv w.mod.toNat = true
     result := fun s f e w t => Holds64 t e w.d fun _ => csrRead s (s.convoy f.convoy) w.mod.toNat },
   { word := .perfr, hdr := FWord.hdr, uses := plainUses 1, dests := oneDest, out := fun w => partsOf w.d 1, ok := always
     result := fun s f e w t => Holds64 t e w.d fun _ =>
       let n := (readU s (s.convoy f.convoy) w.x).toNat % 8
       if (s.convoy f.convoy).priv = 2 ∨ (s.core f.core).perfen.getLsbD n = true then (s.core f.core).perf.getD n 0 else 0 }]

/-- Memory has changed only where a translation notes its use (R351): in the byte at 5 of the leaf of a page of the given addresses, as the TLBs or the tables name it, where A (bit 46) may have been set and, for a write, D (bit 47). -/
def LeafBits (s t : State) (r : XlateReq) (as : List (Nat × Nat)) : Prop :=
  ∀ a, memGet t.mem a = memGet s.mem a ∨
    ((∃ p ∈ as, ∃ n, a = 8 * n + 5 ∧
        ((∃ x ∈ (s.core r.core).tlb ++ s.dieTlb (dieOf r.core), tlbHit r.ctx p.2 x = true ∧ x.leafAt = n) ∨
         ∃ leaf large, walk s r.ctx p.2 = .leaf leaf (8 * n) large)) ∧
      (memGet t.mem a = memGet s.mem a ||| 0x40 ∨ (r.write = true ∧ (memGet t.mem a = memGet s.mem a ||| 0x80 ∨ memGet t.mem a = memGet s.mem a ||| 0xC0))))

/-- The word holds lanes of E (R67): each mask of `kinds` for its reason, at the word, with its Y where it was issued outside a hand-over (R83); the other active lanes go on, unless the word ends a loop body; every part but those of `out` and the holds is as it was. -/
structure Holding (s t : State) (f : Focus) (h : Hdr) (out : List Part) (kinds : List (Mask × HoldKind)) : Prop where
  frame : ∀ p, p ∉ Part.holds :: out → Same s t f p
  time : t.clock = s.clock
  holds : backEdge (s.convoy f.convoy) f.addr = none →
    (t.convoy f.convoy).holds = (s.convoy f.convoy).holds ++ kinds.map fun k =>
      { lanes := k.1, pc := f.addr, kind := k.2, y := (s.slotAt f.core f.slot).pending.any Pending.mayY && h.y }
  next : backEdge (s.convoy f.convoy) f.addr = none → ∀ l, l < (s.convoy f.convoy).width →
    ((t.convoy f.convoy).lane l).pc = if f.active.getLsbD l && !(kinds.any fun k => k.1.getLsbD l) then f.addr.next else ((s.convoy f.convoy).lane l).pc

/-- Issue n has sent its accesses: the word is complete where none of them waits in a replay of a FINE itinerary; else the lanes of each that waits are held until it is performed, and all lanes until all are where the convoy is the actor (R134, R139). -/
def Sent (s t : State) (f : Focus) (h : Hdr) (e : Mask) (out : List Part) (n : Nat) : Prop :=
  let ws := constrained t f.convoy n
  let whole := ws.head?.any fun a => a.itin.any fun i => i.lane.isNone
  (ws = [] → Completed s t f e out) ∧
  (ws ≠ [] → Holding s t f h out (if whole then [(e, .access n none)] else ws.map fun b => (maskOf b.lanes, .access n (some b.id))))

/-- What the checks of a global word come to when none fails (R101, R133, R151): s2 is the state after them, with A and D bits, translations, occurrences and reserved slots as they leave them; `lanes` have their physical addresses. -/
def Reached (s : State) (f : Focus) (size : Nat) (reads write : Bool) (as : List (Nat × Nat)) (order : State → OrderRes)
    (s2 : State) (lanes : List LaneAddr) (info : List (Option Nat × ItinInfo)) : Prop :=
  ∃ s1, checkWord s (convoyReq s (s.convoy f.convoy) write) size reads as = .ok s1 lanes ∧
    readOwners s1 (s1.convoy f.convoy) lanes = none ∧ order s1 = .ok s2 info

/-- The order of a tagged load or store: none without a tag (R133). -/
def tagOrder (f : Focus) (kind : Nat) (tag : Option (BitVec 12)) (e : Mask) (x : Opnd) (as : List (Nat × Nat)) (s1 : State) : OrderRes :=
  match tag with
  | some t => orderWord s1 f.convoy { kind := kind, tag := t, opcode := 0, cls := 0 } e (isConvoyBase x) as
  | none => .ok s1 []

/-- Loaded bytes stand in a destination (R270): a V register, extended to 32 bits, or a group of V registers, an S register, extended to 64 bits, or a moment. -/
def HoldsLoaded (c : Convoy) (e : Mask) (d : Opnd) (size : Nat) (sx : Bool) (bytes : Nat → List Byte) : Prop :=
  match d with
  | .v n => ∀ l, l < c.width → e.getLsbD l = true →
      if size ≤ 4 then c.readV n.toNat l = (extendTo64 (bytes l) size sx).setWidth 32
      else ∀ i, i < size / 4 → c.readV (n.toNat + i) l = BitVec.ofNat 32 (leNat (((bytes l).drop (4 * i)).take 4))
  | .s n => c.readS n.toNat = extendTo64 (bytes (lowLane c.width e)) size sx
  | _ => HoldsMoment c e d fun l => momentOf (bytes l)

/-- Lanes write n bytes each to a memory, in ascending order (R93): where ranges overlap the highest lane is last, and a byte that no lane writes is as before. -/
def Stored (old new : Memory) (n : Nat) (lanes : List (Nat × Nat)) (bytes : Nat → List Byte) : Prop :=
  ∀ a, memGet new a = match (lanes.filter fun p => decide (p.2 ≤ a) && decide (a < p.2 + n)).getLast? with
    | some p => (bytes p.1).getD (a - p.2) 0
    | none => memGet old a

/-- Only the local store that the convoy reaches has changed: its bytes, and errors that a write removed; its marks, the other store of the block, and every other block are as before. -/
def OnlyLocal (s t : State) (c : Convoy) : Prop :=
  (∀ b, b ≠ c.block → t.block b = s.block b) ∧ (lsOf t c).marks = (lsOf s c).marks ∧
  (if onFollower s c then (t.blockOf c).ls = (s.blockOf c).ls else (t.blockOf c).ls2 = (s.blockOf c).ls2) ∧
  (t.blockOf c).convoys = (s.blockOf c).convoys ∧ (t.blockOf c).state = (s.blockOf c).state ∧ (t.blockOf c).gens = (s.blockOf c).gens

/-- Holds of a convoy that pass a test have been released (R67): they are gone, unless other lanes of their word, the last of a loop body, wait on, for which they then wait (R58); where they all stand at one address that ends no loop body, their lanes have gone on from it, and no other lane has moved. -/
def Released (s t : State) (ci : Nat) (p : Hold → Bool) : Prop :=
  let c := s.convoy ci
  (∀ h ∈ c.holds, h.kind ≠ .edge) →
  ((∀ h ∈ c.holds, p h = true → backEdge c h.pc = none ∨ ∀ k ∈ c.holds, k.pc = h.pc → p k = true) →
    (t.convoy ci).holds = c.holds.filter (fun h => !p h) ∧
    ∀ a, (∀ h ∈ c.holds, p h = true → h.pc = a) → backEdge c a = none → c.lanes.length = c.width →
      ∀ l, l < c.width → ((t.convoy ci).lane l).pc = if c.holds.any (fun h => p h && h.lanes.getLsbD l) then a.next else (c.lane l).pc) ∧
  ∀ h ∈ c.holds, p h = true → h.completes = true → backEdge c h.pc ≠ none → (∃ k ∈ c.holds, k.pc = h.pc ∧ p k = false) →
    { h with kind := .edge } ∈ (t.convoy ci).holds

/-- The hub's fields stand in the record of a service operation (R344): what it is, the number of convoys of the block on the core, launch, block and core, result 0, and the handle of each convoy, in order; no byte outside the record has changed. Stated of a record in device memory whose fields do not change its own translation. -/
def RecordFilled (s t : State) (v : ServiceOp) (cs : List Convoy) : Prop :=
  ∀ pa, paIsLocal pa = true → cs.length ≤ 24 →
    (∀ (u : State) (k : Nat), u.hub.roots = s.hub.roots → u.hub.migrations = s.hub.migrations → (∀ x ∈ u.memErrs, x ∈ s.memErrs) →
      (∀ a, a < pa ∨ pa + 256 ≤ a → memGet u.mem a = memGet s.mem a) → k < 256 → deviceXlate u 16 (v.record + k) true = .inr (pa + k)) →
    (∀ a, a < pa ∨ pa + 256 ≤ a → memGet t.mem a = memGet s.mem a) ∧
    memRead t.mem pa 24 = leBytes 4 (if v.restore then 2 else 1) ++ leBytes 4 cs.length ++ leBytes 8 (s.launch (s.block v.block).launch).id ++
      leBytes 4 (s.block v.block).index ++ leBytes 4 v.core ∧
    memRead t.mem (pa + 0x30) 4 = [0, 0, 0, 0] ∧
    ∀ (i : Nat) (c : Convoy), cs[i]? = some c → memRead t.mem (pa + 0x40 + 8 * i) 8 = leBytes 8 (handleOf c)

/-- A launch in CANONICAL order has committed its interval (R156, R157): the buffered accesses have taken their effect on memory one after the other in the order of the commit; the buffer is empty, memory is the snapshot of the next interval, the crossing is counted, and the blocks of the launch count anew; no other launch has changed. -/
structure Committed (s t : State) (li : Nat) : Prop where
  memory : ∃ m : Nat → Memory, m 0 = s.mem ∧ m (commitOrder (s.launch li).buffer).length = t.mem ∧
    ∀ k x, (commitOrder (s.launch li).buffer)[k]? = some x → m (k + 1) = match x.kind with
      | .store bs => memWrite (m k) x.pa bs
      | .atom op mmrg operands _ => memWrite (m k) x.pa (atomRun op mmrg (memRead (m k) x.pa (atomSize op)) operands).2
      | _ => m k
  launch : (t.launch li).buffer = [] ∧ (t.launch li).snapshot = t.mem ∧ (t.launch li).crossings = (s.launch li).crossings + 1
  blocks : ∀ b, b < s.blocks.length → (s.block b).launch = li → (t.block b).gens = 0 ∧ (t.block b).buffered = 0
  others : ∀ j, j ≠ li → t.launch j = s.launch j

/-- The convoy has no hold that passes a test, present or saved. -/
def NoHold (c : Convoy) (p : Hold → Bool) : Prop := ∀ h ∈ c.holds ++ c.rvHolds ++ c.hrvHolds, p h = false

/-- The bytes of an area have been read (R101, R329): its lines are translated and free, none has an error, and the reads have left their views. -/
def AreaRead (s : State) (f : Focus) (e : Mask) (va n : Nat) (t : State) (bs : List Byte) : Prop :=
  ∃ s1 lines, areaLines s f (s.convoy f.convoy) e false va n = .ok s1 lines ∧ fetchArea s1 va n lines = .inr bs ∧
    t = lines.foldl (fun u pa => raiseView u f.convoy (lanesOf (s.convoy f.convoy).width e) pa 128 u.steps) s1

/-- A convoy as a context area can hold it (R323, R324): its register files have their sizes and its fields their ranges, instruction addresses are those of words, the loop buffers hold their bodies, and of what its lanes wait for only a barrier object, for all of them, a BARL, or, at the last word of a loop body, other lanes of the word is left. -/
structure Storable (c : Convoy) : Prop where
  files : c.shaped = true ∧ c.lanes.length = c.width ∧ c.width ≤ 64 ∧ c.budget ≤ 256
  numbers : c.index < 256 ∧ c.priv ≤ 2 ∧ c.loops.length ≤ 9 ∧ c.occ.length < 2 ^ 32
  masks : c.live &&& fullMask c.width = c.live ∧ ∀ m ∈ c.k, m &&& fullMask c.width = m
  words : ∀ x ∈ c.lanes, x.pc.toNat % 8 = 0 ∧ x.rv.toNat % 8 = 0 ∧ x.hrv.toNat % 8 = 0
  traps : ∀ r ∈ [c.trap, c.held], causeBits r.cause = r.cause ∧ statusBits r.status = r.status
  levels : ∀ v ∈ c.loops, v.first.toNat % 8 = 0 ∧ v.last.toNat % 8 = 0 ∧ v.owner < 4 ∧ v.words.length = min 256 v.size
  occ : ∀ o ∈ c.occ, ∀ l, o.lane = some l → l < 255
  barl : ∀ b, c.barl = some b → b.addr.toNat % 8 = 0
  holds : c.holds = [] ∨
    (∃ off gen y, c.live ≠ 0 ∧ off < 2 ^ 32 ∧ c.holds = [{ lanes := c.live, pc := (c.lane (lowLane c.width c.live)).pc, kind := .bar off gen, y := y }]) ∨
    (∃ b m y, m ≠ 0 ∧ c.barl = some b ∧ c.holds = [{ lanes := m, pc := b.addr, kind := .barl, y := y }]) ∨
    ∃ m, m ≠ 0 ∧ m &&& fullMask c.width = m ∧ c.holds = [{ lanes := m, pc := (c.lane (lowLane c.width m)).pc, kind := .edge, y := false }]

/-- What a context area gives back of a convoy (R324). -/
structure GivenBack (c r : Convoy) : Prop where
  lanes : r.lanes = c.lanes
  masks : r.live = c.live ∧ ∀ n, r.readKn n = c.readKn n
  files : r.s = c.s ∧ r.a = c.a ∧ r.g = c.g ∧ r.scratch = c.scratch
  numbers : r.index = c.index ∧ r.priv = c.priv ∧ r.hrvValid = c.hrvValid ∧ r.flags = c.flags ∧ r.conflicts = c.conflicts
  traps : r.trap = c.trap ∧ r.held = c.held ∧ r.watch = c.watch ∧ r.hwatch = c.hwatch
  levels : r.loops = c.loops
  occ : r.occ = c.occ
  waits : r.barl = c.barl ∧ r.holds = c.holds
  ends : r.parked = c.parked ∧ r.doubled = c.doubled ∧ r.stopped = true

/-- The mailbox holds a command, no attestation is awaited, and the READY bit that the command needs is set (R363, R365, R366). -/
def Commanded (s : State) (code : Byte) (seq : BitVec 16) (need : Nat) : Prop :=
  s.hub.mbcmd = some (code, seq) ∧ s.hub.attesting = none ∧ s.hub.ready.getLsbD need = true

/-- The mailbox has answered (R365): RESULT, STATUS and SEQ are written, BUSY is clear, and MSI-X vector 0 is raised. -/
def Answered (t : State) (seq : BitVec 16) (status result : Nat) : Prop :=
  t.hub.mbcmd = none ∧ t.hub.attesting = none ∧ t.hub.mbstat = BitVec.ofNat 64 (result * 2 ^ 32 + status * 2 ^ 16 + seq.toNat) ∧
  t.outputs.getLast? = some (.msix 0)

/-- Bytes stand in memory from an address up, and every other byte is as before. -/
def Wrote (s t : State) (at_ : Nat) (bs : List Byte) : Prop :=
  ∀ a, memGet t.mem a = if at_ ≤ a ∧ a < at_ + bs.length then bs.getD (a - at_) 0 else memGet s.mem a

/-- Bytes are written at their home: they stand in memory, or, for host memory, last among the posted writes (R99). -/
def Delivered (s t : State) (pa : Nat) (bs : List Byte) : Prop :=
  if paIsHost pa then t.mem = s.mem ∧ t.hub.posted = s.hub.posted ++ [.write pa bs none] else Wrote s t pa bs

/-- The commands of the mailbox with their codes and the READY bits that they need (R363, R366); PARKCTL has two constructors. -/
def commandCodes : List ((BitVec 16 → Instr) × Byte × Nat) :=
  [(.summary, 0x01, 2), (.attest, 0x02, 3), (.chkpt, 0x03, 7), (.restore, 0x04, 7), (.evset, 0x05, 7), (.evclr, 0x06, 7), (.kill, 0x07, 7),
   (.commset, 0x09, 7), (.commclr, 0x0A, 7), (.svcset, 0x0B, 7), (.wlset, 0x0C, 7), (.domset, 0x0D, 5), (.pwrlim, 0x0E, 1), (.fwload, 0x0F, 3),
   (.preempt, 0x10, 7), (.reinstate, 0x11, 7)]

/-- A start stage has set its READY bit, and no other bit has changed (R362, R363). -/
def StageSet (s t : State) (bit : Nat) : Prop := t.hub.ready = s.hub.ready ||| (1#64 <<< bit)

/-- Only ERRSUM has changed, in one bit; a 0 to 1 transition has raised MSI-X vector 1 (R364). -/
def ErrSet (s t : State) (bit : Nat) : Prop :=
  (s.hub.errsum.getLsbD bit = true → t = s) ∧
  (s.hub.errsum.getLsbD bit = false → t = { s with hub := { s.hub with errsum := s.hub.errsum ||| (1#64 <<< bit) }, outputs := s.outputs ++ [.msix 1] })

def ErrCleared (s t : State) (bit : Nat) : Prop := t = { s with hub := { s.hub with errsum := s.hub.errsum &&& ~~~ (1#64 <<< bit) } }

end Sys2Proof.Machine
end

