-- ==== Sys2Proof/Certificates/Slice0/Obligations.lean ====
section
/-! DEFINITION. The statements for the provers. -/

open Sys2Proof Sys2Proof.Machine

/-- Integer words with a V or S result (R215, R217 to R221, R224, R225): each of IADD, ISUB, IAND, IOR, IXOR, IMIN, IMAX, IMUL, IMULH, IMAD, ISHL, ISHR, ISAR, BREV, BFE and BFI completes, writes its result to D in the lanes of E at its width, and leaves everything else alone. -/
def Obligations.IntegerWordsComplete : Prop :=
  ∀ p ∈ integerWords, ∀ (w : FWord) (s : State) (f : Focus) (e : Mask), (p.1 w).WellFormed → w.d.isAReg = false →
    Issues s f w.hdr (intUses w) [w.d] e →
    ∃ t, exec (p.1 w) s = .next t ∧ Completed s t f e (partsOf w.d (intRegs w)) ∧ HoldsInt s t f e w p.2

/-- Integer words with an A result (R53, R217, R219, R221, R226): IADD, ISUB, IMUL, ISHL and LEA complete when the exact stride fits 32 bits or .W is given, and write base and stride; when it does not fit and .W is not given, they raise AFOVF for E. -/
def Obligations.AffineWords : Prop :=
  (∀ p ∈ affineWords, ∀ (w : FWord) (s : State) (f : Focus) (e : Mask), (p.1 w).WellFormed → w.d.isAReg = true →
    Issues s f w.hdr (intUses w) [w.d] e →
    let r := p.2.2 w (readAffine s (s.convoy f.convoy) w.x) (readAffine s (s.convoy f.convoy) w.y)
    (p.2.1 w = true ∨ (-(2 ^ 31) ≤ r.2 ∧ r.2 < 2 ^ 31)) →
    ∃ t, exec (p.1 w) s = .next t ∧ Completed s t f e (partsOf w.d 1) ∧ HoldsAffine (t.convoy f.convoy) w.d r.1 r.2) ∧
  (∀ p ∈ affineWords, ∀ (w : FWord) (s : State) (f : Focus) (e : Mask), (p.1 w).WellFormed → w.d.isAReg = true →
    Issues s f w.hdr (intUses w) [w.d] e → (s.convoy f.convoy).priv < 2 →
    let r := p.2.2 w (readAffine s (s.convoy f.convoy) w.x) (readAffine s (s.convoy f.convoy) w.y)
    p.2.1 w = false → ¬ (-(2 ^ 31) ≤ r.2 ∧ r.2 < 2 ^ 31) →
    ∃ t, exec (p.1 w) s = .next t ∧ TrapTaken s t f 0x04 f.addr e 0)

/-- Type movement and masks (R205 to R209, R211 to R214) and ICMP, SEL, POPC, CLZ, LEA and IDOT4 (R222 to R224, R226, R227) complete with the result and the frame of their claims: MOV, MAT, AFF, DEM, DEMA, ELECT, VOTE, KSET, KOP, ICMP, SEL, POPC, CLZ, LEA, IDOT4. -/
def Obligations.MovingWordsComplete : Prop := ∀ p ∈ movingClaims, p.Completes

/-- Floating-point words complete with the result, the flags and the frame of their claims (R229 to R241). The model's own readings that it rests on: assumption logs 9, 16, 17. -/
def Obligations.FloatWordsComplete : Prop := ∀ p ∈ floatClaims, p.Completes

/-- Words of the narrow formats complete with the result, the flags and the frame of their claims (R242 to R247, R251). The model's own readings that it rests on: assumption logs 16, 17. -/
def Obligations.NarrowWordsComplete : Prop := ∀ p ∈ narrowClaims, p.Completes

/-- Cross-lane words complete with the result and the frame of their claims (R252 to R258). -/
def Obligations.LaneWordsComplete : Prop := ∀ p ∈ laneClaims, p.Completes

/-- Moment words that stay in registers complete with the result, the flags and the frame of their claims (R259 to R265, R267). The model's own readings that it rests on: assumption log 17. -/
def Obligations.MomentWordsComplete : Prop := ∀ p ∈ momentClaims, p.Completes

/-- MOVPC, the long-immediate words and the pair word complete with the result and the frame of their claims (R175, R176, R188, R210, R228). -/
def Obligations.ImmediateWordsComplete : Prop := movpcClaim.Completes ∧ (∀ p ∈ immediateClaims, p.Completes) ∧ pairClaim.Completes

/-- NOP, YIELD, LPAD, BRA, CALL and LOOPBRK (R58, R196, R197, R198, R202): NOP, YIELD and LPAD have no effect on registers or memory (the hand-over that YIELD brings is the slot's, R82, R83); BRA and CALL send the lanes of E a number of words away, CALL leaves the next address in its pair; LOOPBRK closes the innermost open level and goes on after its body. -/
def Obligations.BranchWords : Prop :=
  (∀ p ∈ controlClaims, p.Completes) ∧
  (∀ (w : CWord) (s : State) (f : Focus) (e : Mask), (Instr.bra w).WellFormed → Issues s f w.hdr [] [] e →
    ∃ t, exec (.bra w) s = .next t ∧ Went s t f e [] fun _ => wordsAway f.addr w.off.toInt) ∧
  (∀ (w : CWord) (s : State) (f : Focus) (e : Mask), (Instr.call w).WellFormed → Issues s f w.hdr [(w.opr, 2)] [] e →
    ∃ t, exec (.call w) s = .next t ∧ Went s t f e (partsOf w.opr 2) (fun _ => wordsAway f.addr w.off.toInt) ∧
      Holds64 (t.convoy f.convoy) e w.opr fun _ => f.addr.next.setWidth 64) ∧
  (∀ (w : CWord) (s : State) (f : Focus) (e : Mask) (a : List LoopLevel) (v : LoopLevel) (b : List LoopLevel), (Instr.loopbrk w).WellFormed →
    Issues s f w.hdr [] [] e → e = (s.convoy f.convoy).live → backEdge (s.convoy f.convoy) f.addr = none →
    (s.convoy f.convoy).loops = a ++ v :: b → v.suspended = false → (∀ x ∈ b, x.suspended = true) →
    ∃ t, exec (.loopbrk w) s = .next t ∧ Went s t f e [.reg .lc] (fun _ => v.last.next) ∧ (t.convoy f.convoy).loops = a ++ b)

/-- RET (R199): where every lane's return address follows a CALL or CALLT, every lane goes there. JMPT and CALLT (R201): with the table header and every lane's entry and landing pad in order, each lane goes to its target, and CALLT leaves the next address in its pair. The frame starts from the state after the table was read, whose caches and translations may have changed. The model's own readings that it rests on: assumption logs 19, 29. -/
def Obligations.ReturnAndTableWords : Prop :=
  (∀ (w : CWord) (s : State) (f : Focus) (e : Mask), (Instr.ret w).WellFormed → Issues s f w.hdr [(w.opr, 2)] [] e →
    (∀ l, l < (s.convoy f.convoy).width → e.getLsbD l = true → returnsToCall s f.convoy (readW64 s (s.convoy f.convoy) l w.opr) = some true) →
    ∃ t, exec (.ret w) s = .next t ∧ Went s t f e [] fun l => (readW64 s (s.convoy f.convoy) l w.opr).setWidth 48) ∧
  (∀ (w : CWord) (s s1 s2 : State) (f : Focus) (e : Mask) (h : List Byte) (at_ : LaneAddr) (ts : List (Nat × TableLane)),
    let table := (s.convoy f.convoy).readS (w.aux.extractLsb' 0 6).toNat
    let index := fun l => if w.opr.isSReg ∨ w.opr.isImm ∨ w.opr.isUniformSpecial then readU s (s.convoy f.convoy) w.opr
      else (readW32 s (s.convoy f.convoy) l w.opr).setWidth 64
    readItem s f e table.toNat 16 16 false = .ok s1 h at_ →
    1 ≤ bytesNat h 2 2 → bytesNat h 2 2 < 16384 → (h.drop 4).any (· != 0) = false →
    tableLanes s1 f table (bytesNat h 0 2) (bytesNat h 2 2) (s.convoy f.convoy).budget
      ((lanesOf (s.convoy f.convoy).width e).map fun l => (l, index l)) = (s2, ts) →
    (∀ p ∈ ts, ∃ x, p.2 = .target x) →
    ((Instr.jmpt w).WellFormed → Issues s f w.hdr [(w.opr, 1), (.s (w.aux.extractLsb' 0 6), 1)] [] e →
      ∃ t, exec (.jmpt w) s = .next t ∧ Went s2 t f e [] (fun l => (lanesTo (tableTargets ts) l).getD f.addr.next)) ∧
    ((Instr.callt w).WellFormed → Issues s f w.hdr [(w.opr, 1), (.s (w.aux.extractLsb' 0 6), 1), (.v (w.aux.extractLsb' 6 8), 2)] [] e →
      ∃ t, exec (.callt w) s = .next t ∧
        Went s2 t f e (partsOf (.v (w.aux.extractLsb' 6 8)) 2) (fun l => (lanesTo (tableTargets ts) l).getD f.addr.next) ∧
        Holds64 (t.convoy f.convoy) e (.v (w.aux.extractLsb' 6 8)) fun _ => f.addr.next.setWidth 64))

/-- LOOP (R57, R203): with a free level and a body of 1 to 256 words that may end there, a count of 0 skips the body, and any other opens a level whose body is the words that were fetched. The frame starts from the state after the body was fetched. The end of a loop body (R58): the counter goes on, and the whole live set starts the body again while the count is not reached; then the level closes. Stated of the completion of any word. The model's own readings that it rests on: assumption log 15. -/
def Obligations.LoopWords : Prop :=
  (∀ (w : CWord) (s s1 : State) (f : Focus) (e : Mask) (ws : List W64), (Instr.loop w).WellFormed → Issues s f w.hdr [(w.opr, 1)] [] e →
    e = (s.convoy f.convoy).live → ((s.convoy f.convoy).loops.filter fun v => !v.suspended).length < 3 →
    1 ≤ w.off.toInt → w.off.toInt ≤ 256 → backEdge (s.convoy f.convoy) f.addr = none →
    (∀ v ∈ (s.convoy f.convoy).loops, v.suspended = false → v.spans f.addr = true → v.place f.addr + w.off.toInt.toNat < v.size) →
    fetchBody f.convoy w.off.toInt.toNat f.addr.next s [] = .words s1 ws → mayEndBody (ws.getLastD 0) = true →
    ∃ t, exec (.loop w) s = .next t ∧
      ((readU s (s.convoy f.convoy) w.opr).setWidth 32 = 0#32 → Went s1 t f e [] fun _ => (wordsAway f.addr w.off.toInt).next) ∧
      ((readU s (s.convoy f.convoy) w.opr).setWidth 32 ≠ 0#32 → Went s1 t f e [.reg .lc] (fun _ => f.addr.next) ∧
        (t.convoy f.convoy).loops = (s.convoy f.convoy).loops ++ [LoopLevel.mk ((readU s (s.convoy f.convoy) w.opr).setWidth 32) 0
          f.addr.next (wordsAway f.addr w.off.toInt) (s.convoy f.convoy).priv false ws])) ∧
  (∀ (s : State) (f : Focus) (i : WordInfo) (e : Mask) (move : Nat → Option Pc) (k : Nat) (v : LoopLevel), f.convoy < s.convoys.length →
    (s.convoy f.convoy).lanes.length = (s.convoy f.convoy).width → backEdge (s.convoy f.convoy) f.addr = some (k, v) →
    let t := complete s f i e move
    (v.counter.toNat + 1 < v.count.toNat →
      (t.convoy f.convoy).loops = (s.convoy f.convoy).loops.set k { v with counter := v.counter + 1 } ∧
      ∀ l, l < (s.convoy f.convoy).width → (s.convoy f.convoy).live.getLsbD l = true → ((t.convoy f.convoy).lane l).pc = v.first) ∧
    (v.count.toNat ≤ v.counter.toNat + 1 →
      (t.convoy f.convoy).loops = (s.convoy f.convoy).loops.eraseIdx k ∧
      ∀ l, l < (s.convoy f.convoy).width → (s.convoy f.convoy).live.getLsbD l = true → ((t.convoy f.convoy).lane l).pc = f.addr.next))

/-- EXIT and the live set (R45): the lanes of E leave the live set, and issue no more; while lanes are left, the other active lanes go on and nothing else changes; without any the convoy has ended, and with its last convoy the block. K0 and %live read the live set, and %active the active set; and a word that names K0 as its destination completes and changes nothing. -/
def Obligations.ExitWord : Prop :=
  (∀ (w : CWord) (s : State) (f : Focus) (e : Mask), (Instr.exit w).WellFormed → Issues s f w.hdr [] [] e →
    ∃ t, exec (.exit w) s = .next t ∧ (t.convoy f.convoy).live = (s.convoy f.convoy).live &&& ~~~ e ∧
      t.runnable (t.convoy f.convoy) &&& e = 0 ∧
      ((s.convoy f.convoy).live &&& ~~~ e ≠ 0 → (s.convoy f.convoy).barl = none → backEdge (s.convoy f.convoy) f.addr = none →
        (∀ p, p ∉ [Part.live, .reg (.k 0)] → Same s t f p) ∧ ∀ l, l < (s.convoy f.convoy).width → e.getLsbD l = false →
          ((t.convoy f.convoy).lane l).pc = if f.active.getLsbD l then f.addr.next else ((s.convoy f.convoy).lane l).pc) ∧
      ((s.convoy f.convoy).live &&& ~~~ e = 0 → (t.convoy f.convoy).ended = true ∧
        ((s.convoy f.convoy).block < s.blocks.length → (s.blockOf (s.convoy f.convoy)).state = .running →
          (∀ ci ∈ (s.blockOf (s.convoy f.convoy)).convoys, ci = f.convoy ∨ (s.convoy ci).ended = true) →
          (t.block (s.convoy f.convoy).block).state = .ended))) ∧
  (∀ (c : Convoy) (active : Mask), readK c active (.k 0) = c.live ∧ readK c active (.sp 0x10) = c.live ∧ readK c active (.sp 0x11) = active) ∧
  (∀ (w : FWord) (s : State) (f : Focus) (e : Mask), (Instr.kop w).WellFormed → w.d = .k 0 →
    Issues s f w.hdr [(w.x, 1), (w.y, 1), (w.d, 1)] [w.d] e → ∃ t, exec (.kop w) s = .next t ∧ Completed s t f e []) ∧
  ∀ (c : Convoy) (e : Mask) (v : Mask), c.writeK e 0 v = c

/-- TRAP and BRK (R204): the word completes, and the convoy then traps with TPC the next word, TMASK E and TADDR the code. -/
def Obligations.SoftwareTraps : Prop :=
  ∀ (w : CWord) (s : State) (f : Focus) (e : Mask), Issues s f w.hdr [] [] e → (s.convoy f.convoy).priv < 2 →
    backEdge (s.convoy f.convoy) f.addr = none →
    (∃ l, l < (s.convoy f.convoy).width ∧ f.active.getLsbD l = true) →
    ((Instr.trap w).WellFormed → ∃ t, exec (.trap w) s = .next t ∧ TrapTaken s t f 0x1B f.addr.next e (w.aux.setWidth 64)) ∧
    ((Instr.brk w).WellFormed → ∃ t, exec (.brk w) s = .next t ∧ TrapTaken s t f 0x1C f.addr.next e (w.aux.setWidth 64))

/-- ERET (R318): the convoy takes the privilege of TSTATUS; the lanes of TACT stand at TPC and the other live lanes where the return vector says; after a nested trap the held trap registers and return vector come back; what the lanes waited for before the trap they wait for again, and what the handler's own lanes wait for is dropped; the levels that the handler has opened close, and the innermost LOOPS of the suspended levels are open again; the return from a LIVELOCK sets the watchdog of the slot to 0 (R305). The model's own readings that it rests on: assumption logs 12, 13, 24. -/
def Obligations.ReturnFromTrap : Prop :=
  ∀ (w : CWord) (s : State) (f : Focus) (e : Mask), (Instr.eret w).WellFormed → Issues s f w.hdr [] [] e → (s.convoy f.convoy).priv ≠ 0 →
    let c := s.convoy f.convoy
    ∃ t, exec (.eret w) s = .next t ∧ (∀ p, p ∉ [Part.mode, .trap, .holds, .barl, .vectors, .reg .lc] → Same s t f p) ∧
      (t.convoy f.convoy).priv = c.trap.status.toNat % 4 ∧
      (t.convoy f.convoy).holds = c.rvHolds ∧ (c.watch = true → (t.slotAt f.core f.slot).watchdog = 0) ∧
      (t.convoy f.convoy).barl = (if c.holds.any (fun h => h.kind == .barl) then none else c.barl) ∧
      (∀ l, l < c.width → c.live.getLsbD l = true → ((t.convoy f.convoy).lane l).pc =
        if c.trap.act.getLsbD l then BitVec.ofNat 48 (c.trap.pc.toNat % 2 ^ 48 / 8 * 8) else (c.lane l).rv) ∧
      (c.trap.status.getLsbD 3 = true → (t.convoy f.convoy).trap = c.held ∧ (t.convoy f.convoy).hrvValid = false ∧
        (t.convoy f.convoy).rvHolds = c.hrvHolds ∧ ∀ l, l < c.width → c.live.getLsbD l = true → ((t.convoy f.convoy).lane l).rv = (c.lane l).hrv) ∧
      (c.trap.status.getLsbD 3 = false → (t.convoy f.convoy).trap = c.trap ∧ (t.convoy f.convoy).rvHolds = []) ∧
      (let kept := c.loops.filter fun v => v.suspended || v.owner != c.priv
       let still := (kept.filter LoopLevel.suspended).length - c.trap.status.toNat / 64 % 4
       (t.convoy f.convoy).loops.length = kept.length ∧ ∀ (i : Nat) (v : LoopLevel), kept[i]? = some v → (t.convoy f.convoy).loops[i]? =
        some (if v.suspended then { v with suspended := decide (((kept.take i).filter LoopLevel.suspended).length < still) } else v))

/-- A second trap in the supervisor state parks the convoy (R316, R331): the trap registers name it with DOUBLE, and no lane may issue. The model's own readings that it rests on: assumption log 13. -/
def Obligations.DoubleTrap : Prop :=
  ∀ (s : State) (ci cause : Nat) (tpc : Pc) (mask : Mask) (addr : W64) (act : Mask), ci < s.convoys.length → (s.convoy ci).priv = 2 →
    let t := enterTrap s ci cause tpc mask addr act
    (t.convoy ci).parked = true ∧ (t.convoy ci).priv = 2 ∧ (t.convoy ci).trap.cause = BitVec.ofNat 64 cause ∧
    (t.convoy ci).trap.status.getLsbD 5 = true ∧ t.runnable (t.convoy ci) = 0 ∧ (t.convoy ci).lanes = (s.convoy ci).lanes ∧
    (t.convoy ci).rvHolds = (s.convoy ci).rvHolds ∧ (t.convoy ci).held = (s.convoy ci).held ∧ t.mem = s.mem

/-- What takes a trap and returns from it without touching the trap registers goes on where it stood (R316, R318): every lane, the privilege, the loop levels and the holds are as before, but that the active lanes stand at TPC. The model's own readings that it rests on: assumption log 13. -/
def Obligations.TrapThenReturn : Prop :=
  ∀ (s : State) (ci cause : Nat) (tpc ret : Pc) (mask : Mask) (addr : W64) (act : Mask), ci < s.convoys.length → (s.convoy ci).priv < 2 →
    (s.convoy ci).lanes.length = (s.convoy ci).width → tpc.toNat % 8 = 0 →
    (∀ l, (s.convoy ci).width ≤ l → (s.convoy ci).live.getLsbD l = false) →
    (∃ a b, (s.convoy ci).loops = a ++ b ∧ (∀ v ∈ a, v.suspended = true) ∧ (∀ v ∈ b, v.suspended = false) ∧ b.length < 4) →
    let c := s.convoy ci
    let t := returnFromTrap (enterTrap s ci cause tpc mask addr act) ci ret
    (t.convoy ci).priv = c.priv ∧ (t.convoy ci).loops = c.loops ∧ (t.convoy ci).holds = c.holds ∧ (t.convoy ci).barl = c.barl ∧
    (∀ l, l < c.width → c.live.getLsbD l = true → ((t.convoy ci).lane l).pc = if act.getLsbD l then tpc else (c.lane l).pc) ∧
    (c.priv = 1 → (t.convoy ci).trap = c.trap ∧ (t.convoy ci).rvHolds = c.rvHolds ∧
      ∀ l, l < c.width → c.live.getLsbD l = true → ((t.convoy ci).lane l).rv = (c.lane l).rv)

/-- CSRR, PERFR and CSRW (R311, R312, R313, R326, R327): CSRR reads the CSRs that its state may read, PERFR an enabled counter; in the supervisor state CSRW makes the named CSR read back what it keeps of the value, and every other CSR read as before. The model's own readings that it rests on: assumption logs 14, 24. -/
def Obligations.RegisterWords : Prop :=
  (∀ p ∈ registerClaims, p.Completes) ∧
  ∀ (w : FWord) (s : State) (f : Focus) (e : Mask), (Instr.csrw w).WellFormed → Issues s f w.hdr [(w.x, 1)] [] e →
    e = (s.convoy f.convoy).live → (s.convoy f.convoy).priv = 2 →
    ∃ t, exec (.csrw w) s = .next t ∧ Completed s t f e [.trap, .scratch, .coreRegs] ∧
      ∀ n, Legal.csrAssigned n = true → csrRead t (t.convoy f.convoy) n = if n = w.mod.toNat then csrKeeps n (readU s (s.convoy f.convoy) w.x) else csrRead s (s.convoy f.convoy) n

/-- CSRW of WDCTL, of PERFSEL and of KILL (R84, R319, R327): bit 0 of WDCTL is kept and a write of 1 resets the watchdog of every slot of the core; a PERFSEL keeps its low byte and its counter restarts at 0 (where it selects no event of the word's own issue); KILL with bit 0 set terminates the launch of the convoy with TCAUSE as the cause, and with bit 0 clear does nothing. PARK, TLBINV and CACHEOP (R328, R330, R331): PARK stops the convoy after the word; TLBINV removes the named entries from every TLB, once no store through them is in flight; CACHEOP empties the L1 of the core, the square or the fetch buffers. The model's own readings that it rests on: assumption logs 14, 24, 25. -/
def Obligations.SupervisorWords : Prop :=
  (∀ (w : FWord) (s : State) (f : Focus) (e : Mask), Issues s f w.hdr [(w.x, 1)] [] e → e = (s.convoy f.convoy).live → (s.convoy f.convoy).priv = 2 →
    let v := readU s (s.convoy f.convoy) w.x
    ((Instr.wdctlWrite w).WellFormed → ∃ t, exec (.wdctlWrite w) s = .next t ∧ Completed s t f e [.coreRegs] ∧
      (t.core f.core).wdctl = v &&& 1 ∧ (v.getLsbD 0 = true → ∀ h, h < 32 → (t.slotAt f.core h).watchdog = 0)) ∧
    ((Instr.perfselWrite w).WellFormed → (s.core f.core).perfsel.length = 8 → ∃ t, exec (.perfselWrite w) s = .next t ∧ Completed s t f e [.coreRegs] ∧
      csrRead t (t.convoy f.convoy) w.mod.toNat = v &&& 0xFF ∧
      (v.toNat % 256 ∉ [2, 3, 4] → (t.core f.core).perf.getD (w.mod.toNat - 0x30) 0 = 0)) ∧
    ((Instr.killCsrWrite w).WellFormed → v.getLsbD 0 = false → ∃ t, exec (.killCsrWrite w) s = .next t ∧ Completed s t f e []) ∧
    ((Instr.killCsrWrite w).WellFormed → v.getLsbD 0 = true → (s.launchOf (s.convoy f.convoy)).completed = false →
      (s.launchOf (s.convoy f.convoy)).terminated = none → (s.convoy f.convoy).launch < s.launches.length →
      ∃ t, exec (.killCsrWrite w) s = .next t ∧
        (t.launch (s.convoy f.convoy).launch).terminated = some (BitVec.ofNat 8 ((s.convoy f.convoy).trap.cause.toNat % 256)) ∧
        (∀ j, (s.convoy j).launch = (s.convoy f.convoy).launch → t.runnable (t.convoy j) = 0) ∧ ∀ a, memGet t.mem a = memGet s.mem a)) ∧
  ((∀ (w : CWord) (s : State) (f : Focus) (e : Mask), (Instr.park w).WellFormed → Issues s f w.hdr [] [] e → (s.convoy f.convoy).priv = 2 →
    ∃ t, exec (.park w) s = .next t ∧ Completed s t f e [.ends, .hub] ∧ (t.convoy f.convoy).parked = true ∧ t.runnable (t.convoy f.convoy) = 0) ∧
  (∀ (w : FWord) (s : State) (f : Focus) (e : Mask), (Instr.tlbinv w).WellFormed → Issues s f w.hdr [(w.x, 1), (w.y, 1)] [] e →
    (s.convoy f.convoy).priv = 2 →
    let ctx := if w.y.isNone then none else some (readU s (s.convoy f.convoy) w.y).toNat
    let va := if w.bit 0 then none else some (readU s (s.convoy f.convoy) w.x).toNat
    (∀ n, ctx = some n → n ≤ 16) → (∀ a, va = some a → a < 2 ^ 48) → invWaits s ctx va = false →
    ∃ t, exec (.tlbinv w) s = .next t ∧ Completed s t f e [.caches] ∧
      (∀ k, (t.core k).tlb = (s.core k).tlb.filter fun x => !invNames ctx va x) ∧ t.dieTlbs = s.dieTlbs.map fun l => l.filter fun x => !invNames ctx va x) ∧
  (∀ (w : FWord) (s : State) (f : Focus) (e : Mask), (Instr.cacheop w).WellFormed → Issues s f w.hdr [] [] e → (s.convoy f.convoy).priv = 2 →
    ∃ t, exec (.cacheop w) s = .next t ∧ Completed s t f e [.caches, .views, .others] ∧
      (w.rm = 0 → (t.core f.core).l1 = []) ∧ (w.rm = 1 → t.squares = []) ∧ (w.rm = 2 → (t.core f.core).ibuf = [])))

/-- Privilege (R183, R311): outside the supervisor state CSRW, TLBINV, CACHEOP, PARK, CTXSV and CTXLD raise PRIV, a CSR that the state may not read raises it on CSRR, and ERET raises it in the user program. The model's own readings that it rests on: assumption log 24. -/
def Obligations.PrivilegeTraps : Prop :=
  ∀ (s : State) (f : Focus) (e : Mask), (s.convoy f.convoy).priv < 2 →
    (∀ w : FWord, Issues s f w.hdr [(w.x, 1), (w.y, 1)] [] e → e = (s.convoy f.convoy).live →
      ∀ i ∈ [Instr.csrw w, .killCsrWrite w, .wdctlWrite w, .perfselWrite w, .tlbinv w, .cacheop w, .ctxsv w, .ctxld w], i.WellFormed →
        ∃ t, exec i s = .next t ∧ TrapTaken s t f 0x02 f.addr e 0) ∧
    (∀ w : FWord, Issues s f w.hdr (plainUses 1 w) [w.d] e → (Instr.csrr w).WellFormed → csrReadable (s.convoy f.convoy).priv w.mod.toNat = false →
        ∃ t, exec (.csrr w) s = .next t ∧ TrapTaken s t f 0x02 f.addr e 0) ∧
    (∀ w : CWord, Issues s f w.hdr [] [] e → (Instr.park w).WellFormed → ∃ t, exec (.park w) s = .next t ∧ TrapTaken s t f 0x02 f.addr e 0) ∧
    (∀ w : CWord, Issues s f w.hdr [] [] e → (Instr.eret w).WellFormed → (s.convoy f.convoy).priv = 0 →
        ∃ t, exec (.eret w) s = .next t ∧ TrapTaken s t f 0x02 f.addr e 0)

/-- Translation (R346 to R351): a word whose checks pass has for every lane its own address, aligned and below 2^48, and a mapped physical address with the same place in the page under a leaf that allows the access; besides TLB entries nothing has changed but bit 46 (A) and, for a write, bit 47 (D) of the leaf that a TLB entry or the walk gives for an address of the word: two bits of the byte at 5 of that leaf, which are only ever set. The model's own readings that it rests on: assumption log 25. -/
def Obligations.ChecksOfAddresses : Prop :=
  ∀ (s s1 : State) (r : XlateReq) (size : Nat) (reads : Bool) (as : List (Nat × Nat)) (lanes : List LaneAddr),
    s.sound = true → checkWord s r size reads as = .ok s1 lanes →
    lanes.map (fun a => (a.lane, a.va)) = as ∧
    (∀ a ∈ lanes, (size = 0 ∨ a.va % size = 0) ∧ a.va < 2 ^ 48 ∧ a.pa % 2 ^ 16 = a.va % 2 ^ 16 ∧ paMapped s1 a.pa = true ∧
      (r.write = true → pteW a.leaf = true) ∧ (r.user = true → pteU a.leaf = true) ∧ (r.fetch = true → pteX a.leaf = true)) ∧
    LeafBits s s1 r as ∧
    s1.convoys = s.convoys ∧ s1.blocks = s.blocks ∧ s1.launches = s.launches ∧ s1.accesses = s.accesses ∧ s1.hub = s.hub ∧
    s1.memErrs = s.memErrs ∧ s1.clock = s.clock ∧ ∀ k, (s1.core k).l1 = (s.core k).l1 ∧ (s1.core k).queue = (s.core k).queue

/-- LD (R91, R133, R134, R141, R142, R271): once its checks pass, the word has sent one load for each lane, or one for the convoy where it acts as tagged, in lane order; each is answered later at its home, or at once by a line of the L1 no older than the convoy's bound, or by the snapshot of a CANONICAL interval. Registers are written by the answers. The model's own readings that it rests on: assumption log 30. -/
def Obligations.LoadWord : Prop :=
  ∀ (w : FWord) (s s2 : State) (f : Focus) (e : Mask) (lanes : List LaneAddr) (info : List (Option Nat × ItinInfo)), (Instr.ld w).WellFormed →
    Issues s f w.hdr [(w.x, 2), (w.y, 1), (w.z, 1), (w.d, regsOfSize (accessSize w))] [w.d] e →
    let c := s.convoy f.convoy
    let as := laneAddrs c e w.x w.y
    Reached s f (accessSize w) true false as (tagOrder f 2 (tagOf c w.z) e w.x as) s2 lanes info →
    ∃ t added, exec (.ld w) s = .next t ∧ Sent s2 t f w.hdr e [.accesses, .views] (issueNumber s f) ∧
      t.accesses = s2.accesses ++ added ∧
      (added.map fun (a : Access) => (a.lanes, a.va, a.pa)) =
        (if w.d.isSReg || (actsTagged (s.launchOf c) (tagOf c w.z) && w.x.isSReg) then (lanes.take 1).map fun a => (lanes.map LaneAddr.lane, a.va, a.pa)
         else lanes.map fun a => ([a.lane], a.va, a.pa)) ∧
      ∀ a ∈ added, a.convoy = f.convoy ∧ a.core = f.core ∧ a.number = issueNumber s f ∧ a.size = accessSize w ∧
        a.kind = .load w.d (accessSize w) (w.bit 3) ∧ a.acq = (w.bit 7 && scopeActs (s2.launchOf c) w.scope.toNat) ∧ a.rel = false ∧
        a.scope = w.scope.toNat ∧ a.itin = itinOf info a.lanes ∧
        (a.phase = .sent ∨
         (∃ x ∈ (s2.core f.core).l1, x.line = lineOf a.pa ∧ (s2.convoy f.convoy).bound ≤ x.filled ∧
           a.phase = .performed x.filled [(x.bytes.drop (a.pa % 128)).take a.size]) ∨
         (isCanonical (s2.launchOf c) = true ∧ a.phase = .performed s2.steps [memRead (s2.launchOf c).snapshot a.pa a.size]))

/-- ST (R93, R133, R154, R272): once its checks pass, the word has sent one store for each lane in lane order, with the bytes of its value; in a CANONICAL launch those to shared granules are buffered. No byte of memory changes before a store is performed. The model's own readings that it rests on: assumption log 40. -/
def Obligations.StoreWord : Prop :=
  ∀ (w : FWord) (s s2 : State) (f : Focus) (e : Mask) (lanes : List LaneAddr) (info : List (Option Nat × ItinInfo)), (Instr.st w).WellFormed →
    Issues s f w.hdr [(w.x, 2), (w.y, 1), (w.z, regsOfSize (accessSize w)), (w.d, 1)] [] e →
    let c := s.convoy f.convoy
    let as := laneAddrs c e w.x w.y
    Reached s f (accessSize w) false true as (tagOrder f 1 (tagOf c w.d) e w.x as) s2 lanes info → quotaCause s2 c lanes = none →
    ∃ t added, exec (.st w) s = .next t ∧ Sent s2 t f w.hdr e [.accesses, .caches, .launches, .blocks] (issueNumber s f) ∧
      t.accesses = s2.accesses ++ added ∧
      ((added.map fun (a : Access) => (a.lanes, a.va, a.pa, a.kind)) = (lanes.filter fun a => !sharedAt s2 c a).map fun a =>
        ([a.lane], a.va, a.pa, AccKind.store (storeBytes s c (accessSize w) w.z a.lane))) ∧
      (∀ a ∈ added, a.convoy = f.convoy ∧ a.core = f.core ∧ a.number = issueNumber s f ∧ a.size = accessSize w ∧ a.acq = false ∧
        a.rel = w.bit 7 ∧ a.scope = w.scope.toNat ∧ a.phase = .sent) ∧
      (((t.launchOf c).buffer.map fun (b : Buffered) => (b.lane, b.pa, b.kind)) =
        ((s2.launchOf c).buffer.map fun (b : Buffered) => (b.lane, b.pa, b.kind)) ++
        (lanes.filter fun a => sharedAt s2 c a).map fun a => (a.lane, a.pa, AccKind.store (storeBytes s c (accessSize w) w.z a.lane))) ∧
      (isCanonical (s2.launchOf c) = false → t.launches = s2.launches ∧ t.blocks = s2.blocks)

/-- ATOM (R93, R154, R155, R273, R274): once its checks pass, the word has sent one access for each location that its lanes name by one virtual address, with the operands of these lanes in ascending order, and one for each lane at every other location; in a CANONICAL launch, where shared granules allow only the form without a result, those are buffered lane by lane. -/
def Obligations.AtomicWord : Prop :=
  (∀ (w : FWord) (s s2 : State) (f : Focus) (e : Mask) (lanes : List LaneAddr) (info : List (Option Nat × ItinInfo)), (Instr.atom w).WellFormed →
    Issues s f w.hdr [(w.x, 2), (w.y, if atomIsPair (atomOp w) (atomMmrg w) then 2 else 1), (w.z, 1), (w.d, 1)] [w.d] e →
    let c := s.convoy f.convoy
    let as := laneAddrs c e w.x (.sp 0x3F)
    Reached s f (atomSize (atomOp w)) true true as (fun s1 =>
        if !w.d.isNone && lanes.any (sharedAt s1 c) then .bad causeCANONRET 0 0
        else orderWord s1 f.convoy { kind := 3, tag := (tagOf c w.z).getD 0, opcode := atomOpByte (atomOp w).toNat (atomMmrg w), cls := atomClass (atomOp w).toNat }
          e (isConvoyBase w.x) as) s2 lanes info →
    quotaCause s2 c lanes = none →
    ∃ t added, exec (.atom w) s = .next t ∧ Sent s2 t f w.hdr e [.accesses, .caches, .launches, .blocks] (issueNumber s f) ∧
      t.accesses = s2.accesses ++ added ∧
      ((added.map fun (a : Access) => (a.lanes, a.va, a.pa, a.kind)) = ((groupLanes lanes lanes).filter fun g => !sharedAt s2 c g.2).map fun g =>
        (g.1, g.2.va, g.2.pa, AccKind.atom (atomOp w) (atomMmrg w) (g.1.map (atomOperand s c (atomOp w) (atomMmrg w) w.y)) (if w.d.isNone then none else some w.d))) ∧
      (∀ a ∈ added, a.convoy = f.convoy ∧ a.core = f.core ∧ a.number = issueNumber s f ∧ a.size = (if atomOp w = 15 then 16 else 4) ∧
        a.acq = (w.scope != 0) ∧ a.rel = (w.scope != 0) ∧ a.scope = w.scope.toNat ∧ a.phase = .sent ∧ a.itin = itinOf info a.lanes) ∧
      (((t.launchOf c).buffer.map fun (b : Buffered) => (b.lane, b.pa, b.kind)) =
        ((s2.launchOf c).buffer.map fun (b : Buffered) => (b.lane, b.pa, b.kind)) ++
        ((groupLanes lanes lanes).filter fun g => sharedAt s2 c g.2).flatMap fun g => g.1.map fun l =>
          (l, g.2.pa, AccKind.atom (atomOp w) (atomMmrg w) [atomOperand s c (atomOp w) (atomMmrg w) w.y l] none)) ∧
      (isCanonical (s2.launchOf c) = false → t.launches = s2.launches ∧ t.blocks = s2.blocks)) ∧
  (∀ lanes : List LaneAddr, ((groupLanes lanes lanes).flatMap Prod.fst).Perm (lanes.map LaneAddr.lane) ∧
    ∀ g ∈ groupLanes lanes lanes, g.2 ∈ lanes ∧
      ((∀ a ∈ lanes, a.pa = g.2.pa → a.va = g.2.va) → g.1 = (lanes.filter fun a => a.pa == g.2.pa).map LaneAddr.lane) ∧
      ((∃ a ∈ lanes, a.pa = g.2.pa ∧ a.va ≠ g.2.va) → g.1 = [g.2.lane]))

/-- LDL, STL and ATOML (R73, R74, R93, R271, R272, R274): with every lane's bytes in the allocation and no armed barrier object under a write, every lane loads its bytes; the lanes store in ascending order; and atomics take one step for each lane in ascending order, each seeing what the one before it left. Global memory is untouched. The model's own readings that it rests on: assumption log 20. -/
def Obligations.LocalWords : Prop :=
  ∀ (w : FWord) (s : State) (f : Focus) (e : Mask),
    let c := s.convoy f.convoy
    let n := accessSize w
    let at_ := laneOffs c e w.x w.y
    ((Instr.ldl w).WellFormed → Issues s f w.hdr [(w.x, 1), (w.y, 1), (w.d, regsOfSize n)] [w.d] e →
      localCause (lsOf s c) (s.blockOf c).size n true false at_ = none →
      ∃ t, exec (.ldl w) s = .next t ∧ Completed s t f e (partsOf w.d (regsOfSize n)) ∧
        HoldsLoaded (t.convoy f.convoy) e w.d n (w.bit 3) fun l => memRead (lsOf s c).mem (localOff c w.x w.y l) n) ∧
    ((Instr.stl w).WellFormed → Issues s f w.hdr [(w.x, 1), (w.y, 1), (w.z, regsOfSize n)] [] e →
      localCause (lsOf s c) (s.blockOf c).size n false true at_ = none →
      ∃ t, exec (.stl w) s = .next t ∧ Completed s t f e [.stores, .blocks] ∧ OnlyLocal s t c ∧
        Stored (lsOf s c).mem (lsOf t c).mem n at_ (storeBytes s c n w.z)) ∧
    ((Instr.atoml w).WellFormed → Issues s f w.hdr [(w.x, 1), (w.y, if atomIsPair (atomOp w) (atomMmrg w) then 2 else 1), (w.d, 1)] [w.d] e →
      let lanes := laneOffs c e w.x (.sp 0x3F)
      localCause (lsOf s c) (s.blockOf c).size (atomSize (atomOp w)) true true lanes = none →
      ∃ (t : State) (m : Nat → Memory), exec (.atoml w) s = .next t ∧ Completed s t f e (partsOf w.d 1 ++ [.stores, .blocks]) ∧ OnlyLocal s t c ∧
        m 0 = (lsOf s c).mem ∧ m lanes.length = (lsOf t c).mem ∧
        ∀ (k l off : Nat), lanes[k]? = some (l, off) →
          m (k + 1) = memWrite (m k) off (atomApply (atomOp w) (atomMmrg w) (memRead (m k) off (atomSize (atomOp w)))
            (atomOperand s c (atomOp w) (atomMmrg w) w.y l)) ∧
          (w.d.isNone = false → HoldsLoaded (t.convoy f.convoy) (laneBit l) w.d (atomSize (atomOp w)) false fun _ => memRead (m k) off (atomSize (atomOp w))))

/-- MLD and MST (R266): 16 bytes for each lane, in memory order, from and to local store, or as loads and stores of global memory. -/
def Obligations.MomentMemoryWords : Prop :=
  ∀ (w : FWord) (s s1 : State) (f : Focus) (e : Mask) (lanes : List LaneAddr),
    let c := s.convoy f.convoy
    let at_ := laneOffs c e w.x w.y
    let as := (lanesOf c.width e).map fun l => (l, (baseOf c l w.x + dispOf c 16 w.y).toNat)
    ((Instr.mld w).WellFormed → w.bit 0 = true → Issues s f w.hdr [(w.x, 1), (w.y, 1), (w.d, 1)] [w.d] e →
      localCause (lsOf s c) (s.blockOf c).size 16 true false at_ = none →
      ∃ t, exec (.mld w) s = .next t ∧ Completed s t f e (partsOf w.d 1) ∧
        HoldsMoment (t.convoy f.convoy) e w.d fun l => momentOf (memRead (lsOf s c).mem (localOff c w.x w.y l) 16)) ∧
    ((Instr.mst w).WellFormed → w.bit 0 = true → Issues s f w.hdr [(w.x, 1), (w.y, 1), (w.z, 1)] [] e →
      localCause (lsOf s c) (s.blockOf c).size 16 false true at_ = none →
      ∃ t, exec (.mst w) s = .next t ∧ Completed s t f e [.stores, .blocks] ∧ OnlyLocal s t c ∧
        Stored (lsOf s c).mem (lsOf t c).mem 16 at_ fun l => momentBytes (readMom c l w.z)) ∧
    ((Instr.mld w).WellFormed → w.bit 0 = false → Issues s f w.hdr [(w.x, 2), (w.y, 1), (w.d, 1)] [w.d] e →
      Reached s f 16 true false as (fun s1 => .ok s1 []) s1 lanes [] →
      ∃ t added, exec (.mld w) s = .next t ∧ Completed s1 t f e [.accesses, .views] ∧ t.accesses = s1.accesses ++ added ∧
        ((added.map fun (a : Access) => (a.lanes, a.va, a.pa, a.size, a.kind)) =
          if w.d.isG then (lanes.take 1).map fun a => (lanes.map LaneAddr.lane, a.va, a.pa, 16, AccKind.load w.d 16 false)
          else lanes.map fun a => ([a.lane], a.va, a.pa, 16, AccKind.load w.d 16 false))) ∧
    ((Instr.mst w).WellFormed → w.bit 0 = false → Issues s f w.hdr [(w.x, 2), (w.y, 1), (w.z, 1)] [] e →
      Reached s f 16 false true as (fun s1 => .ok s1 []) s1 lanes [] → quotaCause s1 c lanes = none →
      ∃ t added, exec (.mst w) s = .next t ∧ Completed s1 t f e [.accesses, .caches, .launches, .blocks] ∧ t.accesses = s1.accesses ++ added ∧
        (added.map fun (a : Access) => (a.lanes, a.va, a.pa, a.size, a.kind)) = (lanes.filter fun a => !sharedAt s1 c a).map fun a =>
          ([a.lane], a.va, a.pa, 16, AccKind.store (momentBytes (readMom c a.lane w.z))))

/-- PREF and FENCE (R95, R275, R278): PREF only sends fills for lanes of E, and changes no bit of memory but bit 46 (A) of the leaves of their pages; FENCE completes once everything before it is acknowledged at its scope, and then bounds later reads by the instant. -/
def Obligations.PrefetchAndFence : Prop :=
  ∀ (w : FWord) (s : State) (f : Focus) (e : Mask),
    let c := s.convoy f.convoy
    ((Instr.pref w).WellFormed → Issues s f w.hdr [(w.x, 2), (w.y, 1)] [] e →
      ∃ t added, exec (.pref w) s = .next t ∧ Completed s t f e [.accesses, .memory, .caches] ∧ t.accesses = s.accesses ++ added ∧
        LeafBits s t (convoyReq s c false) (laneAddrs c e w.x w.y) ∧ t.memErrs = s.memErrs ∧
        ∀ a ∈ added, a.kind = .fill (w.bit 0) ∧ a.phase = .sent ∧ ∃ l, l < c.width ∧ e.getLsbD l = true ∧ a.lanes = [l] ∧ a.va = globalAddr c w.x w.y l) ∧
    ((Instr.fence w).WellFormed → Issues s f w.hdr [] [] e →
      (scopeActs (s.launchOf c) w.scope.toNat = true → ∀ b ∈ s.accesses, b.number < issueNumber s f →
        ¬ (b.core = f.core ∧ b.seq = seqOf f.slot ∧ b.isWrite = true) ∧ ¬ (b.convoy = f.convoy ∧ b.isRead = true)) →
      ∃ t, exec (.fence w) s = .next t ∧ Completed s t f e [.views] ∧
        (scopeActs (s.launchOf c) w.scope.toNat = true → s.steps ≤ (t.convoy f.convoy).bound ∧ c.bound ≤ (t.convoy f.convoy).bound ∧
          (4 ≤ w.scope.toNat → s.steps ≤ (t.convoy f.convoy).domBound)))

/-- MWAIT and WAITSTAMP (R107, R276, R277), and MWAIT_REREAD: where the word read meets the condition, the word completes with D the value read; where it does not, its lanes are held and the word is tested again. The model's own readings that it rests on: assumption logs 26, 29. -/
def Obligations.WaitWords : Prop :=
  (∀ (w : FWord) (s s1 : State) (f : Focus) (e : Mask) (bs : List Byte) (at_ : LaneAddr), (Instr.mwait w).WellFormed →
    Issues s f w.hdr [(w.x, 2), (w.y, 1), (w.z, 1), (w.d, 1)] [w.d] e → waitRead s f (s.convoy f.convoy) e w.x (w.bit 7) = .ok s1 bs at_ →
    (w.bit 7 = false → sharedAt s1 (s.convoy f.convoy) at_ = false) →
    let v : W64 := BitVec.ofNat 64 (leNat bs)
    let x := if w.z.isNone then v else v &&& readU s (s.convoy f.convoy) w.z
    (intCond (w.fld 0 4) x (readU s (s.convoy f.convoy) w.y) = true →
      ∃ t, exec (.mwait w) s = .next t ∧ Completed s1 t f e (partsOf w.d 1 ++ [.views]) ∧ Holds64 (t.convoy f.convoy) e w.d fun _ => v) ∧
    (intCond (w.fld 0 4) x (readU s (s.convoy f.convoy) w.y) = false →
      ∃ t, exec (.mwait w) s = .next t ∧ Holding s1 t f w.hdr [] [(e, .retry (.mwait w))])) ∧
  (∀ (w : FWord) (s s1 : State) (f : Focus) (e : Mask) (bs : List Byte) (at_ : LaneAddr), (Instr.waitstamp w).WellFormed →
    Issues s f w.hdr [(w.x, 2), (w.y, 1), (w.d, 1)] [w.d] e → waitRead s f (s.convoy f.convoy) e w.x (w.bit 0) = .ok s1 bs at_ →
    let v : W64 := BitVec.ofNat 64 (leNat bs)
    let ahead := (v.toNat % 2 ^ 56 + 2 ^ 56 - (readU s (s.convoy f.convoy) w.y).toNat % 2 ^ 56) % 2 ^ 56
    (ahead < 2 ^ 55 → v.toNat / 2 ^ 56 ≠ 3 →
      ∃ t, exec (.waitstamp w) s = .next t ∧ Completed s1 t f e (partsOf w.d 1 ++ [.views]) ∧ Holds64 (t.convoy f.convoy) e w.d fun _ => v) ∧
    (2 ^ 55 ≤ ahead → ∃ t, exec (.waitstamp w) s = .next t ∧ Holding s1 t f w.hdr [] [(e, .retry (.waitstamp w))])) ∧
  (∀ (n : Nat) (w : FWord) (s s1 : State) (h : Hold) (bs : List Byte) (at_ : LaneAddr), (Instr.mwait w).WellFormed → s.sound = true →
    h ∈ (s.convoy n).holds → h.kind = .retry (.mwait w) → w.bit 7 = false → (∀ k ∈ (s.convoy n).holds, (mwaitWord k).isSome = true → k = h) →
    waitRead s { core := (s.convoy n).core, slot := (s.convoy n).slot, convoy := n, active := h.lanes, addr := h.pc } (s.convoy n)
      (execSet w.hdr (s.convoy n) h.lanes) w.x false = .ok s1 bs at_ →
    let v : W64 := BitVec.ofNat 64 (leNat bs)
    ∃ t, exec (.mwaitReread n) s = .next t ∧
      (mwaitTrue s (s.convoy n) w v = true → Holds64 (t.convoy n) h.lanes w.d (fun _ => v) ∧ Released s1 t n (fun k => k == h)) ∧
      (mwaitTrue s (s.convoy n) w v = false → t = s1))

/-- BARINIT, BAR, BARARV and BARWT (R75 to R77, R79, R279), for an object inside the allocation and a mask of the block's convoys: BARINIT writes the mask into an object with no arrivals; the arrival of BAR and BARARV sets the convoy's bit, and the one that completes the member set clears the arrivals, advances the generation and releases every waiter of the generation; BAR holds otherwise, and BARWT holds while the object shows its generation. Every word marks the object, and no other byte changes. The model's own readings that it rests on: assumption log 20. -/
def Obligations.BarrierWords : Prop :=
  ∀ (w : FWord) (s : State) (f : Focus) (e : Mask), Issues s f w.hdr [(w.x, 1), (w.y, 1), (w.z, 1), (w.d, 1)] [w.d] e →
    e = (s.convoy f.convoy).live →
    let c := s.convoy f.convoy
    let off := ((baseOf c 0 w.x).setWidth 32).toNat
    let m : BitVec 16 := (readU s c w.y).setWidth 16
    let old : W64 := (s.blockOf c).ls.word off
    let arrived : BitVec 16 := objArrived old ||| BitVec.ofNat 16 (2 ^ c.index)
    let gen := objGen old
    let puts : State → W64 → Prop := fun t v =>
      (t.blockOf c).ls.word off = v ∧ off ∈ (t.blockOf c).ls.marks ∧ (∀ b, b ≠ c.block → t.block b = s.block b) ∧
      (t.blockOf c).ls2 = (s.blockOf c).ls2 ∧ ∀ a, a < off ∨ off + 8 ≤ a → memGet (t.blockOf c).ls.mem a = memGet (s.blockOf c).ls.mem a
    off % 8 = 0 → off + 8 ≤ (s.blockOf c).size → m ≠ 0 → m &&& ~~~ blockMembers (s.blockOf c) = 0 →
    (∀ x ∈ (s.blockOf c).ls.errs, ¬ (off ≤ x ∧ x < off + 8)) →
    ((Instr.barinit w).WellFormed →
      (objArrived old = 0 → ∃ t, exec (.barinit w) s = .next t ∧ Completed s t f e [.stores, .blocks] ∧ puts t (m ++ 0#16 ++ 0#16 ++ 0#16)) ∧
      (objArrived old ≠ 0 → objMember old = m → ∃ t, exec (.barinit w) s = .next t ∧ Completed s t f e [.blocks] ∧ puts t old)) ∧
    (objMember old = m → m.getLsbD c.index = true → c.index < 16 →
      (releaseMustWait s f c 1 = false → (objArrived old).getLsbD c.index = false → NoHold c (fun h => h.kind == .bar off gen) →
        (s.launchOf c).recording = false →
        (arrived ≠ m →
          ((Instr.bar w).WellFormed → ∃ t, exec (.bar w) s = .next t ∧ Holding s t f w.hdr [.stores, .blocks] [(e, .bar off gen)] ∧
            puts t (m ++ arrived ++ gen ++ 0#16)) ∧
          ((Instr.bararv w).WellFormed → ∃ t, exec (.bararv w) s = .next t ∧ Completed s t f e (partsOf w.d 1 ++ [.stores, .blocks]) ∧
            puts t (m ++ arrived ++ gen ++ 0#16) ∧ Holds64 (t.convoy f.convoy) e w.d fun _ => gen.setWidth 64)) ∧
        (arrived = m →
          let freed : State → Prop := fun t => ∀ j ∈ (s.blockOf c).convoys, j ≠ f.convoy → Released s t j fun h => h.kind == .bar off gen
          ((Instr.bar w).WellFormed → ∃ t, exec (.bar w) s = .next t ∧ Completed s t f e [.stores, .blocks, .views, .others] ∧
            puts t (m ++ 0#16 ++ (gen + 1) ++ 0#16) ∧ freed t) ∧
          ((Instr.bararv w).WellFormed → ∃ t, exec (.bararv w) s = .next t ∧ Completed s t f e (partsOf w.d 1 ++ [.stores, .blocks, .others]) ∧
            puts t (m ++ 0#16 ++ (gen + 1) ++ 0#16) ∧ freed t ∧ Holds64 (t.convoy f.convoy) e w.d fun _ => gen.setWidth 64))) ∧
      ((Instr.barwt w).WellFormed →
        (gen = (readU s c w.z).setWidth 16 → ∃ t, exec (.barwt w) s = .next t ∧ Holding s t f w.hdr [.blocks] [(e, .bar off gen)] ∧ puts t old) ∧
        (gen ≠ (readU s c w.z).setWidth 16 → ∃ t, exec (.barwt w) s = .next t ∧ Completed s t f e [.blocks, .views] ∧ puts t old)))

/-- BARL (R80, R280): with no named lane in E it does nothing; the lanes named hold until the last of them that is live has arrived, and then all go on together. -/
def Obligations.LaneBarrier : Prop :=
  ∀ (w : FWord) (s : State) (f : Focus) (e : Mask), (Instr.barl w).WellFormed → Issues s f w.hdr [(w.x, 1)] [] e →
    let c := s.convoy f.convoy
    let k := readK c f.active w.x &&& c.live
    releaseMustWait s f c 1 = false → backEdge c f.addr = none →
    (c.barl = none → NoHold c (fun h => h.kind == .barl) →
      (e &&& k = 0 → ∃ t, exec (.barl w) s = .next t ∧ Completed s t f e []) ∧
      (e &&& k ≠ 0 → k &&& ~~~ e = 0 → ∃ t, exec (.barl w) s = .next t ∧ Completed s t f e [.views]) ∧
      (e &&& k ≠ 0 → k &&& ~~~ e ≠ 0 → ∃ t, exec (.barl w) s = .next t ∧ Holding s t f w.hdr [.barl] [(e &&& k, .barl)] ∧
        (t.convoy f.convoy).barl = some { addr := f.addr, mask := k, arrived := e &&& k })) ∧
    (∀ b, c.barl = some b → b.addr = f.addr → k = b.mask &&& c.live → e &&& b.mask ≠ 0 →
      (b.mask &&& c.live &&& ~~~ (b.arrived ||| e) ≠ 0 → ∃ t, exec (.barl w) s = .next t ∧ Holding s t f w.hdr [.barl] [(e &&& b.mask, .barl)] ∧
        (t.convoy f.convoy).barl = some { addr := b.addr, mask := b.mask, arrived := b.arrived ||| (e &&& b.mask) }) ∧
      (b.mask &&& c.live &&& ~~~ (b.arrived ||| e) = 0 → (∀ h ∈ c.holds, h.kind = .barl → h.pc = f.addr) →
        (∀ h ∈ c.rvHolds ++ c.hrvHolds, h.kind ≠ .barl) →
        ∃ t, exec (.barl w) s = .next t ∧ (∀ p, p ∉ [Part.holds, .barl, .views] → Same s t f p) ∧
          (t.convoy f.convoy).barl = none ∧ (t.convoy f.convoy).holds = c.holds.filter (fun h => !(h.kind == .barl)) ∧
          ∀ l, l < c.width → ((t.convoy f.convoy).lane l).pc =
            if f.active.getLsbD l || c.holds.any (fun h => h.kind == .barl && h.lanes.getLsbD l) then f.addr.next else (c.lane l).pc))

/-- CROSS (R157, R281), outside recordings and CANONICAL launches: while another convoy of the launch has neither arrived nor ended, or a block is still to be placed, the convoy holds; the last arrival completes the crossing, which releases every convoy that holds for it. -/
def Obligations.CrossWord : Prop :=
  ∀ (w : FWord) (s : State) (f : Focus) (e : Mask), (Instr.cross w).WellFormed → Issues s f w.hdr [] [] e → e = (s.convoy f.convoy).live →
    let c := s.convoy f.convoy
    let cross : Hold → Bool := fun h => h.kind == .cross
    (s.launchOf c).rec_.allResident = true → releaseMustWait s f c 3 = false → (s.launchOf c).recording = false → (s.launchOf c).crossSlot = none →
    (s.launchOf c).rec_.mode = 0 → NoHold c cross →
    ((hasPending (s.launchOf c) = true ∨ ∃ j, j ≠ f.convoy ∧ j < s.convoys.length ∧ (s.convoy j).launch = c.launch ∧ (s.convoy j).ended = false ∧
        NoHold (s.convoy j) cross) →
      ∃ t, exec (.cross w) s = .next t ∧ Holding s t f w.hdr [] [(e, .cross)]) ∧
    (hasPending (s.launchOf c) = false → backEdge c f.addr = none →
      (∀ j, j ≠ f.convoy → j < s.convoys.length → (s.convoy j).launch = c.launch → (s.convoy j).ended = true ∨ ¬ NoHold (s.convoy j) cross) →
      ∃ t, exec (.cross w) s = .next t ∧ (∀ p, p ∉ [Part.views, .launches, .blocks, .others] → Same s t f p) ∧
        (t.launchOf c).crossings = (s.launchOf c).crossings + 1 ∧
        (∀ j, j ≠ f.convoy → j < s.convoys.length → (s.convoy j).launch = c.launch → Released s t j cross) ∧
        ∀ l, l < c.width → ((t.convoy f.convoy).lane l).pc = if e.getLsbD l then f.addr.next else (c.lane l).pc)

/-- The commit of an interval of a CANONICAL launch (R156 to R158, R281): when a crossing is complete, the buffered accesses take their effect on memory one after the other, in rising order of block, convoy, lane, issue order and element, and none is lost; the next interval begins with an empty buffer, with memory as its snapshot and with every count of the interval at 0, and every convoy that holds for the crossing goes on. The CROSS of the last convoy to arrive has this effect and goes on itself, as has the EXIT of the last lanes of the last convoy that the others wait for; a CROSS before it holds. Outside recordings, with every home free to perform what goes there, and with what a buffered release follows performed (R95, R272, R274).The model's own readings that it rests on: assumption log 26. -/
def Obligations.CommitOrder : Prop :=
  (∀ l : List Buffered, (commitOrder l).Perm l ∧ (commitOrder l).Pairwise (fun a b => listLt b.place a.place = false)) ∧
  (∀ (s : State) (li : Nat), li < s.launches.length → isCanonical (s.launch li) = true → crossComplete s li = true → (s.launch li).crossSlot = none →
    (∀ x ∈ (s.launch li).buffer, homeBusy s x.pa = false) →
    Committed s (finishCrossing s li) li ∧
    ∀ j, j < s.convoys.length → (s.convoy j).launch = li → Released s (finishCrossing s li) j fun h => h.kind == .cross) ∧
  ∀ (w : FWord) (x : CWord) (s : State) (f : Focus) (e : Mask),
    let c := s.convoy f.convoy
    let l := s.launchOf c
    let cross : Hold → Bool := fun h => h.kind == .cross
    let here : Nat → Prop := fun j => j ≠ f.convoy ∧ j < s.convoys.length ∧ (s.convoy j).launch = c.launch
    isCanonical l = true → c.launch < s.launches.length → l.recording = false → l.crossSlot = none → NoHold c cross → backEdge c f.addr = none →
    ((Instr.cross w).WellFormed → Issues s f w.hdr [] [] e → l.rec_.allResident = true → e = c.live → (∃ j, here j ∧ (s.convoy j).ended = false ∧ NoHold (s.convoy j) cross) →
      ∃ t, exec (.cross w) s = .next t ∧ Holding s t f w.hdr [] [(e, .cross)]) ∧
    (hasPending l = false → (∀ j, here j → (s.convoy j).ended = true ∨ ¬ NoHold (s.convoy j) cross) →
      (∀ x ∈ l.buffer, homeBusy s x.pa = false ∧ paMapped s x.pa = true ∧ (∀ op mmrg v d, x.kind = .atom op mmrg v d → s.memBad x.pa (atomSize op) = false) ∧
        (x.sender.rel = true → ∀ a ∈ s.accesses, a.number < x.sender.number →
          ¬ (a.core = x.sender.core ∧ a.seq = x.sender.seq ∧ a.isWrite = true) ∧ ¬ (a.convoy = x.sender.convoy ∧ a.isRead = true))) →
      (∀ a ∈ s.accesses, a.launch = c.launch → a.isWrite = true → a.unperformed = false) →
      ((Instr.cross w).WellFormed → Issues s f w.hdr [] [] e → l.rec_.allResident = true → e = c.live →
        ∃ t, exec (.cross w) s = .next t ∧ (∀ p, p ∉ [Part.memory, .caches, .views, .launches, .blocks, .others] → Same s t f p) ∧
          Committed s t c.launch ∧ (∀ j, here j → Released s t j cross) ∧
          ∀ k, k < c.width → ((t.convoy f.convoy).lane k).pc = if e.getLsbD k then f.addr.next else (c.lane k).pc) ∧
      ((Instr.exit x).WellFormed → Issues s f x.hdr [] [] e → c.live &&& ~~~ e = 0 → c.barl = none → (s.blockOf c).kind = .ordinary →
        (s.blockOf c).launch = c.launch → (∃ j, here j ∧ ¬ NoHold (s.convoy j) cross) →
        ∃ t, exec (.exit x) s = .next t ∧ (t.convoy f.convoy).ended = true ∧ Committed s t c.launch ∧ ∀ j, here j → Released s t j cross))

/-- WAITEV and SETEV (R282, R336): WAITEV passes where the event is set; where it is not, its lanes hold, the lowest of them in the hardware entries that are left of the 4,096 and the others in the memory-backed list, and with no room there it raises EVOVF. SETEV sets the event, releases every other convoy's waiters of the hardware entries at once and has the waiters in the list scanned for, each of which the scan then releases; or it clears the event. The model's own readings that it rests on: assumption log 26. -/
def Obligations.EventWords : Prop :=
  ∀ (w : FWord) (s : State) (f : Focus) (e : Mask), Issues s f w.hdr [(w.x, 1)] [] e →
    let c := s.convoy f.convoy
    let ev : BitVec 16 := (readU s c w.x).setWidth 16
    let lanes := lanesOf c.width e
    let room := 4096 - waitEntries s false
    ((Instr.waitev w).WellFormed →
      (ev.toNat ∈ s.hub.events → ∃ t, exec (.waitev w) s = .next t ∧ Completed s t f e [.views]) ∧
      (ev.toNat ∉ s.hub.events → waitEntries s true + (lanes.length - room) ≤ s.hub.waitListSize →
        ∃ t, exec (.waitev w) s = .next t ∧ Holding s t f w.hdr []
          ((if room = 0 then [] else [(maskOf (lanes.take room), .waitev ev w.scope.toNat none)]) ++
           (if lanes.length ≤ room then [] else [(maskOf (lanes.drop room), .waitev ev w.scope.toNat (some s.steps))]))) ∧
      (ev.toNat ∉ s.hub.events → s.hub.waitListSize < waitEntries s true + (lanes.length - room) → c.priv < 2 →
        ∃ t, exec (.waitev w) s = .next t ∧ TrapTaken s t f causeEVOVF f.addr e 0)) ∧
    ((Instr.setev w).WellFormed → w.bit 0 = true → ∃ t, exec (.setev w) s = .next t ∧ Completed s t f e [.hub] ∧
      ∀ x, x ∈ t.hub.events ↔ x ∈ s.hub.events ∧ x ≠ ev.toNat) ∧
    ((Instr.setev w).WellFormed → w.bit 0 = false → releaseMustWait s f c w.scope.toNat = false → NoHold c (waitsFor ev.toNat) →
      ∃ t, exec (.setev w) s = .next t ∧ Completed s t f e [.hub, .others] ∧
        (∀ x, x ∈ t.hub.events ↔ x ∈ s.hub.events ∨ x = ev.toNat) ∧
        (∀ j, j ≠ f.convoy → j < s.convoys.length → Released s t j (waitsFor ev.toNat)) ∧
        (∀ p ∈ s.hub.scans, p ∈ t.hub.scans) ∧
        ∀ j h sc k, j < s.convoys.length → h ∈ (s.convoy j).holds ++ (s.convoy j).rvHolds ++ (s.convoy j).hrvHolds → h.kind = .waitev ev sc (some k) →
          (j, k) ∈ t.hub.scans) ∧
    ∀ j k r, s.hub.scans = (j, k) :: r → (scanList s).hub.scans = r ∧ Released s (scanList s) j (spilledAt k)

/-- LAUNCH and LAUNCH_QUEUE_ENTRY (R283, R332): with the convoy's reads back and the 128 bytes of the record read, the word offers the record to its queue from the next cycle on; where the queue then has room and has taken no record, the record enters it and takes the next launch id, which D then holds, and the word is complete. Of several offers the earliest enters first, and of one cycle the one of the lowest core and then sequencer; into a full queue, and one that has taken a record in the cycle, none enters. The model's own readings that it rests on: assumption logs 27, 29, 44. -/
def Obligations.LaunchWord : Prop :=
  (∀ (w : FWord) (s s1 : State) (f : Focus) (e : Mask) (bs : List Byte) (at_ : LaneAddr), (Instr.launch w).WellFormed →
    Issues s f w.hdr [(w.x, 2), (w.y, 1), (w.d, 1)] [w.d] e → e = (s.convoy f.convoy).live →
    let c := s.convoy f.convoy
    let q := (readU s c w.y).toNat
    q ≤ 15 → s.hub.queues.length = 16 → readsClear s f.convoy = true → (w.bit 7 = true → releaseMustWait s f c w.scope.toNat = false) →
    readItem s f e (baseOf c 0 w.x).toNat 128 128 false = .ok s1 bs at_ →
    ∃ (t : State) (n : BitVec 6), w.d = .s n ∧ exec (.launch w) s = .next t ∧ Holding s1 t f w.hdr [] [(e, .launch bs q n.toNat (s.clock + 1))] ∧
      ∀ clock, s.clock < clock → (s.queue q).fifo.length < 64 → (s.queue q).entered ≠ some clock → backEdge c f.addr = none →
        (∀ h ∈ c.holds, ∀ r p d k, h.kind ≠ .launch r p d k) → (∀ j, j ≠ f.convoy → ∀ h ∈ (s.convoy j).holds, ∀ r d k, h.kind ≠ .launch r q d k) →
        ∃ v, exec (.launchQueueEntry f.convoy) { t with clock := clock } = .next v ∧ (v.convoy f.convoy).readS n.toNat = BitVec.ofNat 64 s.hub.nextId ∧
          v.hub.nextId = s.hub.nextId + 1 ∧ (v.convoy f.convoy).holds = c.holds ∧ (∀ p, p ≠ q → v.queue p = s.queue p) ∧
          ((v.queue q).fifo.map fun (x : FifoEntry) => (x.id, x.record)) = ((s.queue q).fifo.map fun (x : FifoEntry) => (x.id, x.record)) ++ [(s.hub.nextId, bs)] ∧
          ∀ l, l < c.width → ((v.convoy f.convoy).lane l).pc = if f.active.getLsbD l then f.addr.next else (c.lane l).pc) ∧
  (∀ (n q dest cycle : Nat) (s : State) (h : Hold) (record : List Byte), s.sound = true → n < s.convoys.length → h ∈ (s.convoy n).holds →
    h.kind = .launch record q dest cycle → (∀ k ∈ (s.convoy n).holds, ∀ r p d m, k.kind = .launch r p d m → k = h) → q < s.hub.queues.length → dest < 64 →
    (cycle ≤ s.clock → (s.queue q).fifo.length < 64 → (s.queue q).entered ≠ some s.clock →
      (∀ j, j ≠ n → ∀ k ∈ (s.convoy j).holds, ∀ r d m, k.kind = .launch r q d m → m ≤ s.clock →
        cycle < m ∨ (cycle = m ∧ 4 * (s.convoy n).core + seqOf (s.convoy n).slot < 4 * (s.convoy j).core + seqOf (s.convoy j).slot)) →
      ∃ t, exec (.launchQueueEntry n) s = .next t ∧ (t.convoy n).readS dest = BitVec.ofNat 64 s.hub.nextId ∧ t.hub.nextId = s.hub.nextId + 1 ∧
        ((t.queue q).fifo.map fun (x : FifoEntry) => (x.id, x.record)) = ((s.queue q).fifo.map fun (x : FifoEntry) => (x.id, x.record)) ++ [(s.hub.nextId, record)] ∧
        (t.queue q).entered = some s.clock ∧ Released s t n (fun k => k == h)) ∧
    ((64 ≤ (s.queue q).fifo.length ∨ (s.queue q).entered = some s.clock) → exec (.launchQueueEntry n) s = .next s))

/-- RSIG and RWAIT (R143, R144, R147, R148, R150, R284) in a REVERSE launch: bound to a CANONICAL recording they only order; in a FINE itinerary with a record for every actor, RSIG counts every actor down and signals the paired REL records, and RWAIT passes once every REL record is signalled, and holds while none is. The model's own readings that it rests on: assumption log 23. -/
def Obligations.ReverseWords : Prop :=
  ∀ (w : FWord) (s s1 : State) (f : Focus) (e : Mask) (lanes : List LaneAddr), Issues s f w.hdr [(w.x, 2), (w.z, 1)] [] e →
    let c := s.convoy f.convoy
    let as := reverseActors w.x lanes
    let tag := (tagOf c w.z).getD 0
    Reached s f 0 false false (laneAddrs c e w.x (.sp 0x3F)) (fun s1 => .ok s1 []) s1 lanes [] → (s.launchOf c).rec_.mode = 3 →
    let l := s1.launchOf c
    let b := s1.blockOf c
    ((Instr.rsig w).WellFormed → releaseMustWait s1 f c w.scope.toNat = false →
      (l.boundMode = 1 ∨ l.boundGrain = 1 → ∃ t, exec (.rsig w) s = .next t ∧ Completed s1 t f e []) ∧
      (l.boundMode ≠ 1 → l.boundGrain = 2 → (∀ a ∈ as, (revMatch l b c 2 tag a).isSome = true) →
        ∃ t, exec (.rsig w) s = .next t ∧ Completed s1 t f e [.occ, .launches] ∧
          (∀ a ∈ as, occGet (t.convoy f.convoy) a.1 tag = (revCount l b c a.1 tag + 2 ^ 32 - 1) % 2 ^ 32) ∧
          ∀ k, assoc (t.launchOf c).signalled k 0 = assoc l.signalled k 0 + (as.filter fun a =>
            ((revMatch l b c 2 tag a).bind fun r => (pairedRel l r).map fun q => relKey r.addr q) == some k).length)) ∧
    ((Instr.rwait w).WellFormed →
      (l.boundMode = 1 → ∃ t, exec (.rwait w) s = .next t ∧ Completed s1 t f e [.views]) ∧
      (l.boundMode ≠ 1 → l.boundGrain = 2 → (∀ a ∈ as, ∃ r, revMatch l b c 1 tag a = some r ∧ relSignalled l r = true) →
        ∃ t, exec (.rwait w) s = .next t ∧ Completed s1 t f e [.occ, .views] ∧
          ∀ a ∈ as, occGet (t.convoy f.convoy) a.1 tag = (revCount l b c a.1 tag + 2 ^ 32 - 1) % 2 ^ 32) ∧
      (l.boundMode ≠ 1 → l.boundGrain = 2 → (∀ a ∈ as, ∃ r, revMatch l b c 1 tag a = some r ∧ relSignalled l r = false) →
        ∃ t, exec (.rwait w) s = .next t ∧ Holding s1 t f w.hdr [] [(e, .retry (.rwait w))]))

/-- ORDRD and ORDWR (R145, R147, R148, R150, R285) in a REVERSE launch: ORDRD sends one load at the home for each actor whose turn the cursor of its address shows, and keeps its match; ORDWR sends the store that takes the cursor on, and gives the match up. Bound to a CANONICAL recording they load and store without a match. The model's own readings that it rests on: assumption log 23. -/
def Obligations.OrderedWords : Prop :=
  ∀ (w : FWord) (s s1 : State) (f : Focus) (e : Mask) (lanes : List LaneAddr),
    let c := s.convoy f.convoy
    let as := reverseActors w.x lanes
    let tag := (tagOf c w.z).getD 0
    let n := if w.bit 0 then 16 else 4
    let l := s1.launchOf c
    let b := s1.blockOf c
    let lanesBy : Option Nat → List Nat := fun a => match a with
      | none => lanesOf c.width e
      | some k => [k]
    let bytes : Nat → List Byte := fun k => if w.bit 0 then momentBytes (readMom c k w.y) else leBytes 4 (readW32 s c k w.y).toNat
    (s.launchOf c).rec_.mode = 3 →
    ((Instr.ordrd w).WellFormed → Issues s f w.hdr [(w.x, 2), (w.z, 1), (w.d, 1)] [w.d] e →
      Reached s f n true false (laneAddrs c e w.x (.sp 0x3F)) (fun s1 => .ok s1 []) s1 lanes [] →
      (l.boundMode = 1 ∨ (∀ a ∈ as, pendingMatch c a.1 = none ∧ ∃ p, ordMatch l b c (w.bit 0) tag a = some p ∧ cursorOf l a.2.va = p.1 + p.2 - 1)) →
      ∃ t added, exec (.ordrd w) s = .next t ∧ Completed s1 t f e [.accesses, .ord] ∧ t.accesses = s1.accesses ++ added ∧
        ((added.map fun (a : Access) => (a.lanes, a.va, a.pa, a.size, a.kind)) = as.map fun a =>
          (lanesBy a.1, a.2.va, a.2.pa, n, AccKind.load w.d n false)) ∧
        (∀ a ∈ added, a.acq = true ∧ a.home = true ∧ a.scope = w.scope.toNat ∧ a.phase = .sent) ∧
        (t.convoy f.convoy).ord = c.ord ++ (if l.boundMode = 1 then [] else as.filterMap fun a => (ordMatch l b c (w.bit 0) tag a).map fun p =>
          ({ lane := a.1, tag := tag, addr := a.2.va, position := p.1, count := p.2 } : OrdMatch))) ∧
    ((Instr.ordwr w).WellFormed → Issues s f w.hdr [(w.x, 2), (w.y, 1), (w.z, 1)] [] e →
      Reached s f n false true (laneAddrs c e w.x (.sp 0x3F)) (fun s1 => .ok s1 []) s1 lanes [] →
      (l.boundMode = 1 ∨ (l.boundGrain = 2 ∧ (∀ a ∈ as, ∃ m r, pendingMatch c a.1 = some m ∧ m.addr = a.2.va ∧ revMatch l b c 3 tag a = some r ∧
        isMomentOp r = w.bit 0 ∧ r.seqpos = m.position)) ∨ (l.boundGrain = 1 ∧ ∀ a ∈ as, ∃ m, pendingMatch c a.1 = some m ∧ m.addr = a.2.va)) →
      ∃ t added, exec (.ordwr w) s = .next t ∧ Completed s1 t f e [.accesses, .caches, .ord, .occ] ∧ t.accesses = s1.accesses ++ added ∧
        ((added.map fun (a : Access) => (a.lanes, a.va, a.pa, a.size, a.kind)) = as.map fun a =>
          (lanesBy a.1, a.2.va, a.2.pa, n, AccKind.store (bytes ((lanesBy a.1).headD 0)))) ∧
        (∀ a ∈ added, a.rel = true ∧ a.scope = w.scope.toNat ∧ a.phase = .sent) ∧
        (l.boundMode ≠ 1 → ∀ a ∈ as, pendingMatch (t.convoy f.convoy) a.1 = none ∧
          occGet (t.convoy f.convoy) a.1 tag = if l.boundGrain = 2 then (revCount l b c a.1 tag + 2 ^ 32 - 1) % 2 ^ 32 else occGet c a.1 tag))

/-- ITQ, RAND, MILE and BCCR (R30, R59, R135, R143, R286 to R288, R294): ITQ reads an occurrence counter, a reverse cursor or the itinerary's address; RAND gives every lane its Philox word and counts the draw; MILE counts its occurrence, up, or down in a REVERSE launch, and where it records it writes a record of 32 bytes into the slot that it has reserved for each actor, and no other byte of memory, where the slots have homes of their own; BCCR reads the bank-conflict counter and clears it. The model's own readings that it rests on: assumption log 23. -/
def Obligations.QueryWords : Prop :=
  ∀ (w : FWord) (s : State) (f : Focus) (e : Mask),
    let c := s.convoy f.convoy
    let l := s.launchOf c
    let b := s.blockOf c
    ((Instr.itq w).WellFormed → Issues s f w.hdr [(w.x, 2), (w.z, 1), (w.d, 1)] [w.d] e →
      (w.fld 0 2 = 1 → l.rec_.mode = 3) →
      let occ : Option Nat → W64 := fun a => BitVec.ofNat 64 (if l.rec_.mode = 3 then revCount l b c a ((tagOf c w.z).getD 0) else occGet c a ((tagOf c w.z).getD 0))
      ∃ t, exec (.itq w) s = .next t ∧ Completed s t f e (partsOf w.d 1) ∧
        (w.fld 0 2 = 0 → w.d.isSReg = true → Holds64 (t.convoy f.convoy) e w.d fun _ => occ none) ∧
        (w.fld 0 2 = 0 → w.d.isSReg = false → Holds32 (t.convoy f.convoy) e w.d fun k => (occ (some k)).setWidth 32) ∧
        (w.fld 0 2 = 1 → Holds64 (t.convoy f.convoy) e w.d fun _ => BitVec.ofNat 64 (if l.boundMode = 1 then 0 else cursorOf l (baseOf c 0 w.x).toNat)) ∧
        (w.fld 0 2 = 2 → Holds64 (t.convoy f.convoy) e w.d fun _ => BitVec.ofNat 64 l.rec_.itin)) ∧
    ((Instr.rand w).WellFormed → Issues s f w.hdr [(w.d, 1)] [w.d] e →
      ∃ t, exec (.rand w) s = .next t ∧ Completed s t f e (partsOf w.d 1 ++ [.draws]) ∧
        Holds32 (t.convoy f.convoy) e w.d (fun k => philox0 l.key (BitVec.ofNat 32 b.index) (BitVec.ofNat 32 (c.index * c.width + k))
          (BitVec.ofNat 32 (c.lane k).draw.toNat) (BitVec.ofNat 32 ((c.lane k).draw.toNat / 2 ^ 32))) ∧
        ∀ k, k < c.width → e.getLsbD k = true → ((t.convoy f.convoy).lane k).draw = (c.lane k).draw + 1) ∧
    ((Instr.mile w).WellFormed → Issues s f w.hdr [(w.x, 1), (w.y, 1)] [] e →
      let tag := (tagOf c w.x).getD 0
      let as := actorsOf c e (!w.y.isV)
      let up : Option Nat → Nat := fun a => occGet c a tag + 1
      let down : Option Nat → Nat := fun a => revCount l b c a tag
      (l.rec_.mode ≠ 3 → ∀ a ∈ as, up a < 2 ^ 32) →
      (l.rec_.mode = 2 ∨ l.rec_.mode = 3 → l.boundMode = 1 ∨ l.boundGrain = 0 ∨ ∀ a ∈ as, ∃ r,
        findRecord l b.index c.index a tag.toNat (if l.rec_.mode = 3 then down a else up a) 7 = some r ∧ r.extra = (readW32 s c (a.getD 0) w.y).toNat) →
      (l.recording = true → l.rec_.mode < 2 ∧ (l.rec_.grain ≠ 0 → ∃ slots, reserveSlots s l as.length = .ok slots)) →
      let records := l.recording && l.rec_.grain != 0
      ∃ t, exec (.mile w) s = .next t ∧ Completed s t f e (if records then [.occ, .launches, .memory, .caches, .hub] else [.occ]) ∧
        (∀ a ∈ as, occGet (t.convoy f.convoy) a tag = if l.rec_.mode = 3 then (down a + 2 ^ 32 - 1) % 2 ^ 32 else up a) ∧
        (records = true → c.launch < s.launches.length → (t.launchOf c).reserved = l.reserved + as.length ∧ (∀ j, j ≠ c.launch → t.launch j = s.launch j) ∧
          ∀ (slots pas : List Nat), reserveSlots s l as.length = .ok slots → pas.length = slots.length →
            pas.Pairwise (fun p q => p + 32 ≤ q ∨ q + 32 ≤ p) → (∀ p ∈ pas, paIsHost p = false) →
            (∀ (u : State) (i p a : Nat), u.hub = s.hub → (∀ x ∈ u.memErrs, x ∈ s.memErrs) →
              (∀ a, (∀ p ∈ pas, ¬ (p ≤ a ∧ a < p + 32)) → memGet u.mem a = memGet s.mem a) →
              pas[i]? = some p → slots[i]? = some a → deviceXlate u l.queue a true = .inr p) →
            (∀ a, (∀ p ∈ pas, ¬ (p ≤ a ∧ a < p + 32)) → memGet t.mem a = memGet s.mem a) ∧
            ∀ (i p : Nat) (a : Option Nat), pas[i]? = some p → as[i]? = some a → memRead t.mem p 32 =
              leBytes 8 0 ++ leBytes 4 0 ++ leBytes 4 b.index ++ leBytes 1 c.index ++ leBytes 1 (a.getD 0xFF) ++ leBytes 2 tag.toNat ++
              leBytes 4 (up a) ++ leBytes 1 7 ++ leBytes 1 0 ++ leBytes 1 0 ++ leBytes 1 l.rec_.grain ++ leBytes 4 (readW32 s c (a.getD 0) w.y).toNat)) ∧
    ((Instr.bccr w).WellFormed → Issues s f w.hdr [(w.d, 1)] [w.d] e →
      ∃ t, exec (.bccr w) s = .next t ∧ Completed s t f e (partsOf w.d 1 ++ [.conflicts]) ∧ (t.convoy f.convoy).conflicts = 0 ∧
        Holds64 (t.convoy f.convoy) e w.d fun _ => c.conflicts.setWidth 64)

/-- SCDEC, SCENC and the narrowing CVT4 (R21, R27, R244, R248 to R250): SCDEC puts the scale of its group into byte BS of D and moves the pointer past the nibbles it took; SCENC writes the nibbles of the scales of every group and moves the pointer past them; CVT4 writes 0 into the byte of a group with a NaN or an infinity, raises NV, and puts 0xFF into the group's scale byte, in its first lane. What SCENC writes SCDEC reads back (R27, R249, R250): scales of one byte, from any running value below 255, in a stream inside the allocation. The model's own readings that it rests on: assumption logs 17, 20. -/
def Obligations.ScaleWords : Prop :=
  (∀ (w : FWord) (s : State) (f : Focus) (e : Mask),
    let c := s.convoy f.convoy
    ((Instr.scdec w).WellFormed → Issues s f w.hdr [(w.x, 1), (w.d, 1)] [w.d, w.x] e → pointerFits (readU s c w.x) = true →
      ∀ sc q run, decodeScales (lsOf s c) (s.blockOf c).size (c.width / 4) ((readU s c w.x).toNat % 2 ^ 20) ((readU s c w.x).toNat / 2 ^ 32 % 256) = .inr (sc, q, run) →
      ∃ t, exec (.scdec w) s = .next t ∧ Completed s t f e (partsOf w.d 1 ++ partsOf w.x 1) ∧
        Holds32 (t.convoy f.convoy) e w.d (fun l => putBits (readW32 s c l w.d) (8 * w.fld 2 2) 8 (sc.getD (l / 4) 0)) ∧
        Holds64 (t.convoy f.convoy) e w.x fun _ => BitVec.ofNat 64 (run * 2 ^ 32 + q)) ∧
    ((Instr.scenc w).WellFormed → Issues s f w.hdr [(w.x, 1), (w.d, 1)] [w.d] e → pointerFits (readU s c w.d) = true →
      let sc := (List.range (c.width / 4)).map fun j => scaleOf c w.x (4 * j) (w.fld 2 2)
      let run := (readU s c w.d).toNat / 2 ^ 32 % 256
      let nibs := scaleEncode run sc
      let p := (readU s c w.d).toNat % 2 ^ 20
      let n := (p + nibs.length + 1) / 2 - p / 2
      armedObject (lsOf s c) (p / 2) n = none → p / 2 + n ≤ (s.blockOf c).size → (p % 2 = 1 → p / 2 ∉ (lsOf s c).errs) →
      ∃ t, exec (.scenc w) s = .next t ∧ Completed s t f e (partsOf w.d 1 ++ [.stores, .blocks]) ∧ OnlyLocal s t c ∧
        (∀ i, i < nibs.length → (memGet (lsOf t c).mem ((p + i) / 2)).toNat / 16 ^ ((p + i) % 2) % 16 = nibs.getD i 0) ∧
        (p % 2 = 1 → 0 < n → (memGet (lsOf t c).mem (p / 2)).toNat % 16 = (memGet (lsOf s c).mem (p / 2)).toNat % 16) ∧
        (∀ a, a < p / 2 ∨ p / 2 + n ≤ a → memGet (lsOf t c).mem a = memGet (lsOf s c).mem a) ∧
        Holds64 (t.convoy f.convoy) e w.d fun _ => BitVec.ofNat 64 (scaleRunAll run sc * 2 ^ 32 + (p + nibs.length))) ∧
    ((Instr.cvt4 w).WellFormed → w.bit 6 = false → Issues s f w.hdr (plainUses 1 w) [w.d] e → w.d ≠ w.z →
      let bad : Nat → Bool := fun l => (List.range c.width).any fun m => e.getLsbD m && m / 4 == l / 4 && (notFinite (readF s c m w.x) || notFinite (readF s c m w.y))
      let one : Nat → W32 × FlagSet := fun l => if bad l then (putBits (readW32 s c l w.d) (8 * w.fld 4 2) 8 0, flagNV) else cvt4Narrow s c 0 l w
      ∃ t, exec (.cvt4 w) s = .next t ∧ Went s t f e (partsOf w.d 1 ++ partsOf w.z 1 ++ [.reg .flags]) (fun _ => f.addr.next) ∧
        HoldsFlagged s f e w.d (t.convoy f.convoy) one ∧
        ∀ n, w.z = .v n → ∀ l, l < c.width → (t.convoy f.convoy).readV n.toNat l =
          if l % 4 = 0 ∧ bad l = true then putBits (c.readV n.toNat l) (8 * w.fld 2 2) 8 0xFF else c.readV n.toNat l)) ∧
  (∀ (l : LocalStore) (size p run : Nat) (sc : List Nat), run ≤ 254 → (∀ x ∈ sc, x ≤ 255) → l.errs = [] →
    (p + (scaleEncode run sc).length + 1) / 2 ≤ size →
    (∀ i, i < (scaleEncode run sc).length → (memGet l.mem ((p + i) / 2)).toNat / 16 ^ ((p + i) % 2) % 16 = (scaleEncode run sc).getD i 0) →
    decodeScales l size sc.length p run = .inr (sc, p + (scaleEncode run sc).length, scaleRunAll run sc))

/-- COPY, COPYP and COPYM (R104, R109 to R112, R116, R117, R289 to R292): once the convoy's reads are back and no cause applies, a copy operation with the word's operands is handed to the engine, and nothing is moved yet; with 128 copies in flight, or without a credit, the word is held. A multicast takes one credit of every member. The model's own readings that it rests on: assumption logs 21, 28. -/
def Obligations.CopyWords : Prop :=
  ∀ (w : FWord) (s : State) (f : Focus) (e : Mask), Issues s f w.hdr [(w.d, 1), (w.x, 1), (w.y, 1), (w.z, 1)] [] e →
    e = (s.convoy f.convoy).live → readsClear s f.convoy = true →
    let c := s.convoy f.convoy
    let size := (s.blockOf c).size
    let ls := lsOf s c
    let rec_ := (readU s c w.z).toNat
    let b := memRead ls.mem rec_ 48
    let lay := parseLayout b
    let st := stampOf s c w.d
    let started : State → CopyKind → (CopyOp → Prop) → Prop := fun t kind more =>
      ∃ o : CopyOp, t.copies = s.copies ++ [o] ∧ o.kind = kind ∧ o.core = f.core ∧ o.convoy = f.convoy ∧ o.block = c.block ∧ o.launch = c.launch ∧
        o.dst = (readU s c w.x).toNat ∧ o.src = (readU s c w.y).toNat ∧ o.lay = lay ∧ o.fetched = [] ∧ o.flight = [] ∧ o.stop = none ∧ o.paused = false ∧
        o.rel = (w.bit 7 && scopeActs (s.launchOf c) w.scope.toNat) ∧ o.phase = .waiting ∧ more o ∧
        t.colls = s.colls ∧ t.services = s.services ∧ ∀ k, (t.core k).queue = (s.core k).queue
    layoutReach size rec_ = none → localError ls size 8 rec_ 48 = none →
    ((Instr.copy w).WellFormed → (lay.zfill = true → layReg w.z ≠ 63) → badLayout b = false →
      unevenLayout lay [(readU s c w.y).toNat, (readU s c w.x).toNat] (lay.s ++ lay.t) = false →
      let o : CopyOp := { newCopy s f c w (.copy (w.fld 0 2)) lay with boundary := if lay.zfill then aboveLay c w.z 1 else 0 }
      (∀ a, st = some a → a % 8 = 0 ∧ a + 8 ≤ size) → (o.srcLocal = true → outside size o.src lay.size lay.count lay.srcOff (zeroFilled o) = none) →
      (o.dstLocal = true → outside size o.dst lay.size lay.count lay.dstOff (fun _ => false) = none) →
      (copiesFull s f.core = false → ∃ t, exec (.copy w) s = .next t ∧ Completed s t f e [.engines, .blocks] ∧
        started t (.copy (w.fld 0 2)) fun x => x.boundary = o.boundary ∧ x.receivers = [{ block := c.block, second := onFollower s c, stamp := st, progress := 0, ended := none, joined := false }]) ∧
      (copiesFull s f.core = true → ∃ t, exec (.copy w) s = .next t ∧ Holding s t f w.hdr [] [(e, .retry (.copy w))])) ∧
    ((Instr.copyp w).WellFormed →
      let tile := (readU s c w.x).toNat
      let hb := memRead ls.mem tile 16
      let mx := w.fld 0 3 == 4
      let o : CopyOp := { newCopy s f c w (.copyp (w.fld 0 3) (w.bit 3)) lay with
        scales := if mx then aboveLay c w.z 1 else 0, boundary := if lay.zfill then aboveLay c w.z (if mx then 2 else 1) else 0 }
      tile % 256 = 0 → tile + 16 ≤ size → localError ls size 256 tile 16 = none → badTileCopy (tileHdr hb) (w.fld 0 3) lay (layReg w.z) = false →
      badLayout b = false → unevenLayout lay [o.src] lay.s = false → (∀ a, st = some a → a % 8 = 0 ∧ a + 8 ≤ size) →
      (w.bit 3 = true → outside size o.src lay.size lay.count lay.srcOff (zeroFilled o) = none) → tile + (tileHdr hb).bytes ≤ size →
      (w.bit 3 = true → mx = true → scaleOutside o size = none) →
      (copiesFull s f.core = false → ∃ t, exec (.copyp w) s = .next t ∧ Completed s t f e [.engines, .blocks] ∧
        started t (.copyp (w.fld 0 3) (w.bit 3)) fun x => x.header = hb ∧ x.scales = o.scales ∧ x.boundary = o.boundary ∧
          x.receivers = [{ block := c.block, second := onFollower s c, stamp := st, progress := 0, ended := none, joined := false }]) ∧
      (copiesFull s f.core = true → ∃ t, exec (.copyp w) s = .next t ∧ Holding s t f w.hdr [] [(e, .retry (.copyp w))])) ∧
    ((Instr.copym w).WellFormed →
      let m : BitVec 16 := (readU s c w.d).setWidth 16
      let dst := (readU s c w.x).toNat
      let o : CopyOp := { newCopy s f c w (.copym m (w.bit 0)) lay with boundary := if lay.zfill then aboveLay c w.z 1 else 0 }
      (lay.zfill = true → layReg w.z ≠ 63) → badLayout b = false → unevenLayout lay [o.src] (lay.s ++ lay.t) = false → dst % 8 = 0 → dst % lay.size = 0 →
      (w.bit 0 = true → outside size o.src lay.size lay.count lay.srcOff (zeroFilled o) = none) → m ≠ 0 →
      receiverCause s c.launch dst lay (streetCores f.core m) = none →
      let credit : Nat → Nat := fun i => (slotCounts s f.core c.launch).getD i 0
      (copiesFull s f.core = false → (∀ i, i < 16 → m.getLsbD i = true → credit i ≠ 0) → (slotCounts s f.core c.launch).length = 16 →
        ∃ t, exec (.copym w) s = .next t ∧ Completed s t f e [.engines, .blocks] ∧
          started t (.copym m (w.bit 0)) (fun x => x.boundary = o.boundary ∧ x.receivers = (streetCores f.core m).map (receiverFor s c.launch dst)) ∧
          ∀ i, i < 16 → (slotCounts t f.core c.launch).getD i 0 = if m.getLsbD i then credit i - 1 else credit i) ∧
      ((copiesFull s f.core = true ∨ ∃ i, i < 16 ∧ m.getLsbD i = true ∧ credit i = 0) →
        ∃ t, exec (.copym w) s = .next t ∧ Holding s t f w.hdr [] [(e, .retry (.copym w))]))

/-- SLOTFREE (R117, R293): one credit for this core on the counter of every named member's core, up to 8. COLL (R119, R295): with the 32 bytes of the descriptor read and legal, and the communicator slot set, the collective is handed to the engine with the number of its place in the slot; with 16 of the slot in flight the word is held. The model's own readings that it rests on: assumption logs 21, 29. -/
def Obligations.SlotFreeAndCollective : Prop :=
  (∀ (w : FWord) (s : State) (f : Focus) (e : Mask), (Instr.slotfree w).WellFormed → Issues s f w.hdr [(w.x, 1)] [] e → e = (s.convoy f.convoy).live →
    let c := s.convoy f.convoy
    let m : BitVec 16 := (readU s c w.x).setWidth 16
    ∃ t, exec (.slotfree w) s = .next t ∧ Completed s t f e [.engines] ∧ t.copies = s.copies ∧ t.colls = s.colls ∧ t.services = s.services ∧
      (∀ k, (t.core k).queue = (s.core k).queue) ∧
      (∀ k, k / 16 ≠ f.core / 16 ∨ m.getLsbD (k % 16) = false → (t.core k).free = (s.core k).free) ∧
      ∀ k, k < s.cores.length → k / 16 = f.core / 16 → m.getLsbD (k % 16) = true → (slotCounts s k c.launch).length = 16 → ∀ i, i < 16 →
        (slotCounts t k c.launch).getD i 0 = if i = f.core % 16 then min 8 ((slotCounts s k c.launch).getD i 0 + 1) else (slotCounts s k c.launch).getD i 0) ∧
  (∀ (w : FWord) (s s1 : State) (f : Focus) (e : Mask) (b : List Byte) (at_ : LaneAddr) (m : Comm), (Instr.coll w).WellFormed →
    Issues s f w.hdr [(w.d, 1), (w.x, 1), (w.y, 1), (w.z, 1)] [] e → e = (s.convoy f.convoy).live → readsClear s f.convoy = true →
    let c := s.convoy f.convoy
    let slot := readU s c w.y
    readItem s f e (baseOf c 0 w.x).toNat 32 32 false = .ok s1 b at_ → slot.toNat < 64 → s.hub.comms.length = 64 →
    s.hub.comms.getD slot.toNat none = some m → badDescriptor b slot m.n = false →
    (collsFull s slot.toNat = false → ∃ t x, exec (.coll w) s = .next t ∧ Completed s1 t f e [.engines, .hub] ∧ t.colls = s.colls ++ [x] ∧
      t.copies = s.copies ∧ x.slot = slot.toNat ∧ x.number = m.taken ∧ x.src = bytesNat b 0 8 ∧ x.dst = bytesNat b 8 8 ∧ x.k = bytesNat b 0x10 4 ∧
      x.op = bytesNat b 0x14 1 ∧ x.combine = bytesNat b 0x15 1 ∧ x.fmt = bytesNat b 0x16 1 ∧ x.root = bytesNat b 0x17 1 ∧ x.stamp = bytesNat b 0x18 8 ∧
      x.started = false ∧ x.ended = false ∧ t.hub.comms.getD slot.toNat none = some { m with taken := m.taken + 1 } ∧
      ∀ i, i ≠ slot.toNat → t.hub.comms.getD i none = s.hub.comms.getD i none) ∧
    (collsFull s slot.toNat = true → ∃ t, exec (.coll w) s = .next t ∧ Holding s1 t f w.hdr [] [(e, .retry (.coll w))]))

/-- The matrix words (R86, R118, R163, R167 to R171, R296 to R299): with no cause and no hold, MMA, MMAS, AZERO, ACCLD, ACCST and ACCSTAT enter their operation at the end of the queue of their array, or of both arrays of a pair; the tile is claimed, with +0 entries where no block had claimed it; while a queue is full or another block claims the tile the word is held. At the issue no entry of a claimed tile, no byte and no register changes. The model's own readings that it rests on: assumption logs 21, 22. -/
def Obligations.MatrixWords : Prop :=
  ∀ (w : FWord) (s : State) (f : Focus) (e : Mask), e = (s.convoy f.convoy).live → readsClear s f.convoy = true →
    let c := s.convoy f.convoy
    let size := (s.blockOf c).size
    let tile := (readU s c w.x).toNat
    let a := (readU s c w.y).toNat
    let b := (readU s c w.z).toNat
    let st := stampOf s c w.d
    let cores := wordCores f.core (w.bit 7)
    let stampFits : Prop := ∀ x, st = some x → x % 8 = 0 ∧ x + 8 ≤ size
    let multiplies : Bool → Prop := fun sparse =>
      let ha := tileHdr (memRead (aStore s c (w.bit 7)).mem a 16)
      let hb := tileHdr (memRead (lsOf s c).mem b 16)
      a % 256 = 0 ∧ b % 256 = 0 ∧ a + 16 ≤ size ∧ b + 16 ≤ size ∧ localError (aStore s c (w.bit 7)) size 256 a 16 = none ∧ localError (lsOf s c) size 256 b 16 = none ∧
      multiplyCause ha hb a b sparse = none ∧ stampFits ∧ a + ha.bytes ≤ size ∧ b + hb.bytes ≤ size
    let enters : Instr → MatKind → List Byte → List Byte → Option Nat → Prop := fun i kind ha hb st =>
      (matHeld s c f.core tile cores = false → ∃ t o, exec i s = .next t ∧ Completed s t f e [.engines, .tiles] ∧
        o.kind = kind ∧ o.tile = tile ∧ o.headerA = ha ∧ o.headerB = hb ∧ o.stamp = st ∧ o.convoy = f.convoy ∧ o.block = c.block ∧ o.pair = w.bit 7 ∧ o.cancelled = false ∧ o.rows = [] ∧ o.wrote = [] ∧ o.failed = false ∧
        t.copies = s.copies ∧ t.colls = s.colls ∧ t.services = s.services ∧
        (∀ k, k ∉ cores → t.core k = s.core k ∨ k = f.core) ∧
        ∀ k ∈ cores, (t.core k).queue = (s.core k).queue ++ [o] ∧
          ((s.blockOf c).kind = .ordinary → (s.core k).tiles.length = 8 → ((t.core k).tile tile).claim = some c.block ∧
            (((s.core k).tile tile).claim = none → ((t.core k).tile tile).acc = List.replicate 4096 0) ∧
            (((s.core k).tile tile).claim ≠ none → (t.core k).tile tile = (s.core k).tile tile))) ∧
      (matHeld s c f.core tile cores = true → ∃ t, exec i s = .next t ∧ Holding s t f w.hdr [] [(e, .retry i)])
    tile ≤ 7 → (∀ k ∈ cores, k < s.cores.length) → (w.bit 7 = true → (s.launchOf c).rec_.tandem = true) →
    (Issues s f w.hdr [(w.d, 1), (w.x, 1), (w.y, 1), (w.z, 1)] [] e →
      ((Instr.mma w).WellFormed → multiplies false → tileErr s cores tile = false →
        enters (.mma w) (.mma a b) (memRead (aStore s c (w.bit 7)).mem a 16) (memRead (lsOf s c).mem b 16) st) ∧
      ((Instr.mmas w).WellFormed → multiplies true → tileErr s cores tile = false →
        enters (.mmas w) (.mmas a b) (memRead (aStore s c (w.bit 7)).mem a 16) (memRead (lsOf s c).mem b 16) st) ∧
      ((Instr.azero w).WellFormed → stampFits → enters (.azero w) .azero [] [] st) ∧
      ((Instr.accld w).WellFormed → a % 1024 = 0 → a + 16384 ≤ size → stampFits → enters (.accld w) (.accld a) [] [] st) ∧
      ((Instr.accst w).WellFormed → a % 1024 = 0 → a + 4096 * (accstFmt (w.fld 2 2)).2 ≤ size → stampFits → tileErr s cores tile = false →
        enters (.accst w) (.accst a (w.fld 2 2) w.rm (BitVec.ofNat 8 b).toInt) [] [] st)) ∧
    (Issues s f w.hdr [(w.x, 1), (w.y, 1), (w.z, 1), (w.d, 1)] [w.d] e → (Instr.accstat w).WellFormed →
      a ≤ (if w.bit 7 && w.bit 0 then 127 else 63) → tileErr s cores tile = false →
      enters (.accstat w) (.accstat (mNumber w.d) (w.bit 0) a) [] [] none)

/-- CTXSV and CTXLD (R64, R324, R325, R329): in the supervisor state, with a handle of a stopped convoy whose accesses are back and every line of the area translated and free, CTXSV writes the convoy's area, or its block's, and no other byte, also of the last line; a register of the convoy with an error that cannot be corrected raises SOFTERR, which there is a double trap; CTXLD installs an area into a reserved convoy, or into its block: its store and marks, the tiles that the area claims, and its queued operations, before all others; and into a free position of an open slot, where a convoy of the launch then stands. What CTXSV writes of a convoy CTXLD gives back. The model's own readings that it rests on: assumption logs 8, 29, 32. -/
def Obligations.ContextWords : Prop :=
  (∀ (w : FWord) (s s1 : State) (f : Focus) (e : Mask) (ti : Nat), Issues s f w.hdr [(w.x, 1), (w.y, 1)] [] e →
    let c := s.convoy f.convoy
    let area := (readU s c w.x).toNat
    let h := (readU s c w.y).toNat
    c.priv = 2 → h < 2 ^ 13 → area % 256 = 0 → ti < s.convoys.length →
    ((s.slotAt f.core (h / 256)).positions.getD (h % 256) none) = some ti →
    let d := s.convoy ti
    let b := s.block d.block
    let saves : List Byte → Prop := fun bs => (Instr.ctxsv w).WellFormed → ∀ lines : List Nat,
      areaLines (if w.bit 0 then noteBadTiles s f.core d.block else s) f c e true area bs.length = .ok s1 lines → lines.Nodup →
      ∃ t, exec (.ctxsv w) s = .next t ∧ Completed s1 t f e [.memory, .caches, .views] ∧
        (∀ (i p k : Nat), lines[i]? = some p → k < 128 → 128 * i + k < bs.length → memGet t.mem (p + k) = bs.getD (128 * i + k) 0) ∧
        ∀ a, (∀ (i p : Nat), lines[i]? = some p → ¬ (p ≤ a ∧ a < p + min 128 (bs.length - 128 * i))) → memGet t.mem a = memGet s1.mem a
    (w.bit 0 = false → d.stopped = true → d.lanes ≠ [] → (∀ a ∈ s.accesses, a.convoy ≠ ti) →
      (d.errs = [] → saves (areaBytes s d)) ∧
      ((∃ x ∈ d.errs, correctable (s.launchOf d).rec_.detection d x = false) → (Instr.ctxsv w).WellFormed →
        ∃ t, exec (.ctxsv w) s = .next t ∧ t.mem = s.mem ∧ (t.convoy f.convoy).parked = true ∧ (t.convoy f.convoy).trap.cause = BitVec.ofNat 64 causeSOFTERR)) ∧
    (w.bit 0 = true → (∀ i ∈ b.convoys, (s.convoy i).stopped = true ∧ (s.convoy i).lanes ≠ []) → blockQuiet s d.block = true →
      saves (blockArea s f.core d.block)) ∧
    (w.bit 0 = false → d.lanes = [] → (Instr.ctxld w).WellFormed → ∀ (s2 s3 : State) (head pre bs : List Byte),
      AreaRead s f e area 16 s1 head → headBad d (areaWords head) = false →
      AreaRead s1 f e area (areaSize d.width d.budget (areaL (areaWords head)) 0) s2 pre →
      let n := bytesNat pre (areaSize d.width d.budget (areaL (areaWords head)) 0 - 8) 4
      AreaRead s2 f e area (areaSize d.width d.budget (areaL (areaWords head)) n) s3 bs → fieldsBad (areaWords bs) = false →
      ∃ t, exec (.ctxld w) s = .next t ∧ Completed s3 t f e [.others] ∧ t.convoy ti = installConvoy s3 d bs ∧
        ∀ j, j ≠ ti → j ≠ f.convoy → t.convoy j = s3.convoy j) ∧
    (w.bit 0 = true → d.lanes = [] → (Instr.ctxld w).WellFormed → ∀ (s2 : State) (head bs : List Byte),
      AreaRead s f e area 0x100 s1 head → blockHeadBad b head = false → AreaRead s1 f e area (blockAreaSize b head) s2 bs →
      (∀ n ∈ areaTiles bs, ((s2.core f.core).tile n).claim = none ∨ ((s2.core f.core).tile n).claim = some d.block) → d.block < s.blocks.length →
      (s.core f.core).tiles.length = 8 →
      let marks := 0x100 + roundUp b.size 256
      let tiles := marks + roundUp ((b.size + 63) / 64) 256
      ∃ t, exec (.ctxld w) s = .next t ∧ Completed s2 t f e [.stores, .blocks, .tiles, .engines] ∧ (∀ i, i ≠ d.block → t.block i = s2.block i) ∧
        (∀ a, a < b.size → memGet (blockLs (t.block d.block) (isSecond b f.core)).mem a = bs.getD (0x100 + a) 0) ∧
        (∀ a, a < b.size → a % 8 = 0 → (a ∈ (blockLs (t.block d.block) (isSecond b f.core)).marks ↔ (bs.getD (marks + a / 64) 0).getLsbD (a / 8 % 8) = true)) ∧
        (∀ (i n : Nat), (areaTiles bs)[i]? = some n → ((t.core f.core).tile n).claim = some d.block ∧ ((t.core f.core).tile n).bad = false ∧
          ∀ k, k < 4096 → ((t.core f.core).tile n).acc.getD k 0 = BitVec.ofNat 32 (bytesNat bs (tiles + 16384 * i + 4 * k) 4)) ∧
        (∀ n, n ∉ areaTiles bs → (t.core f.core).tile n = (s2.core f.core).tile n) ∧
        (t.core f.core).queue = (piecesOf 64 (bytesNat bs 0xC 2) (maskBytes 0x10000 (bs.drop (tiles + 16384 * (areaTiles bs).length)))).map (matFrom d.block) ++
          (s2.core f.core).queue.filter fun m => m.block != d.block)) ∧
  (∀ (w : FWord) (s s0 s1 s2 s3 : State) (f : Focus) (e : Mask) (li : Nat) (front head pre bs : List Byte), Issues s f w.hdr [(w.x, 1), (w.y, 1)] [] e →
    (Instr.ctxld w).WellFormed → w.bit 0 = false → (s.convoy f.convoy).priv = 2 →
    let area := (readU s (s.convoy f.convoy) w.x).toNat
    let h := readU s (s.convoy f.convoy) w.y
    let d := strayConvoy s0 f.core li h
    h.toNat < 2 ^ 13 → area % 256 = 0 → (s.slotAt f.core (h.toNat / 256)).launch = some li → h.toNat / 256 < (s.core f.core).slots.length →
    h.toNat % 256 < (s.slotAt f.core (h.toNat / 256)).positions.length → (s.slotAt f.core (h.toNat / 256)).positions.getD (h.toNat % 256) none = none →
    AreaRead s f e area 0x20 s0 front → AreaRead s0 f e area 16 s1 head → headBad d (areaWords head) = false →
    AreaRead s1 f e area (areaSize d.width d.budget (areaL (areaWords head)) 0) s2 pre →
    AreaRead s2 f e area (areaSize d.width d.budget (areaL (areaWords head)) (bytesNat pre (areaSize d.width d.budget (areaL (areaWords head)) 0 - 8) 4)) s3 bs →
    fieldsBad (areaWords bs) = false →
    ∃ t, exec (.ctxld w) s = .next t ∧ t.convoys.length = s3.convoys.length + 1 ∧ (∀ j, j < s3.convoys.length → j ≠ f.convoy → t.convoy j = s3.convoy j) ∧
      (∃ b, t.convoy s3.convoys.length = { installConvoy s3 d bs with block := b }) ∧ (installConvoy s3 d bs).launch = li ∧
      (t.slotAt f.core (h.toNat / 256)).positions.getD (h.toNat % 256) none = some s3.convoys.length) ∧
  ∀ (s u : State) (c d : Convoy), Storable c → d.width = c.width → d.budget = c.budget → GivenBack c (installConvoy u d (areaBytes s c))

/-- FAIRNESS_TIMER_EXPIRY and LIVELOCK (R82, R84, R305): a hand-over that is due gives the slot to the lanes with the highest PC, and to no others; a watchdog that is due makes every convoy active at the issue address take a trap there, and no other, and is reset. The model's own readings that it rests on: assumption log 12. -/
def Obligations.TimerEvents : Prop :=
  (∀ (s : State) (core h : Nat), core < s.cores.length → h < (s.core core).slots.length → handoverDue s core h = true →
    (∃ q ∈ slotLanes s core h, ∃ l, l < (s.convoy q.1).width ∧ q.2.getLsbD l = true) →
    ∃ t ho, exec (.fairnessTimerExpiry core h) s = .next t ∧ (t.slotAt core h).handover = some ho ∧ ho.issues = 0 ∧ ho.lanes ≠ [] ∧
      t.convoys = s.convoys ∧ t.mem = s.mem ∧
      ∀ q ∈ ho.lanes, ∀ l, l < (s.convoy q.1).width → q.2.getLsbD l = true →
        ∀ r ∈ slotLanes s core h, ∀ k, k < (s.convoy r.1).width → r.2.getLsbD k = true →
          ((s.convoy r.1).lane k).pc.toNat ≤ ((s.convoy q.1).lane l).pc.toNat) ∧
  (∀ (s : State) (core h : Nat) (addr : Pc), core < s.cores.length → h < (s.core core).slots.length → livelockDue s core h = true →
    issueAddr s core h = some addr → ((activeSets s core h addr).map Prod.fst).Nodup →
    (∀ p ∈ activeSets s core h addr, pendingRegs s p.1 = [] ∧ p.1 < s.convoys.length ∧ (s.convoy p.1).core = core ∧ (s.convoy p.1).slot = h ∧
      (s.convoy p.1).lanes.length = (s.convoy p.1).width ∧ (s.convoy p.1).priv < 2) →
    ∃ t, exec (.livelock core h) s = .next t ∧ (t.slotAt core h).watchdog = 0 ∧ t.mem = s.mem ∧ t.blocks = s.blocks ∧ t.launches = s.launches ∧
      (∀ j, j ∉ (activeSets s core h addr).map Prod.fst → t.convoy j = s.convoy j) ∧
      ∀ p ∈ activeSets s core h addr, ∃ u v, u.convoy p.1 = s.convoy p.1 ∧ u.launches = s.launches ∧ (∀ k, (u.core k).tvec = (s.core k).tvec) ∧
        TrapTaken u v { core := core, slot := h, convoy := p.1, active := p.2, addr := addr } causeLIVELOCK addr p.2 0 ∧ t.convoy p.1 = v.convoy p.1)

/-- HOME_ACCESS_PERFORM (R90 to R93, R96, R98, R99, R376), for an access that may be performed, carries no record and holds no lane: a load takes the bytes of a square's copy that may answer it, and else of memory; a store writes its bytes, and no others, and repairs the sectors that it writes whole; an atomic that is alone on its location takes its operands in lane order, each seeing what the one before left. To host memory a store is done once it stands in the posted-write queue, and every other access waits there behind the writes; the host then performs what stands first. No register is written before the answer. The model's own readings that it rests on: assumption logs 1, 30. -/
def Obligations.HomePerformance : Prop :=
  (∀ (s : State) (id : Nat) (a : Access), s.sound = true → findAccess s id = some a → eligible s a = true → a.itin = [] →
    NoHold (s.convoy a.convoy) (holdsAccess a true) →
    let quiet : State → Prop := fun t => t.blocks = s.blocks ∧ t.launches = s.launches ∧ t.copies = s.copies ∧ t.outputs = s.outputs ∧
      t.clock = s.clock ∧ t.convoys.length = s.convoys.length ∧
      (∀ j, j ≠ a.convoy → t.convoy j = s.convoy j) ∧ (t.convoy a.convoy).lanes = (s.convoy a.convoy).lanes ∧ (t.convoy a.convoy).s = (s.convoy a.convoy).s ∧
      (t.convoy a.convoy).g = (s.convoy a.convoy).g ∧ (t.convoy a.convoy).k = (s.convoy a.convoy).k ∧ (t.convoy a.convoy).holds = (s.convoy a.convoy).holds
    let answered : State → Nat → List (List Byte) → Prop := fun t at_ r =>
      t.accesses = s.accesses.map fun b => if b.id = id then { b with phase := .performed at_ r } else b
    let posts : State → Posted → Prop := fun t p => t.hub = { s.hub with posted := s.hub.posted ++ [p] }
    let alone := (s.accesses.filter fun b => b.number == a.number && b.pa == a.pa && b.isRead && b.isWrite && b.unperformed) = [a]
    (paIsHost a.pa = false →
      (∀ d size sx, a.kind = .load d size sx →
        (usableCopy s a = none → ∃ t, exec (.homeAccessPerform id) s = .next t ∧ quiet t ∧ t.hub = s.hub ∧ t.mem = s.mem ∧ t.memErrs = s.memErrs ∧
          answered t s.steps [memRead s.mem a.pa a.size]) ∧
        (∀ x, usableCopy s a = some x → ∃ t, exec (.homeAccessPerform id) s = .next t ∧ quiet t ∧ t.hub = s.hub ∧ t.mem = s.mem ∧ t.squares = s.squares ∧
          answered t x.filled [(x.bytes.drop (a.pa % 128)).take a.size])) ∧
      (∀ bytes, a.kind = .store bytes →
        ∃ t, exec (.homeAccessPerform id) s = .next t ∧ quiet t ∧ t.hub = s.hub ∧ Wrote s t a.pa bytes ∧ answered t s.steps [] ∧
          (∀ x ∈ t.squares, x ∈ s.squares ∧ rangesMeet (128 * x.line) 128 a.pa bytes.length = false) ∧
          ∀ x, x ∈ t.memErrs ↔ x ∈ s.memErrs ∧ ¬ (a.pa ≤ 32 * x ∧ 32 * x + 32 ≤ a.pa + bytes.length)) ∧
      (∀ op mmrg operands d, a.kind = .atom op mmrg operands d → alone →
        ∃ (t : State) (m : Nat → List Byte), exec (.homeAccessPerform id) s = .next t ∧ quiet t ∧ t.hub = s.hub ∧ m 0 = memRead s.mem a.pa a.size ∧
          (∀ k x, operands[k]? = some x → m (k + 1) = atomApply op mmrg (m k) x) ∧ Wrote s t a.pa (m operands.length) ∧
          answered t s.steps ((List.range operands.length).map m)) ∧
      (∀ square, a.kind = .fill square → ∃ t, exec (.homeAccessPerform id) s = .next t ∧ quiet t ∧ t.hub = s.hub ∧ t.mem = s.mem ∧
        t.accesses = s.accesses.filter fun b => b.id != id)) ∧
    (paIsHost a.pa = true →
      (∀ bytes, a.kind = .store bytes → ∃ t, exec (.homeAccessPerform id) s = .next t ∧ quiet t ∧ t.mem = s.mem ∧ answered t s.steps [] ∧
        posts t (.write a.pa bytes (some (a.core, a.convoy, a.lanes)))) ∧
      (a.isWrite = false ∨ alone → (∀ bytes, a.kind ≠ .store bytes) →
        ∃ t, exec (.homeAccessPerform id) s = .next t ∧ quiet t ∧ t.mem = s.mem ∧ t.accesses = s.accesses ∧ posts t (.visit id)))) ∧
  (∀ (s : State) (rest : List Posted), s.sound = true →
    (∀ pa bytes source, s.hub.posted = .write pa bytes source :: rest → (drainPosted s).hub = { s.hub with posted := rest } ∧ Wrote s (drainPosted s) pa bytes) ∧
    ∀ id a d size sx, s.hub.posted = .visit id :: rest → findAccess s id = some a → paIsHost a.pa = true → a.kind = .load d size sx → a.itin = [] →
      NoHold (s.convoy a.convoy) (holdsAccess a true) →
      (drainPosted s).hub = { s.hub with posted := rest } ∧ (drainPosted s).mem = s.mem ∧
      (drainPosted s).accesses = s.accesses.map fun b => if b.id = id then { b with phase := .performed s.steps [memRead s.mem a.pa a.size] } else b)

/-- READ_RESPONSE, WRITE_ACKNOWLEDGEMENT, RETRY and PEER_PATH_TIMEOUT (R91, R95, R96, R357, R375): a performed read writes its destination in its lanes and leaves; a performed write leaves; an access to an armed frame is translated again, where no access that it follows is still to be sent anew, or goes on retrying while that fails, leads to an armed frame, or would read what cannot be corrected, and the live lanes of its word are held where they stand (a prefetch is dropped); one whose peer has been out of reach for 2^24 cycles is given up and ends its launch with ACCESS. The model's own readings that it rests on: assumption logs 1, 25, 42. -/
def Obligations.AccessAnswers : Prop :=
  ∀ (s : State) (id : Nat) (a : Access), findAccess s id = some a →
    let gone : State → Prop := fun t => t.accesses = s.accesses.filter fun b => b.id != id
    (∀ at_ bytes rest d size sx, a.phase = .performed at_ (bytes :: rest) → a.kind = .load d size sx → s.sound = true → a.convoy < s.convoys.length →
      (s.convoy a.convoy).lanes.length = (s.convoy a.convoy).width → overBudget (s.convoy a.convoy).budget d (regsOfSize size) = false →
      (d.isVReg || d.isSReg || d.isM || d.isG) = true → (d.isSReg = true → size ≤ 8) → size ∈ [1, 2, 4, 8, 16] →
      ∃ t, exec (.readResponse id) s = .next t ∧ gone t ∧ HoldsLoaded (t.convoy a.convoy) (maskOf a.lanes) d size sx (fun _ => bytes) ∧
        (∀ r : Reg, r ∉ opndRegs d (regsOfSize size) → ∀ core slot active addr, Same s t (Focus.mk core slot a.convoy active addr) (.reg r)) ∧
        t.mem = s.mem ∧ ∀ j, j ≠ a.convoy → t.convoy j = s.convoy j) ∧
    (∀ at_ olds op mmrg operands n, a.phase = .performed at_ olds → a.kind = .atom op mmrg operands (some (.v n)) → a.size = 4 → s.sound = true →
      a.convoy < s.convoys.length → (s.convoy a.convoy).lanes.length = (s.convoy a.convoy).width → n.toNat < (s.convoy a.convoy).budget → a.lanes.Nodup →
      (∀ l ∈ a.lanes, l < 64) →
      ∃ t, exec (.readResponse id) s = .next t ∧ gone t ∧ t.mem = s.mem ∧
        (∀ (k l : Nat) (old : List Byte), a.lanes[k]? = some l → olds[k]? = some old → l < (s.convoy a.convoy).width →
          (t.convoy a.convoy).readV n.toNat l = BitVec.ofNat 32 (leNat (old.take 4))) ∧
        ∀ l, l ∉ a.lanes → (t.convoy a.convoy).readV n.toNat l = (s.convoy a.convoy).readV n.toNat l) ∧
    (a.unperformed = false → exec (.writeAcknowledgement id) s = .next { s with accesses := s.accesses.filter fun b => b.id != id }) ∧
    (a.unperformed = true → (a.retrying = true ∨ armedFrame s a.pa = true) → (a.isRead || a.isWrite) = true →
      (a.isRead = true → a.isWrite = true → (s.accesses.filter fun b => b.number == a.number && b.pa == a.pa && b.isRead && b.isWrite && b.unperformed) = [a]) →
      let held := refuseAccess s a
      let req := convoyReq held (held.convoy a.convoy) a.isWrite
      let first := ∀ b ∈ s.accesses, b ≠ a → mustFollow s a b = true → b.retrying = false ∧ armedFrame s b.pa = false
      (∀ s2 pa leaf, xlate held req a.va = .ok s2 pa leaf → armedFrame s2 pa = false → (a.isRead = true → s2.memBad pa a.size = false) → first →
        ∃ t, exec (.retry id) s = .next t ∧ t.convoys = s2.convoys ∧ t.mem = s2.mem ∧
          t.accesses = s2.accesses.map fun b => if b.id = id then { b with pa := pa, sc := pteSC leaf, rc := pteRC leaf, retrying := false } else b) ∧
      (¬ first ∨ (∀ s2 pa leaf, xlate held req a.va = .ok s2 pa leaf → armedFrame s2 pa = true ∨ (a.isRead = true ∧ s2.memBad pa a.size = true)) →
        ∃ t, exec (.retry id) s = .next t ∧ t.mem = s.mem ∧ t.accesses = s.accesses.map fun b => if b.id = id then { b with retrying := true } else b) ∧
      (a.convoy < s.convoys.length → a.mask &&& (s.convoy a.convoy).live ≠ 0 → (∀ h ∈ (s.convoy a.convoy).holds, h.kind ≠ .retried a.number) →
        ∃ t, exec (.retry id) s = .next t ∧
        (∃ h ∈ (t.convoy a.convoy).holds, h.kind = .retried a.number ∧ h.lanes = a.mask &&& (s.convoy a.convoy).live) ∧
        ∀ l, ((t.convoy a.convoy).lane l).pc = ((s.convoy a.convoy).lane l).pc)) ∧
    (a.unperformed = true → (a.retrying = true ∨ armedFrame s a.pa = true) → (a.isRead || a.isWrite) = false → ∃ t, exec (.retry id) s = .next t ∧ t.mem = s.mem ∧ (∀ b ∈ t.accesses, b.id ≠ id)) ∧
    (a.unperformed = true → a.retrying = false → paMapped s a.pa = false → a.waiting + 2 ^ 24 ≤ s.clock → a.launch < s.launches.length →
      (s.launch a.launch).completed = false → (s.launch a.launch).terminated = none →
      ∃ t, exec (.peerPathTimeout id) s = .next t ∧ (∀ b ∈ t.accesses, b ∈ s.accesses ∧ b.id ≠ id) ∧
        (∀ b ∈ s.accesses, b.id ≠ id → b.launch ≠ a.launch → b ∈ t.accesses) ∧ (t.launch a.launch).terminated = some (BitVec.ofNat 8 causeACCESS) ∧
        t.hub.errsum.getLsbD 9 = true ∧ t.mem = s.mem ∧ ∀ j, (s.convoy j).launch = a.launch → t.runnable (t.convoy j) = 0)

/-- PEER_REQUEST and the avenues (R97, R123, R321, R356, R362, R369, R375): a peer's read, write or atomic is performed at its home here and answered; outside the 192 GiB of memory, before the avenues are in use, and where a read meets an uncorrectable error, it is answered with none, and on an armed frame with RETRY. A port goes down, and comes back into use if it is enabled; what has waited 2^24 cycles for a path is given up first, accesses that lose their last path begin to wait, buffered ones of a CANONICAL launch too, and a collective that needs data of a rank out of reach cannot complete here. The model's own readings that it rests on: assumption log 39. -/
def Obligations.PeerAndPorts : Prop :=
  (∀ (s : State) (r : PeerReq) (n : Nat), s.sound = true → n = (match r.op with
      | .read n => n
      | .write bs => bs.length
      | .atom op _ _ => if op = 15 then 16 else 4) →
    let refused := exec (.peerRequest r) s = .next { s with outputs := s.outputs ++ [.peerReply r.peer none] }
    (2 ^ 30 * 192 < r.offset + n ∨ s.hub.ready.getLsbD 8 = false → refused) ∧
    (r.offset + n ≤ 2 ^ 30 * 192 → s.hub.ready.getLsbD 8 = true →
      (armedFrame s r.offset = true → exec (.peerRequest r) s = .next { s with outputs := s.outputs ++ [.peerRetry r.peer] }) ∧
      (armedFrame s r.offset = false →
        (∀ bs, r.op = .write bs → ∃ t, exec (.peerRequest r) s = .next t ∧ Wrote s t r.offset bs ∧ t.outputs = s.outputs ++ [.peerReply r.peer (some [])] ∧
          t.convoys = s.convoys ∧ t.hub = s.hub) ∧
        (s.memBad r.offset n = true → (∀ bs, r.op ≠ .write bs) → refused) ∧
        (s.memBad r.offset n = false →
          (∀ k, r.op = .read k → exec (.peerRequest r) s = .next { s with outputs := s.outputs ++ [.peerReply r.peer (some (memRead s.mem r.offset k))] }) ∧
          (∀ op mmrg v, r.op = .atom op mmrg v → ∃ t, exec (.peerRequest r) s = .next t ∧ Wrote s t r.offset (atomApply op mmrg (memRead s.mem r.offset n) v) ∧
            t.outputs = s.outputs ++ [.peerReply r.peer (some (memRead s.mem r.offset n))] ∧ t.convoys = s.convoys ∧ t.hub = s.hub))))) ∧
  (∀ (s : State) (p : Nat),
    let lost : State → Prop := fun t =>
      (∀ a ∈ s.accesses, pathLost s a = true → ∀ b ∈ t.accesses, b.id ≠ a.id) ∧
      ((∀ a ∈ s.accesses, pathLost s a = false) → flightsLost s = false →
        t.mem = s.mem ∧ t.convoys = s.convoys ∧ t.blocks = s.blocks ∧
        (t.launches = s.launches.map fun l => { l with buffer := l.buffer.map fun x => if paMapped s x.pa && !paMapped t x.pa then { x with waiting := s.clock } else x }) ∧
        (t.accesses = s.accesses.map fun a => if paMapped s a.pa && !paMapped t a.pa then { a with waiting := s.clock } else a) ∧
        ∀ (i : Nat) (c : Coll) (r : Nat), s.colls[i]? = some c → c.started = true → c.ended = false → r ∈ (commOf s c).others →
          rankReachable t (commOf s c) r = false → c.needs (commOf s c) r = true → ∃ d, t.colls[i]? = some d ∧ d.lost = true)
    (∃ t, exec (.portDown p) s = .next t ∧ t.hub.ports = s.hub.ports.set p false ∧ t.hub.errsum.getLsbD 5 = true ∧ lost t ∧
      ((∀ a ∈ s.accesses, pathLost s a = false) → flightsLost s = false → s.hub.errsum.getLsbD 5 = false → t.outputs = s.outputs ++ [.msix 1])) ∧
    (∃ t, exec (.avenuePortUp p) s = .next t ∧ t.hub.ports = s.hub.ports.set p (s.hub.blob.ports.getLsbD p) ∧ lost t))

/-- The events of copies (R78, R104, R106, R110, R112 to R114, R116, R353, R354): the copies of a core start in the order of their issue; a receiver in local store takes its elements in layout order, each whole, and one that would meet an armed object ends it; a receiver that may end is over, and its stamp has counted one completion with its status; a translation fault of COPY or COPYP suspends it and is reported, and ends it while the fault queue is off; the hub writes a report into the next free slot; RESUME and ABORT clear STATE and ACTION. The model's own readings that it rests on: assumption log 28. -/
def Obligations.CopyEvents : Prop :=
  ∀ (s : State) (i : Nat) (o : CopyOp), s.sound = true → s.copies[i]? = some o →
    let counts : State → Nat → Bool → Nat → Nat → Prop := fun t block second off st =>
      let old := (blockLs (s.block block) second).word off
      let new := (blockLs (t.block block) second).word off
      new.toNat % 2 ^ 56 = (old.toNat + 1) % 2 ^ 56 ∧ new.toNat / 2 ^ 56 = if st = 0 then old.toNat / 2 ^ 56 else st % 256
    (o.phase = .waiting → o.paused = false → (o.rel = true → releaseClear s o.core o.seq o.convoy (o.fork + 1) = true) →
      (∀ (j : Nat) (p : CopyOp), j < i → s.copies[j]? = some p → p.core = o.core → p.phase = .waiting → p.paused = true) →
      copyStart s i = { s with copies := s.copies.set i { o with phase := .moving } }) ∧
    (∀ (j : Nat) (p : CopyOp), j < i → s.copies[j]? = some p → p.core = o.core → p.phase = .waiting → p.paused = false → copyStart s i = s) ∧
    (∀ (k d : Nat) (r : Receiver), o.kind = .copy d → o.dstLocal = true → o.receivers[k]? = some r → mayWrite s o r = true → r.block < s.blocks.length →
      let t := copyWrite s i k
      let a := addOff o.dst (o.lay.dstOff r.progress) % 2 ^ 32
      let bs := o.element r.progress
      let mem : State → Memory := fun u => (blockLs (u.block r.block) r.second).mem
      (armedObject (blockLs (s.block r.block) r.second) a bs.length = none →
        (∀ x, memGet (mem t) x = if a ≤ x ∧ x < a + bs.length then bs.getD (x - a) 0 else memGet (mem s) x) ∧
        ∃ u, t.copies[i]? = some u ∧ u.receivers = o.receivers.set k { r with progress := r.progress + 1 }) ∧
      (armedObject (blockLs (s.block r.block) r.second) a bs.length ≠ none → (∀ x, memGet (mem t) x = memGet (mem s) x) ∧
        ∃ u, t.copies[i]? = some u ∧ u.receivers = o.receivers.set k { r with ended := some 1 })) ∧
    (∀ r, o.receivers = [r] → o.phase = .moving → o.paused = false → o.stop = none → o.flight = [] → r.joined = false → r.ended = none →
      blockAway (s.block r.block) = false → o.lay.count ≤ r.progress → copyEnds s o = [(0, 0)]) ∧
    (copyEnds s o = [] → exec (.copyEnd i) s = .next s) ∧
    (copyEnds s o ≠ [] → (o.receivers.map fun (r : Receiver) => (r.block, r.second)).Nodup → (∀ r ∈ o.receivers, r.block < s.blocks.length) →
      ∃ t u, exec (.copyEnd i) s = .next t ∧ t.copies = s.copies.set i u ∧ t.mem = s.mem ∧
        (∀ p ∈ copyEnds s o, ∀ r, o.receivers[p.1]? = some r → u.receivers[p.1]? = some { r with joined := true } ∧
          ∀ off, r.stamp = some off → counts t r.block r.second off p.2) ∧
        ((∀ r ∈ u.receivers, r.joined = true) → u.phase = .joined)) ∧
    (∀ cause addr write, copyFault s i = some (cause, addr, write) →
      let stopped := s.copies.set i { o with stop := some (o.lead, 1) }
      (fqEnabled s.hub = false → exec (.copyTranslationFault i) s = .next { s with copies := stopped }) ∧
      (fqEnabled s.hub = true → ∃ t x, exec (.copyTranslationFault i) s = .next t ∧ t.hub.fqWaiting = s.hub.fqWaiting ++ [x] ∧
        x.addr = addr ∧ x.cause = cause ∧ x.write = write ∧ x.progress = o.lead ∧ x.core = o.core ∧ x.launch = (s.launch o.launch).id ∧
        (cause = causePAGEFAULT → copyKindCode o.kind ≠ 3 → x.copy = some i ∧ t.copies = s.copies.set i { o with phase := .faulted addr cause write }) ∧
        (cause ≠ causePAGEFAULT ∨ copyKindCode o.kind = 3 → x.copy = none ∧ t.copies = stopped))) ∧
    (∀ at_, o.phase = .reported at_ → o.paused = false → homeBusy s at_ = false →
      (memGet s.mem (at_ + 0x19) = 1 → ∃ t, exec (.faultActionResume i) s = .next t ∧ Wrote s t (at_ + 0x18) [0, 0] ∧
        t.copies = s.copies.set i { o with phase := .moving }) ∧
      (memGet s.mem (at_ + 0x19) = 2 → ∃ t, exec (.faultActionAbort i) s = .next t ∧ Wrote s t (at_ + 0x18) [0, 0] ∧
        t.copies = s.copies.set i { o with phase := .ending 1 })) ∧
    (∀ x rest, s.hub.fqWaiting = x :: rest → fqReady s = true → (x.copy = none ∨ (x.copy = some i ∧ ∃ a c w, o.phase = .faulted a c w)) →
      ∃ t, exec .engineFaultRecord s = .next t ∧ t.hub.fqWaiting = rest ∧ t.hub.fqCount = s.hub.fqCount + 1 ∧
        Wrote s t (fqSlot s.hub s.hub.fqCount) (leBytes 8 x.addr ++ leBytes 4 x.progress ++ [BitVec.ofNat 8 x.core, BitVec.ofNat 8 x.kind, BitVec.ofNat 8 x.cause,
          if x.write then 1 else 0] ++ leBytes 8 x.launch ++ [if x.copy.isSome then 1 else 2, 0, 0, 0, 0, 0, 0, 0]) ∧
        (x.copy = some i → t.copies = s.copies.set i { o with phase := .reported (fqSlot s.hub s.hub.fqCount) }) ∧
        (s.hub.fqctl.getLsbD 32 = true → (s.hub.fqctl.toNat / 2 ^ 16 % 2 ^ 16) ∈ t.hub.events))

/-- The matrix array (R38, R72, R106, R118, R162, R167, R169 to R171, R297 to R299, R321): the operation at the head of an array's queue, on its core or on both cores of a pair, first reads every row of 1 KiB that it needs, one at a time and each as local store then stands; ACCST then writes its rows, one at a time, with the rounded entries. MATRIX_OPERATION_END gives it its effect: cancelled, it changes no tile; having met an error, it puts its tile into the error state; else AZERO zeroes the tile, ACCLD loads it, MMA and MMAS add their products to every entry and ACCSTAT writes the moments of rows or columns. Its stamp counts one more, with status 2, 1 or 0, and the claims of a block that has ended go with its last operation. The model's own readings that it rests on: assumption log 22. -/
def Obligations.MatrixEnd : Prop :=
  ∀ (s : State) (core : Nat) (o : MatOp), s.sound = true → matReady s core = some o → o.block < s.blocks.length →
    (o.pair = true → (s.block o.block).follower = some (core / 2 * 2 + 1)) →
    (∀ k ∈ matCores core o, k < s.cores.length ∧ o.tile < (s.core k).tiles.length) →
    let cs := matCores core o
    let store : State → Nat → LocalStore := fun s k => blockLs (s.block o.block) (isSecond (s.block o.block) k)
    let entry : State → Nat → Nat → Nat → W32 := fun s k i j => ((s.core k).tile o.tile).acc.getD (64 * i + j) 0
    let ha := tileHdr o.headerA
    let hb := tileHdr o.headerB
    let line : Nat → Bool → Nat → Moment := fun k col i =>
      if 63 < i then Moment.zero else entriesMoment ((List.range 64).map fun j => if col then entry s k j i else entry s k i j)
    let head : State → MatOp → Prop := fun t x => ∀ k ∈ cs, (t.core k).queue.head? = some x
    (matMoves s core = true → let t := matStep s core
      t.mem = s.mem ∧ t.convoys = s.convoys ∧ t.launches = s.launches ∧ t.hub = s.hub ∧ (∀ k n, (t.core k).tile n = (s.core k).tile n) ∧
      (matToRead core o ≠ [] → t.blocks = s.blocks ∧ ∃ x ∈ matToRead core o, ∃ bad,
        head t { o with rows := o.rows ++ [(x.1, x.2, memRead (store s x.1).mem (1024 * x.2) 1024)], failed := bad }) ∧
      (matToRead core o = [] → ∀ dst f rm sc, o.kind = .accst dst f rm sc → dst % 1024 = 0 → (∀ k ∈ cs, ((s.core k).tile o.tile).acc.length = 4096) →
        ∃ x ∈ matToWrite core o, head t { o with wrote := x :: o.wrote } ∧
          ∀ y, memGet (store t x.1).mem y = if 1024 * x.2 ≤ y ∧ y < 1024 * x.2 + 1024 then
            (leBytes (accstFmt f).2 (accstValue f rm sc (entry s x.1 ((y - dst) / (accstFmt f).2 / 64) ((y - dst) / (accstFmt f).2 % 64)))).getD ((y - dst) % (accstFmt f).2) 0
            else memGet (store s x.1).mem y)) ∧
    (matMoves s core = false → ∃ t, exec (.matrixOperationEnd core) s = .next t ∧ t.mem = s.mem ∧ t.hub = s.hub ∧ t.launches = s.launches ∧ t.accesses = s.accesses ∧
      (∀ k ∈ cs, (t.core k).queue = (s.core k).queue.drop 1) ∧
      (∀ off, o.stamp = some off →
        let old := (store s (s.convoy o.convoy).core).word off
        let new := (store t (s.convoy o.convoy).core).word off
        let st := if o.cancelled then 2 else if matFailed s core o then 1 else 0
        new.toNat % 2 ^ 56 = (old.toNat + 1) % 2 ^ 56 ∧ new.toNat / 2 ^ 56 = if st = 0 then old.toNat / 2 ^ 56 else st) ∧
      ((s.block o.block).state = .ended → (∀ k, ∀ m ∈ (t.core k).queue, m.block ≠ o.block) →
        ∀ k, k = (s.block o.block).core ∨ (s.block o.block).follower = some k → ∀ n, ((t.core k).tile n).claim ≠ some o.block) ∧
      ((s.block o.block).state ≠ .ended →
        (∀ k, k ∉ cs → t.core k = s.core k) ∧ (∀ k n, n ≠ o.tile → (t.core k).tile n = (s.core k).tile n) ∧
        (o.cancelled = true → ∀ k, (t.core k).tile o.tile = (s.core k).tile o.tile) ∧
        (o.cancelled = false → matFailed s core o = true → ∀ k ∈ cs, (t.core k).tile o.tile = { (s.core k).tile o.tile with err := true }) ∧
        (o.cancelled = false → matFailed s core o = false →
          (o.kind = .azero → ∀ k ∈ cs, ((t.core k).tile o.tile).err = false ∧ ∀ i j, entry t k i j = 0) ∧
          (∀ src, o.kind = .accld src → ∀ k ∈ cs, ((t.core k).tile o.tile).err = false ∧
            ∀ i j, i < 64 → j < 64 → entry t k i j = BitVec.ofNat 32 (memNat (o.store k) (src + 4 * (64 * i + j)) 4)) ∧
          (∀ a b, o.kind = .mma a b → ∀ k ∈ cs, ∀ i j, i < 64 → j < 64 →
            let ra := tileRow (o.store (cs.headD core)) ha a i
            let rb := tileRow (o.store k) hb b j
            entry t k i j = mmaEntry (entry s k i j) ra.exps rb.exps ra.vals rb.vals) ∧
          (∀ a b, o.kind = .mmas a b → ∀ k ∈ cs, ∀ i j, i < 64 → j < 64 →
            let ra := tileRow (o.store (cs.headD core)) ha a i
            let rb := tileRow (o.store k) hb b j
            entry t k i j = mmasEntry ra hb.n (entry s k i j) 0 rb.exps ((List.range hb.k).map (keptPositions hb.seed hb.n j)) rb.vals) ∧
          (∀ m col fst, o.kind = .accstat m col fst → o.convoy < s.convoys.length → m < 8 →
            (s.convoy o.convoy).lanes.length = (s.convoy o.convoy).width →
            (∀ l, l < (s.convoy o.convoy).width → (s.convoy o.convoy).live.getLsbD l = true → (t.convoy o.convoy).readM m l =
              if o.pair = false then line core col (fst + l)
              else if col then (if fst + l < 64 then line (core / 2 * 2) true (fst + l) else line (core / 2 * 2 + 1) true (fst + l - 64))
              else if 63 < fst + l then Moment.zero
              else (momentMerge (line (core / 2 * 2) false (fst + l)) (line (core / 2 * 2 + 1) false (fst + l))).1) ∧
            ∀ n l, n ≠ m → (t.convoy o.convoy).readM n l = (s.convoy o.convoy).readM n l))))

/-- The events of collectives (R104, R119 to R124, R342, R362): before READY.AVE no chunk is taken; then a chunk that arrives is kept for a collective that is not issued since the communicator was set, or not started yet, and until its turn in its flow; in its turn it is kept as an operand, or as data that the engine writes to the destination; a rank whose descriptor differs fails the collective, and every other rank is told. The reduce block that has waited longest takes the lay-by of the lowest-numbered core where it is free and no service block has waited for it before; it combines two operands element by element, and a value that has reached this rank's last hop goes to its parent. A chunk of the destination is written whole, or not yet. A finished collective counts on its stamp, with status 0 once its destination is written, and else 3. The model's own readings that it rests on: assumption log 28. -/
def Obligations.CollectiveEvents : Prop :=
  (∀ (s : State) (ch : Chunk),
    (s.hub.ready.getLsbD 8 = false → exec (.avenueChunkReceive ch) s = .next s) ∧
    (s.hub.ready.getLsbD 8 = true →
      (∀ c ∈ s.colls, ¬ (c.slot = ch.slot ∧ c.number = ch.number)) ∨ (∀ m, s.hub.comms.getD ch.slot none = some m → m.taken ≤ ch.number) →
      exec (.avenueChunkReceive ch) s = .next { s with hub := { s.hub with early := s.hub.early ++ [ch] } })) ∧
  (∀ (s : State) (ch : Chunk) (i : Nat) (c : Coll), s.hub.ready.getLsbD 8 = true → s.colls[i]? = some c → c.slot = ch.slot → c.number = ch.number →
    (∃ m, s.hub.comms.getD ch.slot none = some m ∧ ch.number < m.taken) →
    (∀ (k : Nat) (d : Coll), i < k → s.colls[k]? = some d → ¬ (d.slot = ch.slot ∧ d.number = ch.number)) →
    let m := commOf s c
    (c.started = false ∨ (∀ x ∈ c.waiting ++ [ch], x.flow ≠ assoc c.seen x.src 0) →
      exec (.avenueChunkReceive ch) s = .next { s with colls := s.colls.set i { c with waiting := c.waiting ++ [ch] } }) ∧
    (c.started = true → c.failed = false → c.ended = false → c.waiting = [] → ch.flow = assoc c.seen ch.src 0 →
      let c1 := { c with seen := assocSet c.seen ch.src (ch.flow + 1) }
      let becomes : Coll → Prop := fun d => exec (.avenueChunkReceive ch) s = .next { s with colls := s.colls.set i d }
      (ch.hop = 0 → becomes { c1 with got := assocSet c.got ch.src (assoc c.got ch.src 0 + ch.bytes.length / c.size), writes := c.writes ++ [(ch.first, ch.bytes)] }) ∧
      (1 ≤ ch.hop → ch.hop ≤ 252 → becomes { c1 with received := c.received ++ [ch] }) ∧
      (ch.hop = 254 → ch.desc = c.desc → becomes { c1 with heard := ch.src :: c.heard }) ∧
      (ch.hop = 255 ∨ (ch.hop = 254 ∧ ch.desc ≠ c.desc) → ∃ t d, exec (.avenueChunkReceive ch) s = .next t ∧ t.colls[i]? = some d ∧ d.failed = true ∧
        t.convoys = s.convoys ∧ t.mem = s.mem ∧ ∀ r ∈ m.others, rankReachable s m r = true → ∃ flow, .chunk (m.modules.getD r 0)
          { slot := c.slot, number := c.number, src := m.rank, desc := c.desc, flow := flow, hop := 255, seq := 0, first := 0, bytes := [] } ∈ t.outputs))) ∧
  (∀ (s : State) (i node : Nat),
    (∀ (since : Nat) (rest : List (Nat × Nat × Nat)) (a b : List Byte), s.hub.nodes = (i, node, since) :: rest → nodeOperands s i node = some (a, b) →
      let free : Nat → Prop := fun k => laybyFree s k = true ∧ ∀ v ∈ s.services, v.core = k → ∀ n, v.since = some n → since ≤ n
      (∀ k, k < 256 → free k → (∀ j, j < k → ¬ free j) → exec (.reduceBlockDispatch i node) s =
        .next { s with hub := { s.hub with nodes := rest, reduces := s.hub.reduces ++ [{ core := k, coll := i, node := node, a := a, b := b }] } }) ∧
      ((∀ k, k < 256 → ¬ free k) → exec (.reduceBlockDispatch i node) s = .next s)) ∧
    ((∀ since, s.hub.nodes.head? ≠ some (i, node, since)) → exec (.reduceBlockDispatch i node) s = .next s)) ∧
  (∀ (s : State) (k : Nat) (r : Reduce) (c : Coll), s.hub.reduces[k]? = some r → s.colls[r.coll]? = some c → c.failed = false → c.ended = false →
    (∀ v ∈ c.values, ¬ (v.hop = r.node % 8 ∧ v.seq = r.node / 8)) →
    let m := commOf s c
    let h := r.node % 8
    let v := combineChunk c m.seed (r.node / 8) h r.a r.b
    let t := endReduce s k
    t.hub.reduces = s.hub.reduces.eraseIdx k ∧ t.convoys = s.convoys ∧ t.blocks = s.blocks ∧ t.mem = s.mem ∧
    (∃ d, t.colls[r.coll]? = some d ∧ d.values = c.values ++
      [{ slot := c.slot, number := c.number, src := m.rank, desc := c.desc, flow := 0, hop := h, seq := r.node / 8, first := 0, bytes := v }]) ∧
    (m.rank ≠ 0 → h = topHop m.n m.rank → 1 ≤ h → m.rank + 2 ^ (h - 1) < m.n → rankReachable s m (m.rank - 2 ^ h) = true →
      t.outputs = s.outputs ++ [.chunk (m.modules.getD (m.rank - 2 ^ h) 0)
        { slot := c.slot, number := c.number, src := m.rank, desc := c.desc, flow := assoc c.sent (m.rank - 2 ^ h) 0, hop := h + 1, seq := r.node / 8, first := 0, bytes := v }]) ∧
    ∀ n e, r.a.length = c.size * n → r.b.length = c.size * n → e < n → (v.drop (c.size * e)).take c.size =
      combineElem c m.seed (r.node / 8) h e ((r.a.drop (c.size * e)).take c.size) ((r.b.drop (c.size * e)).take c.size)) ∧
  (∀ (s : State) (i j : Nat) (c : Coll) (f : Flight), s.sound = true → s.colls[i]? = some c → c.flight[j]? = some f →
    let chunk := c.flight.filter fun x => x.element == f.element
    (∀ s1, collPut c chunk s = .ok s1 →
      (∃ d, (collPerform s i j).colls[i]? = some d ∧ d.written = c.written + chunk.length ∧ d.flight = c.flight.filter fun x => x.element != f.element) ∧
      ∃ u : Nat → State, u 0 = s ∧ (u chunk.length).mem = (collPerform s i j).mem ∧
        ∀ (k : Nat) (x : Flight), chunk[k]? = some x → ∃ v pa, collHome (u k) c x = .ok (v, pa) ∧ (paIsHost pa = false → Wrote v (u (k + 1)) pa x.bytes)) ∧
    ((∀ s1, collPut c chunk s ≠ .ok s1) → collPerform s i j = s)) ∧
  (∀ (s s1 : State) (i st : Nat) (c : Coll) (pa : Nat) (leaf : W64), s.sound = true → s.colls[i]? = some c → collStatus s c = some st →
    (st = 0 ∨ st = 3) ∧ c.flight = [] ∧ (st = 0 → c.writes = [] ∧ c.dstLen (commOf s c).n ≤ c.written) ∧
    (engXlate s c.core c.ctx c.user true c.stamp = .ok (s1, pa, leaf) → homeBusy s1 pa = false → forkClear s1 c.convoy c.fork c.stamp pa 8 = true →
      ∃ t d, exec (.collectiveEnd i) s = .next t ∧ t.colls[i]? = some d ∧ d.ended = true ∧ t.convoys = s.convoys ∧
        (∀ a, a < pa ∨ pa + 8 ≤ a → memGet t.mem a = memGet s1.mem a) ∧
        (memWord t.mem pa).toNat % 2 ^ 56 = ((memWord s1.mem pa).toNat + 1) % 2 ^ 56 ∧
        (memWord t.mem pa).toNat / 2 ^ 56 = if st = 0 then (memWord s1.mem pa).toNat / 2 ^ 56 else st))

/-- The events of launches (R69, R108, R332, R333, R335, R337, R340 to R342, R344): a ring's next record enters its FIFO and takes the next launch id, where the queue has taken no record in this cycle and no LAUNCH word offers one; an eligible head is admitted, or removed with its outcome in its status word; the distributor starts the next block of the launch whose turn it is, every convoy at the program with nothing in its registers; a released block leaves its positions and tiles; a launch completes with its outcome; a service block starts in the lay-by in supervisor state. The model's own readings that it rests on: assumption logs 11, 27, 31. -/
def Obligations.LaunchEvents : Prop :=
  (∀ (s : State) (q n : Nat), q < s.hub.queues.length →
    let x := s.queue q
    s.hub.ready.getLsbD 7 = true → x.qctl.getLsbD 8 = true → x.qctl.getLsbD 9 = false → x.stale = false → x.fifo.length < 64 →
    x.entered ≠ some s.clock → nextOffer s q = none → s.hub.posted = [] → ringSize x.qctl = some n → 1 ≤ ringAhead x → ringAhead x ≤ n →
    ∃ t, exec (.ringRecordFetch q) s = .next t ∧ t.mem = s.mem ∧ t.convoys = s.convoys ∧ t.hub.nextId = s.hub.nextId + 1 ∧
      (t.queue q).head = BitVec.ofNat 64 ((x.head.toNat + 1) % 2 ^ 32) ∧ (t.queue q).tail = x.tail ∧ (t.queue q).qctl = x.qctl ∧
      ((t.queue q).fifo.map fun (y : FifoEntry) => (y.id, y.record)) = (x.fifo.map fun (y : FifoEntry) => (y.id, y.record)) ++
        [(s.hub.nextId, memRead s.mem (hostPa (x.rbase.toNat + 128 * (x.head.toNat % n))) 128)] ∧
      ∀ p, p ≠ q → t.queue p = s.queue p) ∧
  (∀ (s : State) (q : Nat) (h : FifoEntry) (rest : List FifoEntry), s.sound = true → q < s.hub.queues.length → (s.queue q).fifo = h :: rest →
    admissible s q h = true →
    let r := parseRecord h.record
    ∃ t, exec (.launchAdmission q) s = .next t ∧ ((t.queue q).fifo.map fun (y : FifoEntry) => (y.id, y.record)) = (rest.map fun (y : FifoEntry) => (y.id, y.record)) ∧
      (rejection s q r = none → t.launches.length = s.launches.length + 1 ∧ t.convoys = s.convoys ∧
        let l := t.launch s.launches.length
        l.id = h.id ∧ l.queue = q ∧ l.rec_ = r ∧ l.nextBlock = 0 ∧ l.completed = false ∧ l.terminated = none ∧ (r.mode < 2 → l.key = r.key)) ∧
      (∀ detail cause, rejection s q r = some (detail, cause) → t.launches = s.launches ∧
        (r.status = 0 → t.mem = s.mem) ∧
        ∀ pa, r.status ≠ 0 → deviceXlate s q r.status true = .inr pa →
          Delivered s t pa (leBytes 8 (2 * 2 ^ 56 + cause * 2 ^ 48 + detail * 2 ^ 40)))) ∧
  (∀ (s : State) (li core : Nat) (room : Room), li < s.launches.length → s.hub.freedAt ≠ some s.clock → placingLaunch s (placingOrder s) = some li →
    (s.launch li).rec_.allResident = false → chooseCore s li = some core → findRoom s li core = some room →
    let r := (s.launch li).rec_
    ∃ t, exec (.blockPlacement li) s = .next t ∧ t.mem = s.mem ∧ (t.launch li).nextBlock = (s.launch li).nextBlock + 1 ∧
      t.blocks.length = s.blocks.length + 1 ∧ t.convoys.length = s.convoys.length + room.places.length ∧
      (∀ j, j < s.convoys.length → t.convoy j = s.convoy j) ∧ (∀ j, j < s.blocks.length → t.block j = s.block j) ∧
      (let b := t.block s.blocks.length
       b.launch = li ∧ b.index = (s.launch li).nextBlock ∧ b.core = core ∧ b.follower = (if r.tandem then some (core + 1) else none) ∧
         b.base = room.base ∧ b.size = r.lstore ∧ b.state = .running ∧ b.ls = LocalStore.empty ∧
         b.convoys = (List.range room.places.length).map (s.convoys.length + ·)) ∧
      ∀ (i k h p : Nat), room.places[i]? = some (k, h, p) →
        let c := t.convoy (s.convoys.length + i)
        c.core = k ∧ c.slot = h ∧ c.pos = p ∧ c.width = r.width ∧ c.budget = r.budget ∧ c.launch = li ∧ c.block = s.blocks.length ∧ c.index = i ∧
          c.priv = 0 ∧ c.live = fullMask r.width ∧ c.ended = false ∧ c.loops = [] ∧ c.holds = [] ∧ c.flags = 0 ∧
          (∀ l, l < r.width → (c.lane l).pc = BitVec.ofNat 48 r.program ∧ (c.lane l).draw = 0) ∧
          ∀ n, (∀ l, c.readV n l = 0 ∧ c.readM n l = Moment.zero) ∧ c.readS n = 0 ∧ c.readAff n = Affine.zero ∧ c.readG n = Moment.zero ∧
            (n ≠ 0 → c.readKn n = 0)) ∧
  (∀ (s : State) (bi : Nat), bi < s.blocks.length → releasable s bi = true → (s.block bi).kind = .ordinary →
    ∃ t, exec (.blockRelease bi) s = .next t ∧ t.mem = s.mem ∧ (t.block bi).state = .freed ∧ (∀ j, j ≠ bi → t.block j = s.block j) ∧
      t.convoys = s.convoys ∧ (∀ k, k = (s.block bi).core ∨ (s.block bi).follower = some k → ∀ n, ((t.core k).tile n).claim ≠ some bi) ∧
      ∀ ci ∈ (s.block bi).convoys, (t.slotAt (s.convoy ci).core (s.convoy ci).slot).positions.getD (s.convoy ci).pos none = none) ∧
  (∀ (s : State) (li : Nat), s.sound = true → li < s.launches.length → completable s li = true → (s.launch li).recording = false →
    (s.launch li).rec_.mode ≠ 1 →
    let l := s.launch li
    ∃ t, exec (.launchCompletion li) s = .next t ∧ (t.launch li).completed = true ∧ (∀ j, j ≠ li → t.launch j = s.launch j) ∧ t.blocks = s.blocks ∧
      (l.rec_.eventFlags.getLsbD 0 = true → l.rec_.event.toNat ∈ t.hub.events) ∧ (l.rec_.status = 0 → t.mem = s.mem) ∧
      ∀ pa, l.rec_.status ≠ 0 → deviceXlate s l.queue l.rec_.status true = .inr pa → Delivered s t pa (leBytes 8 (match l.terminated with
        | none => 2 ^ 56 + l.endedBlocks
        | some cause => 3 * 2 ^ 56 + cause.toNat * 2 ^ 48 + l.endedBlocks))) ∧
  (∀ (s : State) (sv : Nat) (v : ServiceOp), s.services[sv]? = some v → serviceReady s sv = true → v.core < s.cores.length →
    31 < (s.core v.core).slots.length →
    ∃ t, exec (.serviceBlockDispatch sv) s = .next t ∧ t.blocks.length = s.blocks.length + 1 ∧ t.convoys.length = s.convoys.length + 1 ∧
      (∀ j, j < s.convoys.length → t.convoy j = s.convoy j) ∧ t.services = s.services.set sv { v with since := none, layby := some s.blocks.length } ∧
      (t.block s.blocks.length).kind = .service sv ∧ (t.block s.blocks.length).core = v.core ∧
      (let c := t.convoy s.convoys.length
       c.core = v.core ∧ c.slot = 31 ∧ c.pos = 0 ∧ c.width = 64 ∧ c.priv = 2 ∧ c.readS 0 = BitVec.ofNat 64 v.record ∧
         ∀ l, l < 64 → (c.lane l).pc = s.hub.svcProgram.setWidth 48) ∧
      (t.slotAt v.core 31).positions.getD 0 none = some s.convoys.length)

/-- The control window and the memory window (R333, R347, R356, R357, R359 to R362, R364, R365): what a write to each register keeps, the doorbell's error and its end, reads of registers, the start of a command, the size of the window, reads and writes of memory, and the migration of a frame; an access to an armed frame waits at the head of its link. The model's own readings that it rests on: assumption logs 33, 35, 38. -/
def Obligations.WindowEvents : Prop :=
  ∀ (s : State), (s.hub.ready.getLsbD 0 = false → ∀ off size v, (size = 4 ∨ size = 8) → off % size = 0 → off < 2 ^ 26 →
      exec (.controlRegisterWrite off size v) s = .next s ∧ hostAccess s (.registerRead off size) = { s with outputs := s.outputs ++ [.registerReply none] }) ∧
   (s.hub.ready.getLsbD 0 = true →
    (∀ (q : Nat) (v : W64), q < s.hub.queues.length →
      let x := s.queue q
      (∃ t, exec (.tail q v) s = .next t ∧ (t.queue q).tail = BitVec.ofNat 64 (v.toNat % 2 ^ 32) ∧ (t.queue q).head = x.head ∧ (∀ p, p ≠ q → t.queue p = s.queue p) ∧
        let n := 2 ^ (x.qctl.toNat % 16)
        ((v.toNat % 2 ^ 32 + 2 ^ 32 - x.head.toNat) % 2 ^ 32 ≤ n → (t.queue q).qctl = x.qctl ∧ (t.queue q).stale = false) ∧
        (n < (v.toNat % 2 ^ 32 + 2 ^ 32 - x.head.toNat) % 2 ^ 32 → (t.queue q).qctl.getLsbD 9 = true ∧ (t.queue q).qctl.getLsbD 8 = false ∧ (t.queue q).stale = true)) ∧
      (x.stale = true → exec (.ringRecordFetch q) s = .next s) ∧
      (∃ t, exec (.qctl q v) s = .next t ∧ (∀ p, p ≠ q → t.queue p = s.queue p) ∧ (t.queue q).qctl.getLsbD 8 = v.getLsbD 8 ∧ (t.queue q).stale = x.stale ∧
        (t.queue q).qctl.getLsbD 9 = (x.qctl.getLsbD 9 && !v.getLsbD 9) ∧
        ∀ b ∈ [0, 1, 2, 3, 10, 11], (t.queue q).qctl.getLsbD b = if x.qctl.getLsbD 8 then x.qctl.getLsbD b else v.getLsbD b)) ∧
    (∀ off size v, ¬ ((size = 4 ∨ size = 8) ∧ off % size = 0 ∧ off < 2 ^ 26) →
      exec (.controlRegisterWrite off size v) s = .next { s with outputs := s.outputs ++ [.registerReply none] } ∧
      hostAccess s (.registerRead off size) = { s with outputs := s.outputs ++ [.registerReply none] }) ∧
    (∀ p ∈ [(0, 0x10100), (0x08, Config.serial), (0x10, s.hub.ready), (0x20, s.hub.errsum), (0x28, s.hub.mwbase), (0x30, s.hub.ckstat), (0x38, 0)],
      hostAccess s (.registerRead p.1 8) = { s with outputs := s.outputs ++ [.registerReply (some p.2)] } ∧
      hostAccess s (.registerRead p.1 4) = { s with outputs := s.outputs ++ [.registerReply (some (p.2 &&& 0xFFFFFFFF))] } ∧
      hostAccess s (.registerRead (p.1 + 4) 4) = { s with outputs := s.outputs ++ [.registerReply (some (p.2 >>> 32))] }) ∧
    (∀ n, 28 ≤ n → n ≤ 38 → 2 ^ n ≤ s.hub.blob.window →
      hostAccess s (.resize n) = { s with hub := { s.hub with window := 2 ^ n, mwbase := BitVec.ofNat 64 (s.hub.mwbase.toNat / 2 ^ n * 2 ^ n) } }) ∧
    (∀ (v : W64),
      (∀ i, i < 6 → exec (.controlRegisterWrite (0x108 + 8 * i) 8 v) s = .next { s with hub := { s.hub with mbarg := s.hub.mbarg.set i v } }) ∧
      (s.hub.mbcmd = none → exec (.controlRegisterWrite 0x100 8 v) s =
        .next { s with hub := { s.hub with mbcmd := some (BitVec.ofNat 8 (v.toNat / 2 ^ 16), BitVec.ofNat 16 v.toNat) } }) ∧
      (s.hub.mbcmd.isSome = true → ∃ t, exec (.controlRegisterWrite 0x100 8 v) s = .next t ∧ ErrSet s t 8) ∧
      (∃ t, exec (.controlRegisterWrite 0x20 8 v) s = .next t ∧ t = { s with hub := { s.hub with errsum := t.hub.errsum } } ∧
        ∀ b, t.hub.errsum.getLsbD b = (s.hub.errsum.getLsbD b && !(v.getLsbD b && [1, 3, 5, 7, 8, 9, 10, 11].contains b))) ∧
      (∀ k, k < 17 →
        let table : W64 := if (s.hub.roots.getD k 0).getLsbD 0 then s.hub.roots.getD k 0 else v
        exec (.controlRegisterWrite (0x1400 + 0x10 * k) 8 v) s =
          .next { s with hub := { s.hub with roots := s.hub.roots.set k ((table &&& 0x3FFFFFFE0000) ||| (v &&& 1)) } }) ∧
      (∀ q, q < s.hub.queues.length → q < 16 → ∃ t, exec (.controlRegisterWrite (0x1000 + 0x40 * q) 8 v) s = .next t ∧
        (t.queue q).rbase = if (s.queue q).qctl.getLsbD 8 then (s.queue q).rbase else BitVec.ofNat 64 (v.toNat / 4096 * 4096))) ∧
    (∀ off n bs, n = bs.length → 1 ≤ n →
      let a := s.hub.mwbase.toNat + off
      (s.hub.ready.getLsbD 6 = false → ∀ w ∈ [Instr.memoryWindowRead off n, .memoryWindowWrite off bs], ∃ t, exec w s = .next t ∧ t.mem = s.mem ∧
        t.hub.errsum.getLsbD 7 = true ∧ .windowReply none ∈ t.outputs) ∧
      (s.hub.ready.getLsbD 6 = true → (s.hub.window < off + n ∨ 192 * 2 ^ 30 < a + n) →
        ∀ w ∈ [Instr.memoryWindowRead off n, .memoryWindowWrite off bs], exec w s = .next { s with outputs := s.outputs ++ [.windowReply none] }) ∧
      (s.hub.ready.getLsbD 6 = true → off + n ≤ s.hub.window → a + n ≤ 192 * 2 ^ 30 → (armedFrame s a = true ∨ armedFrame s (a + n - 1) = true) →
        ∀ w ∈ [Instr.memoryWindowRead off n, .memoryWindowWrite off bs], hostWaits s w = true ∧ exec w s = .next s) ∧
      (s.hub.ready.getLsbD 6 = true → off + n ≤ s.hub.window → a + n ≤ 192 * 2 ^ 30 → armedFrame s a = false → armedFrame s (a + n - 1) = false →
        ((∃ x ∈ s.memErrs, 32 * x < a + n ∧ a < 32 * x + 32) →
          exec (.memoryWindowRead off n) s = .next { s with outputs := s.outputs ++ [.windowReply none] }) ∧
        ((∀ x ∈ s.memErrs, ¬ (32 * x < a + n ∧ a < 32 * x + 32)) →
          exec (.memoryWindowRead off n) s = .next { s with outputs := s.outputs ++ [.windowReply (some (memRead s.mem a n))] }) ∧
        (s.sound = true → ∃ t, exec (.memoryWindowWrite off bs) s = .next t ∧ Wrote s t a bs ∧ t.hub = s.hub ∧ t.outputs = s.outputs))) ∧
    (∀ (i : Nat) (v : W64), i < s.hub.migrations.length →
      let m := s.migration i
      let size := fun (c : W64) => if c.getLsbD 1 then 2 ^ 21 else 2 ^ 16
      (m.mctl.getLsbD 0 = false → ∃ t, exec (.migrationArm i v) s = .next t ∧ t.mem = s.mem ∧ (t.migration i).mctl = (v &&& 2) ||| 1 ∧
        (t.migration i).msrc = m.msrc ∧ (t.migration i).mdst = m.mdst ∧ (t.migration i).frame = memRead s.mem m.msrc.toNat (size v)) ∧
      (m.mctl.getLsbD 0 = true → ∃ t, exec (.migrationDisarm i v) s = .next t ∧ t.mem = s.mem ∧ (t.migration i).mctl = m.mctl &&& 2) ∧
      (migrating s i = true → s.sound = true → m.frame.length = size m.mctl → m.msrc.toNat % size m.mctl = 0 → m.mdst.toNat % size m.mctl = 0 →
        m.msrc.toNat + size m.mctl ≤ 192 * 2 ^ 30 → m.mdst.toNat + size m.mctl ≤ 192 * 2 ^ 30 →
        ((∀ x ∈ s.memErrs, ¬ (32 * x < m.msrc.toNat + size m.mctl ∧ m.msrc.toNat < 32 * x + 32)) →
          ∃ t, exec (.migrationCopyDone i) s = .next t ∧ Wrote s t m.mdst.toNat m.frame ∧ (t.migration i).mctl = m.mctl ||| 4) ∧
        ((∃ x ∈ s.memErrs, 32 * x < m.msrc.toNat + size m.mctl ∧ m.msrc.toNat < 32 * x + 32) →
          ∃ t, exec (.migrationCopyDone i) s = .next t ∧ t.mem = s.mem ∧ (t.migration i).mctl = m.mctl ||| 8))))

/-- The command mailbox (R119, R336, R342, R363, R365 to R367, R370, R375, R376): a command whose READY bit is clear answers status 3 and does nothing; SUMMARY writes its 4,096 bytes; ATTEST writes this module's response or asks a peer, whose answer completes it; EVSET, EVCLR, COMMSET, COMMCLR, SVCSET, WLSET, DOMSET, PWRLIM and FWLOAD have their effects and answer status 0; an unassigned code answers status 2. The model's own readings that it rests on: assumption log 33. -/
def Obligations.HubCommands : Prop :=
  ∀ (s : State) (seq : BitVec 16), s.sound = true →
    let arg : Nat → Nat := fun i => (s.hub.mbarg.getD i 0).toNat
    let buffer : Nat → Nat → List Byte := fun i n => memRead s.mem (hostPa (arg i)) n
    let fits : Nat → Nat → Prop := fun i n => arg i + n ≤ 2 ^ 44
    let nonce := buffer 0 32
    let mine := attestBytes s nonce
    (∀ p ∈ commandCodes, s.hub.mbcmd = some (p.2.1, seq) → s.hub.attesting = none → s.hub.ready.getLsbD p.2.2 = false →
      ∃ t, exec (p.1 seq) s = .next t ∧ Answered t seq 3 0 ∧ t.mem = s.mem ∧ t.convoys = s.convoys ∧ t.launches = s.launches ∧ t.hub.events = s.hub.events) ∧
    (Commanded s 0x01 seq 2 → arg 0 % 4096 = 0 → fits 0 4096 →
      ∃ t, exec (.summary seq) s = .next t ∧ Answered t seq 0 0 ∧ Wrote s t (hostPa (arg 0)) (summaryBytes s) ∧ (summaryBytes s).length = 4096) ∧
    (Commanded s 0x02 seq 3 → fits 0 32 →
      (arg 1 = 0xFF → ∃ t, exec (.attest seq) s = .next t ∧ Answered t seq 0 (mine.length % 2 ^ 32) ∧ Wrote s t (hostPa (arg 0)) mine) ∧
      (arg 1 ≤ 63 → s.hub.ready.getLsbD 8 = true → peerReachable s.hub (arg 1) = true →
        exec (.attest seq) s = .next { s with hub := { s.hub with attesting := some seq }, outputs := s.outputs ++ [.attestRequest (arg 1) nonce] })) ∧
    (s.hub.attesting = some seq →
      (∃ t, exec (.peerAttestResponse []) s = .next t ∧ Answered t seq 5 0 ∧ t.mem = s.mem) ∧
      (∀ bs, bs ≠ [] → ∃ t, exec (.peerAttestResponse bs) s = .next t ∧ Answered t seq 0 (bs.length % 2 ^ 32) ∧ Wrote s t (hostPa (arg 0)) bs)) ∧
    (∀ peer n, exec (.peerAttestRequest peer n) s = .next { s with outputs := s.outputs ++ [.attestResponse peer (if s.hub.ready.getLsbD 8 then attestBytes s n else [])] }) ∧
    (Commanded s 0x05 seq 7 → ∃ t, exec (.evset seq) s = .next t ∧ Answered t seq 0 0 ∧ (∀ x, x ∈ t.hub.events ↔ x ∈ s.hub.events ∨ x = arg 0 % 65536) ∧
      (∀ j, j < s.convoys.length → Released s t j (waitsFor (arg 0 % 65536))) ∧
      ∀ j h ev sc k, j < s.convoys.length → h ∈ (s.convoy j).holds ++ (s.convoy j).rvHolds ++ (s.convoy j).hrvHolds → h.kind = .waitev ev sc (some k) →
        ev.toNat = arg 0 % 65536 → (j, k) ∈ t.hub.scans) ∧
    (Commanded s 0x06 seq 7 → ∃ t, exec (.evclr seq) s = .next t ∧ Answered t seq 0 0 ∧ (∀ x, x ∈ t.hub.events ↔ x ∈ s.hub.events ∧ x ≠ arg 0 % 65536) ∧
      t.convoys = s.convoys) ∧
    (Commanded s 0x09 seq 7 → arg 0 ≤ 63 → arg 0 < s.hub.comms.length → 2 ≤ arg 1 → arg 1 ≤ 64 → arg 2 < arg 1 → fits 4 64 →
      (∀ m ∈ (buffer 4 64).take (arg 1), m.toNat ≤ 63) →
      ((∀ c ∈ s.colls, c.slot = arg 0 → c.ended = true) → ∃ t, exec (.commset seq) s = .next t ∧ Answered t seq 0 0 ∧ t.hub.comms.getD (arg 0) none = some
        { n := arg 1, rank := arg 2, seed := s.hub.mbarg.getD 3 0, modules := ((buffer 4 64).take (arg 1)).map BitVec.toNat, taken := 0 }) ∧
      ((∃ c ∈ s.colls, c.slot = arg 0 ∧ c.ended = false) → ∃ t, exec (.commset seq) s = .next t ∧ Answered t seq 4 0 ∧ t.hub.comms = s.hub.comms)) ∧
    (Commanded s 0x0A seq 7 → arg 0 ≤ 63 → (∀ c ∈ s.colls, c.slot = arg 0 → c.ended = true) →
      ∃ t, exec (.commclr seq) s = .next t ∧ Answered t seq 0 0 ∧ t.hub.comms = s.hub.comms.set (arg 0) none) ∧
    (Commanded s 0x0B seq 7 → arg 0 % 8 = 0 → arg 0 < 2 ^ 48 →
      ∃ t, exec (.svcset seq) s = .next t ∧ Answered t seq 0 0 ∧ t.hub.svcProgram = BitVec.ofNat 64 (arg 0)) ∧
    (Commanded s 0x0C seq 7 → arg 0 % 16 = 0 → arg 0 + 16 * arg 1 ≤ 192 * 2 ^ 30 → waitEntries s true = 0 →
      ∃ t, exec (.wlset seq) s = .next t ∧ Answered t seq 0 0 ∧ t.hub.waitListAt = arg 0 ∧ t.hub.waitListSize = arg 1) ∧
    (Commanded s 0x0D seq 5 → arg 0 ≤ 63 → fits 1 128 → (s.hub.ready.getLsbD 7 = true → arg 0 = s.hub.ownModule) →
      ∃ t, exec (.domset seq) s = .next t ∧ Answered t seq 0 0 ∧ t.hub.ownModule = arg 0 ∧ t.hub.domsetAt = some s.clock ∧
        t.hub.portMasks = (List.range 64).map fun p => BitVec.ofNat 16 (bytesNat (buffer 1 128) (2 * p) 2)) ∧
    (Commanded s 0x0E seq 1 →
      (600 ≤ arg 0 → arg 0 ≤ 1500 → arg 0 % 10 = 0 → ∃ t, exec (.pwrlim seq) s = .next t ∧ Answered t seq 0 0 ∧ t.hub.cap = arg 0) ∧
      (arg 0 < 600 ∨ 1500 < arg 0 ∨ arg 0 % 10 ≠ 0 → ∃ t, exec (.pwrlim seq) s = .next t ∧ Answered t seq 2 0 ∧ t.hub.cap = s.hub.cap)) ∧
    (Commanded s 0x0F seq 3 → arg 2 ≤ 1 → arg 3 ≤ 1 → fits 0 (arg 1) → s.hub.flash.length = 2 →
      ∃ t, exec (.fwload seq) s = .next t ∧ if Config.imageVerifies (buffer 0 (arg 1))
        then Answered t seq 0 0 ∧ (t.hub.flash.getD (arg 2) FlashSlot.default).firmware = buffer 0 (arg 1) ∧
          (t.hub.activeSlot = if arg 3 = 1 then arg 2 else s.hub.activeSlot) ∧ t.hub.bootFlash = s.hub.bootFlash ∧ t.hub.bootSlot = s.hub.bootSlot
        else Answered t seq 5 0 ∧ t.hub.flash = s.hub.flash ∧ t.hub.activeSlot = s.hub.activeSlot) ∧
    (∀ code : Byte, code = 0 ∨ 0x11 < code.toNat → Commanded s code seq 0 →
      ∃ t, exec (.mbcmdUnassigned code seq) s = .next t ∧ Answered t seq 2 0 ∧ t.mem = s.mem ∧ t.convoys = s.convoys)

/-- The commands that act on launches, convoys and blocks (R317, R319, R322, R331, R343 to R345, R366): KILL terminates a running launch with CAUSE 0; PARKCTL resumes a parked convoy that is not double-trapped, or terminates its launch with its CAUSE; PREEMPT fills the hub's fields of the record, stops a running block's convoys and opens a service operation; REINSTATE reserves room for a saved block and fills the record. The model's own readings that it rests on: assumption log 31. -/
def Obligations.BlockCommands : Prop :=
  ∀ (s : State) (seq : BitVec 16),
    let arg : Nat → Nat := fun i => (s.hub.mbarg.getD i 0).toNat
    (Commanded s 0x07 seq 7 →
      (∀ li, findLaunch s (arg 0) = some li → ∃ t, exec (.kill seq) s = .next t ∧ Answered t seq 0 0 ∧ (t.launch li).terminated = some 0 ∧ t.mem = s.mem ∧
        (∀ j, (s.convoy j).launch = li → t.runnable (t.convoy j) = 0) ∧ ∀ j, (s.convoy j).launch ≠ li → t.convoy j = s.convoy j) ∧
      (findLaunch s (arg 0) = none → ∃ t, exec (.kill seq) s = .next t ∧ Answered t seq 4 0 ∧ t.launches = s.launches ∧ t.convoys = s.convoys)) ∧
    (Commanded s 0x08 seq 7 →
      (arg 1 = 1 → (∀ ci, parkedAt s = some ci → ci < s.convoys.length →
          ((s.convoy ci).doubled = false → ∃ t, exec (.parkctlResume seq) s = .next t ∧ Answered t seq 0 0 ∧ t.convoys = s.convoys.set ci { s.convoy ci with parked := false }) ∧
          ((s.convoy ci).doubled = true → ∃ t, exec (.parkctlResume seq) s = .next t ∧ Answered t seq 4 0 ∧ t.convoys = s.convoys)) ∧
        (parkedAt s = none → ∃ t, exec (.parkctlResume seq) s = .next t ∧ Answered t seq 4 0 ∧ t.convoys = s.convoys)) ∧
      (arg 1 ≠ 1 → arg 1 ≠ 2 → ∃ t, exec (.parkctlResume seq) s = .next t ∧ Answered t seq 2 0 ∧ t.convoys = s.convoys) ∧
      (arg 1 = 2 → ∀ ci, parkedAt s = some ci → ci < s.convoys.length → (s.convoy ci).launch < s.launches.length →
        (s.launch (s.convoy ci).launch).completed = false → (s.launch (s.convoy ci).launch).terminated = none →
        ∃ t, exec (.parkctlTerminate seq) s = .next t ∧ Answered t seq 0 0 ∧ t.mem = s.mem ∧ t.runnable (t.convoy ci) = 0 ∧
          (t.launch (s.convoy ci).launch).terminated = some (BitVec.ofNat 8 (s.convoy ci).trap.cause.toNat))) ∧
    (∀ bi, Commanded s 0x10 seq 7 → findBlock s (arg 0) (arg 1) = some bi → (s.block bi).state = .running → (s.block bi).follower = none →
      serviceOpen s bi = false → recordUsable s (arg 2) = true →
      ∃ t, exec (.preempt seq) s = .next t ∧ Answered t seq 0 0 ∧ (t.block bi).state = .saving ∧
        RecordFilled s t (newService (arg 2) false (s.block bi).core bi false) ((coreConvoysOf s bi (s.block bi).core).map s.convoy) ∧
        t.services = s.services ++ [newService (arg 2) false (s.block bi).core bi false] ∧
        (∀ ci ∈ (s.block bi).convoys, ci < s.convoys.length → (t.convoy ci).stopped = true ∧ t.runnable (t.convoy ci) = 0 ∧ (t.convoy ci).lanes = (s.convoy ci).lanes) ∧
        (∀ j, j ∉ (s.block bi).convoys → t.convoy j = s.convoy j) ∧
        ∀ (i : Nat) (o : CopyOp), s.copies[i]? = some o → o.block = bi → o.phase ≠ .joined → t.copies[i]? = some { o with paused := true }) ∧
    (∀ bi room, Commanded s 0x11 seq 7 → recordUsable s (arg 0) = true →
      findBlock s (recordField s (arg 0 + 8) 8) (recordField s (arg 0 + 0x10) 4) = some bi → (s.block bi).state = .saved → (s.block bi).follower = none →
      restoreEligible s (s.block bi) (arg 1) = true → findRoom s (s.block bi).launch (arg 1) = some room → (s.block bi).convoys.Nodup →
      ∃ t, exec (.reinstate seq) s = .next t ∧ Answered t seq 0 0 ∧ RecordFilled s t (newService (arg 0) true (arg 1) bi false) ((coreConvoysOf t bi (arg 1)).map t.convoy) ∧
        (t.block bi).state = .restoring ∧ (t.block bi).core = arg 1 ∧
        (t.block bi).base = room.base ∧ t.services = s.services ++ [newService (arg 0) true (arg 1) bi false] ∧
        ∀ (i ci k h p : Nat), (s.block bi).convoys[i]? = some ci → room.places[i]? = some (k, h, p) → ci < s.convoys.length →
          (t.convoy ci).core = k ∧ (t.convoy ci).slot = h ∧ (t.convoy ci).pos = p ∧ (t.convoy ci).stopped = true)

/-- Checkpoint and restore (R366, R371 to R374): CHKPT stops admission and begins to quiesce; the quiesced device writes the header's first fields and streams; each chunk goes into the image, with its digest in the header and CHUNK counting it, a line that the stream had read before with the bytes of that moment; at the end the rest of the header is zero, admission resumes and MSI-X vector 2 is raised, or an uncorrectable error fails the checkpoint at its chunk. RESTORE needs a device without launches; chunk by chunk it writes device memory while the digests match, and ends at a bad header, at the first chunk that does not match, or with every chunk, when every L1, every L1 and L2 TLB and every peer copy is empty. The model's own readings that it rests on: assumption log 34. -/
def Obligations.CheckpointEvents : Prop :=
  ∀ (s : State) (seq : BitVec 16), s.sound = true →
    let arg0 := (s.hub.mbarg.getD 0 0).toNat
    let st := s.hub.ckstat.toNat % 16
    let base := hostPa s.hub.ckHost
    let size := 192 * 2 ^ 30
    let j := s.hub.ckstat.toNat / 256 % 2 ^ 32
    let inChunk : Nat → Prop := fun a => 2 ^ 30 * j ≤ a ∧ a < 2 ^ 30 * j + 2 ^ 30
    let bad := ∃ x ∈ s.memErrs, 32 * x < 2 ^ 30 * j + 2 ^ 30 ∧ 2 ^ 30 * j < 32 * x + 32
    let digest : Memory → List Byte := fun m => sha3_256 (memRead m (base + 8192 + 2 ^ 30 * j) (2 ^ 30))
    let given : Memory → List Byte := fun m => memRead m (base + 0x40 + 32 * j) 32
    let header := bytesNat (memRead s.mem base 16) 0 4 = 0x4B504843 ∧ bytesNat (memRead s.mem base 16) 4 4 = 1 ∧ bytesNat (memRead s.mem base 16) 8 8 = size
    let shows : State → Nat → Nat → Prop := fun t state chunk => t.hub.ckstat = BitVec.ofNat 64 (chunk * 256 + state)
    (Commanded s 0x03 seq 7 →
      (st ≠ 1 → st ≠ 2 → arg0 % 4096 = 0 → arg0 + 8192 + size ≤ 2 ^ 44 →
        ∃ t, exec (.chkpt seq) s = .next t ∧ Answered t seq 0 0 ∧ shows t 1 0 ∧ t.hub.ckHost = arg0 ∧ admissionHeld t.hub = true ∧ t.mem = s.mem) ∧
      (st = 1 ∨ st = 2 → ∃ t, exec (.chkpt seq) s = .next t ∧ Answered t seq 4 0 ∧ t.hub.ckstat = s.hub.ckstat)) ∧
    (st = 1 → (∀ l ∈ s.launches, l.completed = true) → (∀ c ∈ s.colls, c.ended = true) →
      ∃ t, exec .checkpointQuiesced s = .next t ∧ shows t 2 0 ∧ t.hub.ckLines = [] ∧ Wrote s t base (padBytes 64 (leBytes 4 0x4B504843 ++ leBytes 4 1 ++ leBytes 8 size ++
        leBytes 8 Config.serial.toNat ++ leBytes 8 s.hub.nextId))) ∧
    (st = 2 → s.hub.ckRestore = false →
      (j < 192 → ¬ bad → (s.hub.ckLines.map Prod.fst).Nodup → (∀ p ∈ s.hub.ckLines, p.2.length = 128) →
        let t := streamChunk s
        shows t 2 (j + 1) ∧ (∀ a, a < size → memGet t.mem a = memGet s.mem a) ∧ given t.mem = digest t.mem ∧
        (∀ a, inChunk a → (∀ p ∈ s.hub.ckLines, p.1 ≠ a / 128) → memGet t.mem (base + 8192 + a) = memGet s.mem a) ∧
        (∀ a, inChunk a → ∀ p ∈ s.hub.ckLines, p.1 = a / 128 → memGet t.mem (base + 8192 + a) = p.2.getD (a % 128) 0) ∧
        ∀ a, ¬ (base + 8192 ≤ a ∧ inChunk (a - (base + 8192))) → ¬ (base + 0x40 + 32 * j ≤ a ∧ a < base + 0x60 + 32 * j) → memGet t.mem a = memGet s.mem a) ∧
      (∀ n, earlyLine s = some n → (captureLine s).mem = s.mem ∧ (captureLine s).hub.ckLines = (n, memRead s.mem (128 * n) 128) :: s.hub.ckLines) ∧
      (192 ≤ j → ∃ t, exec .checkpointStreamEnd s = .next t ∧ shows t 3 192 ∧ t.outputs = s.outputs ++ [.msix 2] ∧
        admissionHeld t.hub = !s.hub.ready.getLsbD 7 ∧ Wrote s t (base + 0x1840) (List.replicate 0x7C0 0)) ∧
      (j < 192 → bad → ∃ t, exec .checkpointStreamEnd s = .next t ∧ shows t 4 j ∧ t.outputs = s.outputs ++ [.msix 2] ∧
        admissionHeld t.hub = !s.hub.ready.getLsbD 7 ∧ ∀ a, a < size → memGet t.mem a = memGet s.mem a)) ∧
    (Commanded s 0x04 seq 7 →
      (st ≠ 1 → st ≠ 2 → (∀ l ∈ s.launches, l.completed = true) → arg0 + 8192 + size ≤ 2 ^ 44 →
        ∃ t, exec (.restore seq) s = .next t ∧ Answered t seq 0 0 ∧ shows t 2 0 ∧ t.hub.ckRestore = true ∧ t.hub.ckHost = arg0 ∧ admissionHeld t.hub = true ∧ t.mem = s.mem) ∧
      ((∃ l ∈ s.launches, l.completed = false) → ∃ t, exec (.restore seq) s = .next t ∧ Answered t seq 4 0 ∧ t.hub.ckstat = s.hub.ckstat)) ∧
    (st = 2 → s.hub.ckRestore = true →
      (j < 192 → (j = 0 → header) → given s.mem = digest s.mem → armedRange s (2 ^ 30 * j) (2 ^ 30) = false → shows (restoreChunk s) 2 (j + 1) ∧
        (∀ a, inChunk a → memGet (restoreChunk s).mem a = memGet s.mem (base + 8192 + a)) ∧ ∀ a, ¬ inChunk a → memGet (restoreChunk s).mem a = memGet s.mem a) ∧
      (j = 0 → ¬ header → ∃ t, exec .restoreEnd s = .next t ∧ t.mem = s.mem ∧ shows t 4 0 ∧ t.outputs = s.outputs ++ [.msix 2]) ∧
      (j < 192 → (j = 0 → header) → given s.mem ≠ digest s.mem →
        ∃ t, exec .restoreEnd s = .next t ∧ t.mem = s.mem ∧ shows t 4 j ∧ t.outputs = s.outputs ++ [.msix 2]) ∧
      (192 ≤ j → ∃ t, exec .restoreEnd s = .next t ∧ t.mem = s.mem ∧ shows t 3 192 ∧ t.outputs = s.outputs ++ [.msix 2] ∧
        admissionHeld t.hub = !s.hub.ready.getLsbD 7 ∧ t.squares = [] ∧ (∀ x ∈ t.dieTlbs, x = []) ∧ ∀ k, (t.core k).l1 = [] ∧ (t.core k).tlb = []))

/-- Start, power, heat and soft errors (R63, R320, R321, R362 to R364, R366 to R369, R376): when the supply is good the start uses the flash as it stands, and stage A sets READY.CFG, PROT, SUMM and ATTR; the firmware of the first slot that verifies runs under that slot's configuration, and measures each microcode image before it loads it; stages B to E set READY.LINK, MEM, CORE and AVE, stage C clearing device memory and stage D writing the core CSRs from the configuration; a stage that fails, or is not done at its deadline, writes FAILSTAGE and FAILCODE and sets ERRSUM.STAGE; heat, power and link events change ERRSUM, a trip stops cores and engines, and a loss of power leaves flash and what lies outside; an uncorrectable error in device memory marks its 32-byte sector, and it or one in a square counts and sets ERRSUM.UNCORR. The cycles of the deadlines are the model's choice for 700 MHz. The model's own readings that it rests on: assumption logs 6, 36, 37, 38. -/
def Obligations.StartAndPower : Prop :=
  ∀ (s : State),
    let set : Nat → Bool := fun b => s.hub.ready.getLsbD b
    let failed : State → Nat → Nat → Prop := fun t stage code => t.hub.ready = s.hub.ready ||| BitVec.ofNat 64 (stage * 2 ^ 24 + code * 2 ^ 16) ∧
      t.hub.errsum.getLsbD 10 = true ∧ t.mem = s.mem
    let none_ := s.hub.ready.extractLsb' 24 8 = 0
    let onTime := missedStage s = none
    let entry : Nat → Nat → List Byte → LogEntry := fun kind slot image =>
      { kind := kind, version := Config.imageVersion image, length := image.length, slot := slot, digest := sha3_256 image }
    let flash : Nat → FlashSlot := fun n => s.hub.bootFlash.getD n FlashSlot.default
    (none_ → set 0 = false → (s.hub.powered = true → onTime) → ∃ t, exec .powerGood s = .next t ∧ t.hub.ready = s.hub.ready ||| 0xF ∧ t.hub.powered = true ∧ t.mem = s.mem ∧
      t.hub.log = s.hub.log ++ [entry 1 0 Config.romImage] ∧
      (s.hub.powered = false → t.hub.goodAt = s.clock ∧ t.hub.bootFlash = s.hub.flash ∧ t.hub.bootSlot = s.hub.activeSlot)) ∧
    (s.hub.powered = true → none_ →
      (∀ p ∈ [(0, 1, 35000000), (4, 1, 84000000), (5, 2, 210000000), (6, 3, 840000000), (7, 4, 1120000000)],
        set p.1 = false → (∀ b ∈ [0, 4, 5, 6, 7], b < p.1 → set b = true) → missedStage s = if s.hub.goodAt + p.2.2 ≤ s.clock then some p.2.1 else none) ∧
      (∀ d, (∀ b ∈ [0, 4, 5, 6, 7], set b = true) → set 8 = false → s.hub.domsetAt = some d → true ∈ s.hub.ports →
        missedStage s = if d + 350000000 ≤ s.clock then some 5 else none)) ∧
    (∀ n, missedStage s = some n → ∃ t, exec .stageDeadlineExpiry s = .next t ∧ failed t n 2) ∧
    (s.hub.powered = true → none_ → onTime →
      (set 0 = true → set 4 = false →
        let a := s.hub.bootSlot
        let runs : State → Nat → Prop := fun t n => StageSet s t 4 ∧ t.hub.bootSlot = n ∧ t.hub.blob = (flash n).config ∧ t.hub.cap = (flash n).config.cap ∧
          t.hub.window = min s.hub.window (flash n).config.window
        ((flash a).genuine = true → ∃ t, exec .firmwareMeasure s = .next t ∧ runs t a ∧
          t.hub.log = s.hub.log ++ [entry 2 a (flash a).blob, entry 3 a (flash a).firmware]) ∧
        ((flash a).genuine = false → (flash (1 - a)).genuine = true → ∃ t, exec .firmwareMeasure s = .next t ∧ runs t (1 - a) ∧
          t.hub.log = s.hub.log ++ [entry 2 a (flash a).blob, entry 3 a (flash a).firmware, entry 2 (1 - a) (flash (1 - a)).blob, entry 3 (1 - a) (flash (1 - a)).firmware]) ∧
        ((flash a).genuine = false → (flash (1 - a)).genuine = false → ∃ t, exec .firmwareMeasure s = .next t ∧ failed t 1 1)) ∧
      (set 4 = true → set 5 = false →
        (∃ t, exec (.stageB 0) s = .next t ∧ StageSet s t 5 ∧ t.mem = s.mem) ∧ ∀ x : Byte, x ≠ 0 → ∃ t, exec (.stageB x) s = .next t ∧ failed t 2 x.toNat) ∧
      (set 5 = true → set 6 = false →
        (s.sound = true → ∃ t, exec (.stageC 0) s = .next t ∧ StageSet s t 6 ∧ t.memErrs = [] ∧ ∀ a, memGet t.mem a = if paIsLocal a then 0 else memGet s.mem a) ∧
        ∀ x : Byte, x ≠ 0 → ∃ t, exec (.stageC x) s = .next t ∧ failed t 3 x.toNat) ∧
      (set 6 = true → set 7 = false →
        (∃ t, exec (.stageD 0) s = .next t ∧ StageSet s t 7 ∧ t.mem = s.mem ∧ t.squares = [] ∧ (∀ x ∈ t.dieTlbs, x = []) ∧ ∀ k, k < s.cores.length →
          (t.core k).enabled = s.hub.blob.cores.getLsbD k ∧ (t.core k).tvec = s.hub.blob.tvec &&& 0xFFFFFFFFFFF8 ∧ (t.core k).wdctl = s.hub.blob.wdctl &&& 1 ∧
          (t.core k).perfen = s.hub.blob.perfen &&& 0xFF ∧ (t.core k).l1 = [] ∧ (t.core k).tlb = [] ∧ (t.core k).tiles = (s.core k).tiles) ∧
        ∀ x : Byte, x ≠ 0 → ∃ t, exec (.stageD x) s = .next t ∧ failed t 4 x.toNat) ∧
      (set 7 = true → set 8 = false → s.hub.domsetAt.isSome = true → true ∈ s.hub.ports →
        (∃ t, exec (.stageE 0) s = .next t ∧ StageSet s t 8 ∧ t.mem = s.mem) ∧ ∀ x : Byte, x ≠ 0 → ∃ t, exec (.stageE x) s = .next t ∧ failed t 5 x.toNat)) ∧
    (s.hub.powered = true → none_ → ¬ onTime → ∀ w ∈ [Instr.powerGood, .firmwareMeasure, .stageB 0, .stageC 0, .stageD 0, .stageE 0], exec w s = .next s) ∧
    (∀ image, set 4 = true → (Config.imageMicrocode (flash s.hub.bootSlot).firmware)[s.hub.loaded]? = some image →
      loadMicrocode s = { s with hub := { s.hub with log := s.hub.log ++ [entry 4 s.hub.bootSlot image], loaded := s.hub.loaded + 1 } }) ∧
    (∀ p ∈ [(Instr.thermalThrottle, 2), (.powerCapEngage, 4), (.linkDegrade, 6)], ∃ t, exec p.1 s = .next t ∧ ErrSet s t p.2) ∧
    (∀ p ∈ [(Instr.thermalThrottleEnd, 2), (.powerCapRelease, 4), (.hostLinkRestore, 6)], ∃ t, exec p.1 s = .next t ∧ ErrCleared s t p.2) ∧
    (∃ t, exec .thermalTrip s = .next t ∧ t.hub.tripped = true ∧ t.hub.errsum.getLsbD 3 = true ∧ t.mem = s.mem ∧ t.convoys = s.convoys ∧
      (∀ k h, slotMoves t k h = []) ∧ engineMoves t = []) ∧
    (s.sound = true → ∃ t, exec .powerLoss s = .next t ∧ t.hub.flash = s.hub.flash ∧ t.hub.activeSlot = s.hub.activeSlot ∧ t.hub.powered = false ∧ t.hub.ready = 0 ∧
      t.hub.errsum = 0 ∧ t.convoys = [] ∧ t.launches = [] ∧ t.cores = State.reset.cores ∧ ∀ a, memGet t.mem a = if paIsLocal a then 0 else memGet s.mem a) ∧
    (∀ u r, s.upsets = u :: r →
      (∀ pa, u = .memory pa → paIsLocal pa = true → (strike s).memErrs = pa / 32 :: s.memErrs ∧ (strike s).hub.errsum.getLsbD 1 = true ∧ (strike s).mem = s.mem) ∧
      (∀ n, u = .counted n → (strike s).hub.counters = s.hub.counters.set n (s.hub.counters.getD n 0 + 1) ∧ (n = 1 ∨ n = 3 → (strike s).hub.errsum.getLsbD 1 = true)))

/-- The checks before a word's own (R43, R49, R52, R54, R58, R62 to R64, R182), stated of the integer words: an empty set completes without effect, whatever the word; a word that R182 refuses raises ILLEGAL; a V register at or beyond the budget raises BUDGET; an error that cannot be corrected (two bits or more, or any in a V register of a launch in detection mode) in a lane that reads it raises SOFTERR; a loop body that ends for part of the live set raises UNIFISS; a uniform destination with less than the live set raises UNIFWR; a word that needs a register still to be written by an access waits; and one that comes too early for a register of fixed latency raises STALLSHORT where the launch checks stall counts, and else waits (R56, R185). The model's own readings that it rests on: assumption logs 16, 36. -/
def Obligations.GateChecks : Prop :=
  ∀ p ∈ integerWords, ∀ (w : FWord) (s : State) (f : Focus) (e : Mask), let c := s.convoy f.convoy
    execSet w.hdr c f.active = e →
    (Ready s f → e = 0 → (backEdge c f.addr = none ∨ f.active = c.live) → ∃ t, exec (p.1 w) s = .next t ∧ Completed s t f 0 []) ∧
    (Ready s f → e ≠ 0 → c.priv < 2 → ¬ (p.1 w).WellFormed → ∃ t, exec (p.1 w) s = .next t ∧ TrapTaken s t f 0x01 f.addr e 0) ∧
    ((p.1 w).WellFormed → e ≠ 0 → c.priv < 2 →
      (Ready s f → (∃ u ∈ intUses w, overBudget c.budget u.1 u.2 = true) → ∃ t, exec (p.1 w) s = .next t ∧ TrapTaken s t f 0x0A f.addr e 0) ∧
      ((∀ u ∈ intUses w, overBudget c.budget u.1 u.2 = false) →
        (Ready s f → backEdge c f.addr ≠ none → (∃ l, c.live.getLsbD l = true ∧ f.active.getLsbD l = false ∧ ∀ h ∈ c.holds, h.kind = .edge → h.lanes.getLsbD l = false) → ∃ t, exec (p.1 w) s = .next t ∧ TrapTaken s t f 0x1D f.addr f.active 0) ∧
        (Ready s f → (backEdge c f.addr = none ∨ f.active = c.live) → isUniformDest w.d = true → e ≠ c.live →
          ∃ t, exec (p.1 w) s = .next t ∧ TrapTaken s t f 0x03 f.addr e 0) ∧
        (∀ (n : BitVec 8) (l b : Nat), s.focus = some f → f.convoy < s.convoys.length → f.core = c.core → f.slot = c.slot → f.core < s.cores.length → s.sound = true →
          c.ready ≤ s.clock → pendingRegs s f.convoy = [] → c.busy = [] → c.lanes.length = c.width → w.x = .v n → c.errs = [{ reg := .v n.toNat, lane := some l, bits := b }] →
          (2 ≤ b ∨ (b = 1 ∧ (s.launchOf c).rec_.detection = true)) → l < 64 → e.getLsbD l = true → ∃ t, exec (p.1 w) s = .next t ∧ TrapTaken s t f 0x19 f.addr (laneBit l) 0) ∧
        (s.focus = some f → c.ready ≤ s.clock → (∃ r ∈ pendingRegs s f.convoy, r ∈ opndRegs w.x (intRegs w) ++ opndRegs w.y (intRegs w) ++ opndRegs w.d (intRegs w)) →
          exec (p.1 w) s = .next s) ∧
        (∀ (r : Reg) (n : Nat), s.focus = some f → f.convoy < s.convoys.length → f.core = c.core → f.slot = c.slot → f.core < s.cores.length → s.sound = true →
          c.ready ≤ s.clock → pendingRegs s f.convoy = [] → c.lanes.length = c.width → c.busy = [{ reg := r, cycle := n, checked := true }] → s.clock < n →
          r ∈ opndRegs w.x (intRegs w) ++ opndRegs w.y (intRegs w) ++ opndRegs w.d (intRegs w) →
          ((s.launchOf c).rec_.stallCheck = true → ∃ t, exec (p.1 w) s = .next t ∧ TrapTaken s t f 0x0E f.addr e 0) ∧
          ((s.launchOf c).rec_.stallCheck = false → exec (p.1 w) s = .next s))))

/-- Every legal instruction word survives encoding and decoding (R173 to R191): its bits are given by the format it belongs to, decode to itself with every operand, and are read from eight little-endian bytes whatever follows them. -/
def Obligations.DecodeEncode : Prop :=
  ∀ i : Instr, i.WellFormed → i.isWord = true → ∃ b : W64, encodeWord i = some b ∧ decodeWord b = .ok i ∧
    (∀ rest, decode (natLe 8 b.toNat ++ rest) = .ok (i, rest)) ∧ decodeTableWord 64 b.toNat = some i ∧
    ∀ b', decodeWord b' = .ok i → b' = b

/-- Some words written out field by field from the encodings of the spec decode to the instructions they stand for, and some decode to none (R173 to R182, R187 to R191, R210): NOP; BRA by one word back under !K2; EXIT with Y; IADD V1, V2, V3 with stall count 2; LD S1, [S2]; MOVPC; CSRW to PERFEN; MOVI V5, 7; the pair IADD V1, V2 and MOV V4, V7; then an unassigned opcode, a NOP with a bit in its offset field, and a pair with its reserved bit set. -/
def Obligations.DecodeWords : Prop :=
  let quiet : Hdr := { stall := 0, y := false, gn := false, gk := 0 }
  let no : Opnd := .sp 0x3F
  let w64 : BitVec 64 → BitVec 64 := id
  decodeWord (w64 (0b11#2 ++ 0b0000#4 ++ 0#1 ++ 0b000000#6 ++ 0#1 ++ 0b000#3 ++ 0b111111111#9 ++ 0#14 ++ 0#24)) =
    .ok (.nop { hdr := quiet, opr := no, aux := 0, off := 0 }) ∧
  decodeWord (w64 (0b11#2 ++ 0b0000#4 ++ 0#1 ++ 0b000001#6 ++ 1#1 ++ 0b010#3 ++ 0b111111111#9 ++ 0#14 ++ 0xFFFFFF#24)) =
    .ok (.bra { hdr := { stall := 0, y := false, gn := true, gk := 2 }, opr := no, aux := 0, off := 0xFFFFFF }) ∧
  decodeWord (w64 (0b11#2 ++ 0b0000#4 ++ 1#1 ++ 0b001001#6 ++ 0#1 ++ 0b000#3 ++ 0b111111111#9 ++ 0#14 ++ 0#24)) =
    .ok (.exit { hdr := { stall := 0, y := true, gn := false, gk := 0 }, opr := no, aux := 0, off := 0 }) ∧
  decodeWord (w64 (0b00#2 ++ 0b0010#4 ++ 0#1 ++ 0b000100000#9 ++ 0#1 ++ 0b000#3 ++ 0b000000001#9 ++ 0b000000010#9 ++ 0b000000011#9 ++ 0b111111111#9 ++ 0#8)) =
    .ok (.iadd { hdr := { stall := 2, y := false, gn := false, gk := 0 }, d := .v 1, x := .v 2, y := .v 3, z := no, mod := 0 }) ∧
  decodeWord (w64 (0b00#2 ++ 0b0000#4 ++ 0#1 ++ 0b010100000#9 ++ 0#1 ++ 0b000#3 ++ 0b100000001#9 ++ 0b100000010#9 ++ 0b110000000#9 ++ 0b111111111#9 ++ 0b00000010#8)) =
    .ok (.ld { hdr := quiet, d := .s 1, x := .s 2, y := .imm 0, z := no, mod := 2 }) ∧
  decodeWord (w64 (0b00#2 ++ 0b0000#4 ++ 0#1 ++ 0b000001001#9 ++ 0#1 ++ 0b000#3 ++ 0b100000100#9 ++ 0b000000000000000000000010000#27 ++ 0#8)) =
    .ok (.movpc { hdr := quiet, d := .s 4, disp := 16, mod := 0 }) ∧
  decodeWord (w64 (0b00#2 ++ 0b0000#4 ++ 0#1 ++ 0b100000001#9 ++ 0#1 ++ 0b000#3 ++ 0b111111111#9 ++ 0b100000001#9 ++ 0b111111111#9 ++ 0b111111111#9 ++ 0x18#8)) =
    .ok (.csrw { hdr := quiet, d := no, x := .s 1, y := no, z := no, mod := 0x18 }) ∧
  decodeWord (w64 (0b10#2 ++ 0b0000#4 ++ 0#1 ++ 0b00000001#8 ++ 0#1 ++ 0b000#3 ++ 0b000000101#9 ++ 0b0000#4 ++ 7#32)) =
    .ok (.movi { hdr := quiet, d := .v 5, imod := 0, imm := 7 }) ∧
  decodeWord (w64 (0b01#2 ++ 0b0000#4 ++ 0#1 ++ 0#1 ++ (0b0000001#7 ++ 0b00000001#8 ++ 0b000000010#9 ++ 0#4) ++ (0b0000000#7 ++ 0b00000100#8 ++ 0b000000111#9 ++ 0#4))) =
    .ok (.pairWord { stall := 0, y := false, h1 := { pop := .iadd, d := 1, x := .v 2, hm := 0 }, h2 := { pop := .mov, d := 4, x := .v 7, hm := 0 } }) ∧
  decodeWord (w64 (0b00#2 ++ 0b0000#4 ++ 0#1 ++ 0b000001010#9 ++ 0#48)) = .error .unassigned ∧
  decodeWord (w64 (0b11#2 ++ 0b0000#4 ++ 0#1 ++ 0b000000#6 ++ 0#1 ++ 0b000#3 ++ 0b111111111#9 ++ 0#14 ++ 1#24)) = .error .illegal ∧
  decodeWord (w64 (0b01#2 ++ 0b0000#4 ++ 0#1 ++ 1#1 ++ (0b0000001#7 ++ 0b00000001#8 ++ 0b000000010#9 ++ 0#4) ++ (0b0000000#7 ++ 0b00000100#8 ++ 0b000000111#9 ++ 0#4))) =
    .error .illegal

/-- A step that issues a word runs what it decodes to (R42, R68, R70, R83, R173, R182, R183, R342): where the move whose turn it is begins the issue of a slot, or tests a held word again, the step executes the slot's convoys one after the other, each in the state that the one before it left; each execution is the meaning of the instruction that the word fetched at the issue address decodes to, in the state with the fetched word, or the trap of a word that does not decode or cannot be fetched; a held word runs as it was decoded. An issue in which some convoy's word must wait changes nothing. What closes the step touches no convoy, no memory, and nothing in flight: it starts the hand-overs of words with Y that have completed by a release, settles the choice of current convoys and who waits for a lay-by, clears the focus, counts the step and draws the next choice. The model's own readings that it rests on: assumption logs 1, 12. -/
def Obligations.StepRunsDecoded : Prop :=
  ∀ (s : State), s.sound = true →
    let closed : State → State := fun t => { settleStep t with focus := none, turn := Config.freeTurn t.steps, steps := t.steps + 1 }
    let first : State → Nat → Nat → Host.Outcome State Fault Refusal → Prop := fun s0 core slot o =>
      ∀ s1 f, focusHead s0 core slot = some (s1, f) →
        s1 = { s0 with focus := some f } ∧ f.core = core ∧ f.slot = slot ∧
        (∀ i, (s1.slotAt core slot).pending.bind Pending.retest = some i → o = exec i s1) ∧
        ((s1.slotAt core slot).pending.bind Pending.retest = none →
          (∀ (s2 : State) (b : W64) (i : Instr), fetchWord s1 f.convoy f.addr = .word s2 b → decodeWord b = .ok i →
            o = exec i s2 ∧ i.WellFormed ∧ s2.focus = some f ∧ s2.convoys = s1.convoys ∧
            LeafBits s1 s2 { core := (s1.convoy f.convoy).core, ctx := s1.ctxOf (s1.convoy f.convoy), write := false, fetch := true, user := (s1.convoy f.convoy).priv != 2 }
              [(0, f.addr.toNat)]) ∧
          (∀ s2 b r, fetchWord s1 f.convoy f.addr = .word s2 b → decodeWord b = .error r → o = execIllegal b s2) ∧
          (∀ s2 cause, fetchWord s1 f.convoy f.addr = .fault s2 cause → o = execFetchFault cause s2))
    let runs : State → Nat → Nat → Prop := fun s0 core slot =>
      let n := ((s0.slotAt core slot).pending.map fun p => p.todo.length).getD 0
      ∀ t, runConvoys core slot n s0 = .next t →
        ((t.slotAt core slot).pending = none → step s = .next (closed t)) ∧ ((t.slotAt core slot).pending.isSome = true → step s = .next (closed s))
    (∀ core slot, pickMove s.turn (moves s) = .issue core slot → runs (beginIssue s core slot) core slot) ∧
    (∀ ci h i, pickMove s.turn (moves s) = .retest ci h i → runs (beginRetest s ci h i) (s.convoy ci).core (s.convoy ci).slot) ∧
    (∀ (core slot : Nat) (s1 s2 t : State) (f : Focus) (b : W64) (i : Instr), pickMove s.turn (moves s) = .issue core slot →
      ((beginIssue s core slot).slotAt core slot).pending.map (fun p => p.todo.length) = some 1 → focusHead (cleanIssue (beginIssue s core slot) core slot) core slot = some (s1, f) →
      fetchWord s1 f.convoy f.addr = .word s2 b → decodeWord b = .ok i → exec i s2 = .next t → (t.slotAt core slot).pending = none → step s = .next (closed t)) ∧
    (∀ core slot, runConvoys core slot 0 s = .next s ∧
      ∀ n t, stepWord (cleanIssue s core slot) core slot = .next t → runConvoys core slot (n + 1) s = runConvoys core slot n t) ∧
    (∀ core slot, first s core slot (stepWord s core slot)) ∧
    (∀ t, let u := settleStep t
      u.convoys = t.convoys ∧ u.blocks = t.blocks ∧ u.launches = t.launches ∧ u.mem = t.mem ∧ u.accesses = t.accesses ∧ u.copies = t.copies ∧
      u.colls = t.colls ∧ u.outputs = t.outputs ∧ u.yields = [] ∧ u.hub = { t.hub with nodes := u.hub.nodes } ∧
      ∀ k, (u.core k).tiles = (t.core k).tiles ∧ (u.core k).queue = (t.core k).queue ∧ (u.core k).l1 = (t.core k).l1 ∧ (u.core k).tlb = (t.core k).tlb)

/-- Every step keeps the invariant: memory, local stores and snapshots stay in canonical form, and every convoy keeps its register files (R10, R69, R75). No step faults or is refused. The model's own readings that it rests on: assumption log 1. -/
def Obligations.StepKeepsSound : Prop := ∀ s : State, s.sound = true → ∃ t, step s = .next t ∧ t.sound = true

/-- The state after reset meets the invariant, and holds what the spec gives at reset (R332, R333, R347, R361 to R363, R371): the next launch id is 1, every queue is off, no event is set, no root is enabled, READY, ERRSUM and CKSTAT are 0 and nothing is in flight. -/
def Obligations.ResetState : Prop :=
  State.reset.sound = true ∧ State.reset.hub.nextId = 1 ∧ State.reset.hub.events = [] ∧ State.reset.hub.ready = 0 ∧ State.reset.hub.errsum = 0 ∧
  State.reset.hub.ckstat = 0 ∧ (∀ q, (State.reset.queue q).qctl = 0) ∧ (∀ k, (State.reset.hub.roots.getD k 0).getLsbD 0 = false) ∧
  State.reset.convoys = [] ∧ State.reset.accesses = [] ∧ (∀ k, (State.reset.core k).tiles = List.replicate 8 Tile.free)
end

