-- ==== Sys2Proof/Laws/State.lean ====
section
/-! SUPPORT. State's updates: what each of them gives every field, and what the named reads give after the named writes. -/

namespace Sys2Proof.Machine

/-! ### setConvoy -/

@[simp] theorem State.setConvoy_convoys (s : State) (i : Nat) (c : Convoy) : (s.setConvoy i c).convoys = s.convoys.set i c := rfl
@[simp] theorem State.setConvoy_blocks (s : State) (i : Nat) (c : Convoy) : (s.setConvoy i c).blocks = s.blocks := rfl
@[simp] theorem State.setConvoy_launches (s : State) (i : Nat) (c : Convoy) : (s.setConvoy i c).launches = s.launches := rfl
@[simp] theorem State.setConvoy_cores (s : State) (i : Nat) (c : Convoy) : (s.setConvoy i c).cores = s.cores := rfl
@[simp] theorem State.setConvoy_mem (s : State) (i : Nat) (c : Convoy) : (s.setConvoy i c).mem = s.mem := rfl
@[simp] theorem State.setConvoy_memErrs (s : State) (i : Nat) (c : Convoy) : (s.setConvoy i c).memErrs = s.memErrs := rfl
@[simp] theorem State.setConvoy_accesses (s : State) (i : Nat) (c : Convoy) : (s.setConvoy i c).accesses = s.accesses := rfl
@[simp] theorem State.setConvoy_squares (s : State) (i : Nat) (c : Convoy) : (s.setConvoy i c).squares = s.squares := rfl
@[simp] theorem State.setConvoy_dieTlbs (s : State) (i : Nat) (c : Convoy) : (s.setConvoy i c).dieTlbs = s.dieTlbs := rfl
@[simp] theorem State.setConvoy_copies (s : State) (i : Nat) (c : Convoy) : (s.setConvoy i c).copies = s.copies := rfl
@[simp] theorem State.setConvoy_colls (s : State) (i : Nat) (c : Convoy) : (s.setConvoy i c).colls = s.colls := rfl
@[simp] theorem State.setConvoy_services (s : State) (i : Nat) (c : Convoy) : (s.setConvoy i c).services = s.services := rfl
@[simp] theorem State.setConvoy_hub (s : State) (i : Nat) (c : Convoy) : (s.setConvoy i c).hub = s.hub := rfl
@[simp] theorem State.setConvoy_clock (s : State) (i : Nat) (c : Convoy) : (s.setConvoy i c).clock = s.clock := rfl
@[simp] theorem State.setConvoy_outputs (s : State) (i : Nat) (c : Convoy) : (s.setConvoy i c).outputs = s.outputs := rfl
@[simp] theorem State.setConvoy_nextAccess (s : State) (i : Nat) (c : Convoy) : (s.setConvoy i c).nextAccess = s.nextAccess := rfl
@[simp] theorem State.setConvoy_steps (s : State) (i : Nat) (c : Convoy) : (s.setConvoy i c).steps = s.steps := rfl
@[simp] theorem State.setConvoy_turn (s : State) (i : Nat) (c : Convoy) : (s.setConvoy i c).turn = s.turn := rfl
@[simp] theorem State.setConvoy_yields (s : State) (i : Nat) (c : Convoy) : (s.setConvoy i c).yields = s.yields := rfl
@[simp] theorem State.setConvoy_links (s : State) (i : Nat) (c : Convoy) : (s.setConvoy i c).links = s.links := rfl
@[simp] theorem State.setConvoy_inputs (s : State) (i : Nat) (c : Convoy) : (s.setConvoy i c).inputs = s.inputs := rfl
@[simp] theorem State.setConvoy_outside (s : State) (i : Nat) (c : Convoy) : (s.setConvoy i c).outside = s.outside := rfl
@[simp] theorem State.setConvoy_upsets (s : State) (i : Nat) (c : Convoy) : (s.setConvoy i c).upsets = s.upsets := rfl
@[simp] theorem State.setConvoy_focus (s : State) (i : Nat) (c : Convoy) : (s.setConvoy i c).focus = s.focus := rfl

/-! ### setBlock -/

@[simp] theorem State.setBlock_convoys (s : State) (i : Nat) (b : Block) : (s.setBlock i b).convoys = s.convoys := rfl
@[simp] theorem State.setBlock_blocks (s : State) (i : Nat) (b : Block) : (s.setBlock i b).blocks = s.blocks.set i b := rfl
@[simp] theorem State.setBlock_launches (s : State) (i : Nat) (b : Block) : (s.setBlock i b).launches = s.launches := rfl
@[simp] theorem State.setBlock_cores (s : State) (i : Nat) (b : Block) : (s.setBlock i b).cores = s.cores := rfl
@[simp] theorem State.setBlock_mem (s : State) (i : Nat) (b : Block) : (s.setBlock i b).mem = s.mem := rfl
@[simp] theorem State.setBlock_memErrs (s : State) (i : Nat) (b : Block) : (s.setBlock i b).memErrs = s.memErrs := rfl
@[simp] theorem State.setBlock_accesses (s : State) (i : Nat) (b : Block) : (s.setBlock i b).accesses = s.accesses := rfl
@[simp] theorem State.setBlock_squares (s : State) (i : Nat) (b : Block) : (s.setBlock i b).squares = s.squares := rfl
@[simp] theorem State.setBlock_dieTlbs (s : State) (i : Nat) (b : Block) : (s.setBlock i b).dieTlbs = s.dieTlbs := rfl
@[simp] theorem State.setBlock_copies (s : State) (i : Nat) (b : Block) : (s.setBlock i b).copies = s.copies := rfl
@[simp] theorem State.setBlock_colls (s : State) (i : Nat) (b : Block) : (s.setBlock i b).colls = s.colls := rfl
@[simp] theorem State.setBlock_services (s : State) (i : Nat) (b : Block) : (s.setBlock i b).services = s.services := rfl
@[simp] theorem State.setBlock_hub (s : State) (i : Nat) (b : Block) : (s.setBlock i b).hub = s.hub := rfl
@[simp] theorem State.setBlock_clock (s : State) (i : Nat) (b : Block) : (s.setBlock i b).clock = s.clock := rfl
@[simp] theorem State.setBlock_outputs (s : State) (i : Nat) (b : Block) : (s.setBlock i b).outputs = s.outputs := rfl
@[simp] theorem State.setBlock_nextAccess (s : State) (i : Nat) (b : Block) : (s.setBlock i b).nextAccess = s.nextAccess := rfl
@[simp] theorem State.setBlock_steps (s : State) (i : Nat) (b : Block) : (s.setBlock i b).steps = s.steps := rfl
@[simp] theorem State.setBlock_turn (s : State) (i : Nat) (b : Block) : (s.setBlock i b).turn = s.turn := rfl
@[simp] theorem State.setBlock_yields (s : State) (i : Nat) (b : Block) : (s.setBlock i b).yields = s.yields := rfl
@[simp] theorem State.setBlock_links (s : State) (i : Nat) (b : Block) : (s.setBlock i b).links = s.links := rfl
@[simp] theorem State.setBlock_inputs (s : State) (i : Nat) (b : Block) : (s.setBlock i b).inputs = s.inputs := rfl
@[simp] theorem State.setBlock_outside (s : State) (i : Nat) (b : Block) : (s.setBlock i b).outside = s.outside := rfl
@[simp] theorem State.setBlock_upsets (s : State) (i : Nat) (b : Block) : (s.setBlock i b).upsets = s.upsets := rfl
@[simp] theorem State.setBlock_focus (s : State) (i : Nat) (b : Block) : (s.setBlock i b).focus = s.focus := rfl

/-! ### setLaunch -/

@[simp] theorem State.setLaunch_convoys (s : State) (i : Nat) (l : Launch) : (s.setLaunch i l).convoys = s.convoys := rfl
@[simp] theorem State.setLaunch_blocks (s : State) (i : Nat) (l : Launch) : (s.setLaunch i l).blocks = s.blocks := rfl
@[simp] theorem State.setLaunch_launches (s : State) (i : Nat) (l : Launch) : (s.setLaunch i l).launches = s.launches.set i l := rfl
@[simp] theorem State.setLaunch_cores (s : State) (i : Nat) (l : Launch) : (s.setLaunch i l).cores = s.cores := rfl
@[simp] theorem State.setLaunch_mem (s : State) (i : Nat) (l : Launch) : (s.setLaunch i l).mem = s.mem := rfl
@[simp] theorem State.setLaunch_memErrs (s : State) (i : Nat) (l : Launch) : (s.setLaunch i l).memErrs = s.memErrs := rfl
@[simp] theorem State.setLaunch_accesses (s : State) (i : Nat) (l : Launch) : (s.setLaunch i l).accesses = s.accesses := rfl
@[simp] theorem State.setLaunch_squares (s : State) (i : Nat) (l : Launch) : (s.setLaunch i l).squares = s.squares := rfl
@[simp] theorem State.setLaunch_dieTlbs (s : State) (i : Nat) (l : Launch) : (s.setLaunch i l).dieTlbs = s.dieTlbs := rfl
@[simp] theorem State.setLaunch_copies (s : State) (i : Nat) (l : Launch) : (s.setLaunch i l).copies = s.copies := rfl
@[simp] theorem State.setLaunch_colls (s : State) (i : Nat) (l : Launch) : (s.setLaunch i l).colls = s.colls := rfl
@[simp] theorem State.setLaunch_services (s : State) (i : Nat) (l : Launch) : (s.setLaunch i l).services = s.services := rfl
@[simp] theorem State.setLaunch_hub (s : State) (i : Nat) (l : Launch) : (s.setLaunch i l).hub = s.hub := rfl
@[simp] theorem State.setLaunch_clock (s : State) (i : Nat) (l : Launch) : (s.setLaunch i l).clock = s.clock := rfl
@[simp] theorem State.setLaunch_outputs (s : State) (i : Nat) (l : Launch) : (s.setLaunch i l).outputs = s.outputs := rfl
@[simp] theorem State.setLaunch_nextAccess (s : State) (i : Nat) (l : Launch) : (s.setLaunch i l).nextAccess = s.nextAccess := rfl
@[simp] theorem State.setLaunch_steps (s : State) (i : Nat) (l : Launch) : (s.setLaunch i l).steps = s.steps := rfl
@[simp] theorem State.setLaunch_turn (s : State) (i : Nat) (l : Launch) : (s.setLaunch i l).turn = s.turn := rfl
@[simp] theorem State.setLaunch_yields (s : State) (i : Nat) (l : Launch) : (s.setLaunch i l).yields = s.yields := rfl
@[simp] theorem State.setLaunch_links (s : State) (i : Nat) (l : Launch) : (s.setLaunch i l).links = s.links := rfl
@[simp] theorem State.setLaunch_inputs (s : State) (i : Nat) (l : Launch) : (s.setLaunch i l).inputs = s.inputs := rfl
@[simp] theorem State.setLaunch_outside (s : State) (i : Nat) (l : Launch) : (s.setLaunch i l).outside = s.outside := rfl
@[simp] theorem State.setLaunch_upsets (s : State) (i : Nat) (l : Launch) : (s.setLaunch i l).upsets = s.upsets := rfl
@[simp] theorem State.setLaunch_focus (s : State) (i : Nat) (l : Launch) : (s.setLaunch i l).focus = s.focus := rfl

/-! ### setCore -/

@[simp] theorem State.setCore_convoys (s : State) (i : Nat) (k : Core) : (s.setCore i k).convoys = s.convoys := rfl
@[simp] theorem State.setCore_blocks (s : State) (i : Nat) (k : Core) : (s.setCore i k).blocks = s.blocks := rfl
@[simp] theorem State.setCore_launches (s : State) (i : Nat) (k : Core) : (s.setCore i k).launches = s.launches := rfl
@[simp] theorem State.setCore_cores (s : State) (i : Nat) (k : Core) : (s.setCore i k).cores = s.cores.set i k := rfl
@[simp] theorem State.setCore_mem (s : State) (i : Nat) (k : Core) : (s.setCore i k).mem = s.mem := rfl
@[simp] theorem State.setCore_memErrs (s : State) (i : Nat) (k : Core) : (s.setCore i k).memErrs = s.memErrs := rfl
@[simp] theorem State.setCore_accesses (s : State) (i : Nat) (k : Core) : (s.setCore i k).accesses = s.accesses := rfl
@[simp] theorem State.setCore_squares (s : State) (i : Nat) (k : Core) : (s.setCore i k).squares = s.squares := rfl
@[simp] theorem State.setCore_dieTlbs (s : State) (i : Nat) (k : Core) : (s.setCore i k).dieTlbs = s.dieTlbs := rfl
@[simp] theorem State.setCore_copies (s : State) (i : Nat) (k : Core) : (s.setCore i k).copies = s.copies := rfl
@[simp] theorem State.setCore_colls (s : State) (i : Nat) (k : Core) : (s.setCore i k).colls = s.colls := rfl
@[simp] theorem State.setCore_services (s : State) (i : Nat) (k : Core) : (s.setCore i k).services = s.services := rfl
@[simp] theorem State.setCore_hub (s : State) (i : Nat) (k : Core) : (s.setCore i k).hub = s.hub := rfl
@[simp] theorem State.setCore_clock (s : State) (i : Nat) (k : Core) : (s.setCore i k).clock = s.clock := rfl
@[simp] theorem State.setCore_outputs (s : State) (i : Nat) (k : Core) : (s.setCore i k).outputs = s.outputs := rfl
@[simp] theorem State.setCore_nextAccess (s : State) (i : Nat) (k : Core) : (s.setCore i k).nextAccess = s.nextAccess := rfl
@[simp] theorem State.setCore_steps (s : State) (i : Nat) (k : Core) : (s.setCore i k).steps = s.steps := rfl
@[simp] theorem State.setCore_turn (s : State) (i : Nat) (k : Core) : (s.setCore i k).turn = s.turn := rfl
@[simp] theorem State.setCore_yields (s : State) (i : Nat) (k : Core) : (s.setCore i k).yields = s.yields := rfl
@[simp] theorem State.setCore_links (s : State) (i : Nat) (k : Core) : (s.setCore i k).links = s.links := rfl
@[simp] theorem State.setCore_inputs (s : State) (i : Nat) (k : Core) : (s.setCore i k).inputs = s.inputs := rfl
@[simp] theorem State.setCore_outside (s : State) (i : Nat) (k : Core) : (s.setCore i k).outside = s.outside := rfl
@[simp] theorem State.setCore_upsets (s : State) (i : Nat) (k : Core) : (s.setCore i k).upsets = s.upsets := rfl
@[simp] theorem State.setCore_focus (s : State) (i : Nat) (k : Core) : (s.setCore i k).focus = s.focus := rfl

/-! ### modConvoy -/

@[simp] theorem State.modConvoy_convoys (s : State) (i : Nat) (f : Convoy → Convoy) : (s.modConvoy i f).convoys = s.convoys.set i (f (s.convoy i)) := rfl
@[simp] theorem State.modConvoy_blocks (s : State) (i : Nat) (f : Convoy → Convoy) : (s.modConvoy i f).blocks = s.blocks := rfl
@[simp] theorem State.modConvoy_launches (s : State) (i : Nat) (f : Convoy → Convoy) : (s.modConvoy i f).launches = s.launches := rfl
@[simp] theorem State.modConvoy_cores (s : State) (i : Nat) (f : Convoy → Convoy) : (s.modConvoy i f).cores = s.cores := rfl
@[simp] theorem State.modConvoy_mem (s : State) (i : Nat) (f : Convoy → Convoy) : (s.modConvoy i f).mem = s.mem := rfl
@[simp] theorem State.modConvoy_memErrs (s : State) (i : Nat) (f : Convoy → Convoy) : (s.modConvoy i f).memErrs = s.memErrs := rfl
@[simp] theorem State.modConvoy_accesses (s : State) (i : Nat) (f : Convoy → Convoy) : (s.modConvoy i f).accesses = s.accesses := rfl
@[simp] theorem State.modConvoy_squares (s : State) (i : Nat) (f : Convoy → Convoy) : (s.modConvoy i f).squares = s.squares := rfl
@[simp] theorem State.modConvoy_dieTlbs (s : State) (i : Nat) (f : Convoy → Convoy) : (s.modConvoy i f).dieTlbs = s.dieTlbs := rfl
@[simp] theorem State.modConvoy_copies (s : State) (i : Nat) (f : Convoy → Convoy) : (s.modConvoy i f).copies = s.copies := rfl
@[simp] theorem State.modConvoy_colls (s : State) (i : Nat) (f : Convoy → Convoy) : (s.modConvoy i f).colls = s.colls := rfl
@[simp] theorem State.modConvoy_services (s : State) (i : Nat) (f : Convoy → Convoy) : (s.modConvoy i f).services = s.services := rfl
@[simp] theorem State.modConvoy_hub (s : State) (i : Nat) (f : Convoy → Convoy) : (s.modConvoy i f).hub = s.hub := rfl
@[simp] theorem State.modConvoy_clock (s : State) (i : Nat) (f : Convoy → Convoy) : (s.modConvoy i f).clock = s.clock := rfl
@[simp] theorem State.modConvoy_outputs (s : State) (i : Nat) (f : Convoy → Convoy) : (s.modConvoy i f).outputs = s.outputs := rfl
@[simp] theorem State.modConvoy_nextAccess (s : State) (i : Nat) (f : Convoy → Convoy) : (s.modConvoy i f).nextAccess = s.nextAccess := rfl
@[simp] theorem State.modConvoy_steps (s : State) (i : Nat) (f : Convoy → Convoy) : (s.modConvoy i f).steps = s.steps := rfl
@[simp] theorem State.modConvoy_turn (s : State) (i : Nat) (f : Convoy → Convoy) : (s.modConvoy i f).turn = s.turn := rfl
@[simp] theorem State.modConvoy_yields (s : State) (i : Nat) (f : Convoy → Convoy) : (s.modConvoy i f).yields = s.yields := rfl
@[simp] theorem State.modConvoy_links (s : State) (i : Nat) (f : Convoy → Convoy) : (s.modConvoy i f).links = s.links := rfl
@[simp] theorem State.modConvoy_inputs (s : State) (i : Nat) (f : Convoy → Convoy) : (s.modConvoy i f).inputs = s.inputs := rfl
@[simp] theorem State.modConvoy_outside (s : State) (i : Nat) (f : Convoy → Convoy) : (s.modConvoy i f).outside = s.outside := rfl
@[simp] theorem State.modConvoy_upsets (s : State) (i : Nat) (f : Convoy → Convoy) : (s.modConvoy i f).upsets = s.upsets := rfl
@[simp] theorem State.modConvoy_focus (s : State) (i : Nat) (f : Convoy → Convoy) : (s.modConvoy i f).focus = s.focus := rfl

/-! ### modBlock -/

@[simp] theorem State.modBlock_convoys (s : State) (i : Nat) (f : Block → Block) : (s.modBlock i f).convoys = s.convoys := rfl
@[simp] theorem State.modBlock_blocks (s : State) (i : Nat) (f : Block → Block) : (s.modBlock i f).blocks = s.blocks.set i (f (s.block i)) := rfl
@[simp] theorem State.modBlock_launches (s : State) (i : Nat) (f : Block → Block) : (s.modBlock i f).launches = s.launches := rfl
@[simp] theorem State.modBlock_cores (s : State) (i : Nat) (f : Block → Block) : (s.modBlock i f).cores = s.cores := rfl
@[simp] theorem State.modBlock_mem (s : State) (i : Nat) (f : Block → Block) : (s.modBlock i f).mem = s.mem := rfl
@[simp] theorem State.modBlock_memErrs (s : State) (i : Nat) (f : Block → Block) : (s.modBlock i f).memErrs = s.memErrs := rfl
@[simp] theorem State.modBlock_accesses (s : State) (i : Nat) (f : Block → Block) : (s.modBlock i f).accesses = s.accesses := rfl
@[simp] theorem State.modBlock_squares (s : State) (i : Nat) (f : Block → Block) : (s.modBlock i f).squares = s.squares := rfl
@[simp] theorem State.modBlock_dieTlbs (s : State) (i : Nat) (f : Block → Block) : (s.modBlock i f).dieTlbs = s.dieTlbs := rfl
@[simp] theorem State.modBlock_copies (s : State) (i : Nat) (f : Block → Block) : (s.modBlock i f).copies = s.copies := rfl
@[simp] theorem State.modBlock_colls (s : State) (i : Nat) (f : Block → Block) : (s.modBlock i f).colls = s.colls := rfl
@[simp] theorem State.modBlock_services (s : State) (i : Nat) (f : Block → Block) : (s.modBlock i f).services = s.services := rfl
@[simp] theorem State.modBlock_hub (s : State) (i : Nat) (f : Block → Block) : (s.modBlock i f).hub = s.hub := rfl
@[simp] theorem State.modBlock_clock (s : State) (i : Nat) (f : Block → Block) : (s.modBlock i f).clock = s.clock := rfl
@[simp] theorem State.modBlock_outputs (s : State) (i : Nat) (f : Block → Block) : (s.modBlock i f).outputs = s.outputs := rfl
@[simp] theorem State.modBlock_nextAccess (s : State) (i : Nat) (f : Block → Block) : (s.modBlock i f).nextAccess = s.nextAccess := rfl
@[simp] theorem State.modBlock_steps (s : State) (i : Nat) (f : Block → Block) : (s.modBlock i f).steps = s.steps := rfl
@[simp] theorem State.modBlock_turn (s : State) (i : Nat) (f : Block → Block) : (s.modBlock i f).turn = s.turn := rfl
@[simp] theorem State.modBlock_yields (s : State) (i : Nat) (f : Block → Block) : (s.modBlock i f).yields = s.yields := rfl
@[simp] theorem State.modBlock_links (s : State) (i : Nat) (f : Block → Block) : (s.modBlock i f).links = s.links := rfl
@[simp] theorem State.modBlock_inputs (s : State) (i : Nat) (f : Block → Block) : (s.modBlock i f).inputs = s.inputs := rfl
@[simp] theorem State.modBlock_outside (s : State) (i : Nat) (f : Block → Block) : (s.modBlock i f).outside = s.outside := rfl
@[simp] theorem State.modBlock_upsets (s : State) (i : Nat) (f : Block → Block) : (s.modBlock i f).upsets = s.upsets := rfl
@[simp] theorem State.modBlock_focus (s : State) (i : Nat) (f : Block → Block) : (s.modBlock i f).focus = s.focus := rfl

/-! ### modLaunch -/

@[simp] theorem State.modLaunch_convoys (s : State) (i : Nat) (f : Launch → Launch) : (s.modLaunch i f).convoys = s.convoys := rfl
@[simp] theorem State.modLaunch_blocks (s : State) (i : Nat) (f : Launch → Launch) : (s.modLaunch i f).blocks = s.blocks := rfl
@[simp] theorem State.modLaunch_launches (s : State) (i : Nat) (f : Launch → Launch) : (s.modLaunch i f).launches = s.launches.set i (f (s.launch i)) := rfl
@[simp] theorem State.modLaunch_cores (s : State) (i : Nat) (f : Launch → Launch) : (s.modLaunch i f).cores = s.cores := rfl
@[simp] theorem State.modLaunch_mem (s : State) (i : Nat) (f : Launch → Launch) : (s.modLaunch i f).mem = s.mem := rfl
@[simp] theorem State.modLaunch_memErrs (s : State) (i : Nat) (f : Launch → Launch) : (s.modLaunch i f).memErrs = s.memErrs := rfl
@[simp] theorem State.modLaunch_accesses (s : State) (i : Nat) (f : Launch → Launch) : (s.modLaunch i f).accesses = s.accesses := rfl
@[simp] theorem State.modLaunch_squares (s : State) (i : Nat) (f : Launch → Launch) : (s.modLaunch i f).squares = s.squares := rfl
@[simp] theorem State.modLaunch_dieTlbs (s : State) (i : Nat) (f : Launch → Launch) : (s.modLaunch i f).dieTlbs = s.dieTlbs := rfl
@[simp] theorem State.modLaunch_copies (s : State) (i : Nat) (f : Launch → Launch) : (s.modLaunch i f).copies = s.copies := rfl
@[simp] theorem State.modLaunch_colls (s : State) (i : Nat) (f : Launch → Launch) : (s.modLaunch i f).colls = s.colls := rfl
@[simp] theorem State.modLaunch_services (s : State) (i : Nat) (f : Launch → Launch) : (s.modLaunch i f).services = s.services := rfl
@[simp] theorem State.modLaunch_hub (s : State) (i : Nat) (f : Launch → Launch) : (s.modLaunch i f).hub = s.hub := rfl
@[simp] theorem State.modLaunch_clock (s : State) (i : Nat) (f : Launch → Launch) : (s.modLaunch i f).clock = s.clock := rfl
@[simp] theorem State.modLaunch_outputs (s : State) (i : Nat) (f : Launch → Launch) : (s.modLaunch i f).outputs = s.outputs := rfl
@[simp] theorem State.modLaunch_nextAccess (s : State) (i : Nat) (f : Launch → Launch) : (s.modLaunch i f).nextAccess = s.nextAccess := rfl
@[simp] theorem State.modLaunch_steps (s : State) (i : Nat) (f : Launch → Launch) : (s.modLaunch i f).steps = s.steps := rfl
@[simp] theorem State.modLaunch_turn (s : State) (i : Nat) (f : Launch → Launch) : (s.modLaunch i f).turn = s.turn := rfl
@[simp] theorem State.modLaunch_yields (s : State) (i : Nat) (f : Launch → Launch) : (s.modLaunch i f).yields = s.yields := rfl
@[simp] theorem State.modLaunch_links (s : State) (i : Nat) (f : Launch → Launch) : (s.modLaunch i f).links = s.links := rfl
@[simp] theorem State.modLaunch_inputs (s : State) (i : Nat) (f : Launch → Launch) : (s.modLaunch i f).inputs = s.inputs := rfl
@[simp] theorem State.modLaunch_outside (s : State) (i : Nat) (f : Launch → Launch) : (s.modLaunch i f).outside = s.outside := rfl
@[simp] theorem State.modLaunch_upsets (s : State) (i : Nat) (f : Launch → Launch) : (s.modLaunch i f).upsets = s.upsets := rfl
@[simp] theorem State.modLaunch_focus (s : State) (i : Nat) (f : Launch → Launch) : (s.modLaunch i f).focus = s.focus := rfl

/-! ### modCore -/

@[simp] theorem State.modCore_convoys (s : State) (i : Nat) (f : Core → Core) : (s.modCore i f).convoys = s.convoys := rfl
@[simp] theorem State.modCore_blocks (s : State) (i : Nat) (f : Core → Core) : (s.modCore i f).blocks = s.blocks := rfl
@[simp] theorem State.modCore_launches (s : State) (i : Nat) (f : Core → Core) : (s.modCore i f).launches = s.launches := rfl
@[simp] theorem State.modCore_cores (s : State) (i : Nat) (f : Core → Core) : (s.modCore i f).cores = s.cores.set i (f (s.core i)) := rfl
@[simp] theorem State.modCore_mem (s : State) (i : Nat) (f : Core → Core) : (s.modCore i f).mem = s.mem := rfl
@[simp] theorem State.modCore_memErrs (s : State) (i : Nat) (f : Core → Core) : (s.modCore i f).memErrs = s.memErrs := rfl
@[simp] theorem State.modCore_accesses (s : State) (i : Nat) (f : Core → Core) : (s.modCore i f).accesses = s.accesses := rfl
@[simp] theorem State.modCore_squares (s : State) (i : Nat) (f : Core → Core) : (s.modCore i f).squares = s.squares := rfl
@[simp] theorem State.modCore_dieTlbs (s : State) (i : Nat) (f : Core → Core) : (s.modCore i f).dieTlbs = s.dieTlbs := rfl
@[simp] theorem State.modCore_copies (s : State) (i : Nat) (f : Core → Core) : (s.modCore i f).copies = s.copies := rfl
@[simp] theorem State.modCore_colls (s : State) (i : Nat) (f : Core → Core) : (s.modCore i f).colls = s.colls := rfl
@[simp] theorem State.modCore_services (s : State) (i : Nat) (f : Core → Core) : (s.modCore i f).services = s.services := rfl
@[simp] theorem State.modCore_hub (s : State) (i : Nat) (f : Core → Core) : (s.modCore i f).hub = s.hub := rfl
@[simp] theorem State.modCore_clock (s : State) (i : Nat) (f : Core → Core) : (s.modCore i f).clock = s.clock := rfl
@[simp] theorem State.modCore_outputs (s : State) (i : Nat) (f : Core → Core) : (s.modCore i f).outputs = s.outputs := rfl
@[simp] theorem State.modCore_nextAccess (s : State) (i : Nat) (f : Core → Core) : (s.modCore i f).nextAccess = s.nextAccess := rfl
@[simp] theorem State.modCore_steps (s : State) (i : Nat) (f : Core → Core) : (s.modCore i f).steps = s.steps := rfl
@[simp] theorem State.modCore_turn (s : State) (i : Nat) (f : Core → Core) : (s.modCore i f).turn = s.turn := rfl
@[simp] theorem State.modCore_yields (s : State) (i : Nat) (f : Core → Core) : (s.modCore i f).yields = s.yields := rfl
@[simp] theorem State.modCore_links (s : State) (i : Nat) (f : Core → Core) : (s.modCore i f).links = s.links := rfl
@[simp] theorem State.modCore_inputs (s : State) (i : Nat) (f : Core → Core) : (s.modCore i f).inputs = s.inputs := rfl
@[simp] theorem State.modCore_outside (s : State) (i : Nat) (f : Core → Core) : (s.modCore i f).outside = s.outside := rfl
@[simp] theorem State.modCore_upsets (s : State) (i : Nat) (f : Core → Core) : (s.modCore i f).upsets = s.upsets := rfl
@[simp] theorem State.modCore_focus (s : State) (i : Nat) (f : Core → Core) : (s.modCore i f).focus = s.focus := rfl

/-! ### modSlot -/

@[simp] theorem State.modSlot_convoys (s : State) (i h : Nat) (f : Slot → Slot) : (s.modSlot i h f).convoys = s.convoys := rfl
@[simp] theorem State.modSlot_blocks (s : State) (i h : Nat) (f : Slot → Slot) : (s.modSlot i h f).blocks = s.blocks := rfl
@[simp] theorem State.modSlot_launches (s : State) (i h : Nat) (f : Slot → Slot) : (s.modSlot i h f).launches = s.launches := rfl
@[simp] theorem State.modSlot_cores (s : State) (i h : Nat) (f : Slot → Slot) : (s.modSlot i h f).cores = s.cores.set i ((s.core i).modSlot h f) := rfl
@[simp] theorem State.modSlot_mem (s : State) (i h : Nat) (f : Slot → Slot) : (s.modSlot i h f).mem = s.mem := rfl
@[simp] theorem State.modSlot_memErrs (s : State) (i h : Nat) (f : Slot → Slot) : (s.modSlot i h f).memErrs = s.memErrs := rfl
@[simp] theorem State.modSlot_accesses (s : State) (i h : Nat) (f : Slot → Slot) : (s.modSlot i h f).accesses = s.accesses := rfl
@[simp] theorem State.modSlot_squares (s : State) (i h : Nat) (f : Slot → Slot) : (s.modSlot i h f).squares = s.squares := rfl
@[simp] theorem State.modSlot_dieTlbs (s : State) (i h : Nat) (f : Slot → Slot) : (s.modSlot i h f).dieTlbs = s.dieTlbs := rfl
@[simp] theorem State.modSlot_copies (s : State) (i h : Nat) (f : Slot → Slot) : (s.modSlot i h f).copies = s.copies := rfl
@[simp] theorem State.modSlot_colls (s : State) (i h : Nat) (f : Slot → Slot) : (s.modSlot i h f).colls = s.colls := rfl
@[simp] theorem State.modSlot_services (s : State) (i h : Nat) (f : Slot → Slot) : (s.modSlot i h f).services = s.services := rfl
@[simp] theorem State.modSlot_hub (s : State) (i h : Nat) (f : Slot → Slot) : (s.modSlot i h f).hub = s.hub := rfl
@[simp] theorem State.modSlot_clock (s : State) (i h : Nat) (f : Slot → Slot) : (s.modSlot i h f).clock = s.clock := rfl
@[simp] theorem State.modSlot_outputs (s : State) (i h : Nat) (f : Slot → Slot) : (s.modSlot i h f).outputs = s.outputs := rfl
@[simp] theorem State.modSlot_nextAccess (s : State) (i h : Nat) (f : Slot → Slot) : (s.modSlot i h f).nextAccess = s.nextAccess := rfl
@[simp] theorem State.modSlot_steps (s : State) (i h : Nat) (f : Slot → Slot) : (s.modSlot i h f).steps = s.steps := rfl
@[simp] theorem State.modSlot_turn (s : State) (i h : Nat) (f : Slot → Slot) : (s.modSlot i h f).turn = s.turn := rfl
@[simp] theorem State.modSlot_yields (s : State) (i h : Nat) (f : Slot → Slot) : (s.modSlot i h f).yields = s.yields := rfl
@[simp] theorem State.modSlot_links (s : State) (i h : Nat) (f : Slot → Slot) : (s.modSlot i h f).links = s.links := rfl
@[simp] theorem State.modSlot_inputs (s : State) (i h : Nat) (f : Slot → Slot) : (s.modSlot i h f).inputs = s.inputs := rfl
@[simp] theorem State.modSlot_outside (s : State) (i h : Nat) (f : Slot → Slot) : (s.modSlot i h f).outside = s.outside := rfl
@[simp] theorem State.modSlot_upsets (s : State) (i h : Nat) (f : Slot → Slot) : (s.modSlot i h f).upsets = s.upsets := rfl
@[simp] theorem State.modSlot_focus (s : State) (i h : Nat) (f : Slot → Slot) : (s.modSlot i h f).focus = s.focus := rfl

/-! ### modHub -/

@[simp] theorem State.modHub_convoys (s : State) (f : Hub → Hub) : (s.modHub f).convoys = s.convoys := rfl
@[simp] theorem State.modHub_blocks (s : State) (f : Hub → Hub) : (s.modHub f).blocks = s.blocks := rfl
@[simp] theorem State.modHub_launches (s : State) (f : Hub → Hub) : (s.modHub f).launches = s.launches := rfl
@[simp] theorem State.modHub_cores (s : State) (f : Hub → Hub) : (s.modHub f).cores = s.cores := rfl
@[simp] theorem State.modHub_mem (s : State) (f : Hub → Hub) : (s.modHub f).mem = s.mem := rfl
@[simp] theorem State.modHub_memErrs (s : State) (f : Hub → Hub) : (s.modHub f).memErrs = s.memErrs := rfl
@[simp] theorem State.modHub_accesses (s : State) (f : Hub → Hub) : (s.modHub f).accesses = s.accesses := rfl
@[simp] theorem State.modHub_squares (s : State) (f : Hub → Hub) : (s.modHub f).squares = s.squares := rfl
@[simp] theorem State.modHub_dieTlbs (s : State) (f : Hub → Hub) : (s.modHub f).dieTlbs = s.dieTlbs := rfl
@[simp] theorem State.modHub_copies (s : State) (f : Hub → Hub) : (s.modHub f).copies = s.copies := rfl
@[simp] theorem State.modHub_colls (s : State) (f : Hub → Hub) : (s.modHub f).colls = s.colls := rfl
@[simp] theorem State.modHub_services (s : State) (f : Hub → Hub) : (s.modHub f).services = s.services := rfl
@[simp] theorem State.modHub_hub (s : State) (f : Hub → Hub) : (s.modHub f).hub = f s.hub := rfl
@[simp] theorem State.modHub_clock (s : State) (f : Hub → Hub) : (s.modHub f).clock = s.clock := rfl
@[simp] theorem State.modHub_outputs (s : State) (f : Hub → Hub) : (s.modHub f).outputs = s.outputs := rfl
@[simp] theorem State.modHub_nextAccess (s : State) (f : Hub → Hub) : (s.modHub f).nextAccess = s.nextAccess := rfl
@[simp] theorem State.modHub_steps (s : State) (f : Hub → Hub) : (s.modHub f).steps = s.steps := rfl
@[simp] theorem State.modHub_turn (s : State) (f : Hub → Hub) : (s.modHub f).turn = s.turn := rfl
@[simp] theorem State.modHub_yields (s : State) (f : Hub → Hub) : (s.modHub f).yields = s.yields := rfl
@[simp] theorem State.modHub_links (s : State) (f : Hub → Hub) : (s.modHub f).links = s.links := rfl
@[simp] theorem State.modHub_inputs (s : State) (f : Hub → Hub) : (s.modHub f).inputs = s.inputs := rfl
@[simp] theorem State.modHub_outside (s : State) (f : Hub → Hub) : (s.modHub f).outside = s.outside := rfl
@[simp] theorem State.modHub_upsets (s : State) (f : Hub → Hub) : (s.modHub f).upsets = s.upsets := rfl
@[simp] theorem State.modHub_focus (s : State) (f : Hub → Hub) : (s.modHub f).focus = s.focus := rfl

/-! ### modQueue -/

@[simp] theorem State.modQueue_convoys (s : State) (q : Nat) (f : Queue → Queue) : (s.modQueue q f).convoys = s.convoys := rfl
@[simp] theorem State.modQueue_blocks (s : State) (q : Nat) (f : Queue → Queue) : (s.modQueue q f).blocks = s.blocks := rfl
@[simp] theorem State.modQueue_launches (s : State) (q : Nat) (f : Queue → Queue) : (s.modQueue q f).launches = s.launches := rfl
@[simp] theorem State.modQueue_cores (s : State) (q : Nat) (f : Queue → Queue) : (s.modQueue q f).cores = s.cores := rfl
@[simp] theorem State.modQueue_mem (s : State) (q : Nat) (f : Queue → Queue) : (s.modQueue q f).mem = s.mem := rfl
@[simp] theorem State.modQueue_memErrs (s : State) (q : Nat) (f : Queue → Queue) : (s.modQueue q f).memErrs = s.memErrs := rfl
@[simp] theorem State.modQueue_accesses (s : State) (q : Nat) (f : Queue → Queue) : (s.modQueue q f).accesses = s.accesses := rfl
@[simp] theorem State.modQueue_squares (s : State) (q : Nat) (f : Queue → Queue) : (s.modQueue q f).squares = s.squares := rfl
@[simp] theorem State.modQueue_dieTlbs (s : State) (q : Nat) (f : Queue → Queue) : (s.modQueue q f).dieTlbs = s.dieTlbs := rfl
@[simp] theorem State.modQueue_copies (s : State) (q : Nat) (f : Queue → Queue) : (s.modQueue q f).copies = s.copies := rfl
@[simp] theorem State.modQueue_colls (s : State) (q : Nat) (f : Queue → Queue) : (s.modQueue q f).colls = s.colls := rfl
@[simp] theorem State.modQueue_services (s : State) (q : Nat) (f : Queue → Queue) : (s.modQueue q f).services = s.services := rfl
@[simp] theorem State.modQueue_hub (s : State) (q : Nat) (f : Queue → Queue) : (s.modQueue q f).hub = { s.hub with queues := s.hub.queues.set q (f (s.queue q)) } := rfl
@[simp] theorem State.modQueue_clock (s : State) (q : Nat) (f : Queue → Queue) : (s.modQueue q f).clock = s.clock := rfl
@[simp] theorem State.modQueue_outputs (s : State) (q : Nat) (f : Queue → Queue) : (s.modQueue q f).outputs = s.outputs := rfl
@[simp] theorem State.modQueue_nextAccess (s : State) (q : Nat) (f : Queue → Queue) : (s.modQueue q f).nextAccess = s.nextAccess := rfl
@[simp] theorem State.modQueue_steps (s : State) (q : Nat) (f : Queue → Queue) : (s.modQueue q f).steps = s.steps := rfl
@[simp] theorem State.modQueue_turn (s : State) (q : Nat) (f : Queue → Queue) : (s.modQueue q f).turn = s.turn := rfl
@[simp] theorem State.modQueue_yields (s : State) (q : Nat) (f : Queue → Queue) : (s.modQueue q f).yields = s.yields := rfl
@[simp] theorem State.modQueue_links (s : State) (q : Nat) (f : Queue → Queue) : (s.modQueue q f).links = s.links := rfl
@[simp] theorem State.modQueue_inputs (s : State) (q : Nat) (f : Queue → Queue) : (s.modQueue q f).inputs = s.inputs := rfl
@[simp] theorem State.modQueue_outside (s : State) (q : Nat) (f : Queue → Queue) : (s.modQueue q f).outside = s.outside := rfl
@[simp] theorem State.modQueue_upsets (s : State) (q : Nat) (f : Queue → Queue) : (s.modQueue q f).upsets = s.upsets := rfl
@[simp] theorem State.modQueue_focus (s : State) (q : Nat) (f : Queue → Queue) : (s.modQueue q f).focus = s.focus := rfl

/-! ### emit -/

@[simp] theorem State.emit_convoys (s : State) (o : Output) : (s.emit o).convoys = s.convoys := rfl
@[simp] theorem State.emit_blocks (s : State) (o : Output) : (s.emit o).blocks = s.blocks := rfl
@[simp] theorem State.emit_launches (s : State) (o : Output) : (s.emit o).launches = s.launches := rfl
@[simp] theorem State.emit_cores (s : State) (o : Output) : (s.emit o).cores = s.cores := rfl
@[simp] theorem State.emit_mem (s : State) (o : Output) : (s.emit o).mem = s.mem := rfl
@[simp] theorem State.emit_memErrs (s : State) (o : Output) : (s.emit o).memErrs = s.memErrs := rfl
@[simp] theorem State.emit_accesses (s : State) (o : Output) : (s.emit o).accesses = s.accesses := rfl
@[simp] theorem State.emit_squares (s : State) (o : Output) : (s.emit o).squares = s.squares := rfl
@[simp] theorem State.emit_dieTlbs (s : State) (o : Output) : (s.emit o).dieTlbs = s.dieTlbs := rfl
@[simp] theorem State.emit_copies (s : State) (o : Output) : (s.emit o).copies = s.copies := rfl
@[simp] theorem State.emit_colls (s : State) (o : Output) : (s.emit o).colls = s.colls := rfl
@[simp] theorem State.emit_services (s : State) (o : Output) : (s.emit o).services = s.services := rfl
@[simp] theorem State.emit_hub (s : State) (o : Output) : (s.emit o).hub = s.hub := rfl
@[simp] theorem State.emit_clock (s : State) (o : Output) : (s.emit o).clock = s.clock := rfl
@[simp] theorem State.emit_outputs (s : State) (o : Output) : (s.emit o).outputs = s.outputs ++ [o] := rfl
@[simp] theorem State.emit_nextAccess (s : State) (o : Output) : (s.emit o).nextAccess = s.nextAccess := rfl
@[simp] theorem State.emit_steps (s : State) (o : Output) : (s.emit o).steps = s.steps := rfl
@[simp] theorem State.emit_turn (s : State) (o : Output) : (s.emit o).turn = s.turn := rfl
@[simp] theorem State.emit_yields (s : State) (o : Output) : (s.emit o).yields = s.yields := rfl
@[simp] theorem State.emit_links (s : State) (o : Output) : (s.emit o).links = s.links := rfl
@[simp] theorem State.emit_inputs (s : State) (o : Output) : (s.emit o).inputs = s.inputs := rfl
@[simp] theorem State.emit_outside (s : State) (o : Output) : (s.emit o).outside = s.outside := rfl
@[simp] theorem State.emit_upsets (s : State) (o : Output) : (s.emit o).upsets = s.upsets := rfl
@[simp] theorem State.emit_focus (s : State) (o : Output) : (s.emit o).focus = s.focus := rfl

/-! ### putMem -/

@[simp] theorem State.putMem_convoys (s : State) (pa : Nat) (bs : List Byte) : (s.putMem pa bs).convoys = s.convoys := rfl
@[simp] theorem State.putMem_blocks (s : State) (pa : Nat) (bs : List Byte) : (s.putMem pa bs).blocks = s.blocks := rfl
@[simp] theorem State.putMem_launches (s : State) (pa : Nat) (bs : List Byte) : (s.putMem pa bs).launches = s.launches := rfl
@[simp] theorem State.putMem_cores (s : State) (pa : Nat) (bs : List Byte) : (s.putMem pa bs).cores = s.cores := rfl
@[simp] theorem State.putMem_mem (s : State) (pa : Nat) (bs : List Byte) : (s.putMem pa bs).mem = memWrite s.mem pa bs := rfl
@[simp] theorem State.putMem_memErrs (s : State) (pa : Nat) (bs : List Byte) : (s.putMem pa bs).memErrs = s.memErrs.filter fun x => !(decide (pa ≤ 32 * x) && decide (32 * x + 32 ≤ pa + bs.length)) := rfl
@[simp] theorem State.putMem_accesses (s : State) (pa : Nat) (bs : List Byte) : (s.putMem pa bs).accesses = s.accesses := rfl
@[simp] theorem State.putMem_squares (s : State) (pa : Nat) (bs : List Byte) : (s.putMem pa bs).squares = s.squares.filter fun x => !rangesMeet (128 * x.line) 128 pa bs.length := rfl
@[simp] theorem State.putMem_dieTlbs (s : State) (pa : Nat) (bs : List Byte) : (s.putMem pa bs).dieTlbs = s.dieTlbs := rfl
@[simp] theorem State.putMem_copies (s : State) (pa : Nat) (bs : List Byte) : (s.putMem pa bs).copies = s.copies := rfl
@[simp] theorem State.putMem_colls (s : State) (pa : Nat) (bs : List Byte) : (s.putMem pa bs).colls = s.colls := rfl
@[simp] theorem State.putMem_services (s : State) (pa : Nat) (bs : List Byte) : (s.putMem pa bs).services = s.services := rfl
@[simp] theorem State.putMem_hub (s : State) (pa : Nat) (bs : List Byte) : (s.putMem pa bs).hub = s.hub := rfl
@[simp] theorem State.putMem_clock (s : State) (pa : Nat) (bs : List Byte) : (s.putMem pa bs).clock = s.clock := rfl
@[simp] theorem State.putMem_outputs (s : State) (pa : Nat) (bs : List Byte) : (s.putMem pa bs).outputs = s.outputs := rfl
@[simp] theorem State.putMem_nextAccess (s : State) (pa : Nat) (bs : List Byte) : (s.putMem pa bs).nextAccess = s.nextAccess := rfl
@[simp] theorem State.putMem_steps (s : State) (pa : Nat) (bs : List Byte) : (s.putMem pa bs).steps = s.steps := rfl
@[simp] theorem State.putMem_turn (s : State) (pa : Nat) (bs : List Byte) : (s.putMem pa bs).turn = s.turn := rfl
@[simp] theorem State.putMem_yields (s : State) (pa : Nat) (bs : List Byte) : (s.putMem pa bs).yields = s.yields := rfl
@[simp] theorem State.putMem_links (s : State) (pa : Nat) (bs : List Byte) : (s.putMem pa bs).links = s.links := rfl
@[simp] theorem State.putMem_inputs (s : State) (pa : Nat) (bs : List Byte) : (s.putMem pa bs).inputs = s.inputs := rfl
@[simp] theorem State.putMem_outside (s : State) (pa : Nat) (bs : List Byte) : (s.putMem pa bs).outside = s.outside := rfl
@[simp] theorem State.putMem_upsets (s : State) (pa : Nat) (bs : List Byte) : (s.putMem pa bs).upsets = s.upsets := rfl
@[simp] theorem State.putMem_focus (s : State) (pa : Nat) (bs : List Byte) : (s.putMem pa bs).focus = s.focus := rfl
@[simp] theorem State.putMem_convoy (s : State) (pa : Nat) (bs : List Byte) (j : Nat) : (s.putMem pa bs).convoy j = s.convoy j := rfl
@[simp] theorem State.putMem_block (s : State) (pa : Nat) (bs : List Byte) (j : Nat) : (s.putMem pa bs).block j = s.block j := rfl
@[simp] theorem State.putMem_launch (s : State) (pa : Nat) (bs : List Byte) (j : Nat) : (s.putMem pa bs).launch j = s.launch j := rfl
@[simp] theorem State.putMem_core (s : State) (pa : Nat) (bs : List Byte) (j : Nat) : (s.putMem pa bs).core j = s.core j := rfl

/-! ### Reads after writes -/

theorem State.convoy_of_eq {s t : State} (h : t.convoys = s.convoys) (i : Nat) : t.convoy i = s.convoy i := by
  simp only [State.convoy, h]

@[simp] theorem State.setConvoy_convoy (s : State) (i j : Nat) (x : Convoy) :
    (s.setConvoy i x).convoy j = if i = j ∧ i < s.convoys.length then x else s.convoy j := by
  simp only [State.convoy, State.setConvoy, List.getD_eq_getElem?_getD, List.getElem?_set]
  by_cases h1 : i = j
  · subst h1
    by_cases h2 : i < s.convoys.length <;> simp [h2]
  · simp [h1]

@[simp] theorem State.modConvoy_convoy (s : State) (i j : Nat) (f : Convoy → Convoy) :
    (s.modConvoy i f).convoy j = if i = j ∧ i < s.convoys.length then f (s.convoy i) else s.convoy j := State.setConvoy_convoy s i j _

@[simp] theorem State.setBlock_convoy (s : State) (i j : Nat) (x : Block) : (s.setBlock i x).convoy j = s.convoy j := rfl
@[simp] theorem State.modBlock_convoy (s : State) (i j : Nat) (f : Block → Block) : (s.modBlock i f).convoy j = s.convoy j := rfl
@[simp] theorem State.setLaunch_convoy (s : State) (i j : Nat) (x : Launch) : (s.setLaunch i x).convoy j = s.convoy j := rfl
@[simp] theorem State.modLaunch_convoy (s : State) (i j : Nat) (f : Launch → Launch) : (s.modLaunch i f).convoy j = s.convoy j := rfl
@[simp] theorem State.setCore_convoy (s : State) (i j : Nat) (x : Core) : (s.setCore i x).convoy j = s.convoy j := rfl
@[simp] theorem State.modCore_convoy (s : State) (i j : Nat) (f : Core → Core) : (s.modCore i f).convoy j = s.convoy j := rfl
@[simp] theorem State.modSlot_convoy (s : State) (i h j : Nat) (f : Slot → Slot) : (s.modSlot i h f).convoy j = s.convoy j := rfl
@[simp] theorem State.modHub_convoy (s : State) (f : Hub → Hub) (j : Nat) : (s.modHub f).convoy j = s.convoy j := rfl
@[simp] theorem State.emit_convoy (s : State) (o : Output) (j : Nat) : (s.emit o).convoy j = s.convoy j := rfl

theorem State.block_of_eq {s t : State} (h : t.blocks = s.blocks) (i : Nat) : t.block i = s.block i := by
  simp only [State.block, h]

@[simp] theorem State.setBlock_block (s : State) (i j : Nat) (x : Block) :
    (s.setBlock i x).block j = if i = j ∧ i < s.blocks.length then x else s.block j := by
  simp only [State.block, State.setBlock, List.getD_eq_getElem?_getD, List.getElem?_set]
  by_cases h1 : i = j
  · subst h1
    by_cases h2 : i < s.blocks.length <;> simp [h2]
  · simp [h1]

@[simp] theorem State.modBlock_block (s : State) (i j : Nat) (f : Block → Block) :
    (s.modBlock i f).block j = if i = j ∧ i < s.blocks.length then f (s.block i) else s.block j := State.setBlock_block s i j _

@[simp] theorem State.setConvoy_block (s : State) (i j : Nat) (x : Convoy) : (s.setConvoy i x).block j = s.block j := rfl
@[simp] theorem State.modConvoy_block (s : State) (i j : Nat) (f : Convoy → Convoy) : (s.modConvoy i f).block j = s.block j := rfl
@[simp] theorem State.setLaunch_block (s : State) (i j : Nat) (x : Launch) : (s.setLaunch i x).block j = s.block j := rfl
@[simp] theorem State.modLaunch_block (s : State) (i j : Nat) (f : Launch → Launch) : (s.modLaunch i f).block j = s.block j := rfl
@[simp] theorem State.setCore_block (s : State) (i j : Nat) (x : Core) : (s.setCore i x).block j = s.block j := rfl
@[simp] theorem State.modCore_block (s : State) (i j : Nat) (f : Core → Core) : (s.modCore i f).block j = s.block j := rfl
@[simp] theorem State.modSlot_block (s : State) (i h j : Nat) (f : Slot → Slot) : (s.modSlot i h f).block j = s.block j := rfl
@[simp] theorem State.modHub_block (s : State) (f : Hub → Hub) (j : Nat) : (s.modHub f).block j = s.block j := rfl
@[simp] theorem State.emit_block (s : State) (o : Output) (j : Nat) : (s.emit o).block j = s.block j := rfl

theorem State.launch_of_eq {s t : State} (h : t.launches = s.launches) (i : Nat) : t.launch i = s.launch i := by
  simp only [State.launch, h]

@[simp] theorem State.setLaunch_launch (s : State) (i j : Nat) (x : Launch) :
    (s.setLaunch i x).launch j = if i = j ∧ i < s.launches.length then x else s.launch j := by
  simp only [State.launch, State.setLaunch, List.getD_eq_getElem?_getD, List.getElem?_set]
  by_cases h1 : i = j
  · subst h1
    by_cases h2 : i < s.launches.length <;> simp [h2]
  · simp [h1]

@[simp] theorem State.modLaunch_launch (s : State) (i j : Nat) (f : Launch → Launch) :
    (s.modLaunch i f).launch j = if i = j ∧ i < s.launches.length then f (s.launch i) else s.launch j := State.setLaunch_launch s i j _

@[simp] theorem State.setConvoy_launch (s : State) (i j : Nat) (x : Convoy) : (s.setConvoy i x).launch j = s.launch j := rfl
@[simp] theorem State.modConvoy_launch (s : State) (i j : Nat) (f : Convoy → Convoy) : (s.modConvoy i f).launch j = s.launch j := rfl
@[simp] theorem State.setBlock_launch (s : State) (i j : Nat) (x : Block) : (s.setBlock i x).launch j = s.launch j := rfl
@[simp] theorem State.modBlock_launch (s : State) (i j : Nat) (f : Block → Block) : (s.modBlock i f).launch j = s.launch j := rfl
@[simp] theorem State.setCore_launch (s : State) (i j : Nat) (x : Core) : (s.setCore i x).launch j = s.launch j := rfl
@[simp] theorem State.modCore_launch (s : State) (i j : Nat) (f : Core → Core) : (s.modCore i f).launch j = s.launch j := rfl
@[simp] theorem State.modSlot_launch (s : State) (i h j : Nat) (f : Slot → Slot) : (s.modSlot i h f).launch j = s.launch j := rfl
@[simp] theorem State.modHub_launch (s : State) (f : Hub → Hub) (j : Nat) : (s.modHub f).launch j = s.launch j := rfl
@[simp] theorem State.emit_launch (s : State) (o : Output) (j : Nat) : (s.emit o).launch j = s.launch j := rfl

theorem State.core_of_eq {s t : State} (h : t.cores = s.cores) (i : Nat) : t.core i = s.core i := by
  simp only [State.core, h]

@[simp] theorem State.setCore_core (s : State) (i j : Nat) (x : Core) :
    (s.setCore i x).core j = if i = j ∧ i < s.cores.length then x else s.core j := by
  simp only [State.core, State.setCore, List.getD_eq_getElem?_getD, List.getElem?_set]
  by_cases h1 : i = j
  · subst h1
    by_cases h2 : i < s.cores.length <;> simp [h2]
  · simp [h1]

@[simp] theorem State.modCore_core (s : State) (i j : Nat) (f : Core → Core) :
    (s.modCore i f).core j = if i = j ∧ i < s.cores.length then f (s.core i) else s.core j := State.setCore_core s i j _

@[simp] theorem State.setConvoy_core (s : State) (i j : Nat) (x : Convoy) : (s.setConvoy i x).core j = s.core j := rfl
@[simp] theorem State.modConvoy_core (s : State) (i j : Nat) (f : Convoy → Convoy) : (s.modConvoy i f).core j = s.core j := rfl
@[simp] theorem State.setBlock_core (s : State) (i j : Nat) (x : Block) : (s.setBlock i x).core j = s.core j := rfl
@[simp] theorem State.modBlock_core (s : State) (i j : Nat) (f : Block → Block) : (s.modBlock i f).core j = s.core j := rfl
@[simp] theorem State.setLaunch_core (s : State) (i j : Nat) (x : Launch) : (s.setLaunch i x).core j = s.core j := rfl
@[simp] theorem State.modLaunch_core (s : State) (i j : Nat) (f : Launch → Launch) : (s.modLaunch i f).core j = s.core j := rfl
@[simp] theorem State.modHub_core (s : State) (f : Hub → Hub) (j : Nat) : (s.modHub f).core j = s.core j := rfl
@[simp] theorem State.emit_core (s : State) (o : Output) (j : Nat) : (s.emit o).core j = s.core j := rfl

end Sys2Proof.Machine
end

