-- ==== Sys2Proof/Laws/Registers.lean ====
section
/-! SUPPORT. Register files: what a read of any register gives after a write of any. -/

namespace Sys2Proof.Machine

theorem mapLanes_getElem? (g : Nat → Lane → Lane) : ∀ (n : Nat) (l : List Lane) (i : Nat),
    (mapLanes g n l)[i]? = (l[i]?).map (g (n + i))
  | _, [], _ => by simp [mapLanes]
  | n, x :: r, 0 => by simp [mapLanes]
  | n, x :: r, i + 1 => by
    simp only [mapLanes, List.getElem?_cons_succ]
    rw [mapLanes_getElem? g (n + 1) r i]
    congr 2; omega

theorem onLanes_lane (c : Convoy) (e : Mask) (g : Nat → Lane → Lane) (l : Nat) :
    (c.onLanes e g).lane l = if l < c.lanes.length ∧ e.getLsbD l = true then g l (c.lane l) else c.lane l := by
  simp only [Convoy.onLanes, Convoy.lane, List.getD_eq_getElem?_getD, mapLanes_getElem?, Nat.zero_add]
  by_cases h : l < c.lanes.length
  · simp only [List.getElem?_eq_getElem h, Option.map_some, Option.getD_some, h, true_and]
  · simp only [List.getElem?_eq_none (Nat.le_of_not_lt h), Option.map_none, h, false_and, if_false]

@[simp] theorem onLanes_lanes_length (c : Convoy) (e : Mask) (g : Nat → Lane → Lane) : (c.onLanes e g).lanes.length = c.lanes.length := by
  have : ∀ (g : Nat → Lane → Lane) (n : Nat) (l : List Lane), (mapLanes g n l).length = l.length := by
    intro g n l
    induction l generalizing n with
    | nil => rfl
    | cons x r ih => simp [mapLanes, ih]
  simp [Convoy.onLanes, this]

theorem set_getD {α : Type} (l : List α) (i j : Nat) (x d : α) : (l.set i x).getD j d = if i = j ∧ i < l.length then x else l.getD j d := by
  simp only [List.getD_eq_getElem?_getD, List.getElem?_set]
  by_cases h : i = j
  · subst h
    by_cases h2 : i < l.length
    · simp [h2]
    · simp [h2]
  · simp [h]

theorem setV_getV (x : Lane) (n m : Nat) (v : W32) : (x.setV n v).getV m = if n = m ∧ n < x.v.length then v else x.getV m :=
  set_getD _ _ _ _ _
theorem setM_getM (x : Lane) (n m : Nat) (v : Moment) : (x.setM n v).getM m = if n = m ∧ n < x.m.length then v else x.getM m :=
  set_getD _ _ _ _ _
@[simp] theorem setV_getM (x : Lane) (n m : Nat) (v : W32) : (x.setV n v).getM m = x.getM m := rfl
@[simp] theorem setM_getV (x : Lane) (n m : Nat) (v : Moment) : (x.setM n v).getV m = x.getV m := rfl
@[simp] theorem setV_v_length (x : Lane) (n : Nat) (v : W32) : (x.setV n v).v.length = x.v.length := by simp [Lane.setV]
@[simp] theorem setM_m_length (x : Lane) (n : Nat) (v : Moment) : (x.setM n v).m.length = x.m.length := by simp [Lane.setM]
@[simp] theorem setV_pc (x : Lane) (n : Nat) (v : W32) : (x.setV n v).pc = x.pc := rfl
@[simp] theorem setV_rv (x : Lane) (n : Nat) (v : W32) : (x.setV n v).rv = x.rv := rfl
@[simp] theorem setV_hrv (x : Lane) (n : Nat) (v : W32) : (x.setV n v).hrv = x.hrv := rfl
@[simp] theorem setV_draw (x : Lane) (n : Nat) (v : W32) : (x.setV n v).draw = x.draw := rfl
@[simp] theorem setM_pc (x : Lane) (n : Nat) (v : Moment) : (x.setM n v).pc = x.pc := rfl
@[simp] theorem setM_rv (x : Lane) (n : Nat) (v : Moment) : (x.setM n v).rv = x.rv := rfl
@[simp] theorem setM_hrv (x : Lane) (n : Nat) (v : Moment) : (x.setM n v).hrv = x.hrv := rfl
@[simp] theorem setM_draw (x : Lane) (n : Nat) (v : Moment) : (x.setM n v).draw = x.draw := rfl

end Sys2Proof.Machine
end

