-- ==== Sys2Proof/Laws/Mem.lean ====
section
/-! SUPPORT. Memory in its canonical form: what a read gives after a write, and that every operation keeps the form. -/

namespace Sys2Proof.Machine

theorem memWfFrom_mono {lo hi : Nat} (h : lo ≤ hi) : ∀ {m : Memory}, memWfFrom hi m = true → memWfFrom lo m = true
  | [], _ => rfl
  | (k, v) :: r, hm => by
    simp only [memWfFrom, Bool.and_eq_true, decide_eq_true_eq] at hm ⊢
    exact ⟨⟨by omega, hm.1.2⟩, hm.2⟩

theorem memWf_of_from {lo : Nat} {m : Memory} (h : memWfFrom lo m = true) : m.wf = true := memWfFrom_mono (Nat.zero_le lo) h

/-- A byte below every listed address reads 0. -/
theorem memGet_below {lo a : Nat} (ha : a < lo) : ∀ {m : Memory}, memWfFrom lo m = true → memGet m a = 0
  | [], _ => rfl
  | (k, v) :: r, hm => by
    simp only [memWfFrom, Bool.and_eq_true, decide_eq_true_eq] at hm
    simp only [memGet]
    rw [if_pos (by omega)]

theorem memSet_wfFrom {lo a : Nat} (ha : lo ≤ a) (b : Byte) : ∀ {m : Memory}, memWfFrom lo m = true → memWfFrom lo (memSet m a b) = true
  | [], _ => by
    simp only [memSet]
    split <;> simp_all [memWfFrom]
  | (k, v) :: r, hm => by
    simp only [memWfFrom, Bool.and_eq_true, decide_eq_true_eq] at hm
    obtain ⟨⟨h1, h2⟩, h3⟩ := hm
    simp only [memSet]
    split
    · split
      · simp_all [memWfFrom]
      · have hr : memWfFrom (a + 1) ((k, v) :: r) = true := by
          simp only [memWfFrom, Bool.and_eq_true, decide_eq_true_eq]
          exact ⟨⟨by omega, h2⟩, h3⟩
        simp_all [memWfFrom]
    · split
      · split
        · exact memWfFrom_mono (by omega) h3
        · simp_all [memWfFrom]
      · simp only [memWfFrom, Bool.and_eq_true, decide_eq_true_eq]
        exact ⟨⟨h1, h2⟩, memSet_wfFrom (by omega) b h3⟩

/-- Writing a byte keeps the canonical form. -/
theorem memSet_wf {m : Memory} (h : m.wf = true) (a : Nat) (b : Byte) : (memSet m a b).wf = true := memSet_wfFrom (Nat.zero_le a) b h

/-- Writing bytes keeps the canonical form. -/
theorem memWrite_wf : ∀ (bs : List Byte) {m : Memory} (a : Nat), m.wf = true → (memWrite m a bs).wf = true
  | [], _, _, h => h
  | b :: r, _, a, h => memWrite_wf r (a + 1) (memSet_wf h a b)

theorem memStore_wf {m : Memory} (h : m.wf = true) (a n v : Nat) : (memStore m a n v).wf = true := memWrite_wf _ a h

/-- A read after a write of one byte. -/
theorem memGet_memSet (a : Nat) (b : Byte) (x : Nat) : ∀ {lo : Nat} {m : Memory}, memWfFrom lo m = true →
    memGet (memSet m a b) x = if x = a then b else memGet m x
  | _, [], _ => by
    simp only [memSet]
    split
    · simp_all [memGet]
    · simp only [memGet]
      split
      · rw [if_neg (by omega)]
      · rfl
  | lo, (k, v) :: r, hm => by
    simp only [memWfFrom, Bool.and_eq_true, decide_eq_true_eq] at hm
    obtain ⟨⟨_, h2⟩, h3⟩ := hm
    simp only [memSet]
    split
    · rename_i hak
      split
      · rename_i hb
        split
        · rename_i hxa
          subst hxa hb
          simp [memGet, hak]
        · rfl
      · simp only [memGet]
        by_cases hxa : x < a
        · rw [if_pos hxa, if_neg (by omega), if_pos (by omega)]
        · rw [if_neg hxa]
    · split
      · rename_i hak
        subst hak
        split
        · rename_i hb
          subst hb
          by_cases hx : x = a
          · subst hx; simpa using memGet_below (Nat.lt_succ_self x) h3
          · simp only [memGet, if_neg hx]
            split
            · exact memGet_below (by omega) h3
            · rfl
        · simp only [memGet]
          by_cases hx : x = a
          · subst hx; simp
          · simp [hx]
      · have ih := memGet_memSet a b x h3
        simp only [memGet, ih]
        by_cases hx : x = a
        · subst hx
          rw [if_neg (by omega), if_neg (by omega), if_pos rfl, if_pos rfl]
        · simp only [if_neg hx]

/-- The byte at an address after a write of some bytes. -/
theorem memGet_memWrite (x : Nat) : ∀ (bs : List Byte) {m : Memory} (a : Nat), m.wf = true →
    memGet (memWrite m a bs) x = if h : a ≤ x ∧ x < a + bs.length then bs[x - a] else memGet m x
  | [], m, a, _ => by
    simp only [memWrite, List.length_nil, Nat.add_zero]
    rw [dif_neg (by omega)]
  | b :: r, m, a, h => by
    simp only [memWrite, List.length_cons]
    rw [memGet_memWrite x r (a + 1) (memSet_wf h a b), memGet_memSet a b x h]
    by_cases h1 : x = a
    · subst h1
      rw [dif_neg (by omega), if_pos rfl, dif_pos (by omega)]
      simp
    · by_cases h2 : a + 1 ≤ x ∧ x < a + 1 + r.length
      · rw [dif_pos h2, dif_pos (by omega)]
        have : x - a = (x - (a + 1)) + 1 := by omega
        simp [this]
      · rw [dif_neg h2, if_neg h1, dif_neg (by omega)]

/-- A write leaves every other byte alone. -/
theorem memGet_memWrite_other {m : Memory} (h : m.wf = true) (bs : List Byte) (a x : Nat) (hx : x < a ∨ a + bs.length ≤ x) :
    memGet (memWrite m a bs) x = memGet m x := by
  rw [memGet_memWrite x bs a h, dif_neg (by omega)]

/-- Reading some bytes is reading each of them. -/
theorem memRead_getElem? (m : Memory) : ∀ (n a i : Nat), (memRead m a n)[i]? = if i < n then some (memGet m (a + i)) else none
  | 0, _, _ => by simp [memRead]
  | n + 1, a, 0 => by simp [memRead]
  | n + 1, a, i + 1 => by
    simp only [memRead, List.getElem?_cons_succ, memRead_getElem? m n (a + 1) i, Nat.add_lt_add_iff_right]
    rw [show a + 1 + i = a + (i + 1) by omega]

@[simp] theorem memRead_length (m : Memory) : ∀ (n a : Nat), (memRead m a n).length = n
  | 0, _ => rfl
  | n + 1, a => by simp [memRead, memRead_length m n (a + 1)]

/-- What was written is read back. -/
theorem memRead_memWrite {m : Memory} (h : m.wf = true) (a : Nat) (bs : List Byte) : memRead (memWrite m a bs) a bs.length = bs := by
  apply List.ext_getElem?
  intro i
  rw [memRead_getElem?]
  by_cases hi : i < bs.length
  · rw [if_pos hi, memGet_memWrite _ bs a h, dif_pos (by omega)]
    simp [hi]
  · rw [if_neg hi, List.getElem?_eq_none (by omega)]

/-- Taking entries out keeps the canonical form. -/
theorem filter_wfFrom (p : Host.Cell → Bool) : ∀ {lo : Nat} {m : Memory}, memWfFrom lo m = true → memWfFrom lo (m.filter p) = true
  | _, [], _ => rfl
  | lo, (k, v) :: r, hm => by
    simp only [memWfFrom, Bool.and_eq_true, decide_eq_true_eq] at hm
    rw [List.filter_cons]
    split
    · simp only [memWfFrom, Bool.and_eq_true, decide_eq_true_eq]
      exact ⟨hm.1, filter_wfFrom p hm.2⟩
    · exact filter_wfFrom p (memWfFrom_mono (by omega) hm.2)

theorem filter_wf {m : Memory} (h : m.wf = true) (p : Host.Cell → Bool) : Memory.wf (m.filter p) = true := filter_wfFrom p h

end Sys2Proof.Machine
end

