-- ==== Sys2Proof/Laws/Sound.lean ====
section
/-! SUPPORT. The invariant State.sound through the updates of State: lemmas that simp chains, so that a function keeps it when its parts do. -/

namespace Sys2Proof.Machine

/-- A next state is sound; a fault and a refusal say nothing. -/
def soundOut : Host.Outcome State Fault Refusal → Bool
  | .next t => t.sound
  | _ => true

@[simp] theorem soundOut_next (t : State) : soundOut (.next t) = t.sound := rfl

/-! ### Shapes of convoys -/

@[simp] theorem shapedParts_self (c : Convoy) : shapedParts c.lanes c.width c.budget c.k c.s c.a c.g c.scratch = c.shaped := rfl

@[simp] theorem shaped_mk {x1 x2 x3 x4 x5 x6 x7 x8 x9 x10 x11 x12 x13 x14 x15 x16 x17 x18 x19 x20 x21 x22 x23 x24 x25 x26 x27 x28 x29 x30 x31 x32 x33 x34 x35 x36 x37 x38 x39 x40 x41} :
    Convoy.shaped ⟨x1, x2, x3, x4, x5, x6, x7, x8, x9, x10, x11, x12, x13, x14, x15, x16, x17, x18, x19, x20, x21, x22, x23, x24, x25, x26, x27, x28, x29, x30, x31, x32, x33, x34, x35, x36, x37, x38, x39, x40, x41⟩ = shapedParts x10 x4 x5 x11 x12 x13 x14 x22 := rfl

@[simp] theorem tidy_mk {x1 x2 x3 x4 x5 x6 x7 x8 x9 x10 x11 x12 x13 x14 x15} :
    Block.tidy ⟨x1, x2, x3, x4, x5, x6, x7, x8, x9, x10, x11, x12, x13, x14, x15⟩ = (Memory.wf x9.mem && Memory.wf x10.mem) := rfl

@[simp] theorem tidy_self (b : Block) : (Memory.wf b.ls.mem && Memory.wf b.ls2.mem) = b.tidy := rfl

@[simp] theorem sound_mk {x1 x2 x3 x4 x5 x6 x7 x8 x9 x10 x11 x12 x13 x14 x15 x16 x17 x18 x19 x20 x21 x22 x23 x24} :
    State.sound ⟨x1, x2, x3, x4, x5, x6, x7, x8, x9, x10, x11, x12, x13, x14, x15, x16, x17, x18, x19, x20, x21, x22, x23, x24⟩ = soundParts x5 x2 x3 x1 := rfl

@[simp] theorem soundParts_self (s : State) : soundParts s.mem s.blocks s.launches s.convoys = s.sound := rfl

/-! ### Shapes through the updates of a convoy -/

theorem shaped_iff (c : Convoy) : c.shaped = true ↔
    (c.lanes.isEmpty = true ∨ c.lanes.length = c.width) ∧ (∀ x ∈ c.lanes, x.v.length = c.budget ∧ x.m.length = 8) ∧
    c.k.length = 8 ∧ c.s.length = 64 ∧ c.a.length = 32 ∧ c.g.length = 8 ∧ c.scratch.length = 4 := by
  simp [Convoy.shaped, shapedParts, and_assoc]

@[simp] theorem Convoy.blank_shaped : Convoy.blank.shaped = true := by decide

variable {lanes : List Lane} {w b : Nat} {k : List Mask} {sr : List W64} {a : List Affine} {g : List Moment} {sc : List W64}

@[simp] theorem shapedParts_k (i : Nat) (x : Mask) : shapedParts lanes w b (k.set i x) sr a g sc = shapedParts lanes w b k sr a g sc := by
  simp [shapedParts]
@[simp] theorem shapedParts_s (i : Nat) (x : W64) : shapedParts lanes w b k (sr.set i x) a g sc = shapedParts lanes w b k sr a g sc := by
  simp [shapedParts]
@[simp] theorem shapedParts_a (i : Nat) (x : Affine) : shapedParts lanes w b k sr (a.set i x) g sc = shapedParts lanes w b k sr a g sc := by
  simp [shapedParts]
@[simp] theorem shapedParts_g (i : Nat) (x : Moment) : shapedParts lanes w b k sr a (g.set i x) sc = shapedParts lanes w b k sr a g sc := by
  simp [shapedParts]
@[simp] theorem shapedParts_scratch (i : Nat) (x : W64) : shapedParts lanes w b k sr a g (sc.set i x) = shapedParts lanes w b k sr a g sc := by
  simp [shapedParts]

/-- A change of lanes keeps their register files. -/
def keepsLane (f : Nat → Lane → Lane) : Prop := ∀ n x, (f n x).v.length = x.v.length ∧ (f n x).m.length = x.m.length

@[simp] theorem mapLanes_length (f : Nat → Lane → Lane) : ∀ (n : Nat) (l : List Lane), (mapLanes f n l).length = l.length
  | _, [] => rfl
  | n, x :: r => by simp [mapLanes, mapLanes_length f (n + 1) r]

theorem mapLanes_all {f : Nat → Lane → Lane} (hf : keepsLane f) (b : Nat) : ∀ (n : Nat) (l : List Lane),
    (mapLanes f n l).all (fun x => x.v.length == b && x.m.length == 8) = l.all fun x => x.v.length == b && x.m.length == 8
  | _, [] => rfl
  | n, x :: r => by simp [mapLanes, mapLanes_all hf b (n + 1) r, (hf n x).1, (hf n x).2]

theorem shapedParts_mapLanes {f : Nat → Lane → Lane} (hf : keepsLane f) (n : Nat) :
    shapedParts (mapLanes f n lanes) w b k sr a g sc = shapedParts lanes w b k sr a g sc := by
  have h1 : (mapLanes f n lanes).isEmpty = lanes.isEmpty := by cases lanes <;> rfl
  simp [shapedParts, mapLanes_all hf, h1]

/-- A change of the lanes of a mask that keeps their register files keeps the shape. -/
theorem onLanes_shaped {c : Convoy} {f : Nat → Lane → Lane} (hf : keepsLane f) (e : Mask) : (c.onLanes e f).shaped = c.shaped := by
  unfold Convoy.onLanes
  rw [shaped_mk, shapedParts_mapLanes (fun n x => ?_), shapedParts_self]
  split
  · exact hf n x
  · exact ⟨rfl, rfl⟩

@[simp] theorem writeV_shaped (c : Convoy) (e : Mask) (n : Nat) (v : Nat → W32) : (c.writeV e n v).shaped = c.shaped :=
  onLanes_shaped (fun _ _ => by simp [Lane.setV]) e

@[simp] theorem writeV64_shaped (c : Convoy) (e : Mask) (n : Nat) (v : Nat → W64) : (c.writeV64 e n v).shaped = c.shaped :=
  onLanes_shaped (fun _ _ => by simp [Lane.setV]) e

@[simp] theorem writeM_shaped (c : Convoy) (e : Mask) (n : Nat) (v : Nat → Moment) : (c.writeM e n v).shaped = c.shaped :=
  onLanes_shaped (fun _ _ => by simp [Lane.setM]) e

@[simp] theorem writeS_shaped (c : Convoy) (n : Nat) (v : W64) : (c.writeS n v).shaped = c.shaped := by simp [Convoy.writeS]
@[simp] theorem writeA_shaped (c : Convoy) (n : Nat) (v : Affine) : (c.writeA n v).shaped = c.shaped := by simp [Convoy.writeA]
@[simp] theorem writeG_shaped (c : Convoy) (n : Nat) (v : Moment) : (c.writeG n v).shaped = c.shaped := by simp [Convoy.writeG]
@[simp] theorem writeK_shaped (c : Convoy) (e : Mask) (n : Nat) (v : Mask) : (c.writeK e n v).shaped = c.shaped := by
  unfold Convoy.writeK; split <;> simp
@[simp] theorem orFlags_shaped (c : Convoy) (f : BitVec 6) : (c.orFlags f).shaped = c.shaped := by simp [Convoy.orFlags]

/-! ### Parts of the invariant -/

variable {m : Memory} {bs : List Block} {ls : List Launch} {cs : List Convoy} {s : State}

theorem soundParts_iff : soundParts m bs ls cs = true ↔
    m.wf = true ∧ (∀ b ∈ bs, b.tidy = true) ∧ (∀ l ∈ ls, Memory.wf l.snapshot = true) ∧ ∀ c ∈ cs, c.shaped = true := by
  simp [soundParts, and_assoc]

theorem sound_iff : s.sound = true ↔
    s.mem.wf = true ∧ (∀ b ∈ s.blocks, b.tidy = true) ∧ (∀ l ∈ s.launches, Memory.wf l.snapshot = true) ∧
    ∀ c ∈ s.convoys, c.shaped = true := soundParts_iff

@[simp] theorem sound_mem (h : s.sound = true) : s.mem.wf = true := (sound_iff.1 h).1

theorem getD_mem_or {α : Type} (l : List α) (i : Nat) (d : α) : l.getD i d ∈ l ∨ l.getD i d = d := by
  by_cases h : i < l.length
  · left; simp [List.getD_eq_getElem?_getD, h]
  · right; simp [List.getD_eq_getElem?_getD, Nat.le_of_not_lt h]

/-- Whatever index: a convoy of a sound state has its register files. -/
@[simp] theorem sound_convoy (h : s.sound = true) (i : Nat) : (s.convoy i).shaped = true := by
  rcases getD_mem_or s.convoys i Convoy.blank with h1 | h1
  · exact (sound_iff.1 h).2.2.2 _ h1
  · rw [State.convoy, h1]; exact Convoy.blank_shaped

@[simp] theorem sound_block (h : s.sound = true) (i : Nat) : (s.block i).tidy = true := by
  rcases getD_mem_or s.blocks i Block.blank with h1 | h1
  · exact (sound_iff.1 h).2.1 _ h1
  · rw [State.block, h1]; rfl

@[simp] theorem sound_snapshot (h : s.sound = true) (i : Nat) : Memory.wf (s.launch i).snapshot = true := by
  rcases getD_mem_or s.launches i Launch.blank with h1 | h1
  · exact (sound_iff.1 h).2.2.1 _ h1
  · rw [State.launch, h1]; rfl

@[simp] theorem tidy_ls {b : Block} (h : b.tidy = true) : Memory.wf b.ls.mem = true := by
  simp only [Block.tidy, Bool.and_eq_true] at h; exact h.1
@[simp] theorem tidy_ls2 {b : Block} (h : b.tidy = true) : Memory.wf b.ls2.mem = true := by
  simp only [Block.tidy, Bool.and_eq_true] at h; exact h.2

theorem all_set {α : Type} {p : α → Bool} : ∀ {l : List α} {i : Nat} {x : α}, l.all p = true → p x = true → (l.set i x).all p = true
  | [], _, _, _, _ => rfl
  | y :: r, 0, x, h, hx => by simp_all
  | y :: r, i + 1, x, h, hx => by
    simp only [List.set_cons_succ, List.all_cons, Bool.and_eq_true] at h ⊢
    exact ⟨h.1, all_set h.2 hx⟩

@[simp] theorem soundParts_convoy (h : soundParts m bs ls cs = true) (i : Nat) {c : Convoy} (hc : c.shaped = true) :
    soundParts m bs ls (cs.set i c) = true := by
  simp only [soundParts, Bool.and_eq_true] at h ⊢
  exact ⟨h.1, all_set h.2 hc⟩

@[simp] theorem soundParts_block (h : soundParts m bs ls cs = true) (i : Nat) {b : Block} (hb : b.tidy = true) :
    soundParts m (bs.set i b) ls cs = true := by
  simp only [soundParts, Bool.and_eq_true] at h ⊢
  exact ⟨⟨⟨h.1.1.1, all_set h.1.1.2 hb⟩, h.1.2⟩, h.2⟩

@[simp] theorem soundParts_launch (h : soundParts m bs ls cs = true) (i : Nat) {l : Launch} (hl : Memory.wf l.snapshot = true) :
    soundParts m bs (ls.set i l) cs = true := by
  simp only [soundParts, Bool.and_eq_true] at h ⊢
  exact ⟨⟨h.1.1, all_set (p := fun l : Launch => Memory.wf l.snapshot) h.1.2 hl⟩, h.2⟩

@[simp] theorem soundParts_write (h : soundParts m bs ls cs = true) (x : Nat) (ys : List Byte) : soundParts (memWrite m x ys) bs ls cs = true := by
  simp only [soundParts, Bool.and_eq_true] at h ⊢
  exact ⟨⟨⟨memWrite_wf ys x h.1.1.1, h.1.1.2⟩, h.1.2⟩, h.2⟩

@[simp] theorem soundParts_store (h : soundParts m bs ls cs = true) (x n v : Nat) : soundParts (memStore m x n v) bs ls cs = true :=
  soundParts_write h x _

@[simp] theorem soundParts_filter (h : soundParts m bs ls cs = true) (p : Host.Cell → Bool) : soundParts (m.filter p) bs ls cs = true := by
  simp only [soundParts, Bool.and_eq_true] at h ⊢
  exact ⟨⟨⟨filter_wf h.1.1.1 p, h.1.1.2⟩, h.1.2⟩, h.2⟩

theorem soundParts_mapConvoys (h : soundParts m bs ls cs = true) {f : Convoy → Convoy} (hf : ∀ c, c.shaped = true → (f c).shaped = true) :
    soundParts m bs ls (cs.map f) = true := by
  simp only [soundParts_iff, List.mem_map, forall_exists_index, and_imp, forall_apply_eq_imp_iff₂] at h ⊢
  exact ⟨h.1, h.2.1, h.2.2.1, fun c hc => hf c (h.2.2.2 c hc)⟩

theorem soundParts_mapBlocks (h : soundParts m bs ls cs = true) {f : Block → Block} (hf : ∀ b, b.tidy = true → (f b).tidy = true) :
    soundParts m (bs.map f) ls cs = true := by
  simp only [soundParts_iff, List.mem_map, forall_exists_index, and_imp, forall_apply_eq_imp_iff₂] at h ⊢
  exact ⟨h.1, fun b hb => hf b (h.2.1 b hb), h.2.2⟩

theorem soundParts_mapLaunches (h : soundParts m bs ls cs = true) {f : Launch → Launch} (hf : ∀ l, (f l).snapshot = l.snapshot) :
    soundParts m bs (ls.map f) cs = true := by
  simp only [soundParts_iff, List.mem_map, forall_exists_index, and_imp, forall_apply_eq_imp_iff₂, hf] at h ⊢
  exact h

theorem soundParts_addConvoys (h : soundParts m bs ls cs = true) {new : List Convoy} (hn : ∀ c ∈ new, c.shaped = true) :
    soundParts m bs ls (cs ++ new) = true := by
  simp only [soundParts_iff, List.mem_append] at h ⊢
  exact ⟨h.1, h.2.1, h.2.2.1, fun c hc => hc.elim (h.2.2.2 c) (hn c)⟩

theorem soundParts_addBlock (h : soundParts m bs ls cs = true) {b : Block} (hb : b.tidy = true) :
    soundParts m (bs ++ [b]) ls cs = true := by
  simp only [soundParts_iff, List.mem_append, List.mem_singleton] at h ⊢
  exact ⟨h.1, fun x hx => hx.elim (h.2.1 x) (fun hx => hx ▸ hb), h.2.2⟩

theorem soundParts_addLaunch (h : soundParts m bs ls cs = true) {l : Launch} (hl : Memory.wf l.snapshot = true) :
    soundParts m bs (ls ++ [l]) cs = true := by
  simp only [soundParts_iff, List.mem_append, List.mem_singleton] at h ⊢
  exact ⟨h.1, h.2.1, fun x hx => hx.elim (h.2.2.1 x) (fun hx => hx ▸ hl), h.2.2.2⟩

/-! ### The updates of State -/

@[simp] theorem setConvoy_sound (h : s.sound = true) (i : Nat) {c : Convoy} (hc : c.shaped = true) : (s.setConvoy i c).sound = true :=
  soundParts_convoy h i hc
@[simp] theorem modConvoy_sound (h : s.sound = true) (i : Nat) {f : Convoy → Convoy} (hf : (f (s.convoy i)).shaped = true) :
    (s.modConvoy i f).sound = true := soundParts_convoy h i hf
@[simp] theorem setBlock_sound (h : s.sound = true) (i : Nat) {b : Block} (hb : b.tidy = true) : (s.setBlock i b).sound = true :=
  soundParts_block h i hb
@[simp] theorem modBlock_sound (h : s.sound = true) (i : Nat) {f : Block → Block} (hf : (f (s.block i)).tidy = true) :
    (s.modBlock i f).sound = true := soundParts_block h i hf
@[simp] theorem setLaunch_sound (h : s.sound = true) (i : Nat) {l : Launch} (hl : Memory.wf l.snapshot = true) :
    (s.setLaunch i l).sound = true := soundParts_launch h i hl
@[simp] theorem modLaunch_sound (h : s.sound = true) (i : Nat) {f : Launch → Launch} (hf : Memory.wf (f (s.launch i)).snapshot = true) :
    (s.modLaunch i f).sound = true := soundParts_launch h i hf
@[simp] theorem setCore_sound (i : Nat) (k : Core) : (s.setCore i k).sound = s.sound := rfl
@[simp] theorem modCore_sound (i : Nat) (f : Core → Core) : (s.modCore i f).sound = s.sound := rfl
@[simp] theorem modSlot_sound (i h : Nat) (f : Slot → Slot) : (s.modSlot i h f).sound = s.sound := rfl
@[simp] theorem modHub_sound (f : Hub → Hub) : (s.modHub f).sound = s.sound := rfl
@[simp] theorem modQueue_sound (q : Nat) (f : Queue → Queue) : (s.modQueue q f).sound = s.sound := rfl
@[simp] theorem emit_sound (o : Output) : (s.emit o).sound = s.sound := rfl

/-- A fold of steps that keep the invariant keeps it. -/
theorem foldl_sound {α : Type} {f : State → α → State} (hf : ∀ s x, s.sound = true → (f s x).sound = true) :
    ∀ (l : List α) {s : State}, s.sound = true → (l.foldl f s).sound = true
  | [], _, h => h
  | x :: r, _, h => foldl_sound hf r (hf _ x h)

theorem foldlConvoy_shaped {α : Type} {f : Convoy → α → Convoy} (hf : ∀ c x, c.shaped = true → (f c x).shaped = true) :
    ∀ (l : List α) {c : Convoy}, c.shaped = true → (l.foldl f c).shaped = true
  | [], _, h => h
  | x :: r, _, h => foldlConvoy_shaped hf r (hf _ x h)

end Sys2Proof.Machine
end

