-- ==== Sys2Proof/Laws/Complete.lean ====
section
/-! SUPPORT. What the completion of a word can do: one relation that says it once, and its proof for the scoreboard, the advance of the program counters and the end of the issue. -/

namespace Sys2Proof.Machine

/-- Only what completing a word of a convoy touches differs: the program counters, loop levels, holds, scoreboard and error cells of the convoy, and the slots, counters and choice of convoy of cores. -/
structure Passed (s t : State) (ci : Nat) : Prop where
  rest : t = { s with convoys := t.convoys, cores := t.cores }
  length : t.convoys.length = s.convoys.length
  others : ∀ j, j ≠ ci → t.convoy j = s.convoy j
  convoy : t.convoy ci = { s.convoy ci with
    lanes := (t.convoy ci).lanes, loops := (t.convoy ci).loops, holds := (t.convoy ci).holds, ready := (t.convoy ci).ready, busy := (t.convoy ci).busy, errs := (t.convoy ci).errs }
  lanes : (t.convoy ci).lanes.length = (s.convoy ci).lanes.length
  lane : ∀ l, (t.convoy ci).lane l = { (s.convoy ci).lane l with pc := ((t.convoy ci).lane l).pc }
  cores : ∀ k, t.core k = { s.core k with secnt := (t.core k).secnt, perf := (t.core k).perf, slots := (t.core k).slots, current := (t.core k).current }

theorem Passed.refl (s : State) (ci : Nat) : Passed s s ci := ⟨rfl, rfl, fun _ _ => rfl, rfl, rfl, fun _ => rfl, fun _ => rfl⟩

theorem Passed.trans {s t u : State} {ci : Nat} (h : Passed s t ci) (g : Passed t u ci) : Passed s u ci where
  rest := by rw [g.rest, h.rest]
  length := g.length.trans h.length
  others j hj := (g.others j hj).trans (h.others j hj)
  convoy := by rw [g.convoy, h.convoy]
  lanes := g.lanes.trans h.lanes
  lane l := by rw [g.lane l, h.lane l]
  cores k := by rw [g.cores k, h.cores k]

theorem core_setCore (s : State) (i k : Nat) (c : Core) : (s.setCore i c).core k = if i = k ∧ i < s.cores.length then c else s.core k := by
  simp only [State.setCore, State.core, set_getD]

theorem convoy_setConvoy (s : State) (i j : Nat) (c : Convoy) :
    (s.setConvoy i c).convoy j = if i = j ∧ i < s.convoys.length then c else s.convoy j := by
  simp only [State.setConvoy, State.convoy, set_getD]

/-- A core whose own fields but four are kept. -/
def coreKept (c : Core) (g : Core → Core) : Prop :=
  g c = { c with secnt := (g c).secnt, perf := (g c).perf, slots := (g c).slots, current := (g c).current }

theorem passed_modCore (s : State) (i ci : Nat) (g : Core → Core) (h : coreKept (s.core i) g) : Passed s (s.modCore i g) ci where
  rest := rfl
  length := rfl
  others _ _ := rfl
  convoy := rfl
  lanes := rfl
  lane _ := rfl
  cores k := by
    have e : (s.modCore i g).core k = if i = k ∧ i < s.cores.length then g (s.core i) else s.core k := core_setCore s i k _
    by_cases hk : i = k ∧ i < s.cores.length
    · rw [e, if_pos hk]; rw [← hk.1]; exact h
    · rw [e, if_neg hk]

theorem passed_modSlot (s : State) (i h ci : Nat) (g : Slot → Slot) : Passed s (s.modSlot i h g) ci := passed_modCore s i ci _ rfl

theorem passed_perfCount (s : State) (core : Nat) (code : Byte) (n ci : Nat) : Passed s (s.perfCount core code n) ci := by
  unfold State.perfCount
  split
  · exact .refl s ci
  · exact passed_modCore s core ci _ rfl

/-- A convoy replaced by one that differs in its program counters, levels, holds and scoreboard. -/
theorem passed_setConvoy (s : State) (ci : Nat) (c : Convoy) (hc : c = { s.convoy ci with lanes := c.lanes, loops := c.loops, holds := c.holds, ready := c.ready, busy := c.busy, errs := c.errs })
    (hl : c.lanes.length = (s.convoy ci).lanes.length) (hp : ∀ l, c.lane l = { (s.convoy ci).lane l with pc := (c.lane l).pc }) :
    Passed s (s.setConvoy ci c) ci := by
  have e : ∀ j, (s.setConvoy ci c).convoy j = if ci = j ∧ ci < s.convoys.length then c else s.convoy j := fun j => convoy_setConvoy s ci j c
  refine ⟨rfl, by simp, fun j hj => ?_, ?_, ?_, fun l => ?_, fun k => rfl⟩
  · rw [e, if_neg (fun h => hj h.1.symm)]
  all_goals
    rw [e]
    split
    · first
        | exact hc
        | exact hl
        | exact hp l
    · rfl

theorem passed_onPc (s : State) (ci : Nat) (lanes : Mask) (p : Nat → Pc) :
    Passed s (s.setConvoy ci ((s.convoy ci).onLanes lanes fun l x => { x with pc := p l })) ci := by
  refine passed_setConvoy s ci _ rfl (onLanes_lanes_length _ _ _) fun l => ?_
  rw [onLanes_lane]
  split <;> rfl

/-- Only the slots, performance counters and current convoys of cores differ. -/
structure Slotted (s t : State) : Prop where
  rest : t = { s with cores := t.cores }
  cores : ∀ k, t.core k = { s.core k with perf := (t.core k).perf, slots := (t.core k).slots, current := (t.core k).current }

theorem Slotted.refl (s : State) : Slotted s s := ⟨rfl, fun _ => rfl⟩

theorem Slotted.trans {s t u : State} (h : Slotted s t) (g : Slotted t u) : Slotted s u where
  rest := by rw [g.rest, h.rest]
  cores k := by rw [g.cores k, h.cores k]

theorem Slotted.convoys {s t : State} (h : Slotted s t) : t.convoys = s.convoys := by rw [h.rest]

theorem Slotted.secnt {s t : State} (h : Slotted s t) (k : Nat) : (t.core k).secnt = (s.core k).secnt := by rw [h.cores k]

theorem Slotted.passed {s t : State} (h : Slotted s t) (ci : Nat) : Passed s t ci := by
  have hc : ∀ j, t.convoy j = s.convoy j := fun j => by simp only [State.convoy, h.convoys]
  refine ⟨?_, by rw [h.convoys], fun j _ => hc j, by rw [hc], by rw [hc], fun l => by rw [hc], fun k => by rw [h.cores k]⟩
  rw [h.rest]

theorem slotted_modCore (s : State) (i : Nat) (g : Core → Core)
    (h : g (s.core i) = { s.core i with perf := (g (s.core i)).perf, slots := (g (s.core i)).slots, current := (g (s.core i)).current }) : Slotted s (s.modCore i g) where
  rest := rfl
  cores k := by
    have e : (s.modCore i g).core k = if i = k ∧ i < s.cores.length then g (s.core i) else s.core k := core_setCore s i k _
    by_cases hk : i = k ∧ i < s.cores.length
    · rw [e, if_pos hk]; rw [← hk.1]; exact h
    · rw [e, if_neg hk]

theorem slotted_modSlot (s : State) (i h : Nat) (g : Slot → Slot) : Slotted s (s.modSlot i h g) := slotted_modCore s i _ rfl

theorem slotted_perfCount (s : State) (core : Nat) (code : Byte) (n : Nat) : Slotted s (s.perfCount core code n) := by
  unfold State.perfCount
  split
  · exact .refl s
  · exact slotted_modCore s core _ rfl

theorem slotted_noteMoves (s : State) (ci : Nat) (addr : Pc) (lanes : Mask) (target : Nat → Pc) : Slotted s (noteMoves s ci addr lanes target) := by
  unfold noteMoves
  dsimp only
  split
  · exact .refl s
  · exact slotted_modSlot _ _ _ _

theorem slotted_yieldAbove (s : State) (core h : Nat) (addr : Pc) : Slotted s (yieldAbove s core h addr) := by
  unfold yieldAbove
  split
  · exact .refl s
  · split
    · exact .refl s
    · exact slotted_modSlot _ _ _ _

theorem slotted_endHandover (s : State) (core h : Nat) : Slotted s (endHandover s core h) := slotted_modSlot s core h _

theorem slotted_passHandover (s : State) (core h : Nat) (p : Pending) : Slotted s (passHandover s core h p) := by
  unfold passHandover
  split
  · split
    · split
      · exact slotted_endHandover s core h
      · exact .refl s
    · split
      · exact slotted_endHandover s core h
      · exact slotted_modSlot _ _ _ _
  · split
    · exact slotted_yieldAbove _ _ _ _
    · exact .refl s

theorem slotted_switchConvoy (s : State) (core h : Nat) : Slotted s (switchConvoy s core h) := by
  unfold switchConvoy
  split
  · extract_lets s1
    have h1 : Slotted s s1 := slotted_modCore _ _ _ rfl
    split
    · split
      · exact h1.trans (slotted_modCore _ _ _ rfl)
      · exact h1
    · exact .refl s
  · exact .refl s

theorem slotted_endIssue (s : State) (core h : Nat) : Slotted s (endIssue s core h) := by
  unfold endIssue
  split
  · exact .refl s
  · rename_i p _
    extract_lets s1
    have h1 : Slotted s s1 := ((slotted_modSlot s core h _).trans ((slotted_perfCount _ _ _ _).trans (slotted_perfCount _ _ _ _))).trans (slotted_passHandover _ _ _ _)
    split
    · exact h1.trans (slotted_switchConvoy _ _ _)
    · exact h1

theorem slotted_popTodo (s : State) (core h ci : Nat) (i : WordInfo) (e : Mask) : Slotted s (popTodo s core h ci i e) := by
  unfold popTodo
  extract_lets s1
  have h1 : Slotted s s1 := slotted_modSlot s core h _
  split
  · split
    · exact h1.trans (slotted_endIssue _ _ _)
    · exact h1
  · exact h1

theorem passed_moveLanes (s : State) (ci : Nat) (addr : Pc) (lanes : Mask) (target : Nat → Pc) : Passed s (moveLanes s ci addr lanes target) ci :=
  (passed_onPc s ci lanes target).trans ((slotted_noteMoves _ _ _ _ _).passed ci)

theorem passed_loops (s : State) (ci : Nat) (ls : List LoopLevel) (hs : List Hold) (es : List ErrCell) :
    Passed s (s.setConvoy ci { s.convoy ci with loops := ls, holds := hs, errs := es }) ci :=
  passed_setConvoy s ci _ rfl rfl fun _ => rfl

theorem passed_advance (s : State) (ci : Nat) (addr : Pc) (lanes : Mask) (move : Nat → Option Pc) : Passed s (advance s ci addr lanes move) ci := by
  unfold advance
  extract_lets c0 c
  split
  · split
    · exact (passed_loops s ci _ _ _).trans (passed_moveLanes _ _ _ _ _)
    · exact (passed_loops s ci _ _ c0.errs).trans (passed_moveLanes _ _ _ _ _)
  · exact passed_moveLanes s ci addr lanes _

theorem passed_endIssue (s : State) (core h ci : Nat) : Passed s (endIssue s core h) ci := (slotted_endIssue s core h).passed ci

theorem passed_popTodo (s : State) (core h cj : Nat) (i : WordInfo) (e : Mask) (ci : Nat) : Passed s (popTodo s core h cj i e) ci :=
  (slotted_popTodo s core h cj i e).passed ci

theorem passed_secnt (s : State) (core ci : Nat) (g : Core → W64) : Passed s (s.modCore core fun k => { k with secnt := g k }) ci :=
  passed_modCore s core ci _ rfl

theorem passed_settle (s : State) (f : Focus) (i : WordInfo) (e : Mask) : Passed s (settle s f i e) f.convoy := by
  unfold settle
  dsimp only
  refine Passed.trans (Passed.trans ?_ (passed_secnt _ _ _ _)) (passed_perfCount _ _ _ _ _)
  exact passed_setConvoy s f.convoy _ rfl rfl fun _ => rfl

/-- What completing a word can do (R44, R54, R82, R185). -/
theorem passed_complete (s : State) (f : Focus) (i : WordInfo) (e : Mask) (move : Nat → Option Pc) : Passed s (complete s f i e move) f.convoy :=
  ((passed_settle s f i e).trans (passed_advance _ _ _ _ _)).trans (passed_popTodo _ _ _ _ _ _ _)

theorem passed_completeJumped (s : State) (f : Focus) (i : WordInfo) (e : Mask) : Passed s (completeJumped s f i e) f.convoy :=
  (passed_settle s f i e).trans (passed_popTodo _ _ _ _ _ _ _)

/-! ### Where the lanes stand -/

/-- The convoys are the same lists. -/
theorem popTodo_convoys (s : State) (core h cj : Nat) (i : WordInfo) (e : Mask) : (popTodo s core h cj i e).convoys = s.convoys :=
  (slotted_popTodo s core h cj i e).convoys

theorem settle_convoy (s : State) (f : Focus) (i : WordInfo) (e : Mask) (hr : f.convoy < s.convoys.length) :
    ((settle s f i e).convoy f.convoy).lanes = (s.convoy f.convoy).lanes ∧ ((settle s f i e).convoy f.convoy).loops = (s.convoy f.convoy).loops ∧
    ((settle s f i e).convoy f.convoy).live = (s.convoy f.convoy).live ∧
    ((settle s f i e).convoy f.convoy).ready = nextReady s f i := by
  have hp : ∀ (s : State) core code n, (s.perfCount core code n).convoys = s.convoys := by
    intro s core code n; unfold State.perfCount; split <;> rfl
  unfold settle
  dsimp only [State.convoy]
  rw [hp]
  simp only [State.modCore_convoys, State.setConvoy_convoys, set_getD]
  simp [hr]

theorem settle_holds (s : State) (f : Focus) (i : WordInfo) (e : Mask) (hr : f.convoy < s.convoys.length) :
    ((settle s f i e).convoy f.convoy).holds = (s.convoy f.convoy).holds ∧ ((settle s f i e).convoy f.convoy).loops = (s.convoy f.convoy).loops := by
  refine ⟨?_, (settle_convoy s f i e hr).2.1⟩
  have hp : ∀ (s : State) core code n, (s.perfCount core code n).convoys = s.convoys := by
    intro s core code n; unfold State.perfCount; split <;> rfl
  unfold settle
  dsimp only [State.convoy]
  rw [hp]
  simp only [State.modCore_convoys, State.setConvoy_convoys, set_getD]
  simp [hr]

theorem moveLanes_convoy (s : State) (ci : Nat) (addr : Pc) (lanes : Mask) (target : Nat → Pc) (hr : ci < s.convoys.length) :
    (moveLanes s ci addr lanes target).convoy ci = (s.convoy ci).onLanes lanes fun l x => { x with pc := target l } := by
  unfold moveLanes
  dsimp only [State.convoy]
  rw [(slotted_noteMoves _ _ _ _ _).convoys]
  simp only [State.modConvoy_convoys, set_getD]
  simp [hr, State.convoy]

/-- A word that ends no loop body moves its lanes, and nothing else. -/
theorem advance_none {s : State} {ci : Nat} {addr : Pc} (lanes : Mask) (move : Nat → Option Pc) (hb : backEdge (s.convoy ci) addr = none) :
    advance s ci addr lanes move = moveLanes s ci addr lanes fun l => (move l).getD addr.next := by
  have hb2 : ∀ hs, backEdge { s.convoy ci with holds := hs } addr = none := fun _ => hb
  unfold advance
  simp only [hb2]

/-- Unless the word ends a loop body, every active lane goes where the word sends it or to the next word, and the levels are as they were (R44). -/
theorem complete_goes (s : State) (f : Focus) (i : WordInfo) (e : Mask) (move : Nat → Option Pc) (hr : f.convoy < s.convoys.length)
    (hb : backEdge (s.convoy f.convoy) f.addr = none) :
    ((complete s f i e move).convoy f.convoy).loops = (s.convoy f.convoy).loops ∧
    ∀ l, l < (s.convoy f.convoy).lanes.length → (((complete s f i e move).convoy f.convoy).lane l).pc =
      if f.active.getLsbD l = true then (move l).getD f.addr.next else ((s.convoy f.convoy).lane l).pc := by
  have hc : (complete s f i e move).convoy f.convoy = (advance (settle s f i e) f.convoy f.addr f.active move).convoy f.convoy := by
    simp only [State.convoy, complete, popTodo_convoys]
  have hs := settle_convoy s f i e hr
  have hl : (settle s f i e).convoys.length = s.convoys.length := (passed_settle s f i e).length
  have hb2 : backEdge ((settle s f i e).convoy f.convoy) f.addr = none := by
    unfold backEdge at hb ⊢; rw [hs.2.1]; exact hb
  have hc2 : (complete s f i e move).convoy f.convoy =
      ((settle s f i e).convoy f.convoy).onLanes f.active fun l x => { x with pc := (move l).getD f.addr.next } := by
    rw [hc, advance_none _ _ hb2]
    exact moveLanes_convoy _ _ _ _ _ (hl ▸ hr)
  rw [hc2]
  refine ⟨hs.2.1, fun l hl2 => ?_⟩
  rw [onLanes_lane]
  simp only [hs.1, hl2, true_and]
  split
  · rfl
  · simp only [Convoy.lane, hs.1]

/-- Unless the word ends a loop body where lanes wait for the others, its convoy keeps its holds (R58). -/
theorem complete_holds (s : State) (f : Focus) (i : WordInfo) (e : Mask) (move : Nat → Option Pc) (hr : f.convoy < s.convoys.length)
    (hb : backEdge (s.convoy f.convoy) f.addr = none ∨ ∀ h ∈ (s.convoy f.convoy).holds, h.kind ≠ .edge) :
    ((complete s f i e move).convoy f.convoy).holds = (s.convoy f.convoy).holds := by
  have hs := settle_holds s f i e hr
  have hl : f.convoy < (settle s f i e).convoys.length := (passed_settle s f i e).length ▸ hr
  have hc : (complete s f i e move).convoy f.convoy = (advance (settle s f i e) f.convoy f.addr f.active move).convoy f.convoy := by
    simp only [State.convoy, complete, popTodo_convoys]
  rw [hc, ← hs.1]
  rcases hb with hb | hb
  · have hb2 : backEdge ((settle s f i e).convoy f.convoy) f.addr = none := by unfold backEdge at hb ⊢; rw [hs.2]; exact hb
    rw [advance_none _ _ hb2, moveLanes_convoy _ _ _ _ _ hl]; rfl
  · have hall : ((settle s f i e).convoy f.convoy).holds.filter (fun h => !(h.kind == .edge && h.pc == f.addr)) = ((settle s f i e).convoy f.convoy).holds := by
      rw [List.filter_eq_self, hs.1]
      intro h hh
      simp [hb h hh]
    unfold advance
    dsimp only
    split
    · split
      all_goals
        rw [moveLanes_convoy _ _ _ _ _ (by simpa using hl)]
        simp only [Convoy.onLanes, convoy_setConvoy, hl, and_self, if_true]
        exact hall
    · rw [moveLanes_convoy _ _ _ _ _ hl]; rfl

theorem secntAdd_zero (v : W64) (lo : Nat) : secntAdd v lo 0 = v := by
  unfold secntAdd
  have h : v.toNat / 2 ^ lo % 65536 ≤ 65535 := by omega
  simp [h]

/-- With no error cell in the convoy SECNT stays (R320). -/
theorem complete_secnt (s : State) (f : Focus) (i : WordInfo) (e : Mask) (move : Nat → Option Pc) (he : (s.convoy f.convoy).errs = []) (k : Nat) :
    ((complete s f i e move).core k).secnt = (s.core k).secnt := by
  have hmove : ∀ (s : State) ci a m t, ((moveLanes s ci a m t).core k).secnt = (s.core k).secnt := by
    intro s ci a m t
    exact (slotted_noteMoves _ _ _ _ _).secnt k
  have hadv : ∀ s : State, ((advance s f.convoy f.addr f.active move).core k).secnt = (s.core k).secnt := by
    intro s
    unfold advance
    dsimp only
    split
    · split
      · exact hmove _ _ _ _ _
      · exact hmove _ _ _ _ _
    · exact hmove _ _ _ _ _
  have hset : ((settle s f i e).core k).secnt = (s.core k).secnt := by
    unfold settle
    dsimp only
    rw [(slotted_perfCount _ _ _ _).secnt]
    simp only [correctedReads, he, List.foldl_nil, ite_self, secntAdd_zero]
    have : ∀ s : State, ((s.modCore f.core fun k => { k with secnt := k.secnt }).core k).secnt = (s.core k).secnt := by
      intro s
      have : (s.modCore f.core fun k => { k with secnt := k.secnt }).core k = if f.core = k ∧ f.core < s.cores.length then s.core f.core else s.core k :=
        core_setCore s f.core k _
      rw [this]
      split
      · rename_i h; rw [← h.1]
      · rfl
    exact this _
  unfold complete
  rw [(slotted_popTodo _ _ _ _ _ _).secnt, hadv, hset]

end Sys2Proof.Machine
end

