-- ==== Sys2Proof/Laws/Words.lean ====
section
/-! SUPPORT. One lemma for all words whose effect lies in the convoy: from a state in which a word issues, it completes, and its frame follows from that of the convoy. -/

namespace Sys2Proof.Machine

/-- What a word's own effect leaves alone in its convoy. -/
structure ConvoyKept (c c' : Convoy) (e : Mask) (out : List Part) : Prop where
  rest : c' = { c with lanes := c'.lanes, k := c'.k, s := c'.s, a := c'.a, g := c'.g, flags := c'.flags, busy := c'.busy }
  length : c'.lanes.length = c.lanes.length
  v : ∀ n l, (Part.reg (.v n) ∉ out ∨ e.getLsbD l = false) → c'.readV n l = c.readV n l
  m : ∀ n l, (Part.reg (.m n) ∉ out ∨ e.getLsbD l = false) → c'.readM n l = c.readM n l
  k : ∀ n l, n ≠ 0 → (Part.reg (.k n) ∉ out ∨ e.getLsbD l = false) → (c'.readKn n).getLsbD l = (c.readKn n).getLsbD l
  s : ∀ n, Part.reg (.s n) ∉ out → c'.readS n = c.readS n
  a : ∀ n, Part.reg (.a n) ∉ out → c'.readAff n = c.readAff n
  g : ∀ n, Part.reg (.g n) ∉ out → c'.readG n = c.readG n
  flags : Part.reg .flags ∉ out → c'.flags = c.flags
  draw : ∀ l, (Part.draws ∉ out ∨ e.getLsbD l = false) → (c'.lane l).draw = (c.lane l).draw
  lane : ∀ l, (c'.lane l).pc = (c.lane l).pc ∧ (c'.lane l).rv = (c.lane l).rv ∧ (c'.lane l).hrv = (c.lane l).hrv

/-- The registers of the convoy read in t as they do in c'. -/
structure Reads (t c' : Convoy) : Prop where
  v : ∀ n l, t.readV n l = c'.readV n l
  m : ∀ n l, t.readM n l = c'.readM n l
  k : ∀ n, t.readKn n = c'.readKn n
  s : ∀ n, t.readS n = c'.readS n
  a : ∀ n, t.readAff n = c'.readAff n
  g : ∀ n, t.readG n = c'.readG n
  flags : t.flags = c'.flags
  draw : ∀ l, (t.lane l).draw = (c'.lane l).draw
  width : t.width = c'.width

/-- The shared checks let a word go on. -/
theorem gate_go {s : State} {f : Focus} {i : WordInfo} {uses : List (Opnd × Nat)} {dests : List Opnd} {e : Mask}
    (h : Issues s f i.hdr uses dests e) (hl : i.legal = true)
    (hu : ∀ p ∈ i.reads ++ i.writes ++ scaleOpnds i, overBudget (s.convoy f.convoy).budget p.1 p.2 = false)
    (hd : ∀ p ∈ i.writes, isUniformDest p.1 = true → p.1 ∈ dests) (huni : i.uni = true → e = (s.convoy f.convoy).live)
    (hsoft : i.soft = none := by rfl) : gate s f i = .go e := by
  have hedge : ((backEdge (s.convoy f.convoy) f.addr).isSome && (f.active ||| edgeDone (s.convoy f.convoy) f.addr) &&& (s.convoy f.convoy).live != (s.convoy f.convoy).live) = false := by
    have hor : ∀ x y : Mask, (x ||| y) &&& x = x := by
      intro x y
      exact BitVec.eq_of_getLsbD_eq fun l _ => by simp only [BitVec.getLsbD_and, BitVec.getLsbD_or]; cases x.getLsbD l <;> simp
    rcases h.edge with h1 | h1 <;> simp [h1, hor]
  have hbud : ((i.reads ++ i.writes ++ scaleOpnds i).any fun p => overBudget (s.convoy f.convoy).budget p.1 p.2) = false := by
    rw [List.any_eq_false]
    intro p hp
    simpa using hu p hp
  have huni2 : (e != (s.convoy f.convoy).live && i.writes.any fun p => isUniformDest p.1) = false := by
    by_cases hx : i.writes.any (fun p => isUniformDest p.1) = true
    · obtain ⟨p, hp, hp2⟩ := List.any_eq_true.1 hx
      simp [h.whole p.1 (hd p hp hp2) hp2]
    · simp only [Bool.not_eq_true] at hx
      simp [hx]
  have hstall : ∀ rs b, awaits s (s.convoy f.convoy) rs b = false := by intro rs b; simp [awaits, h.busy]
  have herr : ∀ d b, errorLanes d i (s.convoy f.convoy) e f.active b = 0 := by intro d b; simp [errorLanes, h.errs]
  have htime : decide (s.clock < (s.convoy f.convoy).ready) = false := by simpa using h.time
  have hu3 : (i.uni && e != (s.convoy f.convoy).live) = false := by
    cases hi : i.uni
    · rfl
    · simp [huni hi]
  simp only [gate, h.set, h.pending, htime, hedge, hbud, huni2, hstall, herr, hl, hu3, hsoft, h.errs]
  simp
  exact h.some

theorem passed_same {s t : State} {f : Focus} (h : Passed s t f.convoy) (hsec : ∀ k, (t.core k).secnt = (s.core k).secnt)
    (hloop : backEdge (s.convoy f.convoy) f.addr = none → (t.convoy f.convoy).loops = (s.convoy f.convoy).loops)
    (hhold : backEdge (s.convoy f.convoy) f.addr = none ∨ (∀ h ∈ (s.convoy f.convoy).holds, h.kind ≠ .edge) → (t.convoy f.convoy).holds = (s.convoy f.convoy).holds)
    (p : Part) : Same s t f p := by
  have hr := h.rest
  cases p with
  | reg r => cases r with
    | lc => exact hloop
    | v n => intro l; simp only [Convoy.readV]; rw [h.lane l]; rfl
    | m n => intro l; simp only [Convoy.readM]; rw [h.lane l]; rfl
    | _ => simp only [Same]; rw [h.convoy]; first | done | rfl
  | draws => intro l; rw [h.lane l]
  | vectors => intro l; rw [h.lane l]; exact ⟨rfl, rfl⟩
  | others => exact ⟨h.length, h.others⟩
  | memory => rw [hr]; exact ⟨fun _ => rfl, rfl⟩
  | stores => intro b a; rw [hr]; exact ⟨rfl, rfl⟩
  | engines => refine ⟨by rw [hr], by rw [hr], by rw [hr], fun k => ?_⟩; rw [h.cores k]; exact ⟨rfl, rfl⟩
  | coreRegs => intro k; refine ⟨?_, ?_, ?_, hsec k, ?_⟩ <;> rw [h.cores k]
  | caches => refine ⟨by rw [hr], by rw [hr], fun k => ?_⟩; rw [h.cores k]; exact ⟨rfl, rfl, rfl, rfl⟩
  | tiles => intro k; rw [h.cores k]
  | holds => refine ⟨hhold, ?_, ?_⟩ <;> rw [h.convoy]
  | _ => simp only [Same]; first | (rw [hr]; done) | (rw [h.convoy]; done) | (rw [h.convoy]; exact ⟨rfl, rfl⟩) | (rw [h.convoy]; exact ⟨rfl, rfl, rfl⟩) | (rw [h.convoy]; exact ⟨rfl, rfl, rfl, rfl, rfl⟩) |
      (rw [h.convoy]; exact ⟨rfl, rfl, rfl, rfl⟩) | (rw [hr]; exact ⟨rfl, rfl⟩) | (rw [hr]; exact ⟨rfl, rfl, rfl, rfl⟩)

theorem Ready.shaped {s : State} {f : Focus} (h : Ready s f) : (s.convoy f.convoy).shaped = true := sound_convoy h.sound _

/-- A word whose own effect replaces its convoy completes (R44). -/
theorem complete_completed {s : State} {f : Focus} {i : WordInfo} {e : Mask} {out : List Part} {c' : Convoy} (h : Ready s f)
    (hk : ConvoyKept (s.convoy f.convoy) c' e out) :
    Completed s (complete (s.setConvoy f.convoy c') f i e stay) f e out ∧
    Reads ((complete (s.setConvoy f.convoy c') f i e stay).convoy f.convoy) c' := by
  have hc1 : (s.setConvoy f.convoy c').convoy f.convoy = c' := by
    rw [convoy_setConvoy]; simp [h.convoy]
  have hp := passed_complete (s.setConvoy f.convoy c') f i e stay
  have herr : ((s.setConvoy f.convoy c').convoy f.convoy).errs = [] := by rw [hc1, hk.rest]; exact h.errs
  have hbe : backEdge ((s.setConvoy f.convoy c').convoy f.convoy) f.addr = backEdge (s.convoy f.convoy) f.addr := by
    rw [hc1, hk.rest]; rfl
  have hlen : f.convoy < (s.setConvoy f.convoy c').convoys.length := by simpa using h.convoy
  have hgo := complete_goes (s.setConvoy f.convoy c') f i e stay hlen
  have hsame := passed_same (f := f) hp (complete_secnt _ f i e stay herr) (fun hb => (hgo hb).1) (complete_holds _ f i e stay hlen)
  generalize complete (s.setConvoy f.convoy c') f i e stay = t at *
  have hreads : Reads (t.convoy f.convoy) c' := by
    constructor
    · intro n l; exact (hsame (.reg (.v n)) l).trans (by rw [hc1])
    · intro n l; exact (hsame (.reg (.m n)) l).trans (by rw [hc1])
    · intro n; exact (hsame (.reg (.k n))).trans (by rw [hc1])
    · intro n; exact (hsame (.reg (.s n))).trans (by rw [hc1])
    · intro n; exact (hsame (.reg (.a n))).trans (by rw [hc1])
    · intro n; exact (hsame (.reg (.g n))).trans (by rw [hc1])
    · exact (hsame (.reg .flags)).trans (by rw [hc1])
    · intro l; exact (hsame .draws l).trans (by rw [hc1])
    · rw [hp.convoy, hc1]
  refine ⟨⟨fun p hpo => ?_, fun l hl => ?_, ?_, fun hb l hl => ?_⟩, hreads⟩
  · have key := hsame p
    cases p with
    | reg r => cases r with
      | v n => intro l; rw [hreads.v, hk.v n l (.inl hpo)]
      | m n => intro l; rw [hreads.m, hk.m n l (.inl hpo)]
      | k n =>
        simp only [Same]
        rw [hreads.k]
        by_cases hn : n = 0
        · subst hn; simp only [Convoy.readKn, if_true]; rw [hk.rest]
        · exact BitVec.eq_of_getLsbD_eq fun l _ => hk.k n l hn (.inl hpo)
      | s n => simp only [Same]; rw [hreads.s, hk.s n hpo]
      | a n => simp only [Same]; rw [hreads.a, hk.a n hpo]
      | g n => simp only [Same]; rw [hreads.g, hk.g n hpo]
      | flags => simp only [Same]; rw [hreads.flags, hk.flags hpo]
      | lc => intro hb; rw [(hgo (hbe.trans hb)).1, hc1, hk.rest]
    | draws => intro l; rw [hreads.draw, hk.draw l (.inl hpo)]
    | vectors =>
      intro l
      have := key l
      rw [hc1] at this
      exact ⟨this.1.trans (hk.lane l).2.1, this.2.trans (hk.lane l).2.2⟩
    | others => exact ⟨key.1.trans (by simp), fun j hj => (key.2 j hj).trans (by rw [convoy_setConvoy]; simp [Ne.symm hj])⟩
    | _ =>
      simp only [Same, hc1] at key ⊢
      first
        | exact key
        | (rw [hk.rest] at key; exact key)
  · refine ⟨fun n => ?_, fun n => ?_, fun n hn => ?_, ?_⟩
    · rw [hreads.v, hk.v n l (.inr hl)]
    · rw [hreads.m, hk.m n l (.inr hl)]
    · rw [hreads.k, hk.k n l hn (.inr hl)]
    · rw [hreads.draw, hk.draw l (.inr hl)]
  · rw [hp.rest]; rfl
  · have hl2 : l < ((s.setConvoy f.convoy c').convoy f.convoy).lanes.length := by rw [hc1, hk.length, h.lanes]; exact hl
    rw [(hgo (hbe.trans hb)).2 l hl2, hc1]
    simp only [stay, Option.getD_none, (hk.lane l).1]

/-- From a state in which it issues, a word whose body replaces the convoy completes, and its registers read as the body left them. -/
theorem runWord_done {s : State} {f : Focus} {i : WordInfo} {uses : List (Opnd × Nat)} {dests : List Opnd} {e : Mask} {out : List Part}
    {c' : Convoy} {body : Focus → Convoy → Mask → Res} (h : Issues s f i.hdr uses dests e) (hl : i.legal = true)
    (hu : ∀ p ∈ i.reads ++ i.writes ++ scaleOpnds i, overBudget (s.convoy f.convoy).budget p.1 p.2 = false)
    (hd : ∀ p ∈ i.writes, isUniformDest p.1 = true → p.1 ∈ dests)
    (huni : i.uni = true → e = (s.convoy f.convoy).live)
    (hsoft : i.soft = none)
    (hb : body f (s.convoy f.convoy) e = doneWith s f c') (hk : ConvoyKept (s.convoy f.convoy) c' e out) :
    ∃ t, runWord i s body = .next t ∧ Completed s t f e out ∧ Reads (t.convoy f.convoy) c' := by
  refine ⟨_, ?_, complete_completed (i := i) h.toReady hk⟩
  simp only [runWord, h.focus, gate_go h hl hu hd huni hsoft, hb, doneWith]

end Sys2Proof.Machine
end

