-- ==== Sys2Proof/Laws/Kept.lean ====
section
/-! SUPPORT. Every register write: what it leaves alone and what stands there afterwards. -/

namespace Sys2Proof.Machine

variable {c c' c2 : Convoy} {e : Mask} {out : List Part}

theorem ConvoyKept.refl (c : Convoy) (e : Mask) (out : List Part) : ConvoyKept c c e out :=
  ⟨rfl, rfl, fun _ _ _ => rfl, fun _ _ _ => rfl, fun _ _ _ _ => rfl, fun _ _ => rfl, fun _ _ => rfl, fun _ _ => rfl, fun _ => rfl,
   fun _ _ => rfl, fun _ => ⟨rfl, rfl, rfl⟩⟩

theorem ConvoyKept.trans (h : ConvoyKept c c' e out) (g : ConvoyKept c' c2 e out) : ConvoyKept c c2 e out where
  rest := by rw [g.rest, h.rest]
  length := g.length.trans h.length
  v n l hx := (g.v n l hx).trans (h.v n l hx)
  m n l hx := (g.m n l hx).trans (h.m n l hx)
  k n l hn hx := (g.k n l hn hx).trans (h.k n l hn hx)
  s n hx := (g.s n hx).trans (h.s n hx)
  a n hx := (g.a n hx).trans (h.a n hx)
  g n hx := (g.g n hx).trans (h.g n hx)
  flags hx := (g.flags hx).trans (h.flags hx)
  draw l hx := (g.draw l hx).trans (h.draw l hx)
  lane l := ⟨(g.lane l).1.trans (h.lane l).1, (g.lane l).2.1.trans (h.lane l).2.1, (g.lane l).2.2.trans (h.lane l).2.2⟩

/-- A change of lanes in the lanes of e that keeps their program counters and draws. -/
theorem kept_onLanes (f : Nat → Lane → Lane) (hf : ∀ l x, (f l x).pc = x.pc ∧ (f l x).rv = x.rv ∧ (f l x).hrv = x.hrv ∧ (f l x).draw = x.draw)
    (hv : ∀ n, Part.reg (.v n) ∉ out → ∀ l x, (f l x).getV n = x.getV n) (hm : ∀ n, Part.reg (.m n) ∉ out → ∀ l x, (f l x).getM n = x.getM n) :
    ConvoyKept c (c.onLanes e f) e out where
  rest := rfl
  length := onLanes_lanes_length _ _ _
  v n l h := by
    simp only [Convoy.readV, onLanes_lane]
    rcases h with h | h
    · split
      · exact hv n h l _
      · rfl
    · simp [h]
  m n l h := by
    simp only [Convoy.readM, onLanes_lane]
    rcases h with h | h
    · split
      · exact hm n h l _
      · rfl
    · simp [h]
  k _ _ _ _ := rfl
  s _ _ := rfl
  a _ _ := rfl
  g _ _ := rfl
  flags _ := rfl
  draw l _ := by
    simp only [onLanes_lane]
    split
    · exact (hf l _).2.2.2
    · rfl
  lane l := by
    simp only [onLanes_lane]
    split
    · exact ⟨(hf l _).1, (hf l _).2.1, (hf l _).2.2.1⟩
    · exact ⟨rfl, rfl, rfl⟩

theorem kept_writeV (n : Nat) (v : Nat → W32) (h : Part.reg (.v n) ∈ out) : ConvoyKept c (c.writeV e n v) e out :=
  kept_onLanes _ (fun _ _ => ⟨rfl, rfl, rfl, rfl⟩)
    (fun m hm l x => by rw [setV_getV, if_neg]; rintro ⟨rfl, -⟩; exact hm h) (fun _ _ _ _ => rfl)

theorem kept_writeV64 (n : Nat) (v : Nat → W64) (h : Part.reg (.v n) ∈ out) (h1 : Part.reg (.v (n + 1)) ∈ out) :
    ConvoyKept c (c.writeV64 e n v) e out :=
  kept_onLanes _ (fun _ _ => ⟨rfl, rfl, rfl, rfl⟩)
    (fun m hm l x => by
      rw [setV_getV, if_neg, setV_getV, if_neg]
      · rintro ⟨rfl, -⟩; exact hm h
      · rintro ⟨rfl, -⟩; exact hm h1) (fun _ _ _ _ => rfl)

theorem kept_writeM (n : Nat) (v : Nat → Moment) (h : Part.reg (.m n) ∈ out) : ConvoyKept c (c.writeM e n v) e out :=
  kept_onLanes _ (fun _ _ => ⟨rfl, rfl, rfl, rfl⟩) (fun _ _ _ _ => rfl)
    (fun m hm l x => by rw [setM_getM, if_neg]; rintro ⟨rfl, -⟩; exact hm h)

theorem kept_writeS (n : Nat) (v : W64) (h : Part.reg (.s n) ∈ out) : ConvoyKept c (c.writeS n v) e out where
  rest := rfl
  length := rfl
  v _ _ _ := rfl
  m _ _ _ := rfl
  k _ _ _ _ := rfl
  s m hm := by simp only [Convoy.readS, Convoy.writeS, set_getD]; rw [if_neg]; rintro ⟨rfl, -⟩; exact hm h
  a _ _ := rfl
  g _ _ := rfl
  flags _ := rfl
  draw _ _ := rfl
  lane _ := ⟨rfl, rfl, rfl⟩

theorem kept_writeA (n : Nat) (v : Affine) (h : Part.reg (.a n) ∈ out) : ConvoyKept c (c.writeA n v) e out where
  rest := rfl
  length := rfl
  v _ _ _ := rfl
  m _ _ _ := rfl
  k _ _ _ _ := rfl
  s _ _ := rfl
  a m hm := by simp only [Convoy.readAff, Convoy.writeA, set_getD]; rw [if_neg]; rintro ⟨rfl, -⟩; exact hm h
  g _ _ := rfl
  flags _ := rfl
  draw _ _ := rfl
  lane _ := ⟨rfl, rfl, rfl⟩

theorem kept_writeG (n : Nat) (v : Moment) (h : Part.reg (.g n) ∈ out) : ConvoyKept c (c.writeG n v) e out where
  rest := rfl
  length := rfl
  v _ _ _ := rfl
  m _ _ _ := rfl
  k _ _ _ _ := rfl
  s _ _ := rfl
  a _ _ := rfl
  g m hm := by simp only [Convoy.readG, Convoy.writeG, set_getD]; rw [if_neg]; rintro ⟨rfl, -⟩; exact hm h
  flags _ := rfl
  draw _ _ := rfl
  lane _ := ⟨rfl, rfl, rfl⟩

/-- K0 stays the live set; any other K register takes the mask in the lanes of e (R45, R46). -/
theorem readKn_writeK (c : Convoy) (e : Mask) (n m : Nat) (v : Mask) (l : Nat) :
    ((c.writeK e n v).readKn m).getLsbD l =
      if n = m ∧ n ≠ 0 ∧ n < c.k.length ∧ e.getLsbD l = true then v.getLsbD l else (c.readKn m).getLsbD l := by
  unfold Convoy.writeK
  by_cases hn : n = 0
  · simp [hn]
  · by_cases hm : m = 0
    · subst hm; simp [hn, Convoy.readKn]
    · simp only [hn, if_false, Convoy.readKn, hm, set_getD]
      by_cases h : n = m ∧ n < c.k.length
      · obtain ⟨rfl, h2⟩ := h
        by_cases hl : l < 64
        · have hl2 : (e.getLsbD l) = e[l] := BitVec.getLsbD_eq_getElem hl
          cases he : e.getLsbD l <;> rw [hl2] at he <;> simp [h2, he, hl, hn]
        · simp [h2, BitVec.getLsbD_of_ge _ l (Nat.le_of_not_lt hl)]
      · rw [if_neg h, if_neg]; rintro ⟨a, -, b, -⟩; exact h ⟨a, b⟩

theorem kept_writeK (n : Nat) (v : Mask) (h : n ≠ 0 → Part.reg (.k n) ∈ out) : ConvoyKept c (c.writeK e n v) e out where
  rest := by unfold Convoy.writeK; split <;> rfl
  length := by unfold Convoy.writeK; split <;> rfl
  v _ _ _ := by unfold Convoy.writeK; split <;> rfl
  m _ _ _ := by unfold Convoy.writeK; split <;> rfl
  k m l _ hx := by
    rw [readKn_writeK, if_neg]
    rintro ⟨rfl, h0, -, h2⟩
    rcases hx with hx | hx
    · exact hx (h h0)
    · rw [hx] at h2; exact absurd h2 (by decide)
  s _ _ := by unfold Convoy.writeK; split <;> rfl
  a _ _ := by unfold Convoy.writeK; split <;> rfl
  g _ _ := by unfold Convoy.writeK; split <;> rfl
  flags _ := by unfold Convoy.writeK; split <;> rfl
  draw _ _ := by unfold Convoy.writeK; split <;> rfl
  lane _ := by unfold Convoy.writeK; split <;> exact ⟨rfl, rfl, rfl⟩

theorem kept_flags (x : BitVec 6) (h : Part.reg .flags ∈ out) : ConvoyKept c { c with flags := x } e out :=
  ⟨rfl, rfl, fun _ _ _ => rfl, fun _ _ _ => rfl, fun _ _ _ _ => rfl, fun _ _ => rfl, fun _ _ => rfl, fun _ _ => rfl, fun hf => absurd h hf,
   fun _ _ => rfl, fun _ => ⟨rfl, rfl, rfl⟩⟩

theorem kept_orFlags (x : BitVec 6) (h : Part.reg .flags ∈ out) : ConvoyKept c (c.orFlags x) e out := kept_flags _ h

theorem mem_partsOf_v1 (n : BitVec 8) : Part.reg (.v n.toNat) ∈ partsOf (.v n) 1 := by simp [partsOf, opndRegs]
theorem mem_partsOf_v2 (n : BitVec 8) : Part.reg (.v n.toNat) ∈ partsOf (.v n) 2 ∧ Part.reg (.v (n.toNat + 1)) ∈ partsOf (.v n) 2 := by
  simp [partsOf, opndRegs, List.range_succ]
theorem mem_partsOf_s (n : BitVec 6) (k : Nat) : Part.reg (.s n.toNat) ∈ partsOf (.s n) k := by simp [partsOf, opndRegs]

theorem kept_writeRes32 (d : Opnd) (v : Nat → W32) {k : Nat} (hk : k ≠ 0) (h : ∀ p ∈ partsOf d k, p ∈ out) : ConvoyKept c (writeRes32 c e d v) e out := by
  unfold writeRes32
  split
  · refine kept_writeV _ _ (h _ ?_)
    simp only [partsOf, opndRegs, List.map_map, List.mem_map, List.mem_range, Function.comp]
    exact ⟨0, Nat.pos_of_ne_zero hk, rfl⟩
  · exact kept_writeS _ _ (h _ (mem_partsOf_s _ _))
  · exact .refl _ _ _

theorem kept_writeRes64 (d : Opnd) (v : Nat → W64) (h : ∀ p ∈ partsOf d 2, p ∈ out) : ConvoyKept c (writeRes64 c e d v) e out := by
  unfold writeRes64
  split
  · exact kept_writeV64 _ _ (h _ (mem_partsOf_v2 _).1) (h _ (mem_partsOf_v2 _).2)
  · exact kept_writeS _ _ (h _ (mem_partsOf_s _ _))
  · exact .refl _ _ _

theorem kept_writeMom (d : Opnd) (v : Nat → Moment) (h : ∀ p ∈ partsOf d 1, p ∈ out) : ConvoyKept c (writeMom c e d v) e out := by
  unfold writeMom
  split
  · exact kept_writeM _ _ (h _ (by simp [partsOf, opndRegs]))
  · exact kept_writeG _ _ (h _ (by simp [partsOf, opndRegs]))
  · exact .refl _ _ _

theorem kept_writeMask (d : Opnd) (v : Mask) (h : ∀ p ∈ partsOf d 1, p ∈ out) : ConvoyKept c (writeMask c e d v) e out := by
  unfold writeMask
  split
  · rename_i n
    refine kept_writeK _ _ fun hn => h _ ?_
    have : n ≠ 0 := fun h => hn (by simp [h])
    simp [partsOf, opndRegs]
    exact this
  · exact .refl _ _ _

theorem kept_writeAff (d : Opnd) (v : Affine) (h : ∀ p ∈ partsOf d 1, p ∈ out) : ConvoyKept c (writeAff c d v) e out := by
  unfold writeAff
  split
  · exact kept_writeA _ _ (h _ (by simp [partsOf, opndRegs]))
  · exact .refl _ _ _

/-! ### What stands there afterwards -/

theorem lane_v_length (h : c.shaped = true) {l : Nat} (hl : l < c.lanes.length) : (c.lane l).v.length = c.budget := by
  rw [shaped_iff] at h
  have := h.2.1 (c.lane l) (by rw [Convoy.lane, List.getD_eq_getElem?_getD, List.getElem?_eq_getElem hl]; exact List.getElem_mem hl)
  exact this.1

theorem readV_writeV (h : c.shaped = true) {n : Nat} (hn : n < c.budget) (v : Nat → W32) {l : Nat} (hl : l < c.lanes.length) (he : e.getLsbD l = true) :
    (c.writeV e n v).readV n l = v l := by
  simp only [Convoy.readV, Convoy.writeV, onLanes_lane, hl, he, and_self, if_true, setV_getV, lane_v_length h hl, hn]

theorem readV_writeV64 (h : c.shaped = true) {n : Nat} (hn : n + 1 < c.budget) (v : Nat → W64) {l : Nat} (hl : l < c.lanes.length) (he : e.getLsbD l = true) :
    (c.writeV64 e n v).readV (n + 1) l ++ (c.writeV64 e n v).readV n l = v l := by
  have h1 := lane_v_length h hl
  simp only [Convoy.readV, Convoy.writeV64, onLanes_lane, hl, he, and_self, if_true, setV_getV, h1, hn, setV_v_length]
  have h2 : n < c.budget := by omega
  simp [h2]
  refine BitVec.eq_of_getLsbD_eq fun i hi => ?_
  rw [show (BitVec.extractLsb' 32 32 (v l) ++ BitVec.setWidth 32 (v l)).getLsbD i = _ from BitVec.getLsbD_append]
  simp only [BitVec.getLsbD_extractLsb', BitVec.getLsbD_setWidth]
  by_cases h3 : i < 32
  · simp [h3]
  · simp [h3, show i - 32 < 32 by omega, show 32 + (i - 32) = i by omega]

theorem readS_writeS (h : c.shaped = true) (n : BitVec 6) (v : W64) : (c.writeS n.toNat v).readS n.toNat = v := by
  rw [shaped_iff] at h
  have hl : n.toNat < c.s.length := by rw [h.2.2.2.1]; exact n.isLt
  simp only [Convoy.readS, Convoy.writeS, set_getD, hl, and_self, if_true]

theorem overBudget_v {b k : Nat} {n : BitVec 8} (h : overBudget b (.v n) k = false) : n.toNat + k ≤ b := by
  simpa [overBudget] using h

theorem holds32_writeRes32 {k : Nat} (h : c.shaped = true) (hw : c.lanes.length = c.width) {d : Opnd} (hd : d.isVReg = true ∨ d.isSReg = true)
    (hk : k ≠ 0) (hb : overBudget c.budget d k = false) (v : Nat → W32) : Holds32 (writeRes32 c e d v) e d v := by
  cases d with
  | v n =>
    intro l hl he
    have := overBudget_v hb
    exact readV_writeV h (by omega) v (hw ▸ hl) he
  | s n => exact readS_writeS h n _
  | _ => simp [Opnd.isVReg, Opnd.isSReg] at hd

theorem holds64_writeRes64 (h : c.shaped = true) (hw : c.lanes.length = c.width) {d : Opnd} (hd : d.isVReg = true ∨ d.isSReg = true)
    (hb : overBudget c.budget d 2 = false) (v : Nat → W64) : Holds64 (writeRes64 c e d v) e d v := by
  cases d with
  | v n =>
    intro l hl he
    have := overBudget_v hb
    exact readV_writeV64 h (by omega) v (hw ▸ hl) he
  | s n => exact readS_writeS h n _
  | _ => simp [Opnd.isVReg, Opnd.isSReg] at hd

theorem Holds32.reads {t : Convoy} {d : Opnd} {v : Nat → W32} (h : Holds32 c e d v) (r : Reads t c) : Holds32 t e d v := by
  cases d with
  | v n => intro l hl he; rw [r.v]; exact h l (r.width ▸ hl) he
  | s n => simp only [Holds32] at h ⊢; rw [r.s, r.width]; exact h
  | _ => exact h

theorem Holds64.reads {t : Convoy} {d : Opnd} {v : Nat → W64} (h : Holds64 c e d v) (r : Reads t c) : Holds64 t e d v := by
  cases d with
  | v n => intro l hl he; rw [r.v, r.v]; exact h l (r.width ▸ hl) he
  | s n => simp only [Holds64] at h ⊢; rw [r.s, r.width]; exact h
  | _ => exact h

@[simp] theorem holds32_orFlags (c : Convoy) (e : Mask) (d : Opnd) (v : Nat → W32) (x : BitVec 6) : Holds32 (c.orFlags x) e d v = Holds32 c e d v := by
  cases d <;> rfl
@[simp] theorem holds64_orFlags (c : Convoy) (e : Mask) (d : Opnd) (v : Nat → W64) (x : BitVec 6) : Holds64 (c.orFlags x) e d v = Holds64 c e d v := by
  cases d <;> rfl
@[simp] theorem holdsMask_orFlags (c : Convoy) (e : Mask) (d : Opnd) (v : Nat → Bool) (x : BitVec 6) : HoldsMask (c.orFlags x) e d v = HoldsMask c e d v := by
  cases d <;> rfl
@[simp] theorem holdsMoment_orFlags (c : Convoy) (e : Mask) (d : Opnd) (v : Nat → Moment) (x : BitVec 6) : HoldsMoment (c.orFlags x) e d v = HoldsMoment c e d v := by
  cases d <;> rfl

theorem HoldsMask.reads {t : Convoy} {d : Opnd} {v : Nat → Bool} (h : HoldsMask c e d v) (r : Reads t c) : HoldsMask t e d v := by
  cases d with
  | k n =>
    simp only [HoldsMask] at h ⊢
    split
    · simp [Convoy.readKn]
    · rename_i hn
      rw [if_neg hn] at h
      intro l hl he
      rw [r.k]
      exact h l (r.width ▸ hl) he
  | _ => exact h

theorem HoldsMoment.reads {t : Convoy} {d : Opnd} {v : Nat → Moment} (h : HoldsMoment c e d v) (r : Reads t c) : HoldsMoment t e d v := by
  cases d with
  | m n => intro l hl he; rw [r.m]; exact h l (r.width ▸ hl) he
  | g n => simp only [HoldsMoment] at h ⊢; rw [r.g, r.width]; exact h
  | _ => exact h

theorem holdsMask_writeMask (h : c.shaped = true) {d : Opnd} (hd : d.isKReg = true) (v : Mask) : HoldsMask (writeMask c e d v) e d fun l => v.getLsbD l := by
  cases d with
  | k n =>
    simp only [HoldsMask, writeMask]
    split
    · simp [Convoy.readKn]
    · rename_i hn
      intro l _ he
      have hk : c.k.length = 8 := ((shaped_iff c).1 h).2.2.1
      have hn0 : n.toNat ≠ 0 := fun h0 => hn (BitVec.eq_of_toNat_eq h0)
      rw [readKn_writeK, if_pos ⟨rfl, hn0, by rw [hk]; exact n.isLt, he⟩]
  | _ => simp [Opnd.isKReg] at hd

theorem lane_m_length (h : c.shaped = true) {l : Nat} (hl : l < c.lanes.length) : (c.lane l).m.length = 8 := by
  rw [shaped_iff] at h
  have := h.2.1 (c.lane l) (by rw [Convoy.lane, List.getD_eq_getElem?_getD, List.getElem?_eq_getElem hl]; exact List.getElem_mem hl)
  exact this.2

theorem holdsMoment_writeMom (h : c.shaped = true) (hw : c.lanes.length = c.width) {d : Opnd} (hd : d.isM = true ∨ d.isG = true) (v : Nat → Moment) :
    HoldsMoment (writeMom c e d v) e d v := by
  cases d with
  | m n =>
    intro l hl he
    have hl2 : l < c.lanes.length := hw ▸ hl
    simp only [writeMom, Convoy.readM, Convoy.writeM, onLanes_lane, hl2, he, and_self, if_true, setM_getM, lane_m_length h hl2]
    rw [if_pos ⟨trivial, n.isLt⟩]
  | g n =>
    have hg : c.g.length = 8 := ((shaped_iff c).1 h).2.2.2.2.2.1
    simp only [HoldsMoment, writeMom, Convoy.readG, Convoy.writeG, set_getD, hg]
    rw [if_pos ⟨trivial, n.isLt⟩]
  | _ => simp [Opnd.isM, Opnd.isG] at hd

theorem maskOf_getLsbD : ∀ (ls : List Nat) (m : Mask) (l : Nat), l < 64 →
    (ls.foldl (fun m l => m ||| laneBit l) m).getLsbD l = (m.getLsbD l || ls.contains l)
  | [], m, l, _ => by simp
  | x :: r, m, l, hl => by
    rw [List.foldl_cons, maskOf_getLsbD r _ l hl]
    have : (laneBit x).getLsbD l = decide (l = x) := by
      simp only [laneBit, BitVec.getLsbD_shiftLeft]
      by_cases h : l = x
      · subst h; simp [hl]
      · by_cases h2 : l < x
        · simp [h2, h]
        · have : l - x ≠ 0 := by omega
          simp [h, BitVec.getLsbD_one, this]
    by_cases h : l = x
    · subst h; simp [this]
    · simp [this, h]

/-- The mask of the lanes that pass a test. -/
theorem maskWhere_getLsbD (w : Nat) (p : Nat → Bool) (l : Nat) (hl : l < 64) : (maskWhere w p).getLsbD l = (decide (l < w) && p l) := by
  unfold maskWhere maskOf
  rw [maskOf_getLsbD _ _ _ hl]
  by_cases h1 : l < w <;> cases h2 : p l <;> simp [h1, h2]

end Sys2Proof.Machine
end

