-- ==== Sys2Proof/Laws/SoundOps.lean ====
section
/-! SUPPORT. The invariant State.sound through the operations that all words share: the end of an issue, holds, traps and their return, and the frame of a word. -/

namespace Sys2Proof.Machine

variable {s : State}

@[simp] theorem setErr_sound (bit : Nat) : (s.setErr bit).sound = s.sound := by
  unfold State.setErr; split <;> rfl
@[simp] theorem clearErr_sound (bit : Nat) : (s.clearErr bit).sound = s.sound := rfl
@[simp] theorem noteParked_sound : s.noteParked.sound = s.sound := by
  unfold State.noteParked; split <;> simp
@[simp] theorem perfCount_sound (core : Nat) (code : Byte) (n : Nat) : (s.perfCount core code n).sound = s.sound := by
  unfold State.perfCount; split <;> rfl

@[simp] theorem writeRes32_shaped (c : Convoy) (e : Mask) (d : Opnd) (v : Nat → W32) : (writeRes32 c e d v).shaped = c.shaped := by
  unfold writeRes32; split <;> simp
@[simp] theorem writeRes64_shaped (c : Convoy) (e : Mask) (d : Opnd) (v : Nat → W64) : (writeRes64 c e d v).shaped = c.shaped := by
  unfold writeRes64; split <;> simp
@[simp] theorem writeMom_shaped (c : Convoy) (e : Mask) (d : Opnd) (v : Nat → Moment) : (writeMom c e d v).shaped = c.shaped := by
  unfold writeMom; split <;> simp

@[simp] theorem resetWatchdog_sound (core h : Nat) : (resetWatchdog s core h).sound = s.sound := rfl
@[simp] theorem clearWatchdog_sound (core h : Nat) : (clearWatchdog s core h).sound = s.sound := rfl
@[simp] theorem endHandover_sound (core h : Nat) : (endHandover s core h).sound = s.sound := rfl

theorem Slotted.sound {t : State} (h : Slotted s t) : t.sound = s.sound := by rw [h.rest]; rfl

@[simp] theorem yieldAbove_sound (core h : Nat) (addr : Pc) : (yieldAbove s core h addr).sound = s.sound := (slotted_yieldAbove s core h addr).sound

/-- A change of a convoy that keeps its register files. -/
theorem onLanes_ok {c : Convoy} (hc : c.shaped = true) {f : Nat → Lane → Lane} (hf : keepsLane f) (e : Mask) : (c.onLanes e f).shaped = true :=
  (onLanes_shaped hf e).trans hc

theorem moveLanes_sound (h : s.sound = true) (ci : Nat) (addr : Pc) (lanes : Mask) (target : Nat → Pc) :
    (moveLanes s ci addr lanes target).sound = true :=
  (slotted_noteMoves ..).sound.trans (modConvoy_sound h ci (onLanes_ok (sound_convoy h ci) (by intro _ _; exact ⟨rfl, rfl⟩) lanes))

theorem advance_sound (h : s.sound = true) (ci : Nat) (addr : Pc) (lanes : Mask) (move : Nat → Option Pc) :
    (advance s ci addr lanes move).sound = true := by
  unfold advance
  extract_lets c
  split
  · split
    · exact moveLanes_sound (setConvoy_sound h ci (by exact sound_convoy h ci)) ..
    · exact moveLanes_sound (setConvoy_sound h ci (by exact sound_convoy h ci)) ..
  · exact moveLanes_sound h ..

theorem endIssue_sound (core h : Nat) : (endIssue s core h).sound = s.sound := (slotted_endIssue s core h).sound

theorem popTodo_sound (core h ci : Nat) (i : WordInfo) (e : Mask) : (popTodo s core h ci i e).sound = s.sound :=
  (slotted_popTodo s core h ci i e).sound

theorem settle_sound (h : s.sound = true) (f : Focus) (i : WordInfo) (e : Mask) : (settle s f i e).sound = true := by
  unfold settle
  dsimp only
  rw [perfCount_sound, modCore_sound]
  exact setConvoy_sound h _ (by exact sound_convoy h _)

theorem complete_sound (h : s.sound = true) (f : Focus) (i : WordInfo) (e : Mask) (move : Nat → Option Pc) :
    (complete s f i e move).sound = true :=
  (popTodo_sound ..).trans (advance_sound (settle_sound h f i e) ..)

theorem completeJumped_sound (h : s.sound = true) (f : Focus) (i : WordInfo) (e : Mask) : (completeJumped s f i e).sound = true :=
  (popTodo_sound ..).trans (settle_sound h f i e)

theorem holdLanes_sound (h : s.sound = true) (f : Focus) (i : WordInfo) (e : Mask) (kinds : List (Mask × HoldKind)) :
    (holdLanes s f i e kinds).sound = true := by
  unfold holdLanes
  extract_lets s1 c edge held more y new s2 s3
  have h1 : s1.sound = true := settle_sound h ..
  have h2 : s2.sound = true := setConvoy_sound h1 _ (by exact sound_convoy h1 _)
  have h3 : s3.sound = true := by
    simp only [s3]
    split
    · exact h2
    · exact advance_sound h2 ..
  exact (popTodo_sound ..).trans h3

theorem awayReleased_shaped (p : Hold → Bool) (held : Bool) (hs : List Hold) {c : Convoy} (hc : c.shaped = true) :
    (awayReleased p held hs c).shaped = true :=
  foldlConvoy_shaped (fun c x hc => onLanes_ok hc (by intro _ _; split <;> exact ⟨rfl, rfl⟩) _) _ hc

theorem releaseHolds_sound (h : s.sound = true) (ci : Nat) (p : Hold → Bool) : (releaseHolds s ci p).sound = true := by
  unfold releaseHolds
  extract_lets c out stays away c1 s1 s2 ys
  have h1 : s1.sound = true := setConvoy_sound h ci (by exact awayReleased_shaped _ _ _ (awayReleased_shaped _ _ _ (sound_convoy h ci)))
  exact (foldl_sound (fun s x hs => advance_sound hs ..) _ h1 : s2.sound = true)

theorem startYields_sound (h : s.sound = true) : (startYields s).sound = true :=
  foldl_sound (fun _ _ hs => (yieldAbove_sound ..).trans hs) _ h

theorem settleCurrents_sound (h : s.sound = true) : (settleCurrents s).sound = true :=
  foldl_sound (fun _ _ hs => foldl_sound (fun s _ hs => by
    unfold settleCurrent
    split
    · split <;> exact hs
    · exact hs) _ hs) _ h

theorem enterTrap_sound (h : s.sound = true) (ci cause : Nat) (tpc : Pc) (mask : Mask) (addr : W64) (act : Mask) :
    (enterTrap s ci cause tpc mask addr act).sound = true := by
  unfold enterTrap
  extract_lets c r new s0
  have hc : c.shaped = true := sound_convoy h ci
  have h0 : s0.sound = true := (perfCount_sound ..).trans h
  split
  · exact noteParked_sound.trans (setConvoy_sound h0 ci (by exact hc))
  · rename_i nest target vec open_ c1 c2 s1 s2 _
    have h1 : s1.sound = true := setConvoy_sound h0 ci (onLanes_ok (by exact hc) (by intro _ _; exact ⟨rfl, rfl⟩) _)
    have h2 : s2.sound = true := by simp only [s2]; split <;> exact h1
    split
    · exact (modSlot_sound ..).trans h2
    · exact h2

theorem takeTrap_sound (h : s.sound = true) (f : Focus) (i : WordInfo) (cause : Nat) (mask : Mask) (addr : W64) :
    (takeTrap s f i cause mask addr).sound = true := by
  unfold takeTrap
  split
  · exact h
  · exact (popTodo_sound ..).trans (modConvoy_sound (enterTrap_sound h ..) _ (by exact sound_convoy (enterTrap_sound h ..) _))

theorem completeThenTrap_sound (h : s.sound = true) (f : Focus) (i : WordInfo) (e : Mask) (cause : Nat) (addr : W64) :
    (completeThenTrap s f i e cause addr).sound = true := by
  unfold completeThenTrap
  split
  · exact h
  · exact (popTodo_sound ..).trans (enterTrap_sound (advance_sound (settle_sound h ..) ..) ..)

theorem returned_shaped {c : Convoy} (hc : c.shaped = true) : (returned c).shaped = true :=
  onLanes_ok (by exact hc) (by intro _ _; exact ⟨rfl, rfl⟩) _

theorem returnFromTrap_sound (h : s.sound = true) (ci : Nat) (addr : Pc) : (returnFromTrap s ci addr).sound = true := by
  unfold returnFromTrap
  extract_lets c c' s1
  have h1 : s1.sound = true := (slotted_noteMoves ..).sound.trans (setConvoy_sound h ci (returned_shaped (sound_convoy h ci)))
  split
  · exact (clearWatchdog_sound ..).trans h1
  · exact h1

/-- The state that a word's own effect ends in is sound. -/
def Res.sound : Res → Bool
  | .done s _ => s.sound
  | .jumped s => s.sound
  | .after s _ _ => s.sound
  | .trap s _ _ _ => s.sound
  | .hold s _ => s.sound
  | .wait s => s.sound

@[simp] theorem Res.sound_done (s : State) (m : Nat → Option Pc) : (Res.done s m).sound = s.sound := rfl
@[simp] theorem Res.sound_jumped (s : State) : (Res.jumped s).sound = s.sound := rfl
@[simp] theorem Res.sound_after (s : State) (c : Nat) (a : W64) : (Res.after s c a).sound = s.sound := rfl
@[simp] theorem Res.sound_trap (s : State) (c : Nat) (m : Mask) (a : W64) : (Res.trap s c m a).sound = s.sound := rfl
@[simp] theorem Res.sound_hold (s : State) (k : List (Mask × HoldKind)) : (Res.hold s k).sound = s.sound := rfl
@[simp] theorem Res.sound_wait (s : State) : (Res.wait s).sound = s.sound := rfl

theorem doneWith_sound (h : s.sound = true) (f : Focus) {c : Convoy} (hc : c.shaped = true) : (doneWith s f c).sound = true :=
  setConvoy_sound h _ hc
@[simp] theorem raise_sound (cause : Nat) (e : Mask) : (raise s cause e).sound = s.sound := rfl

/-- A word keeps the invariant when its own effect does; and with a convoy in focus it answers a next state. -/
theorem runWord_sound (h : s.sound = true) (i : WordInfo) {body : Focus → Convoy → Mask → Res}
    (hb : ∀ f e, s.focus = some f → (body f (s.convoy f.convoy) e).sound = true) : soundOut (runWord i s body) = true := by
  unfold runWord
  split
  · rfl
  · rename_i f hf
    split
    · exact h
    · exact complete_sound h ..
    · exact takeTrap_sound h ..
    · rename_i e _
      have hr := hb f e hf
      split <;> rename_i heq <;> rw [heq] at hr
      · exact complete_sound hr ..
      · exact completeJumped_sound hr ..
      · exact completeThenTrap_sound hr ..
      · exact takeTrap_sound hr ..
      · exact holdLanes_sound hr ..
      · exact hr

theorem runValue_sound (h : s.sound = true) (i : WordInfo) (d : Opnd) (val : Convoy → Nat → W32 × FlagSet) :
    soundOut (runValue i d s val) = true :=
  runWord_sound h i fun f e _ => doneWith_sound h f (by simp [h])

theorem runValue64_sound (h : s.sound = true) (i : WordInfo) (d : Opnd) (val : Convoy → Nat → W64) :
    soundOut (runValue64 i d s val) = true :=
  runWord_sound h i fun f e _ => doneWith_sound h f (by simp [h])

theorem runMask_sound (h : s.sound = true) (i : WordInfo) (d : Opnd) (val : Convoy → Mask → Nat → Bool × FlagSet) :
    soundOut (runMask i d s val) = true :=
  runWord_sound h i fun f e _ => by
    split
    · exact doneWith_sound h f (by simp [h])
    · exact h

end Sys2Proof.Machine
end

