-- ==== Sys2Proof/Laws/SoundAccess.lean ====
section
/-! SUPPORT. Translation, accesses in flight and local stores keep the invariant. -/

namespace Sys2Proof.Machine

variable {s : State}

/-! ### Translation -/

theorem tlbInsert_sound (core : Nat) (t : TlbEntry) : (tlbInsert s core t).sound = s.sound := rfl
theorem tlbDrop_sound (core ctx va : Nat) : (tlbDrop s core ctx va).sound = s.sound := rfl

@[simp] theorem putMem_sound (h : s.sound = true) (pa : Nat) (bs : List Byte) : (s.putMem pa bs).sound = true := soundParts_write h pa bs

@[simp] theorem homePut_sound (h : s.sound = true) (pa : Nat) (bs : List Byte) : (homePut s pa bs).sound = true := by
  unfold homePut
  split
  · exact h
  · exact putMem_sound h ..

theorem orLeaf_sound (h : s.sound = true) {at_ : Nat} {leaf bits : W64} {t : State} (ht : orLeaf s at_ leaf bits = some t) : t.sound = true := by
  unfold orLeaf at ht
  extract_lets e at ht
  split at ht
  · cases ht; exact putMem_sound h ..
  · cases ht

theorem tlbFill_sound (h : s.sound = true) {core ctx va : Nat} {t : State × TlbEntry} (ht : tlbFill s core ctx va = .inr t) : t.1.sound = true := by
  unfold tlbFill at ht
  split at ht
  · extract_lets t0 s1 at ht
    cases ht
    have h1 : s1.sound = true := by
      simp only [s1]
      split
      · exact h
      · cases ho : orLeaf s _ _ _ with
        | none => exact h
        | some x => exact orLeaf_sound h ho
    exact h1
  · cases ht

theorem tlbDirty_sound (h : s.sound = true) {core : Nat} {t : TlbEntry} {x : State × TlbEntry} (hx : tlbDirty s core t = some x) : x.1.sound = true := by
  unfold tlbDirty at hx
  split at hx
  · cases hx; exact h
  · cases ho : orLeaf s (8 * t.leafAt) t.leaf (1#64 <<< 47) with
    | none => rw [ho] at hx; cases hx
    | some y =>
      have hy := orLeaf_sound h ho
      rw [ho] at hx; cases hx; exact hy

/-- The state in which a translation ends is sound. -/
def Xlate.sound : Xlate → Bool
  | .ok s _ _ => s.sound
  | .bad s _ => s.sound
  | .stall => true

theorem xlateWith_sound (r : XlateReq) (va : Nat) : ∀ (n : Nat) {s : State} (t : TlbEntry), s.sound = true → (xlateWith r va n s t).sound = true
  | 0, _, _, h => h
  | n + 1, s, t, h => by
    unfold xlateWith
    extract_lets pa s1
    split
    · exact h
    · split
      · exact h
      · split
        · exact h
        · split
          · exact h
          · split
            · exact h
            · split
              · rename_i s1 t1 hd
                exact tlbDirty_sound h hd
              · have h1 : s1.sound = true := h
                split
                · rename_i s2 t2 hf
                  exact xlateWith_sound r va n t2 (tlbFill_sound h1 hf)
                · rfl
                · exact h

theorem xlate_sound (h : s.sound = true) (r : XlateReq) (va : Nat) : (xlate s r va).sound = true := by
  unfold xlate
  split
  · exact xlateWith_sound r va 3 _ h
  · split
    · rename_i hf
      exact xlateWith_sound r va 3 _ (tlbFill_sound h hf)
    · rfl
    · exact h

theorem xlate_ok (h : s.sound = true) {r : XlateReq} {va : Nat} {t : State} {pa : Nat} {leaf : W64} (hx : xlate s r va = .ok t pa leaf) : t.sound = true := by
  have := xlate_sound h r va; rwa [hx] at this
theorem xlate_bad (h : s.sound = true) {r : XlateReq} {va : Nat} {t : State} {c : Nat} (hx : xlate s r va = .bad t c) : t.sound = true := by
  have := xlate_sound h r va; rwa [hx] at this

theorem xlateHome_sound (h : s.sound = true) (r : XlateReq) (va : Nat) : (xlateHome s r va).sound = true := by
  unfold xlateHome
  have h1 := xlate_sound h r va
  split
  · rename_i s1 pa leaf hx
    rw [hx] at h1
    split
    · exact h1
    · have h2 := xlate_sound (s := tlbDrop s1 r.core r.ctx va) h1 r va
      split
      · rename_i hy
        rw [hy] at h2
        split
        · rfl
        · exact h2
      · exact h2
  · exact h1

theorem xlateHome_ok (h : s.sound = true) {r : XlateReq} {va : Nat} {t : State} {pa : Nat} {leaf : W64} (hx : xlateHome s r va = .ok t pa leaf) : t.sound = true := by
  have := xlateHome_sound h r va; rwa [hx] at this
theorem xlateHome_bad (h : s.sound = true) {r : XlateReq} {va : Nat} {t : State} {c : Nat} (hx : xlateHome s r va = .bad t c) : t.sound = true := by
  have := xlateHome_sound h r va; rwa [hx] at this

theorem deviceWrite_sound (h : s.sound = true) {ctx va : Nat} {bs : List Byte} {t : State} (ht : deviceWrite s ctx va bs = some t) : t.sound = true := by
  unfold deviceWrite at ht
  split at ht
  · cases ht
  · cases ht; exact homePut_sound h ..

theorem deviceWriteD_sound (h : s.sound = true) (ctx va : Nat) (bs : List Byte) : ((deviceWrite s ctx va bs).getD s).sound = true := by
  cases hd : deviceWrite s ctx va bs with
  | none => exact h
  | some t => exact deviceWrite_sound h hd

/-! ### Accesses -/

theorem acquireBound_sound (h : s.sound = true) (ci scope at_ : Nat) : (acquireBound s ci scope at_).sound = true := by
  unfold acquireBound
  extract_lets c
  split
  · exact setConvoy_sound h _ (by exact sound_convoy h ci)
  · exact h

theorem dropLine_sound (core line : Nat) : (dropLine s core line).sound = s.sound := rfl
theorem fillLine_sound (core line filled : Nat) (bs : List Byte) : (fillLine s core line filled bs).sound = s.sound := by
  unfold fillLine; split <;> rfl
theorem fillCopy_sound (line : Nat) : (fillCopy s line).sound = s.sound := rfl
theorem raiseView_sound (h : s.sound = true) (ci : Nat) (lanes : List Nat) (pa size at_ : Nat) : (raiseView s ci lanes pa size at_).sound = true :=
  modConvoy_sound h ci (by exact sound_convoy h ci)
theorem setPhase_sound (id : Nat) (p : AccPhase) : (setPhase s id p).sound = s.sound := rfl

theorem writeRecord_sound (h : s.sound = true) (l : Launch) (n : Nat) (r : ItinRec) : (writeRecord s l n r).sound = true := by
  unfold writeRecord
  exact deviceWriteD_sound h ..

theorem recordInfo_sound (h : s.sound = true) (a : Access) (i : ItinInfo) : (recordInfo s a i).sound = true := by
  have hm : ∀ {s : State} (f : Launch → Launch), s.sound = true → (∀ l, (f l).snapshot = l.snapshot) → (s.modLaunch a.launch f).sound = true :=
    fun f h hf => modLaunch_sound h _ (by rw [hf]; exact sound_snapshot h _)
  unfold recordInfo
  extract_lets l line seq pos base put
  have hp : ∀ {s : State} (r : ItinRec), s.sound = true → (put s r).sound = true := by
    intro s r h
    simp only [put]
    split
    · split
      · exact writeRecord_sound h ..
      · exact h
    · exact h
  split
  · refine hm _ h ?_; intro _; rfl
  · split
    · split
      · refine writeRecord_sound (hm _ h ?_) ..; intro _; rfl
      · exact h
    · split
      · split
        · refine hp _ (hm _ h ?_); intro _; rfl
        · exact h
      · split
        · rename_i key _
          refine hp _ ?_
          split
          · refine hm _ h ?_; intro _; rfl
          · exact h
        · refine hp _ (hm _ h ?_); intro _; rfl

theorem recordAll_sound (h : s.sound = true) (a : Access) : (recordAll s a).sound = true :=
  foldl_sound (fun s i hs => recordInfo_sound hs a i) _ h

theorem noteWrite_sound (h : s.sound = true) (core ci : Nat) (lanes : List Nat) (pa size : Nat) : (noteWrite s core ci lanes pa size).sound = true :=
  raiseView_sound (by exact h) ..

theorem writeHome_sound (h : s.sound = true) (a : Access) (bs : List Byte) : (writeHome s a bs).sound = true :=
  noteWrite_sound (putMem_sound h ..) ..

theorem postWrite_sound (h : s.sound = true) (a : Access) (bs : List Byte) : (postWrite s a bs).sound = true :=
  noteWrite_sound (by exact h) ..

theorem afterPerform_sound (h : s.sound = true) (a : Access) (at_ : Nat) : (afterPerform s a at_).sound = true := by
  unfold afterPerform
  extract_lets s1 all_
  have h1 : s1.sound = true := recordAll_sound (by split; exact acquireBound_sound h ..; exact h) a
  split
  · exact releaseHolds_sound h1 ..
  · exact h1

theorem takeLoad_sound (h : s.sound = true) (a : Access) : (takeLoad s a).1.sound = true := by
  unfold takeLoad
  extract_lets line s1 s2
  split
  · exact raiseView_sound (by rw [fillLine_sound]; exact h) ..
  · have h1 : s1.sound = true := by simp only [s1]; split <;> exact h
    have h2 : s2.sound = true := by
      simp only [s2]
      split
      · exact h1
      · exact (fillLine_sound ..).trans h1
    exact raiseView_sound h2 ..

theorem performHome_sound (h : s.sound = true) (a : Access) : (performHome s a).sound = true := by
  unfold performHome
  extract_lets line s1
  split
  · exact afterPerform_sound (by exact takeLoad_sound h a) ..
  · exact afterPerform_sound (writeHome_sound (by exact h) ..) ..
  · exact afterPerform_sound (writeHome_sound (by exact h) ..) ..
  · have h1 : s1.sound = true := h
    split
    · exact h1
    · split
      · split
        · exact (fillCopy_sound ..).trans h1
        · exact h1
      · exact (fillLine_sound ..).trans h1

theorem performAt_sound (h : s.sound = true) (a : Access) : (performAt s a).sound = true := by
  unfold performAt
  split
  · split
    · exact afterPerform_sound (postWrite_sound (by exact h) ..) ..
    · exact h
  · exact performHome_sound h a

theorem drainFirst_sound (h : s.sound = true) : (drainFirst s).sound = true := by
  unfold drainFirst
  split
  · exact h
  · extract_lets s1
    have h1 : s1.sound = true := h
    split
    · exact putMem_sound h1 ..
    · exact noteWrite_sound (putMem_sound h1 ..) ..
    · split
      · exact performHome_sound h1 _
      · exact h1

theorem drainPosted_sound (h : s.sound = true) : (drainPosted s).sound = true :=
  foldl_sound (fun _ _ hs => drainFirst_sound hs) _ h

/-- A fold of steps that may fail keeps the invariant where it ends. -/
theorem foldlOption_sound {α : Type} {f : Option State → α → Option State} (hf : ∀ o x, (∀ t, o = some t → t.sound = true) → ∀ t, f o x = some t → t.sound = true) :
    ∀ (l : List α) {o : Option State}, (∀ t, o = some t → t.sound = true) → ∀ t, l.foldl f o = some t → t.sound = true
  | [], _, h => h
  | x :: r, _, h => foldlOption_sound hf r (hf _ x h)

theorem tryPerform_sound (h : s.sound = true) {a : Access} {t : State} (ht : tryPerform s a = some t) : t.sound = true := by
  refine foldlOption_sound (fun o b ho t ht => ?_) _ (fun t ht => by cases ht; exact h) t ht
  cases o with
  | none => cases ht
  | some u =>
    simp only [Option.bind_some] at ht
    split at ht
    · cases ht; exact performAt_sound (ho u rfl) b
    · cases ht

theorem performGroup_sound (h : s.sound = true) (a : Access) : (performGroup s a).sound = true := by
  unfold performGroup
  cases ht : tryPerform s a with
  | none => exact h
  | some t => exact tryPerform_sound h ht

theorem writeLoaded_shaped (e : Mask) (d : Opnd) (size : Nat) (sx : Bool) (bs : List Byte) {c : Convoy} (hc : c.shaped = true) :
    (writeLoaded c e d size sx bs).shaped = true := by
  unfold writeLoaded
  split
  · split
    · simp [hc]
    · exact foldlConvoy_shaped (fun c i hc => by simp [hc]) _ hc
  · simp [hc]
  · simp [hc]
  · simp [hc]
  · exact hc

theorem returnRead_sound (h : s.sound = true) (a : Access) : (returnRead s a).sound = true := by
  unfold returnRead
  split
  · extract_lets c c'
    have hc : c.shaped = true := sound_convoy h _
    have h1 : c'.shaped = true := by
      simp only [c']
      split
      · exact writeLoaded_shaped _ _ _ _ _ hc
      · exact foldlConvoy_shaped (fun c p hc => writeLoaded_shaped _ _ _ _ _ hc) _ hc
      · exact hc
    exact setConvoy_sound h _ h1
  · exact h

theorem acknowledge_sound (h : s.sound = true) (a : Access) : (acknowledge s a).sound = true := by
  unfold acknowledge; split <;> exact h

theorem holdRetried_sound (h : s.sound = true) (a : Access) : (holdRetried s a).sound = true := by
  unfold holdRetried
  extract_lets c lanes
  split
  · exact h
  · exact setConvoy_sound h _ (by exact sound_convoy h _)

theorem refuseAccess_sound (h : s.sound = true) (a : Access) : (refuseAccess s a).sound = true := by
  unfold refuseAccess
  extract_lets s1
  have h1 : s1.sound = true := (tlbDrop_sound ..).trans (holdRetried_sound h a)
  exact h1

theorem resendAccess_sound (h : s.sound = true) {a : Access} {t : State} (ht : resendAccess s a = some t) : t.sound = true := by
  unfold resendAccess at ht
  split at ht
  · rename_i hx
    split at ht
    · cases ht
    · have h2 := xlate_ok h hx
      cases ht
      exact h2
  · cases ht

theorem retryAccess_sound (h : s.sound = true) (a : Access) : (retryAccess s a).sound = true := by
  unfold retryAccess
  split
  · exact h
  · split
    · exact h
    · extract_lets g s1
      have h1 : s1.sound = true := foldl_sound (fun _ b hs => refuseAccess_sound hs b) _ h
      split
      · exact h1
      · cases ht : g.foldl (fun o b => o.bind fun s => resendAccess s b) (some s1) with
        | none => exact h1
        | some t =>
          refine foldlOption_sound (fun o b ho t ht => ?_) _ (fun t ht => by cases ht; exact h1) t ht
          cases o with
          | none => cases ht
          | some u => exact resendAccess_sound (ho u rfl) ht

theorem sendAccess_sound (f : Focus) (a : Access) : (sendAccess s f a).sound = s.sound := by
  unfold sendAccess; extract_lets; split <;> rfl

theorem countMiss_sound (core : Nat) (a : Access) : (countMiss s core a).sound = s.sound := perfCount_sound ..

theorem sendLoad_sound (h : s.sound = true) (f : Focus) (a : Access) : (sendLoad s f a).sound = true := by
  unfold sendLoad
  split
  · exact raiseView_sound ((sendAccess_sound ..).trans h) ..
  · exact (perfCount_sound ..).trans ((sendAccess_sound ..).trans h)

theorem checkLane_sound (h : s.sound = true) {r : XlateReq} {size : Nat} {reads : Bool} {l va : Nat} {x : State × LaneCheck}
    (hx : checkLane s r size reads l va = some x) : x.1.sound = true := by
  unfold checkLane at hx
  split at hx
  · cases hx; exact h
  · split at hx
    · cases hx; exact h
    · split at hx
      · cases hx
      · rename_i he; cases hx; exact xlateHome_bad h he
      · rename_i he
        split at hx <;> cases hx <;> exact xlateHome_ok h he

theorem checkLanes_sound (r : XlateReq) (size : Nat) (reads : Bool) : ∀ (ls : List (Nat × Nat)) {s : State} {x : State × List LaneCheck},
    s.sound = true → checkLanes s r size reads ls = some x → x.1.sound = true
  | [], s, x, h, hx => by cases hx; exact h
  | (l, va) :: rest, s, x, h, hx => by
    unfold checkLanes at hx
    split at hx
    · cases hx
    · rename_i s1 y hy
      have h1 : s1.sound = true := checkLane_sound h hy
      split at hx
      · cases hx
      · rename_i s2 xs hr
        have h2 := checkLanes_sound r size reads rest h1 hr
        cases hx
        exact h2

/-- The state in which the checks of a word end is sound. -/
def MemCheck.sound : MemCheck → Bool
  | .ok s _ => s.sound
  | .bad s _ _ _ => s.sound
  | .stall => true

theorem checkWord_sound (h : s.sound = true) (r : XlateReq) (size : Nat) (reads : Bool) (ls : List (Nat × Nat)) :
    (checkWord s r size reads ls).sound = true := by
  unfold checkWord
  split
  · rfl
  · rename_i s1 xs hx
    have h1 : s1.sound = true := checkLanes_sound r size reads ls h hx
    split <;> exact h1

def ItemRes.sound : ItemRes → Bool
  | .ok s _ _ => s.sound
  | .bad s _ _ _ => s.sound
  | .wait => true

theorem readAtOnce_sound (h : s.sound = true) {f : Focus} {lanes : List Nat} {a : LaneAddr} {n : Nat} {home : Bool} {x : State × List Byte}
    (hx : readAtOnce s f lanes a n home = some x) : x.1.sound = true := by
  unfold readAtOnce at hx
  extract_lets c l b at hx
  split at hx
  · cases hx; exact h
  · split at hx
    · cases hx; exact raiseView_sound h ..
    · split at hx
      · cases hx
      · cases hx; exact (countMiss_sound ..).trans (takeLoad_sound h _)

theorem readItem_sound (h : s.sound = true) (f : Focus) (e : Mask) (va align n : Nat) (home : Bool) : (readItem s f e va align n home).sound = true := by
  unfold readItem
  extract_lets c ls
  split
  · exact h
  · have hc := checkWord_sound h (convoyReq s c false) n true (ls.map fun l => (l, va))
    split <;> rename_i he <;> rw [he] at hc
    · exact hc
    · rfl
    · split
      · rfl
      · split
        · exact hc
        · split
          · split
            · rename_i hr
              exact readAtOnce_sound hc hr
            · rfl
          · rfl

/-! ### Local store -/

theorem modLs_sound (h : s.sound = true) (bi : Nat) (second : Bool) {f : LocalStore → LocalStore} (hf : ∀ l, Memory.wf l.mem = true → Memory.wf (f l).mem = true) :
    (modLs s bi second f).sound = true := by
  refine modBlock_sound h bi ?_
  have hb := sound_block h bi
  simp only [Block.tidy, Bool.and_eq_true] at hb
  split
  · simp only [Block.tidy, Bool.and_eq_true]; exact ⟨hb.1, hf _ hb.2⟩
  · simp only [Block.tidy, Bool.and_eq_true]; exact ⟨hf _ hb.1, hb.2⟩

theorem write_wf (l : LocalStore) (off : Nat) (bs : List Byte) (h : Memory.wf l.mem = true) : Memory.wf (l.write off bs).mem = true :=
  memWrite_wf bs off h

theorem addMark_wf (l : LocalStore) (off : Nat) (h : Memory.wf l.mem = true) : Memory.wf (addMark l off).mem = true := by
  unfold addMark; split <;> exact h

end Sys2Proof.Machine
end

