-- ==== Sys2Proof/Laws/SoundBlocks.lean ====
section
/-! SUPPORT. Events, queues, placement, the end of blocks and launches, fetching and the control words keep the invariant. -/

namespace Sys2Proof.Machine

variable {s : State}

/-- A fold over launches, blocks or convoys in a named part of the state. -/
theorem testHead_sound (q : Nat) : (testHead s q).sound = s.sound := by
  unfold testHead
  split
  · split <;> rfl
  · rfl

theorem foldl_eq_sound {α : Type} {f : State → α → State} (hf : ∀ s x, (f s x).sound = s.sound) : ∀ (l : List α) {s : State}, (l.foldl f s).sound = s.sound
  | [], _ => rfl
  | x :: r, s => (foldl_eq_sound hf r).trans (hf s x)

theorem releaseWaits_sound (h : s.sound = true) (ci : Nat) (p : Hold → Bool) : (releaseWaits s ci p).sound = true := by
  unfold releaseWaits
  split
  · exact releaseHolds_sound (acquireBound_sound h ..) ..
  · exact h

theorem scanList_sound (h : s.sound = true) : (scanList s).sound = true := by
  unfold scanList
  split
  · exact h
  · exact releaseWaits_sound (by exact h) ..

theorem setEvent_sound (h : s.sound = true) (ev : Nat) : (setEvent s ev).sound = true := by
  unfold setEvent
  extract_lets s1 s2 s3
  have h1 : s1.sound = true := h
  have h2 : s3.sound = true := foldl_sound (fun s ci hs => releaseWaits_sound hs ..) _ h1
  exact (foldl_eq_sound (fun s q => testHead_sound q) _).trans h2

theorem clearEvent_sound (ev : Nat) : (clearEvent s ev).sound = s.sound := rfl

theorem enqueueRecord_sound (q : Nat) (bs : List Byte) : (enqueueRecord s q bs).sound = s.sound := by
  unfold enqueueRecord
  extract_lets id s1
  split
  · exact testHead_sound q
  · rfl

theorem newConvoy_shaped (core slot pos width budget li bi index : Nat) (pc : Pc) (priv : Nat) :
    (newConvoy core slot pos width budget li bi index pc priv).shaped = true := by
  rw [shaped_iff]
  simp only [newConvoy]
  simp [List.mem_replicate]

theorem seatConvoy_sound (ci li : Nat) : (seatConvoy s ci li).sound = s.sound := rfl
theorem openCounters_sound (core li : Nat) : (openCounters s core li).sound = s.sound := by
  unfold openCounters; split <;> rfl

theorem modLaunch_keep (h : s.sound = true) (i : Nat) {f : Launch → Launch} (hf : ∀ l, (f l).snapshot = l.snapshot) : (s.modLaunch i f).sound = true :=
  modLaunch_sound h i (by rw [hf]; exact sound_snapshot h i)

theorem startBlock_sound (h : s.sound = true) (li core : Nat) (room : Room) : (startBlock s li core room).sound = true := by
  unfold startBlock
  extract_lets l r bi c0 n src s1 s2 s3
  have h1 : s1.sound = true := by
    have hb : ∀ b : Block, b.tidy = true → soundParts s.mem (s.blocks ++ [b]) s.launches s.convoys = true := fun b hb => soundParts_addBlock h hb
    refine soundParts_addConvoys (hb _ ?_) ?_
    · rfl
    intro c hc
    simp only [List.mem_map] at hc
    obtain ⟨p, _, rfl⟩ := hc
    exact newConvoy_shaped ..
  have h2 : s2.sound = true := (foldl_eq_sound (fun s i => seatConvoy_sound ..) _).trans h1
  have h3 : s3.sound = true := (foldl_eq_sound (fun s i => openCounters_sound ..) _).trans h2
  exact modLaunch_keep h3 _ (by intro _; rfl)

theorem placeNext_sound (h : s.sound = true) {li : Nat} {t : State} (ht : placeNext s li = some t) : t.sound = true := by
  unfold placeNext at ht
  split at ht
  · cases ht
  · rename_i core _
    cases hr : findRoom s li core with
    | none => rw [hr] at ht; cases ht
    | some room =>
      rw [hr] at ht; cases ht
      exact modLaunch_keep (startBlock_sound h ..) _ (by intro _; rfl)

theorem placeMany_sound (li : Nat) : ∀ (n : Nat) {s t : State}, s.sound = true → placeMany li n s = some t → t.sound = true
  | 0, s, t, h, ht => by cases ht; exact h
  | n + 1, s, t, h, ht => by
    unfold placeMany at ht
    split at ht
    · rename_i s1 h1
      exact placeMany_sound li n (placeNext_sound h h1) ht
    · cases ht

theorem noteFull_sound (h : s.sound = true) : (noteFull s).sound = true := by
  unfold noteFull
  refine foldl_sound (fun s li hs => ?_) _ h
  extract_lets l
  split
  · exact modLaunch_keep hs _ (by intro _; rfl)
  · exact hs

theorem tryPlace_sound (h : s.sound = true) {li : Nat} {t : State} (ht : tryPlace s li = some t) : t.sound = true := by
  unfold tryPlace at ht
  extract_lets l at ht
  split at ht
  · exact placeMany_sound li _ h ht
  · exact placeNext_sound h ht

theorem placeBlock_sound (h : s.sound = true) (li : Nat) : (placeBlock s li).sound = true := by
  unfold placeBlock
  split
  · refine noteFull_sound ?_
    cases ht : tryPlace s li with
    | none => exact h
    | some t => exact tryPlace_sound h ht
  · exact h

theorem writeStatus_sound (h : s.sound = true) (ctx : Nat) (r : LaunchRec) (a b c d : Nat) : (writeStatus s ctx r a b c d).sound = true := by
  unfold writeStatus
  split
  · exact h
  · split
    · rename_i hd; exact deviceWrite_sound h hd
    · exact (setErr_sound _).trans h

theorem completionEvent_sound (h : s.sound = true) (r : LaunchRec) : (completionEvent s r).sound = true := by
  unfold completionEvent; split
  · exact setEvent_sound h _
  · exact h

theorem startRecording_sound (h : s.sound = true) (ctx id : Nat) (r : LaunchRec) : (startRecording s ctx id r).sound = true := by
  unfold startRecording
  extract_lets put s1 s2 s3 s4 s5
  have hp : ∀ {s : State} (off : Nat) (bs : List Byte), s.sound = true → (put s off bs).sound = true := fun off bs h => deviceWriteD_sound h ..
  exact hp _ _ (hp _ _ (hp _ _ (hp _ _ (hp _ _ (hp _ _ h)))))

theorem admitHead_sound (h : s.sound = true) (q : Nat) : (admitHead s q).sound = true := by
  unfold admitHead
  split
  · exact h
  · split
    · exact h
    · rename_i hd rest _ _
      extract_lets r s0 rec_ bind hd' s1 src l
      have h0 : s0.sound = true := (testHead_sound q).trans h
      split
      · exact completionEvent_sound (writeStatus_sound h0 ..) _
      · have h1 : s1.sound = true := by
          simp only [s1]; split
          · exact startRecording_sound h0 ..
          · exact h0
        refine noteFull_sound (soundParts_addLaunch h1 ?_)
        simp only [l]
        split
        · exact sound_mem h1
        · rfl

theorem commitOne_sound (h : s.sound = true) (ctx : Nat) (x : Buffered) : (commitOne ctx s x).sound = true := by
  unfold commitOne
  extract_lets pa
  split <;> first | exact putMem_sound h .. | exact h

theorem commitInterval_sound (h : s.sound = true) (li : Nat) : (commitInterval s li).sound = true :=
  modLaunch_keep (foldl_sound (fun s x hs => commitOne_sound hs _ x) _ h) _ (by intro _; rfl)

theorem commitBounds_sound (h : s.sound = true) (l : Launch) : (commitBounds s l).sound = true :=
  foldl_sound (fun _ _ hs => acquireBound_sound hs ..) _ h

theorem closeCrossing_sound (h : s.sound = true) (li : Nat) : (closeCrossing s li).sound = true := by
  unfold closeCrossing
  extract_lets l s1 s2 s3 s4
  have h1 : s1.sound = true := by
    simp only [s1]; split
    · exact writeRecord_sound h ..
    · exact h
  have h2 : s2.sound = true := by
    simp only [s2]; split
    · exact commitBounds_sound (commitInterval_sound h1 _) _
    · exact h1
  have h3 : s3.sound = true := by
    refine modLaunch_sound h2 _ ?_
    dsimp only
    split
    · exact sound_mem h2
    · exact sound_snapshot h2 _
  have h4 : s4.sound = true := soundParts_mapBlocks h3 (fun b hb => by split <;> exact hb)
  exact foldl_sound (fun s ci hs => releaseHolds_sound (acquireBound_sound hs ..) ..) _ h4

theorem finishCrossing_sound (h : s.sound = true) (li : Nat) : (finishCrossing s li).sound = true := by
  unfold finishCrossing
  split
  · exact closeCrossing_sound h li
  · exact h

theorem unseat_sound (ci : Nat) : (unseat s ci).sound = s.sound := rfl

theorem freeBlock_sound (h : s.sound = true) (bi : Nat) (st : BlockState) : (freeBlock s bi st).sound = true := by
  unfold freeBlock
  extract_lets b s1 s2
  have h1 : s1.sound = true := (foldl_eq_sound (fun s i => unseat_sound i) _).trans h
  have h2 : s2.sound = true := h1
  exact modBlock_sound h2 _ (by exact sound_block h2 _)

theorem unclaim_sound (core bi : Nat) : (unclaim s core bi).sound = s.sound := rfl

theorem endClaims_sound (bi : Nat) : (endClaims s bi).sound = s.sound := by
  unfold endClaims
  extract_lets b
  split <;> rfl

theorem keepEndOn_sound (h : s.sound = true) (core : Nat) : (keepEndOn s core).sound = true := by
  refine soundParts_mapLaunches h (fun l => ?_)
  dsimp only
  split <;> split <;> rfl

theorem keepEnd_sound (h : s.sound = true) (b : Block) : (keepEnd s b).sound = true := by
  unfold keepEnd
  extract_lets s1 s2
  have h1 : s1.sound = true := h
  split
  · exact keepEndOn_sound h1 _
  · have h2 : s2.sound = true := keepEndOn_sound h1 _
    rename_i k _
    have h3 : (keepEndOn s2 k).sound = true := keepEndOn_sound h2 _
    obtain ⟨hm, hb, hl, hc⟩ := sound_iff.1 h3
    refine sound_iff.2 ⟨hm, hb, fun l hl' => ?_, hc⟩
    simp only [List.mem_map] at hl'
    obtain ⟨p, hp, rfl⟩ := hl'
    split
    · exact sound_snapshot h2 _
    · exact hl _ (List.of_mem_zip hp).2

theorem sealItinerary_sound (h : s.sound = true) (li : Nat) : (sealItinerary s li).sound = true := by
  unfold sealItinerary
  extract_lets l
  split
  · exact h
  · split
    · exact (setErr_sound _).trans h
    · rename_i hd
      have h1 := deviceWrite_sound h hd
      cases ht : deviceWrite _ l.queue (l.rec_.itin + 7) _ with
      | none => exact (setErr_sound _).trans h
      | some t => exact deviceWrite_sound h1 ht

theorem completeLaunch_sound (h : s.sound = true) (li : Nat) : (completeLaunch s li).sound = true := by
  unfold completeLaunch
  split
  · exact h
  · extract_lets l s0 s1 s2 s3
    have h0 : s0.sound = true := by
      simp only [s0]; split
      · exact commitInterval_sound h _
      · exact h
    have h1 : s1.sound = true := sealItinerary_sound h0 _
    have h2 : s2.sound = true := by simp only [s2]; split <;> exact writeStatus_sound h1 ..
    have h3 : s3.sound = true := modLaunch_sound (completionEvent_sound h2 _) _ rfl
    exact h3

theorem terminateLaunch_sound (h : s.sound = true) (li cause : Nat) : (terminateLaunch s li cause).sound = true := by
  unfold terminateLaunch
  extract_lets l s1 s2
  split
  · exact h
  · have h1 : s1.sound = true := modLaunch_keep h _ (by intro _; rfl)
    have h2 : s2.sound = true := soundParts_mapConvoys (bs := s1.blocks.map _)
      (soundParts_mapBlocks h1 (fun b hb => by unfold killBlock; (repeat' split) <;> exact hb))
      (fun c hc => by unfold killConvoy; split <;> exact hc)
    exact (foldl_eq_sound (fun s bi => endClaims_sound bi) _).trans (noteParked_sound.trans h2)

theorem recordEvent_sound (h : s.sound = true) (a : Nat) : (recordEvent s a).sound = true := by
  unfold recordEvent
  extract_lets v
  split
  · exact setEvent_sound h _
  · exact h

theorem emptyConvoy_shaped {c : Convoy} (hc : c.shaped = true) : (emptyConvoy c).shaped = true := by
  rw [shaped_iff] at hc ⊢
  exact ⟨.inl rfl, (by intro x hx; cases hx), hc.2.2⟩

theorem putAway_sound (h : s.sound = true) (bi : Nat) : (putAway s bi).sound = true := by
  unfold putAway
  exact foldl_sound (fun s ci hs => modConvoy_sound hs _ (emptyConvoy_shaped (sound_convoy hs _))) _ (freeBlock_sound (by exact h) ..)

theorem resumeConvoy_sound (h : s.sound = true) (ci : Nat) : (resumeConvoy s ci).sound = true := by
  unfold resumeConvoy
  extract_lets s1 c
  have h1 : s1.sound = true := modConvoy_sound h ci (by exact sound_convoy h ci)
  exact (resetWatchdog_sound ..).trans ((modSlot_sound ..).trans h1)

theorem resumeBlock_sound (h : s.sound = true) (bi : Nat) : (resumeBlock s bi).sound = true := by
  unfold resumeBlock
  extract_lets s1
  have h1 : s1.sound = true := foldl_sound (fun s ci hs => resumeConvoy_sound hs ci) _ h
  exact soundParts_block h1 bi (by exact sound_block h1 bi)

theorem closeService_sound (h : s.sound = true) (v : ServiceOp) (ok : Bool) (ops : List ServiceOp) : (closeService s v ok ops).sound = true := by
  unfold closeService
  extract_lets b s1 events
  have h1 : s1.sound = true := h
  have he : ∀ {s : State}, s.sound = true → (events s).sound = true := fun h => foldl_sound (fun s x hs => recordEvent_sound hs _) _ h
  split
  · split
    · exact he (resumeBlock_sound h1 _)
    · exact putAway_sound h1 _
  · split
    · exact he (keepEnd_sound (putAway_sound h1 _) _)
    · exact h1

theorem serviceExit_sound (h : s.sound = true) (sv : Nat) : (serviceExit s sv).sound = true := by
  unfold serviceExit
  split
  · exact h
  · split
    · exact h
    · extract_lets ok v1 s1
      have h1 : s1.sound = true := h
      split
      · exact closeService_sound h1 ..
      · split
        · exact closeService_sound h1 ..
        · exact h1

theorem serviceReport_sound (h : s.sound = true) (bi : Nat) : (serviceReport s bi).sound = true := by
  unfold serviceReport
  split
  · split
    · exact serviceExit_sound h _
    · exact h
  · exact h

theorem endBlock_sound (h : s.sound = true) (bi : Nat) : (endBlock s bi).sound = true := by
  unfold endBlock
  extract_lets b
  split
  · exact serviceReport_sound ((endClaims_sound _).trans (modLaunch_keep (modBlock_sound h _ (by exact sound_block h _)) _ (by intro _; rfl))) _
  · exact h

theorem releaseBlock_sound (h : s.sound = true) (bi : Nat) : (releaseBlock s bi).sound = true := by
  unfold releaseBlock
  split
  · exact h
  · extract_lets b s1
    have h1 : s1.sound = true := freeBlock_sound (serviceReport_sound h _) ..
    split
    · exact keepEnd_sound h1 _
    · exact h1

theorem endConvoy_sound (h : s.sound = true) (ci : Nat) : (endConvoy s ci).sound = true := by
  unfold endConvoy
  extract_lets c s1
  split
  · exact h
  · have h1 : s1.sound = true := setConvoy_sound h _ (by exact sound_convoy h ci)
    exact finishCrossing_sound (endBlock_sound h1 _) _

theorem passBarrier_sound (h : s.sound = true) (ci : Nat) (bs : List Before) : (passBarrier s ci bs).sound = true :=
  modConvoy_sound (acquireBound_sound h ..) _ (by exact sound_convoy (acquireBound_sound h ..) _)

theorem releaseBarl_sound (h : s.sound = true) (ci : Nat) (b : Barl) : (releaseBarl s ci b).sound = true :=
  releaseHolds_sound (passBarrier_sound h ..) ..

theorem finishBarl_sound (h : s.sound = true) (ci : Nat) : (finishBarl s ci).sound = true := by
  unfold finishBarl
  extract_lets c
  split
  · exact h
  · split
    · exact h
    · exact releaseBarl_sound (setConvoy_sound h _ (by exact sound_convoy h ci)) ..

/-! ### Issue -/

def Fetch.sound : Fetch → Bool
  | .word s _ => s.sound
  | .fault s _ => s.sound
  | .stall => true

theorem fetchWord_sound (h : s.sound = true) (ci : Nat) (addr : Pc) : (fetchWord s ci addr).sound = true := by
  unfold fetchWord
  extract_lets
  split
  · exact h
  · split
    · exact h
    · split
      · rfl
      · rename_i hx; exact xlateHome_bad h hx
      · rename_i hx
        have h1 := xlateHome_ok h hx
        split
        · rfl
        · split
          · exact h1
          · exact h1

theorem fetchWord_word (h : s.sound = true) {ci : Nat} {addr : Pc} {t : State} {w : W64} (hx : fetchWord s ci addr = .word t w) : t.sound = true := by
  have := fetchWord_sound h ci addr; rwa [hx] at this
theorem fetchWord_fault (h : s.sound = true) {ci : Nat} {addr : Pc} {t : State} {c : Nat} (hx : fetchWord s ci addr = .fault t c) : t.sound = true := by
  have := fetchWord_sound h ci addr; rwa [hx] at this

/-! ### Control words -/

@[simp] theorem writeLink_shaped (c : Convoy) (e : Mask) (n : Nat) (pc : Pc) : (writeLink c e n pc).shaped = c.shaped := writeV64_shaped ..

theorem exitLanes_sound (h : s.sound = true) (f : Focus) (e : Mask) : (exitLanes s f e).sound = true := by
  unfold exitLanes
  extract_lets s1 rest s2
  have h1 : s1.sound = true := modConvoy_sound h _ (by exact sound_convoy h _)
  have h2 : s2.sound = true := by
    simp only [s2]; split
    · exact h1
    · exact advance_sound h1 ..
  exact endConvoy_sound (finishBarl_sound h2 _) _

theorem tableLane_sound (h : s.sound = true) (f : Focus) (table : W64) (label bound budget l : Nat) (index : W64) :
    (tableLane s f table label bound budget l index).1.sound = true := by
  unfold tableLane
  split
  · exact h
  · have hr := readItem_sound h f (laneBit l) (table.toNat + 16 + 8 * index.toNat) 8 8 false
    split <;> rename_i he <;> rw [he] at hr
    · exact h
    · exact hr
    · extract_lets t
      split
      · exact hr
      · split
        · exact hr
        · rename_i hx; exact fetchWord_fault hr hx
        · rename_i hx; exact fetchWord_word hr hx

theorem tableLanes_sound (f : Focus) (table : W64) (label bound budget : Nat) : ∀ (ls : List (Nat × W64)) {s : State}, s.sound = true →
    (tableLanes s f table label bound budget ls).1.sound = true
  | [], _, h => h
  | (l, x) :: r, _, h => tableLanes_sound f table label bound budget r (tableLane_sound h f table label bound budget l x)

theorem tableJump_sound (h : s.sound = true) (f : Focus) (c : Convoy) (e : Mask) (index : Opnd) (table : W64) (link : Option Nat) :
    (tableJump s f c e index table link).sound = true := by
  unfold tableJump
  have hr := readItem_sound h f e table.toNat 16 16 false
  split <;> rename_i he <;> rw [he] at hr
  · exact h
  · exact hr
  · rename_i s1 hd a
    extract_lets label bound indices
    split
    · exact hr
    · have ht := tableLanes_sound f table label bound c.budget indices (s := s1) hr
      split
      rename_i s2 ts hq
      rw [hq] at ht
      split
      · exact h
      · split
        · exact ht
        · extract_lets c2 c3
          refine setConvoy_sound ht _ ?_
          simp only [c3]
          split
          · exact (writeLink_shaped ..).trans (sound_convoy ht _)
          · exact sound_convoy ht _

def Body.sound : Body → Bool
  | .words s _ => s.sound
  | .bad s _ _ => s.sound
  | .stall => true

theorem fetchBody_sound (ci : Nat) : ∀ (n : Nat) (a : Pc) {s : State} (acc : List W64), s.sound = true → (fetchBody ci n a s acc).sound = true
  | 0, _, _, _, h => h
  | n + 1, a, s, acc, h => by
    unfold fetchBody
    split
    · rfl
    · rename_i hx; exact fetchWord_fault h hx
    · rename_i hx; exact fetchBody_sound ci n _ _ (fetchWord_word h hx)

theorem execNop_sound (h : s.sound = true) (w : CWord) : soundOut (execNop w s) = true := runWord_sound h _ fun _ _ _ => h
theorem execYield_sound (h : s.sound = true) (w : CWord) : soundOut (execYield w s) = true := runWord_sound h _ fun _ _ _ => h
theorem execExit_sound (h : s.sound = true) (w : CWord) : soundOut (execExit w s) = true := runWord_sound h _ fun f e _ => exitLanes_sound h f e
theorem execLoopbrk_sound (h : s.sound = true) (w : CWord) : soundOut (execLoopbrk w s) = true :=
  runWord_sound h _ fun f e _ => by
    split
    · exact h
    · exact setConvoy_sound h _ (by exact sound_convoy h _)
theorem execBra_sound (h : s.sound = true) (w : CWord) : soundOut (execBra w s) = true := runWord_sound h _ fun _ _ _ => h
theorem execCall_sound (h : s.sound = true) (w : CWord) : soundOut (execCall w s) = true :=
  runWord_sound h _ fun f e _ => by
    split
    · exact setConvoy_sound h _ ((writeLink_shaped ..).trans (sound_convoy h _))
    · exact h
theorem execRet_sound (h : s.sound = true) (w : CWord) : soundOut (execRet w s) = true :=
  runWord_sound h _ fun f e _ => by
    dsimp only
    split
    · exact h
    · split <;> exact h
theorem execJmpt_sound (h : s.sound = true) (w : CWord) : soundOut (execJmpt w s) = true := by
  unfold execJmpt
  extract_lets
  exact runWord_sound h _ fun f e _ => tableJump_sound h ..
theorem execCallt_sound (h : s.sound = true) (w : CWord) : soundOut (execCallt w s) = true := by
  unfold execCallt
  extract_lets
  exact runWord_sound h _ fun f e _ => tableJump_sound h ..
theorem execLpad_sound (h : s.sound = true) (w : CWord) : soundOut (execLpad w s) = true :=
  runWord_sound h _ fun f e _ => by split <;> exact h
theorem execLoop_sound (h : s.sound = true) (w : CWord) : soundOut (execLoop w s) = true :=
  runWord_sound h _ fun f e _ => by
    extract_lets opened off last
    split
    · exact h
    · split
      · exact h
      · have hb := fetchBody_sound f.convoy off.toNat f.addr.next (s := s) [] h
        split <;> rename_i hx <;> rw [hx] at hb
        · exact h
        · exact hb
        · split
          · exact hb
          · dsimp only
            split
            · exact hb
            · exact modConvoy_sound hb _ (by exact sound_convoy hb _)
theorem execTrap_sound (h : s.sound = true) (w : CWord) : soundOut (execTrap w s) = true := runWord_sound h _ fun _ _ _ => h
theorem execBrk_sound (h : s.sound = true) (w : CWord) : soundOut (execBrk w s) = true := runWord_sound h _ fun _ _ _ => h

end Sys2Proof.Machine
end

