-- ==== Sys2Proof/Laws/SoundRegisters.lean ====
section
/-! SUPPORT. Every word that works on registers keeps the invariant. -/

namespace Sys2Proof.Machine

variable {s : State}

@[simp] theorem writeAff_shaped (c : Convoy) (d : Opnd) (v : Affine) : (writeAff c d v).shaped = c.shaped := by
  unfold writeAff; split <;> simp
@[simp] theorem writeMask_shaped (c : Convoy) (e : Mask) (d : Opnd) (m : Mask) : (writeMask c e d m).shaped = c.shaped := by
  unfold writeMask; split <;> simp
@[simp] theorem writeBits_shaped (c : Convoy) (e : Mask) (d : Opnd) (p : Nat → Bool) : (writeBits c e d p).shaped = c.shaped := by
  simp [writeBits]
@[simp] theorem writeInt_shaped (c : Convoy) (e : Mask) (w : FWord) (op : IntOp) : (writeInt s c e w op).shaped = c.shaped := by
  unfold writeInt; split <;> simp
@[simp] theorem writeInt3_shaped (c : Convoy) (e : Mask) (w : FWord) (op) : (writeInt3 s c e w op).shaped = c.shaped := by
  unfold writeInt3; split <;> simp
@[simp] theorem writeHalf_shaped (c : Convoy) (e : Mask) (h : Half) (v : Nat → W32) : (writeHalf c e h v).shaped = c.shaped := by
  unfold writeHalf; split <;> simp
@[simp] theorem moveValue_shaped (f : Focus) (c : Convoy) (e : Mask) (d x : Opnd) (w : Bool) : (moveValue s f c e d x w).shaped = c.shaped := by
  unfold moveValue
  split <;> first | (simp; done) | rfl | (split <;> simp)
@[simp] theorem holdExtra_shaped (c : Convoy) (r : List Reg) (a b : Nat) : (holdExtra c r a b).shaped = c.shaped := by
  unfold holdExtra; split <;> rfl
@[simp] theorem poisonScales_shaped (c : Convoy) (bad : Mask) (z : Opnd) (a b : Nat) : (poisonScales c bad z a b).shaped = c.shaped := by
  unfold poisonScales
  split
  · extract_lets fs c1
    have h1 : c1.shaped = c.shaped := writeV_shaped ..
    split <;> exact h1
  · rfl
@[simp] theorem writeByteField_shaped (c : Convoy) (e : Mask) (d : Opnd) (a : Nat) (v : Nat → Nat) : (writeByteField s c e d a v).shaped = c.shaped := by
  simp [writeByteField]

@[simp] theorem countReplays_sound (f : Focus) (n : Nat) (offs : List Nat) : (countReplays s f n offs).sound = s.sound := rfl

theorem runInt_sound (h : s.sound = true) (w : FWord) (l a b) (op) : soundOut (runInt w l a b s op) = true :=
  runWord_sound h _ fun f e _ => doneWith_sound h f (by simp [h])
theorem runIntAff_sound (h : s.sound = true) (w : FWord) (l a) (op st) : soundOut (runIntAff w l a s op st) = true :=
  runWord_sound h _ fun f e _ => by
    dsimp only; unfold finishAffine
    (repeat' split) <;> first | exact doneWith_sound h f (by simp [h]) | exact h
theorem runMoment_sound (h : s.sound = true) (i : WordInfo) (d : Opnd) (val) : soundOut (runMoment i d s val) = true :=
  runWord_sound h i fun f e _ => doneWith_sound h f (by simp [h])

theorem runFp_sound (h : s.sound = true) (w : FWord) (l a) (val) : soundOut (runFp w l a s val) = true := by
  unfold runFp; exact runValue_sound h ..
theorem runTransc_sound (h : s.sound = true) (w : FWord) (fn) : soundOut (runTransc w s fn) = true := by
  unfold runTransc; exact runFp_sound h ..
theorem runImm_sound (h : s.sound = true) (w : IWord) (op) : soundOut (runImm w s op) = true :=
  runWord_sound h _ fun f e _ => doneWith_sound h f (by split <;> simp [h])
theorem runCount_sound (h : s.sound = true) (w : FWord) (f1 f2) : soundOut (runCount w s f1 f2) = true :=
  runWord_sound h _ fun f e _ => doneWith_sound h f (by split <;> simp [h])

theorem execMov_sound (h : s.sound = true) (w : FWord) : soundOut (execMov w s) = true := by
  unfold execMov
  extract_lets
  refine runWord_sound h _ fun f e _ => ?_
  (try dsimp only); (try unfold finishAffine)
  (repeat' split) <;> first | with_reducible exact doneWith_sound h f (by simp [h]) | with_reducible exact doneWith_sound h f (by (repeat' split) <;> simp [h]) | exact h

theorem execMat_sound (h : s.sound = true) (w : FWord) : soundOut (execMat w s) = true := by
  unfold execMat
  refine runWord_sound h _ fun f e _ => ?_
  (try dsimp only); (try unfold finishAffine)
  (repeat' split) <;> first | with_reducible exact doneWith_sound h f (by simp [h]) | with_reducible exact doneWith_sound h f (by (repeat' split) <;> simp [h]) | exact h

theorem execAff_sound (h : s.sound = true) (w : FWord) : soundOut (execAff w s) = true := by
  unfold execAff
  refine runWord_sound h _ fun f e _ => ?_
  (try dsimp only); (try unfold finishAffine)
  (repeat' split) <;> first | with_reducible exact doneWith_sound h f (by simp [h]) | with_reducible exact doneWith_sound h f (by (repeat' split) <;> simp [h]) | exact h

theorem execDem_sound (h : s.sound = true) (w : FWord) : soundOut (execDem w s) = true := by
  unfold execDem
  extract_lets
  refine runWord_sound h _ fun f e _ => ?_
  (try dsimp only); (try unfold finishAffine)
  (repeat' split) <;> first | with_reducible exact doneWith_sound h f (by simp [h]) | with_reducible exact doneWith_sound h f (by (repeat' split) <;> simp [h]) | exact h

theorem execDema_sound (h : s.sound = true) (w : FWord) : soundOut (execDema w s) = true := by
  unfold execDema
  refine runWord_sound h _ fun f e _ => ?_
  (try dsimp only); (try unfold finishAffine)
  (repeat' split) <;> first | with_reducible exact doneWith_sound h f (by simp [h]) | with_reducible exact doneWith_sound h f (by (repeat' split) <;> simp [h]) | exact h

theorem execMovpc_sound (h : s.sound = true) (w : MovpcWord) : soundOut (execMovpc w s) = true := by
  unfold execMovpc
  refine runWord_sound h _ fun f e _ => ?_
  (try dsimp only); (try unfold finishAffine)
  (repeat' split) <;> first | with_reducible exact doneWith_sound h f (by simp [h]) | with_reducible exact doneWith_sound h f (by (repeat' split) <;> simp [h]) | exact h

theorem execElect_sound (h : s.sound = true) (w : FWord) : soundOut (execElect w s) = true := by
  unfold execElect
  refine runWord_sound h _ fun f e _ => ?_
  (try dsimp only); (try unfold finishAffine)
  (repeat' split) <;> first | with_reducible exact doneWith_sound h f (by simp [h]) | with_reducible exact doneWith_sound h f (by (repeat' split) <;> simp [h]) | exact h

theorem execVote_sound (h : s.sound = true) (w : FWord) : soundOut (execVote w s) = true := by
  unfold execVote
  refine runWord_sound h _ fun f e _ => ?_
  (try dsimp only); (try unfold finishAffine)
  (repeat' split) <;> first | with_reducible exact doneWith_sound h f (by simp [h]) | with_reducible exact doneWith_sound h f (by (repeat' split) <;> simp [h]) | exact h

theorem execKset_sound (h : s.sound = true) (w : FWord) : soundOut (execKset w s) = true := by
  unfold execKset
  refine runWord_sound h _ fun f e _ => ?_
  (try dsimp only); (try unfold finishAffine)
  (repeat' split) <;> first | with_reducible exact doneWith_sound h f (by simp [h]) | with_reducible exact doneWith_sound h f (by (repeat' split) <;> simp [h]) | exact h

theorem execKop_sound (h : s.sound = true) (w : FWord) : soundOut (execKop w s) = true := by
  unfold execKop
  refine runWord_sound h _ fun f e _ => ?_
  (try dsimp only); (try unfold finishAffine)
  (repeat' split) <;> first | with_reducible exact doneWith_sound h f (by simp [h]) | with_reducible exact doneWith_sound h f (by (repeat' split) <;> simp [h]) | exact h

theorem execIadd_sound (h : s.sound = true) (w : FWord) : soundOut (execIadd w s) = true := by
  unfold execIadd
  exact runIntAff_sound h ..

theorem execIsub_sound (h : s.sound = true) (w : FWord) : soundOut (execIsub w s) = true := by
  unfold execIsub
  exact runIntAff_sound h ..

theorem execIand_sound (h : s.sound = true) (w : FWord) : soundOut (execIand w s) = true := by
  unfold execIand
  exact runInt_sound h ..

theorem execIor_sound (h : s.sound = true) (w : FWord) : soundOut (execIor w s) = true := by
  unfold execIor
  exact runInt_sound h ..

theorem execIxor_sound (h : s.sound = true) (w : FWord) : soundOut (execIxor w s) = true := by
  unfold execIxor
  exact runInt_sound h ..

theorem execImin_sound (h : s.sound = true) (w : FWord) : soundOut (execImin w s) = true := by
  unfold execImin
  exact runInt_sound h ..

theorem execImax_sound (h : s.sound = true) (w : FWord) : soundOut (execImax w s) = true := by
  unfold execImax
  exact runInt_sound h ..

theorem execImul_sound (h : s.sound = true) (w : FWord) : soundOut (execImul w s) = true := by
  unfold execImul
  exact runIntAff_sound h ..

theorem execImulh_sound (h : s.sound = true) (w : FWord) : soundOut (execImulh w s) = true := by
  unfold execImulh
  exact runInt_sound h ..

theorem execImad_sound (h : s.sound = true) (w : FWord) : soundOut (execImad w s) = true := by
  unfold execImad
  refine runWord_sound h _ fun f e _ => ?_
  (try dsimp only); (try unfold finishAffine)
  (repeat' split) <;> first | with_reducible exact doneWith_sound h f (by simp [h]) | with_reducible exact doneWith_sound h f (by (repeat' split) <;> simp [h]) | exact h

theorem execIshl_sound (h : s.sound = true) (w : FWord) : soundOut (execIshl w s) = true := by
  unfold execIshl
  refine runWord_sound h _ fun f e _ => ?_
  (try dsimp only); (try unfold finishAffine)
  (repeat' split) <;> first | with_reducible exact doneWith_sound h f (by simp [h]) | with_reducible exact doneWith_sound h f (by (repeat' split) <;> simp [h]) | exact h

theorem execIshr_sound (h : s.sound = true) (w : FWord) : soundOut (execIshr w s) = true := by
  unfold execIshr
  exact runInt_sound h ..

theorem execIsar_sound (h : s.sound = true) (w : FWord) : soundOut (execIsar w s) = true := by
  unfold execIsar
  exact runInt_sound h ..

theorem execIcmp_sound (h : s.sound = true) (w : FWord) : soundOut (execIcmp w s) = true := by
  unfold execIcmp
  extract_lets
  refine runWord_sound h _ fun f e _ => ?_
  (try dsimp only); (try unfold finishAffine)
  (repeat' split) <;> first | with_reducible exact doneWith_sound h f (by simp [h]) | with_reducible exact doneWith_sound h f (by (repeat' split) <;> simp [h]) | exact h

theorem execSel_sound (h : s.sound = true) (w : FWord) : soundOut (execSel w s) = true := by
  unfold execSel
  extract_lets
  refine runWord_sound h _ fun f e _ => ?_
  (try dsimp only); (try unfold finishAffine)
  (repeat' split) <;> first | with_reducible exact doneWith_sound h f (by simp [h]) | with_reducible exact doneWith_sound h f (by (repeat' split) <;> simp [h]) | exact h

theorem execPopc_sound (h : s.sound = true) (w : FWord) : soundOut (execPopc w s) = true := by
  unfold execPopc
  exact runCount_sound h ..

theorem execClz_sound (h : s.sound = true) (w : FWord) : soundOut (execClz w s) = true := by
  unfold execClz
  exact runCount_sound h ..

theorem execBrev_sound (h : s.sound = true) (w : FWord) : soundOut (execBrev w s) = true := by
  unfold execBrev
  exact runInt_sound h ..

theorem execBfe_sound (h : s.sound = true) (w : FWord) : soundOut (execBfe w s) = true := by
  unfold execBfe
  exact runInt_sound h ..

theorem execBfi_sound (h : s.sound = true) (w : FWord) : soundOut (execBfi w s) = true := by
  unfold execBfi
  refine runWord_sound h _ fun f e _ => ?_
  (try dsimp only); (try unfold finishAffine)
  (repeat' split) <;> first | with_reducible exact doneWith_sound h f (by simp [h]) | with_reducible exact doneWith_sound h f (by (repeat' split) <;> simp [h]) | exact h

theorem execLea_sound (h : s.sound = true) (w : FWord) : soundOut (execLea w s) = true := by
  unfold execLea
  extract_lets
  refine runWord_sound h _ fun f e _ => ?_
  (try dsimp only); (try unfold finishAffine)
  (repeat' split) <;> first | with_reducible exact doneWith_sound h f (by simp [h]) | with_reducible exact doneWith_sound h f (by (repeat' split) <;> simp [h]) | exact h

theorem execIdot4_sound (h : s.sound = true) (w : FWord) : soundOut (execIdot4 w s) = true := by
  unfold execIdot4
  refine runWord_sound h _ fun f e _ => ?_
  (try dsimp only); (try unfold finishAffine)
  (repeat' split) <;> first | with_reducible exact doneWith_sound h f (by simp [h]) | with_reducible exact doneWith_sound h f (by (repeat' split) <;> simp [h]) | exact h

theorem execMovi_sound (h : s.sound = true) (w : IWord) : soundOut (execMovi w s) = true := by
  unfold execMovi
  extract_lets
  refine runWord_sound h _ fun f e _ => ?_
  (try dsimp only); (try unfold finishAffine)
  (repeat' split) <;> first | with_reducible exact doneWith_sound h f (by simp [h]) | with_reducible exact doneWith_sound h f (by (repeat' split) <;> simp [h]) | exact h

theorem execIaddi_sound (h : s.sound = true) (w : IWord) : soundOut (execIaddi w s) = true := by
  unfold execIaddi
  exact runImm_sound h ..

theorem execIandi_sound (h : s.sound = true) (w : IWord) : soundOut (execIandi w s) = true := by
  unfold execIandi
  exact runImm_sound h ..

theorem execIori_sound (h : s.sound = true) (w : IWord) : soundOut (execIori w s) = true := by
  unfold execIori
  exact runImm_sound h ..

theorem execIxori_sound (h : s.sound = true) (w : IWord) : soundOut (execIxori w s) = true := by
  unfold execIxori
  exact runImm_sound h ..

theorem execIcmpi_sound (h : s.sound = true) (w : IWord) : soundOut (execIcmpi w s) = true := by
  unfold execIcmpi
  extract_lets
  refine runWord_sound h _ fun f e _ => ?_
  (try dsimp only); (try unfold finishAffine)
  (repeat' split) <;> first | with_reducible exact doneWith_sound h f (by simp [h]) | with_reducible exact doneWith_sound h f (by (repeat' split) <;> simp [h]) | exact h

theorem execFmovi_sound (h : s.sound = true) (w : IWord) : soundOut (execFmovi w s) = true := by
  unfold execFmovi
  refine runWord_sound h _ fun f e _ => ?_
  (try dsimp only); (try unfold finishAffine)
  (repeat' split) <;> first | with_reducible exact doneWith_sound h f (by simp [h]) | with_reducible exact doneWith_sound h f (by (repeat' split) <;> simp [h]) | exact h

theorem execPairWord_sound (h : s.sound = true) (w : PWord) : soundOut (execPairWord w s) = true := by
  unfold execPairWord
  refine runWord_sound h _ fun f e _ => ?_
  (try dsimp only); (try unfold finishAffine)
  (repeat' split) <;> first | with_reducible exact doneWith_sound h f (by simp [h]) | with_reducible exact doneWith_sound h f (by (repeat' split) <;> simp [h]) | exact h

theorem execFadd_sound (h : s.sound = true) (w : FWord) : soundOut (execFadd w s) = true := by
  unfold execFadd
  exact runFp_sound h ..

theorem execFsub_sound (h : s.sound = true) (w : FWord) : soundOut (execFsub w s) = true := by
  unfold execFsub
  exact runFp_sound h ..

theorem execFmul_sound (h : s.sound = true) (w : FWord) : soundOut (execFmul w s) = true := by
  unfold execFmul
  exact runFp_sound h ..

theorem execFfma_sound (h : s.sound = true) (w : FWord) : soundOut (execFfma w s) = true := by
  unfold execFfma
  exact runFp_sound h ..

theorem execFmin_sound (h : s.sound = true) (w : FWord) : soundOut (execFmin w s) = true := by
  unfold execFmin
  exact runFp_sound h ..

theorem execFmax_sound (h : s.sound = true) (w : FWord) : soundOut (execFmax w s) = true := by
  unfold execFmax
  exact runFp_sound h ..

theorem execFcmp_sound (h : s.sound = true) (w : FWord) : soundOut (execFcmp w s) = true := by
  unfold execFcmp
  exact runMask_sound h ..

theorem execFrcp_sound (h : s.sound = true) (w : FWord) : soundOut (execFrcp w s) = true := by
  unfold execFrcp
  exact runTransc_sound h ..

theorem execFrsq_sound (h : s.sound = true) (w : FWord) : soundOut (execFrsq w s) = true := by
  unfold execFrsq
  exact runTransc_sound h ..

theorem execFsqrt_sound (h : s.sound = true) (w : FWord) : soundOut (execFsqrt w s) = true := by
  unfold execFsqrt
  exact runTransc_sound h ..

theorem execFexp2_sound (h : s.sound = true) (w : FWord) : soundOut (execFexp2 w s) = true := by
  unfold execFexp2
  exact runTransc_sound h ..

theorem execFlog2_sound (h : s.sound = true) (w : FWord) : soundOut (execFlog2 w s) = true := by
  unfold execFlog2
  exact runTransc_sound h ..

theorem execFsin_sound (h : s.sound = true) (w : FWord) : soundOut (execFsin w s) = true := by
  unfold execFsin
  exact runTransc_sound h ..

theorem execFcos_sound (h : s.sound = true) (w : FWord) : soundOut (execFcos w s) = true := by
  unfold execFcos
  exact runTransc_sound h ..

theorem execFtanh_sound (h : s.sound = true) (w : FWord) : soundOut (execFtanh w s) = true := by
  unfold execFtanh
  exact runTransc_sound h ..

theorem execFdiv_sound (h : s.sound = true) (w : FWord) : soundOut (execFdiv w s) = true := by
  unfold execFdiv
  exact runFp_sound h ..

theorem execFrnd_sound (h : s.sound = true) (w : FWord) : soundOut (execFrnd w s) = true := by
  unfold execFrnd
  exact runFp_sound h ..

theorem execF2i_sound (h : s.sound = true) (w : FWord) : soundOut (execF2i w s) = true := by
  unfold execF2i
  extract_lets
  refine runWord_sound h _ fun f e _ => ?_
  (try dsimp only); (try unfold finishAffine)
  (repeat' split) <;> first | with_reducible exact doneWith_sound h f (by simp [h]) | with_reducible exact doneWith_sound h f (by (repeat' split) <;> simp [h]) | exact h

theorem execI2f_sound (h : s.sound = true) (w : FWord) : soundOut (execI2f w s) = true := by
  unfold execI2f
  exact runValue_sound h ..

theorem execFcvt_sound (h : s.sound = true) (w : FWord) : soundOut (execFcvt w s) = true := by
  unfold execFcvt
  exact runValue_sound h ..

theorem execHadd2_sound (h : s.sound = true) (w : FWord) : soundOut (execHadd2 w s) = true := by
  unfold execHadd2
  extract_lets
  exact runFp_sound h ..

theorem execHmul2_sound (h : s.sound = true) (w : FWord) : soundOut (execHmul2 w s) = true := by
  unfold execHmul2
  extract_lets
  exact runFp_sound h ..

theorem execHfma2_sound (h : s.sound = true) (w : FWord) : soundOut (execHfma2 w s) = true := by
  unfold execHfma2
  extract_lets
  exact runFp_sound h ..

theorem execFclass_sound (h : s.sound = true) (w : FWord) : soundOut (execFclass w s) = true := by
  unfold execFclass
  exact runValue_sound h ..

theorem execCvt8_sound (h : s.sound = true) (w : FWord) : soundOut (execCvt8 w s) = true := by
  unfold execCvt8
  exact runValue_sound h ..

theorem execCvt4_sound (h : s.sound = true) (w : FWord) : soundOut (execCvt4 w s) = true := by
  unfold execCvt4
  refine runWord_sound h _ fun f e _ => ?_
  (try dsimp only); (try unfold finishAffine)
  (repeat' split) <;> first | with_reducible exact doneWith_sound h f (by simp [h]) | with_reducible exact doneWith_sound h f (by (repeat' split) <;> simp [h]) | exact h

theorem execXpand_sound (h : s.sound = true) (w : FWord) : soundOut (execXpand w s) = true := by
  unfold execXpand
  exact runValue_sound h ..

theorem execUnpk8_sound (h : s.sound = true) (w : FWord) : soundOut (execUnpk8 w s) = true := by
  unfold execUnpk8
  exact runValue_sound h ..

theorem execMxdot_sound (h : s.sound = true) (w : FWord) : soundOut (execMxdot w s) = true := by
  unfold execMxdot
  exact runValue_sound h ..

theorem execScdec_sound (h : s.sound = true) (w : FWord) : soundOut (execScdec w s) = true := by
  unfold execScdec
  extract_lets
  refine runWord_sound h _ fun f e _ => ?_
  dsimp only
  split
  · exact h
  · split
    · exact h
    · exact doneWith_sound ((countReplays_sound ..).trans h) f (by simp [h])

theorem execSrnd_sound (h : s.sound = true) (w : FWord) : soundOut (execSrnd w s) = true := by
  unfold execSrnd
  extract_lets
  exact runValue_sound h ..

theorem execShfl_sound (h : s.sound = true) (w : FWord) : soundOut (execShfl w s) = true := by
  unfold execShfl
  extract_lets
  refine runWord_sound h _ fun f e _ => ?_
  (try dsimp only); (try unfold finishAffine)
  (repeat' split) <;> first | with_reducible exact doneWith_sound h f (by simp [h]) | with_reducible exact doneWith_sound h f (by (repeat' split) <;> simp [h]) | exact h

theorem execCmpx_sound (h : s.sound = true) (w : FWord) : soundOut (execCmpx w s) = true := by
  unfold execCmpx
  refine runWord_sound h _ fun f e _ => ?_
  (try dsimp only); (try unfold finishAffine)
  (repeat' split) <;> first | with_reducible exact doneWith_sound h f (by simp [h]) | with_reducible exact doneWith_sound h f (by (repeat' split) <;> simp [h]) | exact h

theorem execScan_sound (h : s.sound = true) (w : FWord) : soundOut (execScan w s) = true := by
  unfold execScan
  refine runWord_sound h _ fun f e _ => ?_
  (try dsimp only); (try unfold finishAffine)
  (repeat' split) <;> first | with_reducible exact doneWith_sound h f (by simp [h]) | with_reducible exact doneWith_sound h f (by (repeat' split) <;> simp [h]) | exact h

theorem execIred_sound (h : s.sound = true) (w : FWord) : soundOut (execIred w s) = true := by
  unfold execIred
  refine runWord_sound h _ fun f e _ => ?_
  (try dsimp only); (try unfold finishAffine)
  (repeat' split) <;> first | with_reducible exact doneWith_sound h f (by simp [h]) | with_reducible exact doneWith_sound h f (by (repeat' split) <;> simp [h]) | exact h

theorem execRedmaxi_sound (h : s.sound = true) (w : FWord) : soundOut (execRedmaxi w s) = true := by
  unfold execRedmaxi
  refine runWord_sound h _ fun f e _ => ?_
  (try dsimp only); (try unfold finishAffine)
  (repeat' split) <;> first | with_reducible exact doneWith_sound h f (by simp [h]) | with_reducible exact doneWith_sound h f (by (repeat' split) <;> simp [h]) | exact h

theorem execMatchLanes_sound (h : s.sound = true) (w : FWord) : soundOut (execMatchLanes w s) = true := by
  unfold execMatchLanes
  refine runWord_sound h _ fun f e _ => ?_
  (try dsimp only); (try unfold finishAffine)
  (repeat' split) <;> first | with_reducible exact doneWith_sound h f (by simp [h]) | with_reducible exact doneWith_sound h f (by (repeat' split) <;> simp [h]) | exact h

theorem execMinit_sound (h : s.sound = true) (w : FWord) : soundOut (execMinit w s) = true := by
  unfold execMinit
  exact runMoment_sound h ..

theorem execMupd_sound (h : s.sound = true) (w : FWord) : soundOut (execMupd w s) = true := by
  unfold execMupd
  exact runMoment_sound h ..

theorem execMmrg_sound (h : s.sound = true) (w : FWord) : soundOut (execMmrg w s) = true := by
  unfold execMmrg
  exact runMoment_sound h ..

theorem execMred_sound (h : s.sound = true) (w : FWord) : soundOut (execMred w s) = true := by
  unfold execMred
  refine runWord_sound h _ fun f e _ => ?_
  (try dsimp only); (try unfold finishAffine)
  (repeat' split) <;> first | with_reducible exact doneWith_sound h f (by simp [h]) | with_reducible exact doneWith_sound h f (by (repeat' split) <;> simp [h]) | exact h

theorem execMdrain_sound (h : s.sound = true) (w : FWord) : soundOut (execMdrain w s) = true := by
  unfold execMdrain
  exact runValue_sound h ..

theorem execMnorm_sound (h : s.sound = true) (w : FWord) : soundOut (execMnorm w s) = true := by
  unfold execMnorm
  exact runValue_sound h ..

theorem execMdecay_sound (h : s.sound = true) (w : FWord) : soundOut (execMdecay w s) = true := by
  unfold execMdecay
  exact runMoment_sound h ..

end Sys2Proof.Machine
end

