-- ==== Sys2Proof/Laws/SoundMemory.lean ====
section
/-! SUPPORT. The memory words, barriers, crossings, reverse words and queries keep the invariant. -/

namespace Sys2Proof.Machine

variable {s : State}

@[simp] theorem memTrap_sound (cause : Nat) (m : Mask) (a : Nat) : (memTrap s cause m a).sound = s.sound := rfl

theorem afterSend_sound (f : Focus) (e : Mask) : (afterSend s f e).sound = s.sound := by
  unfold afterSend
  dsimp only
  split
  · rfl
  · split <;> rfl

theorem globalCheck_sound (h : s.sound = true) (f : Focus) (c : Convoy) (e : Mask) (i : Instr) (size : Nat) (reads write : Bool) (as : List (Nat × Nat))
    {k : State → List LaneAddr → Res} (hk : ∀ s1 ls, s1.sound = true → (k s1 ls).sound = true) :
    (globalCheck s f c e i size reads write as k).sound = true := by
  unfold globalCheck
  have hc := checkWord_sound h (convoyReq s c write) size reads as
  split <;> rename_i he <;> rw [he] at hc
  · exact h
  · exact hc
  · split
    · exact h
    · split
      · exact hc
      · exact hk _ _ hc

theorem sendRead_sound (h : s.sound = true) (f : Focus) (c : Convoy) (x : LaneAddr) (a : Access) : (sendRead s f c x a).sound = true := by
  unfold sendRead
  split
  · extract_lets s1
    have h1 : s1.sound = true := (sendAccess_sound ..).trans h
    split
    · exact acquireBound_sound h1 ..
    · exact h1
  · exact sendLoad_sound h ..

theorem sendReads_sound (h : s.sound = true) (f : Focus) (c : Convoy) (w : FWord) (size : Nat) (one : Bool) (info) (ls) :
    (sendReads s f c w size one info ls).sound = true := by
  unfold sendReads
  exact foldl_sound (fun s g hs => sendRead_sound hs ..) _ h

/-! ### Itineraries -/

@[simp] theorem occSet_shaped (c : Convoy) (a : Option Nat) (t : BitVec 12) (n : Nat) : (occSet c a t n).shaped = c.shaped := by
  unfold occSet; (repeat' split) <;> rfl

theorem countOccurrences_shaped {c : Convoy} (hc : c.shaped = true) (t : BitVec 12) (as : List (Option Nat)) : (countOccurrences c t as).shaped = true :=
  foldlConvoy_shaped (fun c a hc => (occSet_shaped ..).trans hc) _ hc

theorem addAsets_sound (h : s.sound = true) (li : Nat) (b : Block) (w : OrderWord) (fresh slots : List Nat) : (addAsets s li b w fresh slots).sound = true :=
  modLaunch_keep h _ (by intro _; rfl)

/-- The state in which the order-mode checks end is sound. -/
def OrderRes.sound : OrderRes → Bool
  | .ok s _ => s.sound
  | _ => true

theorem orderWord_sound (h : s.sound = true) (ci : Nat) (w : OrderWord) (e : Mask) (one : Bool) (ls : List (Nat × Nat)) :
    (orderWord s ci w e one ls).sound = true := by
  unfold orderWord
  extract_lets c l b as full c1 s1 addr rec_ bad1 needs bad2
  split
  · exact h
  · split
    · rfl
    · have h1 : s1.sound = true := setConvoy_sound h _ (countOccurrences_shaped (sound_convoy h ci) ..)
      split
      · split
        · split
          · rfl
          · exact h1
        · split
          · rfl
          · exact h1
      · split
        · split
          · rfl
          · rfl
          · exact modLaunch_keep h1 _ (by intro _; rfl)
        · split
          · split
            · rfl
            · rfl
            · exact addAsets_sound h1 ..
          · exact h1

theorem bufferAccess_sound (h : s.sound = true) (ci lane va pa : Nat) (k : AccKind) (by_ : Sender) : (bufferAccess s ci lane va pa k by_).sound = true := by
  unfold bufferAccess
  extract_lets c b n
  have h1 := modLaunch_keep h c.launch (f := fun l => { l with buffer := l.buffer ++
    [{ block := b.index, convoy := c.index, lane := lane, order := n, element := 0, va := va, pa := pa, kind := k, sender := by_, waiting := s.clock }] }) (by intro _; rfl)
  exact modBlock_sound h1 _ (by exact sound_block h1 _)

/-! ### Loads, stores, atomics -/

theorem execLd_sound (h : s.sound = true) (w : FWord) : soundOut (execLd w s) = true := by
  unfold execLd
  extract_lets size
  refine runWord_sound h _ fun f e _ => globalCheck_sound h _ _ _ _ _ _ _ _ fun s1 ls h1 => ?_
  extract_lets order
  have ho : order.sound = true := by
    simp only [order]; split
    · exact orderWord_sound h1 ..
    · exact h1
  clear_value order
  cases order
  case bad => exact h1
  case wait => exact h
  case ok => exact (afterSend_sound ..).trans (sendReads_sound ho ..)

theorem sendWrites_sound (h : s.sound = true) (f : Focus) (c : Convoy) (size : Nat) (rel : Bool) (scope : Nat) (bytes) (info) (ls) :
    (sendWrites s f c size rel scope bytes info ls).sound = true := by
  unfold sendWrites
  exact foldl_sound (fun s a hs => by
    split
    · exact bufferAccess_sound hs ..
    · exact (sendAccess_sound ..).trans hs) _ h

theorem execSt_sound (h : s.sound = true) (w : FWord) : soundOut (execSt w s) = true := by
  unfold execSt
  extract_lets size
  refine runWord_sound h _ fun f e _ => globalCheck_sound h _ _ _ _ _ _ _ _ fun s1 ls h1 => ?_
  extract_lets order
  have ho : order.sound = true := by
    simp only [order]; split
    · exact orderWord_sound h1 ..
    · exact h1
  clear_value order
  cases order
  case bad => exact h1
  case wait => exact h
  case ok =>
    dsimp only
    split
    · exact h1
    · exact (afterSend_sound ..).trans (sendWrites_sound ho ..)

theorem sendAtoms_sound (h : s.sound = true) (f : Focus) (c : Convoy) (w : FWord) (o) (info) (ls) : (sendAtoms s f c w o info ls).sound = true := by
  unfold sendAtoms
  exact foldl_sound (fun s g hs => by
    split
    · exact foldl_sound (fun s l hs => bufferAccess_sound hs ..) _ hs
    · exact (sendAccess_sound ..).trans hs) _ h

theorem execAtom_sound (h : s.sound = true) (w : FWord) : soundOut (execAtom w s) = true := by
  unfold execAtom
  extract_lets op
  refine runWord_sound h _ fun f e _ => globalCheck_sound h _ _ _ _ _ _ _ _ fun s1 ls h1 => ?_
  split
  · exact h1
  · extract_lets o
    have ho := orderWord_sound h1 f.convoy o e (isConvoyBase w.x) (laneAddrs (s.convoy f.convoy) e w.x (.sp 0x3F))
    split <;> rename_i he <;> rw [he] at ho
    · exact h1
    · exact h
    · split
      · exact h1
      · exact (afterSend_sound ..).trans (sendAtoms_sound ho ..)

theorem localCheck_sound (h : s.sound = true) (f : Focus) (c : Convoy) (n : Nat) (r w : Bool) (ls) {k : State → Res}
    (hk : ∀ s1, s1.sound = true → (k s1).sound = true) : (localCheck s f c n r w ls k).sound = true := by
  unfold localCheck
  split
  · exact h
  · exact hk _ ((countReplays_sound ..).trans h)

theorem execLdl_sound (h : s.sound = true) (w : FWord) : soundOut (execLdl w s) = true := by
  unfold execLdl
  extract_lets size
  refine runWord_sound h _ fun f e _ => localCheck_sound h _ _ _ _ _ _ fun s1 h1 => doneWith_sound h1 f ?_
  exact foldlConvoy_shaped (fun c p hc => writeLoaded_shaped _ _ _ _ _ hc) _ (sound_convoy h _)

theorem foldl_write_wf {α : Type} (g : α → Nat) (b : α → List Byte) : ∀ (ps : List α) (l : LocalStore), Memory.wf l.mem = true →
    Memory.wf (ps.foldl (fun l p => l.write (g p) (b p)) l).mem = true
  | [], _, h => h
  | p :: r, l, h => foldl_write_wf g b r _ (write_wf l _ _ h)

theorem execStl_sound (h : s.sound = true) (w : FWord) : soundOut (execStl w s) = true := by
  unfold execStl
  extract_lets size
  refine runWord_sound h _ fun f e _ => localCheck_sound h _ _ _ _ _ _ fun s1 h1 => ?_
  exact modLs_sound h1 _ _ fun l hl => foldl_write_wf (fun p : Nat × Nat => p.2) _ _ l hl

theorem localAtoms_wf (op : BitVec 4) (mm : Bool) (o) : ∀ (ps : List (Nat × Nat)) (l : LocalStore), Memory.wf l.mem = true →
    Memory.wf (localAtoms op mm o ps l).1.mem = true
  | [], _, h => h
  | (_, _) :: r, l, h => localAtoms_wf op mm o r _ (write_wf l _ _ h)

theorem lsOf_wf (h : s.sound = true) (c : Convoy) : Memory.wf (lsOf s c).mem = true := by
  unfold lsOf
  split
  · exact tidy_ls2 (sound_block h _)
  · exact tidy_ls (sound_block h _)

theorem execAtoml_sound (h : s.sound = true) (w : FWord) : soundOut (execAtoml w s) = true := by
  unfold execAtoml
  extract_lets op
  refine runWord_sound h _ fun f e _ => localCheck_sound h _ _ _ _ _ _ fun s1 h1 => ?_
  extract_lets r c1
  have hc : c1.shaped = true := foldlConvoy_shaped (fun c p hc => writeLoaded_shaped _ _ _ _ _ hc) _ (sound_convoy h _)
  exact modLs_sound (setConvoy_sound h1 _ hc) _ _ fun l _ => localAtoms_wf _ _ _ _ _ (lsOf_wf h _)

theorem execFence_sound (h : s.sound = true) (w : FWord) : soundOut (execFence w s) = true := by
  refine runWord_sound h _ fun f e _ => ?_
  split
  · exact h
  · exact acquireBound_sound h ..

theorem waitRead_sound (h : s.sound = true) (f : Focus) (c : Convoy) (e : Mask) (x : Opnd) (b : Bool) : (waitRead s f c e x b).sound = true := by
  unfold waitRead
  extract_lets va
  split
  · split <;> exact h
  · exact readItem_sound h ..

theorem execMwait_sound (h : s.sound = true) (w : FWord) : soundOut (execMwait w s) = true := by
  refine runWord_sound h _ fun f e _ => ?_
  extract_lets again
  have hr := waitRead_sound h f (s.convoy f.convoy) e w.x (w.bit 7)
  split <;> rename_i he <;> rw [he] at hr
  · split <;> exact h
  · split
    · exact h
    · exact hr
  · split
    · exact hr
    · split
      · extract_lets s2
        have h2 : s2.sound = true := setConvoy_sound hr _ ((writeRes64_shaped ..).trans (sound_convoy hr _))
        show State.sound (if _ then _ else _) = true
        split
        · exact h2
        · exact acquireBound_sound h2 ..
      · exact hr

theorem rereadMwait_sound (h : s.sound = true) (ci : Nat) : (rereadMwait s ci).sound = true := by
  unfold rereadMwait
  extract_lets c
  split
  · exact h
  · rename_i hh w _
    extract_lets f
    have hr := waitRead_sound h f c (execSet w.hdr c hh.lanes) w.x false
    split
    · rename_i s1 _ _ he
      rw [he] at hr
      split
      · extract_lets s2
        have h2 : s2.sound = true := modConvoy_sound hr _ ((writeRes64_shaped ..).trans (sound_convoy hr _))
        refine releaseHolds_sound ?_ ..
        split
        · exact h2
        · exact acquireBound_sound h2 ..
      · exact hr
    · exact h

theorem execMwaitReread_sound (h : s.sound = true) (n : Nat) : soundOut (execMwaitReread n s) = true := rereadMwait_sound h n

theorem execWaitstamp_sound (h : s.sound = true) (w : FWord) : soundOut (execWaitstamp w s) = true := by
  refine runWord_sound h _ fun f e _ => ?_
  have hr := waitRead_sound h f (s.convoy f.convoy) e w.x (w.bit 0)
  split <;> rename_i he <;> rw [he] at hr
  · split <;> exact h
  · exact hr
  · extract_lets v s2
    split
    · exact hr
    · have h2 : s2.sound = true := acquireBound_sound hr ..
      split
      · exact h2
      · exact doneWith_sound h2 f ((writeRes64_shaped ..).trans (sound_convoy h2 _))

theorem prefetchLane_sound (h : s.sound = true) (f : Focus) (w : FWord) (p : Nat × Nat) : (prefetchLane f w s p).sound = true := by
  unfold prefetchLane
  extract_lets c
  split
  · rename_i he
    have h1 := checkLane_sound h he
    split
    · exact h1
    · exact (sendAccess_sound ..).trans h1
  · rename_i he; exact checkLane_sound h he
  · exact h

theorem execPref_sound (h : s.sound = true) (w : FWord) : soundOut (execPref w s) = true :=
  runWord_sound h _ fun f e _ => foldl_sound (fun s p hs => prefetchLane_sound hs f w p) _ h

theorem execMld_sound (h : s.sound = true) (w : FWord) : soundOut (execMld w s) = true := by
  refine runWord_sound h _ fun f e _ => ?_
  split
  · refine localCheck_sound h _ _ _ _ _ _ fun s1 h1 => doneWith_sound h1 f ?_
    exact foldlConvoy_shaped (fun c p hc => writeLoaded_shaped _ _ _ _ _ hc) _ (sound_convoy h _)
  · exact globalCheck_sound h _ _ _ _ _ _ _ _ fun s1 ls h1 => sendReads_sound h1 ..

theorem execMst_sound (h : s.sound = true) (w : FWord) : soundOut (execMst w s) = true := by
  refine runWord_sound h _ fun f e _ => ?_
  extract_lets bytes
  split
  · refine localCheck_sound h _ _ _ _ _ _ fun s1 h1 => ?_
    exact modLs_sound h1 _ _ fun l hl => foldl_write_wf (fun p : Nat × Nat => p.2) _ _ l hl
  · refine globalCheck_sound h _ _ _ _ _ _ _ _ fun s1 ls h1 => ?_
    split
    · exact h1
    · exact sendWrites_sound h1 ..

/-! ### Barriers, crossings, events -/

theorem nameObject_sound (h : s.sound = true) (c : Convoy) (off : Nat) : (nameObject s c off).sound = true :=
  modLs_sound h _ _ fun l hl => addMark_wf l off hl
theorem putObject_sound (h : s.sound = true) (c : Convoy) (off : Nat) (w : W64) : (putObject s c off w).sound = true :=
  modLs_sound h _ _ fun l hl => write_wf l _ _ hl

theorem runBarrier_sound (h : s.sound = true) (i : WordInfo) (w : FWord) {body : State → Focus → Convoy → Mask → Nat → W64 → BitVec 16 → Res}
    (hb : ∀ s1 f c e off v m, s1.sound = true → (body s1 f c e off v m).sound = true) : soundOut (runBarrier i w s body) = true := by
  refine runWord_sound h _ fun f e _ => ?_
  dsimp only
  split
  · exact h
  · exact hb _ _ _ _ _ _ _ (nameObject_sound h ..)

theorem execBarinit_sound (h : s.sound = true) (w : FWord) : soundOut (execBarinit w s) = true := by
  refine runBarrier_sound h _ _ fun s1 f c e off v m h1 => ?_
  split
  · exact putObject_sound h1 ..
  · split <;> exact h1

theorem passObject_sound (h : s.sound = true) (ci off : Nat) : (passObject s ci off).sound = true := passBarrier_sound h ..

theorem noteArrival_sound (h : s.sound = true) (f : Focus) (off : Nat) : (noteArrival s f off).sound = true :=
  modLs_sound h _ _ fun _ hl => hl

theorem releaseGen_sound (h : s.sound = true) (b : Block) (off : Nat) (g : BitVec 16) : (releaseGen s b off g).sound = true :=
  foldl_sound (fun s ci hs => by
    split
    · exact releaseHolds_sound (passObject_sound hs ..) ..
    · exact hs) _ h

def ArriveRes.sound : ArriveRes → Bool
  | .ok s _ _ => s.sound
  | _ => true

theorem arrive_sound (h : s.sound = true) (c : Convoy) (off : Nat) (v : W64) : (arrive s c off v).sound = true := by
  unfold arrive
  extract_lets l b arrived finish
  split
  · exact putObject_sound h ..
  · have hf : ∀ {s : State}, s.sound = true → (finish s).sound = true := by
      intro s h
      refine releaseGen_sound (modBlock_sound (putObject_sound h ..) _ ?_) ..
      exact sound_block (putObject_sound h ..) _
    split
    · split
      · rfl
      · rfl
      · exact hf (modLaunch_keep (writeRecord_sound h ..) _ (by intro _; rfl))
    · exact hf h

theorem runArrival_sound (h : s.sound = true) (i : WordInfo) (w : FWord) {after : State → Focus → Convoy → Mask → Nat → Bool → BitVec 16 → Res}
    (ha : ∀ s1 f c e off b g, s1.sound = true → (after s1 f c e off b g).sound = true) : soundOut (runArrival i w s after) = true := by
  refine runBarrier_sound h _ _ fun s1 f c e off v m h1 => ?_
  split
  · exact h1
  · split
    · exact h1
    · have hr := arrive_sound (noteArrival_sound h1 f off) c off v
      split <;> rename_i he <;> rw [he] at hr
      · exact h1
      · exact h1
      · exact ha _ _ _ _ _ _ _ hr

theorem execBar_sound (h : s.sound = true) (w : FWord) : soundOut (execBar w s) = true := by
  refine runArrival_sound h _ _ fun s1 f c e off b g h1 => ?_
  split
  · exact passObject_sound h1 ..
  · exact h1

theorem execBararv_sound (h : s.sound = true) (w : FWord) : soundOut (execBararv w s) = true :=
  runArrival_sound h _ _ fun s1 f c e off b g h1 => doneWith_sound h1 f ((writeRes64_shaped ..).trans (sound_convoy h1 _))

theorem execBarwt_sound (h : s.sound = true) (w : FWord) : soundOut (execBarwt w s) = true := by
  refine runBarrier_sound h _ _ fun s1 f c e off v m h1 => ?_
  split
  · exact h1
  · extract_lets g
    split
    · exact h1
    · exact passObject_sound h1 ..

theorem arriveBarl_sound (h : s.sound = true) (f : Focus) (e : Mask) (b : Barl) : (arriveBarl s f e b).sound = true := by
  unfold arriveBarl
  extract_lets c arr b1
  have hc : c.shaped = true := sound_convoy h _
  split
  · exact h
  · split
    · exact releaseBarl_sound (setConvoy_sound h _ (by exact hc)) ..
    · exact setConvoy_sound h _ (by exact hc)

theorem execBarl_sound (h : s.sound = true) (w : FWord) : soundOut (execBarl w s) = true := by
  refine runWord_sound h _ fun f e _ => ?_
  extract_lets k
  split
  · exact h
  · split
    · split
      · exact h
      · exact arriveBarl_sound h ..
    · split
      · exact h
      · exact arriveBarl_sound h ..

theorem noteCrossing_sound (h : s.sound = true) (li : Nat) (slots : List Nat) : (noteCrossing s li slots).sound = true := by
  unfold noteCrossing
  split
  · exact h
  · exact modLaunch_keep h _ (by intro _; rfl)

theorem execCross_sound (h : s.sound = true) (w : FWord) : soundOut (execCross w s) = true := by
  refine runWord_sound h _ fun f e _ => ?_
  extract_lets l
  split
  · exact h
  · split
    · exact h
    · split
      · exact h
      · exact h
      · extract_lets s1 s2
        have h1 : s1.sound = true := noteCrossing_sound h ..
        split
        · exact closeCrossing_sound h1 _
        · exact h1

theorem execWaitev_sound (h : s.sound = true) (w : FWord) : soundOut (execWaitev w s) = true := by
  refine runWord_sound h _ fun f e _ => ?_
  dsimp only
  split
  · exact acquireBound_sound h ..
  · split <;> exact h

theorem execSetev_sound (h : s.sound = true) (w : FWord) : soundOut (execSetev w s) = true := by
  refine runWord_sound h _ fun f e _ => ?_
  dsimp only
  split
  · exact h
  · split
    · exact h
    · exact setEvent_sound h _

theorem enterQueue_sound (h : s.sound = true) (ci q d : Nat) (r : List Byte) : (enterQueue s ci q d r).sound = true := by
  have h1 : (enqueueRecord s q r).sound = true := (enqueueRecord_sound q r).trans h
  exact modConvoy_sound h1 _ (by simp [h1])

theorem execLaunch_sound (h : s.sound = true) (w : FWord) : soundOut (execLaunch w s) = true := by
  refine runWord_sound h _ fun f e _ => ?_
  extract_lets q
  split
  · exact h
  · split
    · exact h
    · have hr := readItem_sound h f e (baseOf (s.convoy f.convoy) 0 w.x).toNat 128 128 false
      split <;> rename_i he <;> rw [he] at hr
      · exact h
      · exact hr
      · exact hr

theorem enterHeld_sound (h : s.sound = true) (ci : Nat) : (enterHeld s ci).sound = true := by
  unfold enterHeld
  split
  · split
    · exact h
    · exact releaseHolds_sound (enterQueue_sound h ..) ..
  · exact h

theorem execLaunchQueueEntry_sound (h : s.sound = true) (n : Nat) : soundOut (execLaunchQueueEntry n s) = true := enterHeld_sound h n

/-! ### Reverse words, queries -/

theorem failActors_sound (h : s.sound = true) (cause : Nat) (e : Mask) (bad : List Actor) {k : Res} (hk : k.sound = true) :
    (failActors s cause e bad k).sound = true := by
  unfold failActors; split
  · exact hk
  · exact h

theorem runReverse_sound (h : s.sound = true) (i : WordInfo) (ins : Instr) (w : FWord) (size : Nat) (r wr : Bool)
    {body : State → Focus → Convoy → Mask → List Actor → BitVec 12 → Res}
    (hb : ∀ s1 f c e as t, s1.sound = true → c.shaped = true → (body s1 f c e as t).sound = true) : soundOut (runReverse i ins w size r wr s body) = true := by
  refine runWord_sound h _ fun f e _ => globalCheck_sound h _ _ _ _ _ _ _ _ fun s1 ls h1 => ?_
  dsimp only
  split
  · exact h1
  · exact hb _ _ _ _ _ _ h1 (sound_convoy h _)

@[simp] theorem countDown_shaped (l : Launch) (b : Block) (c : Convoy) (a : Option Nat) (t : BitVec 12) : (countDown l b c a t).shaped = c.shaped := occSet_shaped ..

theorem signalActor_sound (t : BitVec 12) (ci : Nat) (h : s.sound = true) (a : Actor) : (signalActor t ci s a).sound = true := by
  unfold signalActor
  extract_lets c l s1
  have h1 : s1.sound = true := setConvoy_sound h _ ((countDown_shaped ..).trans (sound_convoy h ci))
  split
  · exact modLaunch_keep h1 _ (by intro _; rfl)
  · exact h1

theorem execRsig_sound (h : s.sound = true) (w : FWord) : soundOut (execRsig w s) = true := by
  refine runReverse_sound h _ _ _ _ _ _ fun s1 f c e as t h1 hc => ?_
  extract_lets l plain
  refine failActors_sound h1 _ _ _ ?_
  split
  · exact h1
  · split
    · exact h1
    · exact foldl_sound (fun s a hs => signalActor_sound t f.convoy hs a) _ h1

theorem holdActors_sound (h : s.sound = true) (f : Focus) (c : Convoy) (e : Mask) (i : Instr) (wait : List Actor) {done : Res} {s' : State}
    (hd : done.sound = true) (h' : s'.sound = true) : (holdActors s f c e i wait done s').sound = true := by
  unfold holdActors
  split
  · exact hd
  · split
    · exact h
    · exact h'

theorem modOrd_sound (h : s.sound = true) (ci : Nat) (g : Convoy → List OrdMatch) : (s.modConvoy ci fun c => { c with ord := g c }).sound = true :=
  modConvoy_sound h ci (sound_convoy h ci)

theorem modDown_sound (h : s.sound = true) (ci : Nat) (l : Launch) (b : Block) (a : Option Nat) (t : BitVec 12) :
    (s.modConvoy ci fun c => countDown l b c a t).sound = true :=
  modConvoy_sound h ci ((countDown_shaped ..).trans (sound_convoy h ci))

theorem execRwait_sound (h : s.sound = true) (w : FWord) : soundOut (execRwait w s) = true := by
  refine runReverse_sound h _ _ _ _ _ _ fun s1 f c e as t h1 hc => ?_
  extract_lets l b sc rec_ go s2 s3
  split
  · exact acquireBound_sound h1 ..
  · have h2 : s2.sound = true := foldl_sound (fun s a hs => modDown_sound hs ..) _ h1
    have h3 : s3.sound = true := by
      simp only [s3]; split
      · exact h2
      · exact acquireBound_sound h2 ..
    exact failActors_sound h1 _ _ _ (holdActors_sound h1 _ _ _ _ _ h3 h3)

theorem ordRead_sound (f : Focus) (w : FWord) (e : Mask) (h : s.sound = true) (a : Actor) : (ordRead f w e s a).sound = true := by
  unfold ordRead
  exact sendLoad_sound h ..

theorem execOrdrd_sound (h : s.sound = true) (w : FWord) : soundOut (execOrdrd w s) = true := by
  refine runReverse_sound h _ _ _ _ _ _ fun s1 f c e as t h1 hc => ?_
  extract_lets l b found ready go note s2
  split
  · exact foldl_sound (fun s a hs => ordRead_sound f w e hs a) _ h1
  · have h2 : s2.sound = true := foldl_sound (fun s a hs => ordRead_sound f w e (modOrd_sound hs _ _) a) _ h1
    exact failActors_sound h1 _ _ _ (failActors_sound h1 _ _ _ (holdActors_sound h1 _ _ _ _ _ h2 h2))

theorem ordWrite_sound (f : Focus) (w : FWord) (e : Mask) (bytes) (cur) (h : s.sound = true) (a : Actor) : (ordWrite f w e bytes cur s a).sound = true := by
  unfold ordWrite
  exact (sendAccess_sound ..).trans h

theorem execOrdwr_sound (h : s.sound = true) (w : FWord) : soundOut (execOrdwr w s) = true := by
  refine runReverse_sound h _ _ _ _ _ _ fun s1 f c e as t h1 hc => ?_
  extract_lets l b bytes one
  split
  · exact foldl_sound (fun s a hs => ordWrite_sound f w e _ _ hs a) _ h1
  · have ho : ∀ s a, s.sound = true → (one s a).sound = true := by
      intro s a hs
      simp only [one]
      refine ordWrite_sound f w e _ _ ?_ a
      have h2 : (s.modConvoy f.convoy fun c => { c with ord := c.ord.filter fun x => x.lane != a.1 }).sound = true :=
        modOrd_sound hs _ _
      split
      · exact modDown_sound h2 ..
      · exact h2
    refine failActors_sound h1 _ _ _ (failActors_sound h1 _ _ _ (failActors_sound h1 _ _ _ ?_))
    exact foldl_sound ho _ h1

theorem execItq_sound (h : s.sound = true) (w : FWord) : soundOut (execItq w s) = true := by
  refine runWord_sound h _ fun f e _ => ?_
  extract_lets l
  split
  · split
    · exact doneWith_sound h f (by simp [h])
    · exact doneWith_sound h f (by simp [h])
  · split
    · exact h
    · exact doneWith_sound h f (by simp [h])
  · exact doneWith_sound h f (by simp [h])

theorem execRand_sound (h : s.sound = true) (w : FWord) : soundOut (execRand w s) = true := by
  refine runWord_sound h _ fun f e _ => doneWith_sound h f (onLanes_ok ?_ (by intro _ _; exact ⟨rfl, rfl⟩) _)
  exact (writeRes32_shaped ..).trans (sound_convoy h _)

theorem foldl_countDown_shaped (l : Launch) (b : Block) (t : BitVec 12) (as : List (Option Nat)) {c : Convoy} (hc : c.shaped = true) :
    (as.foldl (fun c a => countDown l b c a t) c).shaped = true := foldlConvoy_shaped (fun c a hc => (countDown_shaped ..).trans hc) _ hc

theorem mileRecords_sound (h : s.sound = true) (f : Focus) {c : Convoy} (hc : c.shaped = true) (e : Mask) (t) (y) (as) :
    (mileRecords s f c e t y as).sound = true := by
  unfold mileRecords
  extract_lets l s1
  have h1 : s1.sound = true := setConvoy_sound h _ (countOccurrences_shaped hc ..)
  split
  · split
    · exact h
    · exact h
    · refine foldl_sound (fun s p hs => writeRecord_sound hs ..) _ ?_
      exact modLaunch_keep h1 _ (by intro _; rfl)
  · exact h1

theorem execMile_sound (h : s.sound = true) (w : FWord) : soundOut (execMile w s) = true := by
  refine runWord_sound h _ fun f e _ => ?_
  have hc := sound_convoy h f.convoy
  extract_lets l b tag as none_ down bad full bad2
  split
  · split
    · exact doneWith_sound h f (foldl_countDown_shaped _ _ _ _ hc)
    · exact h
  · split
    · exact h
    · split
      · split
        · exact doneWith_sound h f (countOccurrences_shaped hc ..)
        · exact h
      · exact mileRecords_sound h f hc ..

end Sys2Proof.Machine
end

