-- ==== Sys2Proof/Laws/SoundEngines.lean ====
section
/-! SUPPORT. The engine, matrix and privileged words, copies, the matrix array and collectives keep the invariant. -/

namespace Sys2Proof.Machine

variable {s : State}

theorem execScenc_sound (h : s.sound = true) (w : FWord) : soundOut (execScenc w s) = true := by
  unfold execScenc
  extract_lets i
  refine runWord_sound h _ fun f e _ => ?_
  extract_lets p b sc nibs nib bytes s1 c1
  split
  · exact h
  · split
    · exact h
    · split
      · exact h
      · have h1 : s1.sound = true := (countReplays_sound ..).trans (modLs_sound h _ _ fun l hl => write_wf l _ _ hl)
        split
        · exact h
        exact doneWith_sound h1 f ((holdExtra_shaped ..).trans ((writeRes64_shaped ..).trans (sound_convoy h _)))

/-! ### Engine words -/

theorem runFork_sound (h : s.sound = true) (i : WordInfo) {body : Focus → Convoy → Mask → Res}
    (hb : ∀ f e, (body f (s.convoy f.convoy) e).sound = true) : soundOut (runFork i s body) = true := by
  refine runWord_sound h _ fun f e _ => ?_
  split
  · exact hb f e
  · exact h

theorem orCause_sound (h : s.sound = true) (e : Mask) (x : Option Cause) {k : Res} (hk : k.sound = true) : (orCause s e x k).sound = true := by
  unfold orCause
  split
  · exact h
  · exact hk

theorem startCopy_sound (h : s.sound = true) (c : Convoy) (o : CopyOp) : (startCopy s c o).sound = true := by
  have h1 : ({ s with copies := s.copies ++ [o] } : State).sound = true := h
  exact modBlock_sound h1 _ (by exact sound_block h1 _)

@[simp] theorem changeCount_sound (core li i : Nat) (g : Nat → Nat) : (changeCount s core li i g).sound = s.sound := rfl

theorem copyEnd_sound (h : s.sound = true) (b : Bool) (e : Mask) (k : List (Mask × HoldKind)) {t : State} (ht : t.sound = true) :
    (if b then Res.hold s k else Res.done t stay).sound = true := by
  split
  · exact h
  · exact ht

theorem execCopy_sound (h : s.sound = true) (w : FWord) : soundOut (execCopy w s) = true := by
  refine runFork_sound h _ fun f e => ?_
  extract_lets size ls rec_ st
  refine orCause_sound h _ _ ?_
  extract_lets b lay src o
  exact orCause_sound h _ _ (copyEnd_sound h _ e _ (startCopy_sound h ..))

theorem execCopyp_sound (h : s.sound = true) (w : FWord) : soundOut (execCopyp w s) = true := by
  unfold execCopyp
  extract_lets fmt mx
  refine runFork_sound h _ fun f e => ?_
  extract_lets size ls tile rec_ st
  refine orCause_sound h _ _ ?_
  extract_lets hb hd b lay src o
  exact orCause_sound h _ _ (copyEnd_sound h _ e _ (startCopy_sound h ..))

theorem execCopym_sound (h : s.sound = true) (w : FWord) : soundOut (execCopym w s) = true := by
  refine runFork_sound h _ fun f e => ?_
  extract_lets size ls m dst rec_
  refine orCause_sound h _ _ ?_
  extract_lets b lay cores src o
  exact orCause_sound h _ _ (copyEnd_sound h _ e _ (foldl_sound (fun s i hs => (changeCount_sound ..).trans hs) _ (startCopy_sound h ..)))

theorem execSlotfree_sound (h : s.sound = true) (w : FWord) : soundOut (execSlotfree w s) = true :=
  runWord_sound h _ fun f e _ => foldl_sound (fun s i hs => (changeCount_sound ..).trans hs) _ h

theorem execBccr_sound (h : s.sound = true) (w : FWord) : soundOut (execBccr w s) = true :=
  runWord_sound h _ fun f e _ => doneWith_sound h f ((writeRes64_shaped ..).trans (sound_convoy h _))

theorem execColl_sound (h : s.sound = true) (w : FWord) : soundOut (execColl w s) = true := by
  refine runFork_sound h _ fun f e => ?_
  extract_lets slot comm
  have hr := readItem_sound h f e (baseOf (s.convoy f.convoy) 0 w.x).toNat 32 32 false
  split <;> rename_i he <;> rw [he] at hr
  · exact h
  · exact hr
  · cases comm <;> dsimp only <;> split
    · exact hr
    · exact hr
    · exact hr
    · split <;> exact hr

/-! ### Matrix words -/

theorem claimTile_sound (bi t core : Nat) : (claimTile s bi t core).sound = s.sound := by
  unfold claimTile; split <;> rfl

theorem queueMat_sound (h : s.sound = true) (o : MatOp) (cores : List Nat) : (queueMat s o cores).sound = true :=
  foldl_sound (fun s k hs => show ((claimTile s o.block o.tile k).modCore k _).sound = true from (modCore_sound ..).trans ((claimTile_sound ..).trans hs)) _ h

theorem enterMat_sound (h : s.sound = true) (f c e i w kind ha hb st) : (enterMat s f c e i w kind ha hb st).sound = true := by
  unfold enterMat
  extract_lets t cores
  split
  · exact h
  · exact queueMat_sound h ..

theorem multiplyWord_sound (h : s.sound = true) (f c e i w sp) : (multiplyWord s f c e i w sp).sound = true := by
  unfold multiplyWord
  extract_lets size a b st la lb ha hb
  exact orCause_sound h _ _ (orCause_sound h _ _ (enterMat_sound h ..))

theorem execMma_sound (h : s.sound = true) (w : FWord) : soundOut (execMma w s) = true :=
  runFork_sound h _ fun f e => multiplyWord_sound h ..
theorem execMmas_sound (h : s.sound = true) (w : FWord) : soundOut (execMmas w s) = true :=
  runFork_sound h _ fun f e => multiplyWord_sound h ..
theorem execAzero_sound (h : s.sound = true) (w : FWord) : soundOut (execAzero w s) = true :=
  runFork_sound h _ fun f e => orCause_sound h _ _ (enterMat_sound h ..)
theorem execAccld_sound (h : s.sound = true) (w : FWord) : soundOut (execAccld w s) = true :=
  runFork_sound h _ fun f e => orCause_sound h _ _ (enterMat_sound h ..)
theorem execAccst_sound (h : s.sound = true) (w : FWord) : soundOut (execAccst w s) = true :=
  runFork_sound h _ fun f e => orCause_sound h _ _ (enterMat_sound h ..)
theorem execAccstat_sound (h : s.sound = true) (w : FWord) : soundOut (execAccstat w s) = true :=
  runFork_sound h _ fun f e => orCause_sound h _ _ (enterMat_sound h ..)

/-! ### Privileged words -/

theorem supervisorOnly_sound (h : s.sound = true) (c : Convoy) (e : Mask) {k : Res} (hk : k.sound = true) : (supervisorOnly s c e k).sound = true := by
  unfold supervisorOnly; split
  · exact hk
  · exact h

theorem execEret_sound (h : s.sound = true) (w : CWord) : soundOut (execEret w s) = true := by
  refine runWord_sound h _ fun f e _ => ?_
  split
  · exact h
  · exact returnFromTrap_sound h ..

theorem execPark_sound (h : s.sound = true) (w : CWord) : soundOut (execPark w s) = true :=
  runWord_sound h _ fun f e _ => supervisorOnly_sound h _ _ (noteParked_sound.trans (setConvoy_sound h _ (by exact sound_convoy h _)))

theorem execCsrr_sound (h : s.sound = true) (w : FWord) : soundOut (execCsrr w s) = true := by
  refine runWord_sound h _ fun f e _ => ?_
  split
  · exact doneWith_sound h f ((writeRes64_shaped ..).trans (sound_convoy h _))
  · exact h

theorem ite_shaped {p : Prop} [Decidable p] {a b : Convoy} (ha : a.shaped = true) (hb : b.shaped = true) : (if p then a else b).shaped = true := by
  split
  · exact ha
  · exact hb

theorem csrWriteConvoy_shaped {c : Convoy} (hc : c.shaped = true) (n : Nat) (v : W64) : (csrWriteConvoy c n v).shaped = true := by
  unfold csrWriteConvoy
  have ht : ∀ t, ({ c with trap := t } : Convoy).shaped = true := fun _ => hc
  have hh : ∀ t, ({ c with held := t } : Convoy).shaped = true := fun _ => hc
  have hs : ∀ i x, ({ c with scratch := c.scratch.set i x } : Convoy).shaped = true := fun i x => (shapedParts_scratch i x).trans hc
  exact ite_shaped hc (ite_shaped (ht _) (ite_shaped hc (ite_shaped (hs _ _) (ite_shaped hc (hh _)))))

theorem runCsrw_sound (h : s.sound = true) (w : FWord) (l : Bool) {body : Focus → Convoy → W64 → Res}
    (hb : ∀ f v, (body f (s.convoy f.convoy) v).sound = true) : soundOut (runCsrw w l s body) = true := by
  refine runWord_sound h _ fun f e _ => ?_
  split
  · exact h
  · exact supervisorOnly_sound h _ _ (hb ..)

theorem execCsrw_sound (h : s.sound = true) (w : FWord) : soundOut (execCsrw w s) = true :=
  runCsrw_sound h _ _ fun f v => setConvoy_sound h _ (csrWriteConvoy_shaped (sound_convoy h _) ..)

theorem execKillCsrWrite_sound (h : s.sound = true) (w : FWord) : soundOut (execKillCsrWrite w s) = true := by
  refine runCsrw_sound h _ _ fun f v => ?_
  split
  · exact terminateLaunch_sound h ..
  · exact h

theorem execWdctlWrite_sound (h : s.sound = true) (w : FWord) : soundOut (execWdctlWrite w s) = true := by
  refine runCsrw_sound h _ _ fun f v => ?_
  extract_lets s1
  have h1 : s1.sound = true := h
  show State.sound (if _ then _ else _) = true
  split
  · exact foldl_sound (fun s i hs => (resetWatchdog_sound ..).trans hs) _ h1
  · exact h1

theorem execPerfselWrite_sound (h : s.sound = true) (w : FWord) : soundOut (execPerfselWrite w s) = true :=
  runCsrw_sound h _ _ fun f v => h

theorem execPerfr_sound (h : s.sound = true) (w : FWord) : soundOut (execPerfr w s) = true :=
  runWord_sound h _ fun f e _ => doneWith_sound h f ((writeRes64_shaped ..).trans (sound_convoy h _))

@[simp] theorem invalidate_sound (a b : Option Nat) : (invalidate s a b).sound = s.sound := rfl

theorem execTlbinv_sound (h : s.sound = true) (w : FWord) : soundOut (execTlbinv w s) = true := by
  refine runWord_sound h _ fun f e _ => supervisorOnly_sound h _ _ ?_
  extract_lets y x ctx va
  repeat' split
  all_goals exact h

theorem boundCore_sound (h : s.sound = true) (core : Nat) : (boundCore s core).sound = true :=
  soundParts_mapConvoys h fun c hc => by split <;> exact hc

theorem execCacheop_sound (h : s.sound = true) (w : FWord) : soundOut (execCacheop w s) = true := by
  refine runWord_sound h _ fun f e _ => supervisorOnly_sound h _ _ ?_
  split
  · exact boundCore_sound h _
  · exact h
  · exact h

/-! ### Copies -/

def EngRes.all {α : Type} (p : α → Prop) : EngRes α → Prop
  | .ok v => p v
  | _ => True

theorem EngRes.bind_all {α β : Type} {p : α → Prop} {q : β → Prop} {x : EngRes α} {f : α → EngRes β} (hx : x.all p)
    (hf : ∀ v, p v → (f v).all q) : (x.bind f).all q := by
  cases x
  · exact hf _ hx
  all_goals trivial

theorem engXlate_sound (h : s.sound = true) (core ctx : Nat) (user write : Bool) (va : Nat) :
    (engXlate s core ctx user write va).all fun x => x.1.sound = true := by
  unfold engXlate
  split
  · trivial
  · split
    · trivial
    · trivial
    · rename_i hx; exact xlateHome_ok h hx

theorem engFetch_sound (h : s.sound = true) (core ctx ci fork : Nat) (user : Bool) (va n : Nat) :
    (engFetch s core ctx ci fork user va n).all fun x => x.1.sound = true := by
  refine EngRes.bind_all (engXlate_sound h ..) fun v hv => ?_
  dsimp only
  repeat' split
  all_goals first | trivial | exact hv

theorem copyReadGlobal_sound (h : s.sound = true) (o va n) : (copyReadGlobal s o va n).all fun x => x.1.sound = true := by
  refine EngRes.bind_all (engFetch_sound h ..) fun v hv => ?_
  obtain ⟨s1, pa, leaf⟩ := v
  dsimp only
  repeat' split
  all_goals first | trivial | exact hv

theorem copyWriteGlobal_sound (h : s.sound = true) (o p va bs) : (copyWriteGlobal s o p va bs).all fun x => x.1.sound = true := by
  refine EngRes.bind_all (engXlate_sound h ..) fun v hv => ?_
  obtain ⟨s1, pa, leaf⟩ := v
  dsimp -zeta only
  extract_lets direct b
  split
  · split
    · trivial
    · trivial
    · trivial
    · split
      · exact hv
      · trivial
    · split
      · trivial
      · have h1 := modLaunch_keep hv o.launch (f := fun l => { l with buffer := l.buffer ++
             [{ block := b.index, convoy := (s1.convoy o.convoy).index, lane := 0, order := o.order, element := p,
                va := va, pa := pa, kind := .store bs, sender := { core := o.core, seq := o.seq, convoy := o.convoy, number := o.fork, rel := false, acq := false, scope := 0 }, waiting := s.clock }] }) (by intro _; rfl)
        exact modBlock_sound h1 _ (sound_block h1 _)
  · exact hv

theorem copyReadLocal_sound (h : s.sound = true) (o off n) : (copyReadLocal s o off n).all fun x => x.1.sound = true := by
  unfold copyReadLocal
  extract_lets
  split
  · trivial
  · exact h

theorem copyWriteLocal_sound (h : s.sound = true) (bi second off bs) : (copyWriteLocal s bi second off bs).all fun x => x.sound = true := by
  unfold copyWriteLocal
  split
  · trivial
  · exact modLs_sound h _ _ fun l hl => write_wf l _ _ hl

theorem setPlaneBit_wf (l : LocalStore) (off bit : Nat) (v : Bool) (h : Memory.wf l.mem = true) : Memory.wf (setPlaneBit l off bit v).mem = true := by
  unfold setPlaneBit
  extract_lets w cur
  split
  · exact h
  · exact write_wf _ _ _ h

theorem foldl_wf {α : Type} {f : LocalStore → α → LocalStore} (hf : ∀ l x, Memory.wf l.mem = true → Memory.wf (f l x).mem = true) :
    ∀ (xs : List α) {l : LocalStore}, Memory.wf l.mem = true → Memory.wf (xs.foldl f l).mem = true
  | [], _, h => h
  | x :: r, _, h => foldl_wf hf r (hf _ x h)

theorem writePlane_wf (hd : TileHdr) (tile row pos : Nat) (l : LocalStore) (v : Bool × Nat) (h : Memory.wf l.mem = true) :
    Memory.wf (writePlane hd tile row pos l v).mem = true :=
  foldl_wf (fun l q hl => setPlaneBit_wf l _ _ _ hl) _ (setPlaneBit_wf _ _ _ _ h)

theorem writeUnit_wf (hd : TileHdr) (tile row t pos : Nat) (l : LocalStore) (e : Nat) (vs : List (Bool × Nat)) (h : Memory.wf l.mem = true) :
    Memory.wf (writeUnit hd tile row t pos l e vs).mem = true :=
  foldl_wf (fun l p hl => writePlane_wf hd tile row _ l _ hl) _ (write_wf l _ _ h)

theorem copyFetch_sound (h : s.sound = true) (o key) : (copyFetch s o key).all fun x => x.1.sound = true := by
  unfold copyFetch
  extract_lets n a
  split
  · exact copyReadLocal_sound h ..
  · exact copyReadGlobal_sound h ..

theorem putUnit_sound (h : s.sound = true) (o r fmt) : (putUnit s o r fmt).all fun x => x.sound = true := by
  unfold putUnit
  extract_lets hd u armed
  split
  · trivial
  · exact modLs_sound h _ _ fun l hl => writeUnit_wf _ _ _ _ _ _ _ _ hl

theorem copyPut_sound (h : s.sound = true) (o r) : (copyPut s o r).all fun x => x.1.sound = true := by
  unfold copyPut
  extract_lets a near
  have hn : ∀ {x : EngRes State}, (x.all fun s => s.sound = true) → (near x).all fun x => x.1.sound = true :=
    fun hx => EngRes.bind_all hx fun _ hv => hv
  split
  · exact hn (putUnit_sound h ..)
  · split
    · exact hn (copyWriteLocal_sound h ..)
    · exact copyWriteGlobal_sound h ..

@[simp] theorem setCopy_sound (i : Nat) (o : CopyOp) : (s.setCopy i o).sound = s.sound := rfl

theorem copyStart_sound (i : Nat) : (copyStart s i).sound = s.sound := by
  unfold copyStart; repeat' split
  all_goals rfl

theorem copyRead_sound (h : s.sound = true) (i : Nat) : (copyRead s i).sound = true := by
  unfold copyRead
  split
  · exact h
  · rename_i o _
    split
    · exact h
    · have hm := copyFetch_sound h o ‹_›
      split <;> rename_i he
      · rw [he] at hm; exact hm
      · exact h
      · exact h

theorem copyReadAhead_sound (h : s.sound = true) (i : Nat) : (copyReadAhead s i).sound = true := by
  unfold copyReadAhead
  split
  · exact h
  · rename_i o _
    split
    · exact h
    · have hm := copyFetch_sound h o ‹_›
      split <;> rename_i he
      · rw [he] at hm; exact hm
      · exact h

theorem passBeats_sound (h : s.sound = true) (o : CopyOp) (p q : Nat) (b : Bool) : (passBeats s o p q b).sound = true :=
  (perfCount_sound ..).trans (setConvoy_sound h _ (by exact sound_convoy h _))

theorem copyWrite_sound (h : s.sound = true) (i k : Nat) : (copyWrite s i k).sound = true := by
  unfold copyWrite
  split
  · exact h
  · rename_i o _
    split
    · exact h
    · rename_i r _
      split
      · exact h
      · have hm := copyPut_sound h o r
        split <;> rename_i he
        · rw [he] at hm; exact passBeats_sound hm ..
        · exact h
        · exact h

theorem engHome_sound (h : s.sound = true) (core ctx user ci fork f) : (engHome s core ctx user ci fork f).all fun x => x.1.sound = true := by
  unfold engHome
  extract_lets go
  have hg : ∀ {s1 : State} pa, s1.sound = true → (go s1 pa).all fun x => x.1.sound = true := by
    intro s1 pa h1; simp only [go]; split
    · exact h1
    · trivial
  split
  · exact hg _ h
  · have hx := engXlate_sound (s := tlbDrop s core ctx f.va) h core ctx user true f.va
    split <;> rename_i he
    · rw [he] at hx; exact hg _ hx
    · trivial

theorem flightHome_sound (h : s.sound = true) (o f) : (flightHome s o f).all fun x => x.1.sound = true := engHome_sound h ..

theorem copyRetry_sound (i j : Nat) : (copyRetry s i j).sound = s.sound := by
  unfold copyRetry
  repeat' split
  all_goals rfl

theorem copyPerform_sound (h : s.sound = true) (i j : Nat) : (copyPerform s i j).sound = true := by
  unfold copyPerform
  split
  · exact h
  · rename_i o _
    split
    · exact h
    · rename_i f _
      have hm := flightHome_sound h o f
      split <;> rename_i he
      · rw [he] at hm; exact homePut_sound hm ..
      · exact h

theorem stampLocal_sound (h : s.sound = true) (bi second off st) : (stampLocal s bi second off st).sound = true :=
  modLs_sound h _ _ fun l hl => write_wf l _ _ hl

theorem endReceiver_sound (h : s.sound = true) (r : Receiver) (st : Nat) : (endReceiver s r st).sound = true := by
  unfold endReceiver
  split
  · exact stampLocal_sound h ..
  · exact h

theorem copyEndOp_sound (h : s.sound = true) (i : Nat) : (copyEndOp s i).sound = true := by
  unfold copyEndOp
  split
  · exact h
  · extract_lets ends s1 rs p
    have h1 : s1.sound = true := foldl_sound (fun s p hs => by
      split
      · exact endReceiver_sound hs ..
      · exact hs) _ h
    split
    · exact h
    · split
      · exact passBeats_sound h1 ..
      · exact h1

theorem copyFaultOp_sound (h : s.sound = true) (i : Nat) : (copyFaultOp s i).sound = true := by
  unfold copyFaultOp
  split
  · extract_lets
    repeat' split
    all_goals exact h
  · exact h

theorem writeFaultRecord_sound (h : s.sound = true) : (writeFaultRecord s).sound = true := by
  unfold writeFaultRecord
  split
  · exact h
  · split
    · exact h
    · extract_lets at_ bs s1 s2
      have h1 : s1.sound = true := (modHub_sound _).trans (putMem_sound h ..)
      clear_value s1
      have h2 : s2.sound = true := by
        simp only [s2]
        repeat' split
        all_goals exact h1
      clear_value s2
      split
      · exact setEvent_sound h2 _
      · exact h2

theorem copyActOn_sound (h : s.sound = true) (i act next) : (copyActOn s i act next).sound = true := by
  unfold copyActOn
  repeat' split
  all_goals first | exact h | exact soundParts_write h _ _

/-! ### The matrix array -/

theorem matOnCore_sound (o first core) : (matOnCore s o first core).sound = s.sound := by
  unfold matOnCore
  extract_lets t put
  split <;> rfl

theorem clearErrs_same_shape (c : Convoy) (r : List Reg) (e : Mask) : (clearErrs c r e).shaped = c.shaped := rfl

theorem matPerform_sound (h : s.sound = true) (core o) : (matPerform s core o).sound = true := by
  unfold matPerform
  split
  · exact modConvoy_sound h _ ((clearErrs_same_shape ..).trans ((writeM_shaped ..).trans (sound_convoy h _)))
  · exact foldl_sound (fun s c hs => (matOnCore_sound ..).trans hs) _ h

theorem setMatOp_sound (core o) : (setMatOp s core o).sound = s.sound :=
  foldl_eq_sound (fun _ _ => modCore_sound ..) _

theorem matStep_sound (h : s.sound = true) (core : Nat) : (matStep s core).sound = true := by
  unfold matStep
  split
  · exact h
  · split
    · exact h
    · split
      · exact (setMatOp_sound ..).trans h
      · unfold writeRow
        split
        · exact (setMatOp_sound ..).trans (modLs_sound h _ _ fun l hl => write_wf l _ _ hl)
        · exact h
      · exact h

theorem matEnd_sound (h : s.sound = true) (core : Nat) : (matEnd s core).sound = true := by
  unfold matEnd
  split
  · exact h
  · rename_i o _
    split
    · exact h
    · extract_lets bad s1 c b s2
      have h1 : s1.sound = true := by
        simp only [s1]
        split
        · exact h
        · split
          · exact foldl_sound (fun s c hs => (modCore_sound ..).trans hs) _ h
          · exact matPerform_sound h ..
      have h2 : s2.sound = true := by
        simp only [s2]
        split
        · exact stampLocal_sound h1 ..
        · exact h1
      exact (endClaims_sound _).trans (foldl_sound (fun s c hs => (modCore_sound ..).trans hs) _ h2)

/-! ### Collectives -/

@[simp] theorem setColl_sound (i : Nat) (c : Coll) : (s.setColl i c).sound = s.sound := rfl
@[simp] theorem modColl_sound (i : Nat) (f : Coll → Coll) : (s.modColl i f).sound = s.sound := by
  unfold State.modColl; split <;> rfl

@[simp] theorem sendChunk_sound (i p hop seq first : Nat) (bs : List Byte) : (sendChunk s i p hop seq first bs).sound = s.sound := by
  unfold sendChunk
  split
  · rfl
  · extract_lets
    split <;> rfl

theorem sendAll_sound (i hop : Nat) : (sendAll s i hop).sound = s.sound := by
  unfold sendAll
  split
  · rfl
  · exact foldl_eq_sound (fun _ _ => sendChunk_sound ..) _

theorem failColl_sound (i : Nat) : (failColl s i).sound = s.sound := by
  unfold failColl
  split
  · rfl
  · split
    · rfl
    · exact (modColl_sound ..).trans (sendAll_sound ..)

theorem reportColl_sound (i cause addr w) : (reportColl s i cause addr w).sound = s.sound := by
  unfold reportColl
  split
  · rfl
  · extract_lets f
    split <;> rfl

theorem deliver_sound (i src first bs) : (deliver s i src first bs).sound = s.sound := modColl_sound ..

theorem collSend_sound (c : Coll) : ∀ (bs : List (List Byte)) (va : Nat) {s : State}, s.sound = true → (collSend c va bs s).all fun x => x.1.sound = true
  | [], _, _, h => h
  | b :: r, va, s, h => by
    refine EngRes.bind_all (engXlate_sound h ..) fun v hv => ?_
    exact EngRes.bind_all (collSend_sound c r _ hv) fun w hw => hw

theorem collDeliver_sound (h : s.sound = true) (i : Nat) : (collDeliver s i).sound = true := by
  unfold collDeliver
  split
  · exact h
  · rename_i c _
    split
    · exact h
    · rename_i k first bytes _
      have hm := collSend_sound c (piecesOf c.size bytes.length bytes) (c.dst + c.size * first) h
      split <;> rename_i he
      · rw [he] at hm; exact hm
      · exact (failColl_sound _).trans ((reportColl_sound ..).trans h)
      · exact (failColl_sound _).trans h
      · exact h

theorem collHome_sound (h : s.sound = true) (c f) : (collHome s c f).all fun x => x.1.sound = true := engHome_sound h ..

theorem collPut_sound (c : Coll) : ∀ (fs : List Flight) {s : State}, s.sound = true → (collPut c fs s).all fun s => s.sound = true
  | [], _, h => h
  | f :: r, _, h => EngRes.bind_all (collHome_sound h c f) fun _ hv => collPut_sound c r (homePut_sound hv ..)

theorem collRetry_sound (i j : Nat) : (collRetry s i j).sound = s.sound := by
  unfold collRetry
  repeat' split
  all_goals rfl

theorem collPerform_sound (h : s.sound = true) (i j : Nat) : (collPerform s i j).sound = true := by
  unfold collPerform
  split
  · exact h
  · rename_i c _
    split
    · exact h
    · rename_i f _
      have hm := collPut_sound c (c.chunkOf f) h
      split <;> rename_i he
      · rw [he] at hm; exact hm
      · exact h

theorem publish_sound (i chunk bs) : (publish s i chunk bs).sound = s.sound := by
  unfold publish
  split
  · rfl
  · extract_lets m first
    refine foldl_eq_sound (fun s r => ?_) _
    split
    split
    · rfl
    · split
      · exact deliver_sound ..
      · exact sendChunk_sound ..

theorem addValue_sound (i hp chunk bs) : (addValue s i hp chunk bs).sound = s.sound := by
  unfold addValue
  split
  · rfl
  · split
    · rfl
    · extract_lets m v c1 s1 top
      split
      · split
        · exact publish_sound ..
        · exact sendChunk_sound ..
      · rfl

theorem dispatchReduce_sound (i node) : (dispatchReduce s i node).sound = s.sound := by
  unfold dispatchReduce
  repeat' split
  all_goals rfl

theorem endReduce_sound (k : Nat) : (endReduce s k).sound = s.sound := by
  unfold endReduce
  split
  · rfl
  · extract_lets s1
    split
    · exact addValue_sound ..
    · rfl

theorem sendPiece_sound (i j bs) : (sendPiece s i j bs).sound = s.sound := by
  unfold sendPiece
  split
  · rfl
  · extract_lets m q a move
    have hm : ∀ (s : State) r, (move s r).sound = s.sound := fun s r => by
      simp only [move]; split
      · exact deliver_sound ..
      · exact sendChunk_sound ..
    split
    · exact addValue_sound ..
    · split
      · exact hm ..
      · exact foldl_eq_sound hm _

theorem collRead_sound (h : s.sound = true) (i : Nat) : (collRead s i).sound = true := by
  unfold collRead
  split
  · exact h
  · rename_i c _
    split
    · exact h
    · rename_i e _
      have hm := engFetch_sound h c.core c.ctx c.convoy c.fork c.user (c.src + c.size * e) c.size
      split <;> rename_i he
      · exact h
      · exact (failColl_sound _).trans ((reportColl_sound ..).trans h)
      · exact (failColl_sound _).trans h
      · rw [he] at hm
        extract_lets m j els all_
        split
        · exact (sendPiece_sound ..).trans hm
        · exact hm

theorem noteLost_sound (i : Nat) : (noteLost s i).sound = s.sound := by
  unfold noteLost
  split
  · rfl
  · extract_lets m
    split <;> rfl

theorem noteLostAll_sound : (noteLostAll s).sound = s.sound := foldl_eq_sound (fun _ i => noteLost_sound i) _

theorem handleChunk_sound (i ch) : (handleChunk s i ch).sound = s.sound := by
  unfold handleChunk
  split
  · rfl
  · split
    · rfl
    · split
      · split
        · exact failColl_sound ..
        · rfl
      · split
        · exact failColl_sound ..
        · split
          · exact noteLost_sound ..
          · split
            · exact deliver_sound ..
            · rfl

theorem drainChunks_sound (i : Nat) : ∀ (n : Nat) (s : State), (drainChunks i n s).sound = s.sound
  | 0, _ => rfl
  | n + 1, s => by
    unfold drainChunks
    split
    · rfl
    · exact (drainChunks_sound i n _).trans (handleChunk_sound ..)

theorem arriveChunk_sound (i ch) : (arriveChunk s i ch).sound = s.sound := by
  unfold arriveChunk
  split
  · rfl
  · extract_lets s1
    split
    · exact drainChunks_sound ..
    · rfl

theorem receiveChunk_sound (ch) : (receiveChunk s ch).sound = s.sound := by
  unfold receiveChunk
  split
  · rfl
  · split
    · exact arriveChunk_sound ..
    · rfl

theorem collStart_sound (i : Nat) : (collStart s i).sound = s.sound := by
  unfold collStart
  split
  · rfl
  · split
    · rfl
    · extract_lets mine s1
      exact (drainChunks_sound ..).trans ((noteLost_sound _).trans (sendAll_sound ..))

theorem closeColl_sound (i st : Nat) : (closeColl s i st).sound = s.sound := by
  unfold closeColl
  extract_lets s1
  split
  · exact modColl_sound ..
  · exact (sendAll_sound ..).trans (modColl_sound ..)

theorem collEnd_sound (h : s.sound = true) (i : Nat) : (collEnd s i).sound = true := by
  unfold collEnd
  split
  · exact h
  · rename_i c _
    split
    · exact h
    · have hx := engXlate_sound h c.core c.ctx c.user true c.stamp
      split <;> rename_i he
      · rw [he] at hx
        split
        · exact h
        · exact (closeColl_sound ..).trans (putMem_sound hx ..)
      · exact (closeColl_sound ..).trans ((reportColl_sound ..).trans h)
      · exact h

end Sys2Proof.Machine
end

