-- ==== Sys2Proof/Laws/SoundDevice.lean ====
section
/-! SUPPORT. Contexts, the mailbox, checkpoints, pre-emption, the windows, the start and the moves that execute no row keep the invariant. -/

namespace Sys2Proof.Machine

variable {s : State}

/-! ### Contexts -/

def AreaRes.sound : AreaRes → Bool
  | .ok s _ => s.sound
  | .bad s _ _ => s.sound
  | .wait => true

theorem areaLines_sound (h : s.sound = true) (f c e w va n) : (areaLines s f c e w va n).sound = true := by
  unfold areaLines
  have hc := checkWord_sound h (convoyReq s c w) 0 false ((List.range ((n + 127) / 128)).map fun i => (0, va + 128 * i))
  split <;> rename_i he <;> rw [he] at hc
  · rfl
  · exact hc
  · split
    · rfl
    · exact hc

theorem storeArea_sound (h : s.sound = true) (f lanes lines bs) : (storeArea s f lanes lines bs).sound = true :=
  foldl_sound (fun s p hs => writeHome_sound hs ..) _ h

theorem withArea_sound (h : s.sound = true) (f c e va n) {k : State → List Byte → Res} (hk : ∀ s1 bs, s1.sound = true → (k s1 bs).sound = true) :
    (withArea s f c e va n k).sound = true := by
  unfold withArea
  have hc := areaLines_sound h f c e false va n
  split <;> rename_i he <;> rw [he] at hc
  · exact h
  · exact hc
  · split
    · exact hc
    · exact hk _ _ (foldl_sound (fun s pa hs => raiseView_sound hs ..) _ hc)

theorem putArea_sound (h : s.sound = true) (f c e va bs) : (putArea s f c e va bs).sound = true := by
  unfold putArea
  have hc := areaLines_sound h f c e true va bs.length
  split <;> rename_i he <;> rw [he] at hc
  · exact h
  · exact hc
  · exact storeArea_sound hc ..

theorem noteBadTiles_sound (h : s.sound = true) (core bi) : (noteBadTiles s core bi).sound = true :=
  modBlock_sound h _ (by exact sound_block h _)

theorem runContext_sound (h : s.sound = true) (w l) {body : Focus → Convoy → Mask → Nat → W64 → Res}
    (hb : ∀ f c e a hd, (body f c e a hd).sound = true) : soundOut (runContext w l s body) = true := by
  refine runWord_sound h _ fun f e _ => supervisorOnly_sound h _ _ ?_
  extract_lets area hd
  split
  · exact h
  · split
    · exact h
    · exact hb ..

theorem execCtxsv_sound (h : s.sound = true) (w : FWord) : soundOut (execCtxsv w s) = true := by
  refine runContext_sound h _ _ fun f c e area hd => ?_
  split
  · exact h
  · extract_lets t
    split
    · split
      · exact h
      · split
        · exact h
        · exact putArea_sound (noteBadTiles_sound h ..) ..
    · split
      · exact h
      · split
        · exact h
        · split
          · exact h
          · have hp := putArea_sound h f c e area (areaBytes s t)
            split
            · rename_i he; rw [he] at hp; exact hp
            · exact hp

theorem installConvoy_shaped (s : State) (c : Convoy) (bs : List Byte) : (installConvoy s c bs).shaped = true := by
  unfold installConvoy
  extract_lets ws hs st live flags lanes barl inBarl low
  show shapedParts lanes c.width c.budget _ _ _ _ _ = true
  have h1 : lanes.length = c.width := by simp [lanes]
  have h2 : lanes.all (fun x => x.v.length == c.budget && x.m.length == 8) = true := by
    simp only [lanes, List.all_map, List.all_eq_true]
    intro x _
    simp [laneIn]
  simp [shapedParts, h1, h2]

theorem zip_wf : ∀ (l : List Byte) (lo i : Nat), lo ≤ i → memWfFrom lo (((List.range' i l.length).zip l).filter fun p => p.2 != 0) = true
  | [], _, _, _ => rfl
  | b :: r, lo, i, h => by
    simp only [List.length_cons, List.range'_succ, List.zip_cons_cons, List.filter_cons]
    split
    · rename_i hb
      simp only [memWfFrom, hb, decide_eq_true h, Bool.true_and, Bool.and_true]
      exact zip_wf r _ _ (Nat.le_refl _)
    · exact zip_wf r _ _ (by omega)

theorem indexed_wf (l : List Byte) : Memory.wf ((indexed l).filter fun p => p.2 != 0) = true := by
  unfold indexed
  rw [List.range_eq_range']
  exact zip_wf l 0 0 (Nat.le_refl _)

theorem loadCounters_sound (h : s.sound = true) (core li hd) : (loadCounters s core li hd).sound = true := by
  unfold loadCounters
  split <;> exact h

theorem installBlock_sound (h : s.sound = true) (core bi bs) : (installBlock s core bi bs).sound = true := by
  unfold installBlock
  extract_lets b second n1 n2 tiles n3 q marks s1 s2 dev ops cps s3
  have h1 : s1.sound = true := modLs_sound (loadCounters_sound h ..) _ _ fun l hl => indexed_wf _
  have h2 : s2.sound = true := foldl_sound (fun s p hs => (modCore_sound ..).trans hs) _ h1
  have h3 : s3.sound = true := h2
  refine foldl_sound (fun s i hs => ?_) _ h3
  split
  · split <;> exact hs
  · exact hs

theorem loadConvoy2_sound (h : s.sound = true) (f c e a t) {put : State → Convoy → State}
    (hp : ∀ {s : State} (t : Convoy), s.sound = true → t.shaped = true → (put s t).sound = true) (hd) : (loadConvoy2 s f c e a t put hd).sound = true := by
  unfold loadConvoy2
  extract_lets l
  refine withArea_sound h _ _ _ _ _ fun s1 pre h1 => ?_
  refine withArea_sound h1 _ _ _ _ _ fun s2 bs h2 => ?_
  split
  · exact h2
  · exact hp _ h2 (installConvoy_shaped ..)

theorem loadArea_sound (h : s.sound = true) (f c e a t) {put : State → Convoy → State}
    (hp : ∀ {s : State} (t : Convoy), s.sound = true → t.shaped = true → (put s t).sound = true) : (loadArea s f c e a t put).sound = true := by
  refine withArea_sound h _ _ _ _ _ fun s1 bs h1 => ?_
  split
  · exact h1
  · exact loadConvoy2_sound h1 _ _ _ _ _ hp _

theorem seatStray_sound (h : s.sound = true) (li index : Nat) {t : Convoy} (ht : t.shaped = true) : (seatStray li index s t).sound = true := by
  refine (seatConvoy_sound ..).trans (soundParts_addConvoys h fun c hc => ?_)
  rw [List.mem_singleton] at hc
  subst hc
  exact ht

theorem loadBlock2_sound (h : s.sound = true) (f c e a bi hd) : (loadBlock2 s f c e a bi hd).sound = true := by
  refine withArea_sound h _ _ _ _ _ fun s1 bs h1 => ?_
  split
  · exact h
  · exact installBlock_sound h1 ..

theorem execCtxld_sound (h : s.sound = true) (w : FWord) : soundOut (execCtxld w s) = true := by
  refine runContext_sound h _ _ fun f c e area hd => ?_
  split
  · split
    · exact h
    · exact withArea_sound h _ _ _ _ _ fun s1 _ h1 => loadArea_sound h1 _ _ _ _ _ fun _ h2 ht => seatStray_sound h2 _ _ ht
  · extract_lets t
    split
    · exact h
    · split
      · refine withArea_sound h _ _ _ _ _ fun s1 bs h1 => ?_
        split
        · exact h1
        · exact loadBlock2_sound h1 ..
      · exact loadArea_sound h _ _ _ _ _ fun _ h2 ht => setConvoy_sound h2 _ ht

/-! ### The mailbox -/

@[simp] theorem setReady_sound (b : Nat) : (setReady s b).sound = s.sound := rfl
@[simp] theorem failStage_sound (a : Nat) (b : Byte) : (failStage s a b).sound = s.sound := setErr_sound ..
@[simp] theorem measure_sound (k n : Nat) (bs : List Byte) : (measure s k n bs).sound = s.sound := rfl
@[simp] theorem finishCommand_sound (q : BitVec 16) (a b : Nat) : (finishCommand s q a b).sound = s.sound := by
  unfold finishCommand
  rw [emit_sound, modHub_sound]
theorem hostWrite_sound (h : s.sound = true) (a : Nat) (bs : List Byte) : (hostWrite s a bs).sound = true := soundParts_write h _ _

def CmdRes.sound : CmdRes → Bool
  | .ends s _ _ => s.sound
  | .goesOn s => s.sound

theorem runCommand_sound (h : s.sound = true) (code q need) {body : State → CmdRes} (hb : (body s).sound = true) :
    soundOut (runCommand s code q need body) = true := by
  unfold runCommand
  show State.sound (if _ then _ else _) = true
  split
  · exact h
  · have hx : (if isReady s need then body s else notReady s).sound = true := by
      split
      · exact hb
      · exact h
    split <;> rename_i he <;> rw [he] at hx
    · exact (finishCommand_sound ..).trans hx
    · exact hx

theorem execSummary_sound (h : s.sound = true) (q) : soundOut (execSummary q s) = true :=
  runCommand_sound h _ _ _ (by split; exact hostWrite_sound h ..; exact h)

theorem answerAttest_sound (h : s.sound = true) (bs) : (answerAttest s bs).sound = true := hostWrite_sound h ..

theorem execAttest_sound (h : s.sound = true) (q) : soundOut (execAttest q s) = true := by
  refine runCommand_sound h _ _ _ ?_
  extract_lets who nonce
  split
  · exact h
  · split
    · exact answerAttest_sound h _
    · repeat' split
      all_goals exact h

theorem peerAnswer_sound (h : s.sound = true) (bs) : (peerAnswer s bs).sound = true := by
  unfold peerAnswer
  split
  · exact h
  · have hx : (if bs.isEmpty then cmdFails s else answerAttest s bs).sound = true := by
      split
      · exact h
      · exact answerAttest_sound h _
    split <;> rename_i he <;> rw [he] at hx
    · exact (finishCommand_sound ..).trans hx
    · exact hx

theorem execEvset_sound (h : s.sound = true) (q) : soundOut (execEvset q s) = true := runCommand_sound h _ _ _ (setEvent_sound h _)
theorem execEvclr_sound (h : s.sound = true) (q) : soundOut (execEvclr q s) = true := runCommand_sound h _ _ _ h
theorem execKill_sound (h : s.sound = true) (q) : soundOut (execKill q s) = true :=
  runCommand_sound h _ _ _ (by split; exact terminateLaunch_sound h ..; exact h)

theorem resumeParked_sound (h : s.sound = true) : (resumeParked s).sound = true := by
  unfold resumeParked
  split
  · split
    · exact h
    · exact noteParked_sound.trans (modConvoy_sound h _ (by exact sound_convoy h _))
  · exact h

theorem endService_sound (h : s.sound = true) (ci) : (endService s ci).sound = true :=
  noteParked_sound.trans (endConvoy_sound (modConvoy_sound h _ (by exact sound_convoy h _)) _)

theorem terminateParked_sound (h : s.sound = true) : (terminateParked s).sound = true := by
  unfold terminateParked
  split
  · split
    · exact endService_sound h _
    · exact terminateLaunch_sound h ..
  · exact h

theorem execParkctlResume_sound (h : s.sound = true) (q) : soundOut (execParkctlResume q s) = true := by
  unfold execParkctlResume
  split
  · exact h
  · refine runCommand_sound h _ _ _ ?_
    split
    · exact resumeParked_sound h
    · exact h

theorem execParkctlTerminate_sound (h : s.sound = true) (q) : soundOut (execParkctlTerminate q s) = true := by
  unfold execParkctlTerminate
  split
  · exact runCommand_sound h _ _ _ (terminateParked_sound h)
  · exact h

theorem execCommset_sound (h : s.sound = true) (q) : soundOut (execCommset q s) = true := by
  refine runCommand_sound h _ _ _ ?_
  extract_lets
  repeat' split
  all_goals exact h

theorem execCommclr_sound (h : s.sound = true) (q) : soundOut (execCommclr q s) = true := by
  refine runCommand_sound h _ _ _ ?_
  repeat' split
  all_goals exact h

theorem execSvcset_sound (h : s.sound = true) (q) : soundOut (execSvcset q s) = true := by
  refine runCommand_sound h _ _ _ ?_
  split <;> exact h

theorem execWlset_sound (h : s.sound = true) (q) : soundOut (execWlset q s) = true := by
  refine runCommand_sound h _ _ _ ?_
  repeat' split
  all_goals exact h

theorem peerLost_sound (h : s.sound = true) (li) : (peerLost s li).sound = true := (setErr_sound _).trans (terminateLaunch_sound h ..)

theorem losePath_sound (h : s.sound = true) (a) : (losePath s a).sound = true := by
  unfold losePath
  split
  · exact h
  · exact peerLost_sound (by exact h) _

theorem loseCopy_sound (h : s.sound = true) (i) : (loseCopy s i).sound = true := by
  unfold loseCopy
  split
  · split
    · exact peerLost_sound (by exact h) _
    · exact h
  · exact h

theorem loseColl_sound (h : s.sound = true) (i) : (loseColl s i).sound = true := by
  unfold loseColl
  split
  · split
    · exact peerLost_sound ((failColl_sound _).trans (by exact h)) _
    · exact h
  · exact h

theorem loseBuffer_sound (h : s.sound = true) (li) : (loseBuffer s li).sound = true := by
  unfold loseBuffer
  split
  · exact peerLost_sound h li
  · exact h

theorem loseFlights_sound (h : s.sound = true) : (loseFlights s).sound = true :=
  foldl_sound (fun _ i hs => loseBuffer_sound hs i) _
    (foldl_sound (fun _ i hs => loseColl_sound hs i) _ (foldl_sound (fun _ i hs => loseCopy_sound hs i) _ h))

theorem loseOverdue_sound (h : s.sound = true) : (loseOverdue s).sound = true :=
  foldl_sound (fun _ a hs => losePath_sound hs a) _ (loseFlights_sound h)

theorem startWaits_sound (h : s.sound = true) (old : State) : (startWaits old s).sound = true := by
  unfold startWaits
  extract_lets gone wait
  refine noteLostAll_sound.trans ?_
  exact soundParts_mapLaunches h (by intro _; rfl)

theorem changePaths_sound (h : s.sound = true) (f) : (changePaths s f).sound = true :=
  startWaits_sound ((modHub_sound _).trans (loseOverdue_sound h)) _

theorem execDomset_sound (h : s.sound = true) (q) : soundOut (execDomset q s) = true := by
  refine runCommand_sound h _ _ _ ?_
  split
  · exact h
  · split
    · exact h
    · exact changePaths_sound h _

theorem execPwrlim_sound (h : s.sound = true) (q) : soundOut (execPwrlim q s) = true := by
  refine runCommand_sound h _ _ _ ?_
  extract_lets
  split <;> exact h

theorem execFwload_sound (h : s.sound = true) (q) : soundOut (execFwload q s) = true := by
  refine runCommand_sound h _ _ _ ?_
  extract_lets
  repeat' split
  all_goals exact h

theorem execMbcmdUnassigned_sound (h : s.sound = true) (c q) : soundOut (execMbcmdUnassigned c q s) = true := by
  unfold execMbcmdUnassigned
  split
  · exact h
  · exact runCommand_sound h _ _ _ h

/-! ### Checkpoints -/

theorem setCk_sound (h : s.sound = true) (a b : Nat) : (setCk s a b).sound = true := by
  unfold setCk
  extract_lets s1
  split <;> exact h

theorem foldl_memSet_wf {α : Type} (a : α → Nat) (b : α → Byte) : ∀ (xs : List α) {m : Memory}, m.wf = true →
    Memory.wf (xs.foldl (fun acc p => memSet acc (a p) (b p)) m) = true
  | [], _, h => h
  | x :: r, _, h => foldl_memSet_wf a b r (memSet_wf h _ _)

theorem memMove_wf {m : Memory} (h : m.wf = true) (a b n : Nat) : Memory.wf (memMove m a b n) = true :=
  foldl_memSet_wf (fun p : Host.Cell => b + (p.1 - a)) (fun p => p.2) _ (filter_wf h _)

theorem setMem_sound (h : s.sound = true) {m : Memory} (hm : m.wf = true) : ({ s with mem := m } : State).sound = true := by
  have := sound_iff.1 h
  exact soundParts_iff.2 ⟨hm, this.2⟩

theorem execChkpt_sound (h : s.sound = true) (q) : soundOut (execChkpt q s) = true := by
  refine runCommand_sound h _ _ _ ?_
  split
  · exact h
  · split
    · exact h
    · exact setCk_sound ((modHub_sound _).trans h) _ _

theorem beginStream_sound (h : s.sound = true) : (beginStream s).sound = true := by
  unfold beginStream
  split
  · exact h
  · refine setCk_sound ?_ _ _
    generalize padBytes _ _ = bs
    exact hostWrite_sound ((modHub_sound _).trans h) _ _

theorem streamChunk_sound (h : s.sound = true) : (streamChunk s).sound = true := by
  unfold streamChunk
  split
  · exact h
  · refine setCk_sound (setMem_sound h (memWrite_wf _ _ ?_)) _ _
    have hw : ∀ (g : Nat × List Byte → Nat) (ps : List (Nat × List Byte)) {m : Memory}, m.wf = true →
        Memory.wf (ps.foldl (fun m p => memWrite m (g p) p.2) m) = true := by
      intro g ps
      induction ps with
      | nil => exact id
      | cons p r ih => exact fun hm => ih (memWrite_wf _ _ hm)
    exact hw _ _ (memMove_wf (sound_mem h) ..)

theorem captureLine_sound : (captureLine s).sound = s.sound := by
  unfold captureLine; split <;> rfl

theorem endStream_sound (h : s.sound = true) : (endStream s).sound = true := by
  unfold endStream
  split
  · exact setCk_sound ((modHub_sound _).trans (setMem_sound h (memWrite_wf _ _ (sound_mem h)))) _ _
  · exact h

theorem execRestore_sound (h : s.sound = true) (q) : soundOut (execRestore q s) = true := by
  refine runCommand_sound h _ _ _ ?_
  split
  · exact h
  · split
    · exact h
    · exact setCk_sound ((modHub_sound _).trans h) _ _

theorem restoreChunk_sound (h : s.sound = true) : (restoreChunk s).sound = true := by
  unfold restoreChunk
  split
  · refine setCk_sound ?_ _ _
    exact (setMem_sound h (memMove_wf (sound_mem h) ..) :)
  · exact h

theorem endRestore_sound (h : s.sound = true) : (endRestore s).sound = true := by
  unfold endRestore
  split
  · refine setCk_sound ?_ _ _
    split <;> exact h
  · exact h

/-! ### Pre-emption and restore -/

theorem stopConvoy_shaped {c : Convoy} (hc : c.shaped = true) : (stopConvoy c).shaped = true := hc

theorem withdraw_sound (h : s.sound = true) (ci hd) : (withdraw s ci hd).sound = true := by
  unfold withdraw
  extract_lets as drop
  split
  · exact h
  · generalize s.accesses.filter _ = acc
    refine modConvoy_sound (s := { s with accesses := acc }) h ci ?_
    refine foldlConvoy_shaped (fun c x hc => ?_) _ (sound_convoy h ci)
    unfold uncount
    exact (occSet_shaped ..).trans hc

theorem stopBlock_sound (h : s.sound = true) (bi) : (stopBlock s bi).sound = true := by
  unfold stopBlock
  extract_lets s1
  have h1 : s1.sound = true := foldl_sound (fun s ci hs => by
    extract_lets c s0 s2
    have h0 : s0.sound = true := foldl_sound (fun s hd hs => withdraw_sound hs ci hd) _ hs
    have h2 : s2.sound = true := modConvoy_sound h0 _ (stopConvoy_shaped (sound_convoy h0 _))
    split
    · exact (endHandover_sound ..).trans h2
    · exact h2) _ h
  have h2 : ({ s1 with copies := s1.copies.map fun (o : CopyOp) => if o.block == bi && o.phase != CopyPhase.joined then { o with paused := true } else o } : State).sound = true := h1
  exact modBlock_sound h2 _ (by exact sound_block h2 _)

theorem fillRecord_sound (h : s.sound = true) (v) : (fillRecord s v).sound = true := by
  unfold fillRecord
  extract_lets b cs put s1 s2
  have hp : ∀ {s : State} off bs, s.sound = true → (put s off bs).sound = true := fun off bs hs => deviceWriteD_sound hs ..
  exact foldl_sound (fun s p hs => hp _ _ hs) _ (hp _ _ (hp _ _ h))

theorem fillRecords_sound (h : s.sound = true) (ops : List ServiceOp) : (ops.foldl fillRecord s).sound = true :=
  foldl_sound (fun _ v hs => fillRecord_sound hs v) _ h

theorem execPreempt_sound (h : s.sound = true) (q) : soundOut (execPreempt q s) = true := by
  refine runCommand_sound h _ _ _ ?_
  split
  · exact h
  · extract_lets
    split
    · exact h
    · split
      · exact h
      · exact stopBlock_sound (fillRecords_sound h _) _

theorem reserveRoom_sound (h : s.sound = true) (bi core room) : (reserveRoom s bi core room).sound = true := by
  unfold reserveRoom
  extract_lets b s1 s2
  have h1 : s1.sound = true := foldl_sound (fun s p hs => (seatConvoy_sound ..).trans
    (modConvoy_sound hs _ (by have := emptyConvoy_shaped (sound_convoy hs p.1); exact this))) _ h
  have h2 : s2.sound = true := foldl_sound (fun s p hs => (modSlot_sound ..).trans hs) _ h1
  exact noteFull_sound (modBlock_sound h2 _ (by exact sound_block h2 _))

theorem execReinstate_sound (h : s.sound = true) (q) : soundOut (execReinstate q s) = true := by
  refine runCommand_sound h _ _ _ ?_
  extract_lets record core
  split
  · exact h
  · split
    · exact h
    · extract_lets b tandem
      split
      · exact h
      · split
        · exact h
        · split
          · exact h
          · extract_lets s1 ops s2
            have h2 : s2.sound = true := fillRecords_sound (reserveRoom_sound h ..) _
            clear_value s2
            exact h2

theorem dispatchService_sound (h : s.sound = true) (sv) : (dispatchService s sv).sound = true := by
  unfold dispatchService
  split
  · exact h
  · rename_i v _
    split
    · exact h
    · extract_lets bi ci c s2
      have hc : c.shaped = true := newConvoy_shaped ..
      refine (seatConvoy_sound ..).trans ?_
      refine soundParts_addBlock (soundParts_addConvoys h ?_) (by rfl)
      intro x hx
      rw [List.mem_singleton] at hx
      subst hx
      exact (shapedParts_s ..).trans hc

/-! ### Windows -/

@[simp] theorem writeTail_sound (q v) : (writeTail s q v).sound = s.sound := rfl
@[simp] theorem writeQctl_sound (q v) : (writeQctl s q v).sound = s.sound := rfl
@[simp] theorem writeRbase_sound (q v) : (writeRbase s q v).sound = s.sound := rfl
@[simp] theorem writeRoot_sound (q v) : (writeRoot s q v).sound = s.sound := rfl
@[simp] theorem setMigration_sound (i m) : (setMigration s i m).sound = s.sound := rfl
theorem writeMctl_sound (i v) : (writeMctl s i v).sound = s.sound := by
  unfold writeMctl
  extract_lets m
  repeat' split
  all_goals rfl
theorem writeFrame_sound (i d v) : (writeFrame s i d v).sound = s.sound := by
  unfold writeFrame
  extract_lets m
  split <;> rfl
theorem writeMbcmd_sound (v) : (writeMbcmd s v).sound = s.sound := by
  unfold writeMbcmd
  split
  · exact setErr_sound _
  · rfl

theorem ite_sound {p : Prop} [Decidable p] {a b : State} (ha : a.sound = s.sound) (hb : b.sound = s.sound) :
    (if p then a else b).sound = s.sound := by
  split
  · exact ha
  · exact hb

theorem controlWrite8_sound (off : Nat) (half v : W64) : (controlWrite8 s off half v).sound = s.sound := by
  unfold controlWrite8
  extract_lets merged low q i
  refine ite_sound (modHub_sound _) (ite_sound (modHub_sound _) (ite_sound (ite_sound (writeMbcmd_sound _) rfl) (ite_sound (modHub_sound _)
    (ite_sound ?_ (ite_sound (ite_sound (writeRoot_sound ..) rfl) (ite_sound (modHub_sound _) (ite_sound (modHub_sound _) (ite_sound ?_ rfl))))))))
  · split
    · exact writeRbase_sound ..
    · exact ite_sound (writeQctl_sound ..) rfl
    · exact ite_sound (writeTail_sound ..) rfl
    · rfl
  · split
    · exact writeFrame_sound ..
    · exact writeFrame_sound ..
    · exact ite_sound (writeMctl_sound ..) rfl
    · rfl

theorem controlWrite_sound (off size v) : (controlWrite s off size v).sound = s.sound := by
  unfold controlWrite
  refine ite_sound (emit_sound _) (ite_sound rfl (ite_sound (controlWrite8_sound ..) (ite_sound (controlWrite8_sound ..) (controlWrite8_sound ..))))

theorem moveFrame_sound (h : s.sound = true) (src dst n : Nat) : (moveFrame s src dst n).sound = true := by
  unfold moveFrame
  extract_lets moved
  simp only [State.sound, soundParts_iff, List.mem_map, forall_exists_index, and_imp, forall_apply_eq_imp_iff₂] at h ⊢
  refine ⟨h.1, h.2.1, fun l hl => ?_, h.2.2.2⟩
  split
  · exact memWrite_wf _ _ (h.2.2.1 l hl)
  · exact h.2.2.1 l hl

theorem finishMigration_sound (h : s.sound = true) (i) : (finishMigration s i).sound = true := by
  unfold finishMigration
  split
  · exact h
  · extract_lets m n src dst fits
    split
    · exact h
    · exact (setMigration_sound ..).trans (moveFrame_sound (putMem_sound h ..) ..)

@[simp] theorem refuseWindow_sound : (refuseWindow s).sound = s.sound := rfl

theorem windowRead_sound (h : s.sound = true) (off n) : (windowRead s off n).sound = true := by
  unfold windowRead
  split
  · exact (setErr_sound _).trans h
  · exact h
  · exact h
  · split <;> exact h

theorem windowWrite_sound (h : s.sound = true) (off bs) : (windowWrite s off bs).sound = true := by
  unfold windowWrite
  split
  · exact (setErr_sound _).trans h
  · exact h
  · exact h
  · exact soundParts_write h _ _

theorem fetchRecord_sound (h : s.sound = true) (q) : (fetchRecord s q).sound = true := by
  unfold fetchRecord
  split
  · exact h
  · extract_lets x n bs
    exact (enqueueRecord_sound ..).trans ((modQueue_sound ..).trans h)

/-! ### Start -/

theorem supplyGood_sound : (supplyGood s).sound = s.sound := by
  unfold supplyGood; split <;> rfl

theorem startRom_sound : (startRom s).sound = s.sound := by
  unfold startRom
  extract_lets s1
  have h1 : s1.sound = s.sound := supplyGood_sound
  split
  · exact h1
  · simpa only [List.foldl_cons, List.foldl_nil, setReady_sound, measure_sound, modHub_sound] using h1

theorem tryFlash_sound (n : Nat) : (tryFlash s n).1.sound = s.sound := rfl
theorem runFirmware_sound (n : Nat) : (runFirmware s n).sound = s.sound := rfl

theorem measureFirmware_sound : (measureFirmware s).sound = s.sound := by
  unfold measureFirmware
  split
  · rfl
  · extract_lets a
    have h1 : (tryFlash s a).1.sound = s.sound := tryFlash_sound _
    generalize tryFlash s a = x at h1
    obtain ⟨s1, ok⟩ := x
    dsimp only at h1 ⊢
    split
    · exact (runFirmware_sound _).trans h1
    · have h2 : (tryFlash s1 (1 - a)).1.sound = s1.sound := tryFlash_sound _
      generalize tryFlash s1 (1 - a) = y at h2
      obtain ⟨s2, ok2⟩ := y
      dsimp only at h2 ⊢
      split
      · exact (runFirmware_sound _).trans (h2.trans h1)
      · exact (failStage_sound ..).trans (h2.trans h1)

theorem runStage_sound (h : s.sound = true) (a b c f) {g : State → State} (hg : (g s).sound = true) : (runStage s a b c f g).sound = true := by
  unfold runStage
  split
  · exact h
  · split
    · exact (failStage_sound ..).trans h
    · exact (setReady_sound _).trans hg

theorem clearMemory_sound (h : s.sound = true) : (clearMemory s).sound = true := soundParts_filter h _

theorem stageE_sound (h : s.sound = true) (f) : (stageE s f).sound = true := by
  unfold stageE
  split
  · exact h
  · split
    · exact h
    · exact runStage_sound h _ _ _ _ h

theorem missDeadline_sound (h : s.sound = true) : (missDeadline s).sound = true := by
  unfold missDeadline
  split
  · exact (failStage_sound ..).trans h
  · exact h

theorem losePower_sound (h : s.sound = true) : (losePower s).sound = true := by
  have hm := filter_wf (sound_mem h) fun p => !paIsLocal p.1
  have h0 : State.reset.sound = true := rfl
  exact setMem_sound h0 hm

theorem strikeCell_sound (h : s.sound = true) (ci x) : (strikeCell s ci x).sound = true := by
  unfold strikeCell
  extract_lets c same total rest kept
  have hc : c.shaped = true := sound_convoy h ci
  have hk : kept.shaped = true := hc
  split
  · split
    · exact setConvoy_sound h _ ((writeV_shaped ..).trans hc)
    · exact setConvoy_sound h _ hk
  · exact setConvoy_sound h _ hk

theorem countError_sound (n : Nat) : (countError s n).sound = s.sound := by
  unfold countError
  extract_lets s1
  split
  · exact setErr_sound _
  · rfl

theorem strike_sound (h : s.sound = true) : (strike s).sound = true := by
  unfold strike
  split
  · exact h
  · rename_i u r _
    extract_lets s1
    have h1 : s1.sound = true := h
    split
    · split
      · exact h1
      · exact strikeCell_sound h1 ..
    · exact modLs_sound h1 _ _ fun l hl => hl
    · exact h1
    · split
      · exact (countError_sound _).trans h1
      · exact h1
    · exact h1
    · exact (countError_sound _).trans h1

theorem loadMicrocode_sound : (loadMicrocode s).sound = s.sound := by
  unfold loadMicrocode
  split
  · exact (modHub_sound _).trans (measure_sound ..)
  · rfl

/-! ### Events -/

theorem raiseLivelock_sound (h : s.sound = true) (core hh) : (raiseLivelock s core hh).sound = true := by
  unfold raiseLivelock
  split
  · exact h
  · split
    · exact h
    · extract_lets act
      split
      · exact h
      · exact (clearWatchdog_sound ..).trans (foldl_sound (fun s p hs => enterTrap_sound hs ..) _ h)

theorem startHandover_sound (h : s.sound = true) (core hh) : (startHandover s core hh).sound = true := by
  unfold startHandover
  split
  · exact h
  · split <;> exact h

theorem onAccess_sound (h : s.sound = true) (id) {k : Access → State} (hk : ∀ a, (k a).sound = true) : (onAccess s id k).sound = true := by
  unfold onAccess
  split
  · exact hk _
  · exact h

theorem peerAccess_sound (h : s.sound = true) (r) : (peerAccess s r).sound = true := by
  unfold peerAccess
  extract_lets n bad
  split
  · exact h
  · split
    · exact h
    · split
      · exact h
      · exact (emit_sound _).trans (soundParts_write h _ _)
      · split
        · exact h
        · split
          exact (emit_sound _).trans (soundParts_write h _ _)

/-! ### Moves -/

theorem countCycle_sound (k) : (countCycle s k).sound = s.sound := rfl

theorem passCycle_sound (h : s.sound = true) : (passCycle s).sound = true :=
  foldl_sound (fun s k hs => (countCycle_sound k).trans hs) _ h

theorem storeOutside_sound (h : s.sound = true) : (storeOutside s).sound = true := by
  unfold storeOutside
  split
  · exact h
  · split
    · exact soundParts_write h _ _
    · exact h

theorem quietMove_sound (h : s.sound = true) (m : Move) : (quietMove s m).sound = true := by
  cases m
  case copyStart => exact (copyStart_sound _).trans h
  case copyRead => exact copyRead_sound h _
  case copyReadAhead => exact copyReadAhead_sound h _
  case copyWrite => exact copyWrite_sound h ..
  case copyPerform => exact copyPerform_sound h ..
  case copyRetry => exact (copyRetry_sound ..).trans h
  case matStep => exact matStep_sound h _
  case collStart => exact (collStart_sound _).trans h
  case collRead => exact collRead_sound h _
  case collDeliver => exact collDeliver_sound h _
  case collPerform => exact collPerform_sound h ..
  case collRetry => exact (collRetry_sound ..).trans h
  case endReduce => exact (endReduce_sound _).trans h
  case loseFlights => exact loseFlights_sound h
  case drainPosted => exact drainPosted_sound h
  case scanList => exact scanList_sound h
  case crossing => exact finishCrossing_sound h _
  case streamChunk => exact streamChunk_sound h
  case captureLine => exact captureLine_sound.trans h
  case restoreChunk => exact restoreChunk_sound h
  case loadMicrocode => exact loadMicrocode_sound.trans h
  case outsideStore => exact storeOutside_sound h
  case strike => exact strike_sound h
  case barFree => exact releaseHolds_sound (passObject_sound h ..) ..
  case cycle => exact passCycle_sound h
  all_goals exact h

/-! ### The issue of a word -/

theorem dropHandover_sound (core h : Nat) : (dropHandover s core h).sound = s.sound := by
  unfold dropHandover
  split
  · split <;> rfl
  · rfl

theorem keepCurrent_sound (core h : Nat) : (keepCurrent s core h).sound = s.sound := by
  unfold keepCurrent
  repeat' split
  all_goals rfl

theorem beginIssue_sound (core h : Nat) : (beginIssue s core h).sound = s.sound := by
  unfold beginIssue
  extract_lets s1
  have h1 : s1.sound = s.sound := dropHandover_sound ..
  split
  · exact h1
  · extract_lets top s2
    have h2 : s2.sound = s.sound := h1
    exact (modCore_sound ..).trans ((keepCurrent_sound ..).trans h2)

theorem cleanIssue_sound (core h : Nat) : (cleanIssue s core h).sound = s.sound := by
  unfold cleanIssue
  split
  · rfl
  · extract_lets todo s1
    split
    · exact endIssue_sound ..
    · rfl

theorem beginRetest_sound (h : s.sound = true) (ci hd i) : (beginRetest s ci hd i).sound = true :=
  (modSlot_sound ..).trans (setConvoy_sound h _ (by exact sound_convoy h _))

theorem execIllegal_sound (h : s.sound = true) (w) : soundOut (execIllegal w s) = true := runWord_sound h _ fun _ _ _ => h

theorem execFetchFault_sound (h : s.sound = true) (c) : soundOut (execFetchFault c s) = true := by
  unfold execFetchFault
  split
  · rfl
  · split
    · exact h
    · exact takeTrap_sound h ..

end Sys2Proof.Machine
end

