-- ==== Sys2Proof/Laws/SoundStep.lean ====
section
/-! SUPPORT. Each meaning keeps the invariant and, with an issue in focus, goes on; a fetch leaves all but the A and D bits of leaves alone; the moves of a state hold no instruction word. -/

namespace Sys2Proof.Machine

variable {s : State}

theorem exec_sound (h : s.sound = true) (i : Instr) : soundOut (exec i s) = true := by
  cases i with
  | nop => exact execNop_sound h _
  | bra => exact execBra_sound h _
  | jmpt => exact execJmpt_sound h _
  | call => exact execCall_sound h _
  | callt => exact execCallt_sound h _
  | ret => exact execRet_sound h _
  | lpad => exact execLpad_sound h _
  | loop => exact execLoop_sound h _
  | loopbrk => exact execLoopbrk_sound h _
  | exit => exact execExit_sound h _
  | yield => exact execYield_sound h _
  | trap => exact execTrap_sound h _
  | brk => exact execBrk_sound h _
  | eret => exact execEret_sound h _
  | park => exact execPark_sound h _
  | mov => exact execMov_sound h _
  | mat => exact execMat_sound h _
  | aff => exact execAff_sound h _
  | dem => exact execDem_sound h _
  | dema => exact execDema_sound h _
  | movpc => exact execMovpc_sound h _
  | elect => exact execElect_sound h _
  | vote => exact execVote_sound h _
  | kset => exact execKset_sound h _
  | kop => exact execKop_sound h _
  | iadd => exact execIadd_sound h _
  | isub => exact execIsub_sound h _
  | iand => exact execIand_sound h _
  | ior => exact execIor_sound h _
  | ixor => exact execIxor_sound h _
  | imin => exact execImin_sound h _
  | imax => exact execImax_sound h _
  | imul => exact execImul_sound h _
  | imulh => exact execImulh_sound h _
  | imad => exact execImad_sound h _
  | ishl => exact execIshl_sound h _
  | ishr => exact execIshr_sound h _
  | isar => exact execIsar_sound h _
  | icmp => exact execIcmp_sound h _
  | sel => exact execSel_sound h _
  | popc => exact execPopc_sound h _
  | clz => exact execClz_sound h _
  | brev => exact execBrev_sound h _
  | bfe => exact execBfe_sound h _
  | bfi => exact execBfi_sound h _
  | lea => exact execLea_sound h _
  | idot4 => exact execIdot4_sound h _
  | movi => exact execMovi_sound h _
  | iaddi => exact execIaddi_sound h _
  | iandi => exact execIandi_sound h _
  | iori => exact execIori_sound h _
  | ixori => exact execIxori_sound h _
  | icmpi => exact execIcmpi_sound h _
  | fmovi => exact execFmovi_sound h _
  | pairWord => exact execPairWord_sound h _
  | fadd => exact execFadd_sound h _
  | fsub => exact execFsub_sound h _
  | fmul => exact execFmul_sound h _
  | ffma => exact execFfma_sound h _
  | fmin => exact execFmin_sound h _
  | fmax => exact execFmax_sound h _
  | fcmp => exact execFcmp_sound h _
  | frcp => exact execFrcp_sound h _
  | frsq => exact execFrsq_sound h _
  | fsqrt => exact execFsqrt_sound h _
  | fexp2 => exact execFexp2_sound h _
  | flog2 => exact execFlog2_sound h _
  | fsin => exact execFsin_sound h _
  | fcos => exact execFcos_sound h _
  | ftanh => exact execFtanh_sound h _
  | fdiv => exact execFdiv_sound h _
  | frnd => exact execFrnd_sound h _
  | f2i => exact execF2i_sound h _
  | i2f => exact execI2f_sound h _
  | fcvt => exact execFcvt_sound h _
  | hadd2 => exact execHadd2_sound h _
  | hmul2 => exact execHmul2_sound h _
  | hfma2 => exact execHfma2_sound h _
  | fclass => exact execFclass_sound h _
  | cvt8 => exact execCvt8_sound h _
  | cvt4 => exact execCvt4_sound h _
  | xpand => exact execXpand_sound h _
  | unpk8 => exact execUnpk8_sound h _
  | mxdot => exact execMxdot_sound h _
  | scdec => exact execScdec_sound h _
  | scenc => exact execScenc_sound h _
  | srnd => exact execSrnd_sound h _
  | shfl => exact execShfl_sound h _
  | cmpx => exact execCmpx_sound h _
  | scan => exact execScan_sound h _
  | ired => exact execIred_sound h _
  | redmaxi => exact execRedmaxi_sound h _
  | matchLanes => exact execMatchLanes_sound h _
  | minit => exact execMinit_sound h _
  | mupd => exact execMupd_sound h _
  | mmrg => exact execMmrg_sound h _
  | mred => exact execMred_sound h _
  | mdrain => exact execMdrain_sound h _
  | mnorm => exact execMnorm_sound h _
  | mld => exact execMld_sound h _
  | mst => exact execMst_sound h _
  | mdecay => exact execMdecay_sound h _
  | ld => exact execLd_sound h _
  | ldl => exact execLdl_sound h _
  | st => exact execSt_sound h _
  | stl => exact execStl_sound h _
  | atom => exact execAtom_sound h _
  | atoml => exact execAtoml_sound h _
  | fence => exact execFence_sound h _
  | mwait => exact execMwait_sound h _
  | mwaitReread => exact execMwaitReread_sound h _
  | waitstamp => exact execWaitstamp_sound h _
  | pref => exact execPref_sound h _
  | barinit => exact execBarinit_sound h _
  | bar => exact execBar_sound h _
  | bararv => exact execBararv_sound h _
  | barwt => exact execBarwt_sound h _
  | barl => exact execBarl_sound h _
  | cross => exact execCross_sound h _
  | waitev => exact execWaitev_sound h _
  | setev => exact execSetev_sound h _
  | launch => exact execLaunch_sound h _
  | launchQueueEntry => exact execLaunchQueueEntry_sound h _
  | rsig => exact execRsig_sound h _
  | rwait => exact execRwait_sound h _
  | ordrd => exact execOrdrd_sound h _
  | ordwr => exact execOrdwr_sound h _
  | itq => exact execItq_sound h _
  | rand => exact execRand_sound h _
  | mile => exact execMile_sound h _
  | copy => exact execCopy_sound h _
  | copyp => exact execCopyp_sound h _
  | copym => exact execCopym_sound h _
  | slotfree => exact execSlotfree_sound h _
  | bccr => exact execBccr_sound h _
  | coll => exact execColl_sound h _
  | mma => exact execMma_sound h _
  | mmas => exact execMmas_sound h _
  | azero => exact execAzero_sound h _
  | accld => exact execAccld_sound h _
  | accst => exact execAccst_sound h _
  | accstat => exact execAccstat_sound h _
  | csrr => exact execCsrr_sound h _
  | csrw => exact execCsrw_sound h _
  | killCsrWrite => exact execKillCsrWrite_sound h _
  | wdctlWrite => exact execWdctlWrite_sound h _
  | perfselWrite => exact execPerfselWrite_sound h _
  | perfr => exact execPerfr_sound h _
  | tlbinv => exact execTlbinv_sound h _
  | ctxsv => exact execCtxsv_sound h _
  | ctxld => exact execCtxld_sound h _
  | cacheop => exact execCacheop_sound h _
  | fairnessTimerExpiry => exact startHandover_sound h ..
  | livelock => exact raiseLivelock_sound h ..
  | writeAcknowledgement => exact onAccess_sound h _ (acknowledge_sound h)
  | retry => exact onAccess_sound h _ (retryAccess_sound h)
  | peerRequest => exact peerAccess_sound h _
  | copyEnd => exact copyEndOp_sound h _
  | copyTranslationFault => exact copyFaultOp_sound h _
  | engineFaultRecord => exact writeFaultRecord_sound h
  | faultActionResume => exact copyActOn_sound h ..
  | faultActionAbort => exact copyActOn_sound h ..
  | matrixOperationEnd => exact matEnd_sound h _
  | avenueChunkReceive => exact (receiveChunk_sound _).trans h
  | reduceBlockDispatch => exact (dispatchReduce_sound ..).trans h
  | collectiveEnd => exact collEnd_sound h _
  | portDown => exact (setErr_sound _).trans (changePaths_sound h _)
  | peerPathTimeout => exact onAccess_sound h _ (losePath_sound h)
  | ringRecordFetch => exact fetchRecord_sound h _
  | launchAdmission => exact admitHead_sound h _
  | blockPlacement => exact placeBlock_sound h _
  | blockRelease => exact releaseBlock_sound h _
  | launchCompletion => exact completeLaunch_sound h _
  | serviceBlockDispatch => exact dispatchService_sound h _
  | migrationArm => exact (ite_sound (writeMctl_sound ..) rfl).trans h
  | migrationCopyDone => exact finishMigration_sound h _
  | migrationDisarm => exact (ite_sound (writeMctl_sound ..) rfl).trans h
  | tail => exact (ite_sound (writeTail_sound ..) rfl).trans h
  | qctl => exact (ite_sound (writeQctl_sound ..) rfl).trans h
  | controlRegisterWrite => exact (controlWrite_sound ..).trans h
  | memoryWindowRead => exact windowRead_sound h ..
  | memoryWindowWrite => exact windowWrite_sound h ..
  | summary => exact execSummary_sound h _
  | attest => exact execAttest_sound h _
  | peerAttestResponse => exact peerAnswer_sound h _
  | chkpt => exact execChkpt_sound h _
  | checkpointQuiesced => exact beginStream_sound h
  | checkpointStreamEnd => exact endStream_sound h
  | restore => exact execRestore_sound h _
  | restoreEnd => exact endRestore_sound h
  | evset => exact execEvset_sound h _
  | evclr => exact execEvclr_sound h _
  | kill => exact execKill_sound h _
  | parkctlResume => exact execParkctlResume_sound h _
  | parkctlTerminate => exact execParkctlTerminate_sound h _
  | commset => exact execCommset_sound h _
  | commclr => exact execCommclr_sound h _
  | svcset => exact execSvcset_sound h _
  | wlset => exact execWlset_sound h _
  | domset => exact execDomset_sound h _
  | pwrlim => exact execPwrlim_sound h _
  | fwload => exact execFwload_sound h _
  | preempt => exact execPreempt_sound h _
  | reinstate => exact execReinstate_sound h _
  | mbcmdUnassigned => exact execMbcmdUnassigned_sound h _ _
  | powerGood => exact startRom_sound.trans h
  | firmwareMeasure => exact measureFirmware_sound.trans h
  | stageB => exact runStage_sound h _ _ _ _ h
  | stageC => exact runStage_sound h _ _ _ _ (clearMemory_sound h)
  | stageD => exact runStage_sound h _ _ _ _ h
  | stageE => exact stageE_sound h _
  | stageDeadlineExpiry => exact missDeadline_sound h
  | thermalThrottle => exact (setErr_sound _).trans h
  | thermalTrip => exact (setErr_sound _).trans h
  | linkDegrade => exact (setErr_sound _).trans h
  | homeAccessPerform => exact onAccess_sound h _ fun a => (by show State.sound (if _ then _ else _) = true; split; exact performGroup_sound h _; exact h)
  | readResponse => exact onAccess_sound h _ (returnRead_sound h)
  | peerAttestRequest => exact h
  | avenuePortUp => exact changePaths_sound h _
  | hostLinkRestore => exact (clearErr_sound _).trans h
  | thermalThrottleEnd => exact (clearErr_sound _).trans h
  | powerCapEngage => exact (setErr_sound _).trans h
  | powerCapRelease => exact (clearErr_sound _).trans h
  | powerLoss => exact losePower_sound h

/-- Does an outcome go on? -/
def goes : Host.Outcome State Fault Refusal → Bool
  | .next _ => true
  | _ => false


theorem runWord_goes {f : Focus} (hf : s.focus = some f) (i : WordInfo) (body : Focus → Convoy → Mask → Res) : goes (runWord i s body) = true := by
  unfold runWord
  rw [hf]
  dsimp only
  split
  · rfl
  · rfl
  · rfl
  · split <;> rfl

theorem stepTo_goes (t : State) : goes (stepTo t) = true := rfl
theorem runCommand_goes (code q need) (body : State → CmdRes) : goes (runCommand s code q need body) = true := rfl

theorem ite_goes {p : Prop} [Decidable p] {a b : Host.Outcome State Fault Refusal} (ha : goes a = true) (hb : goes b = true) : goes (if p then a else b) = true := by
  split
  · exact ha
  · exact hb

theorem runIntAff_goes {f : Focus} (hf : s.focus = some f) (w : FWord) (legal : Bool) (v : Nat) (op : IntOp) (stride : Affine → Affine → Int) : goes (runIntAff w legal v s op stride) = true := by
  unfold runIntAff
  first | exact runWord_goes hf .. | (extract_lets; exact runWord_goes hf ..)

theorem runInt_goes {f : Focus} (hf : s.focus = some f) (w : FWord) (legal : Bool) (v other : Nat) (op : IntOp) : goes (runInt w legal v other s op) = true := by
  unfold runInt
  first | exact runWord_goes hf .. | (extract_lets; exact runWord_goes hf ..)

theorem runCount_goes {f : Focus} (hf : s.focus = some f) (w : FWord) (f32 : W32 → Nat) (f64 : W64 → Nat) : goes (runCount w s f32 f64) = true := by
  unfold runCount
  first | exact runWord_goes hf .. | (extract_lets; exact runWord_goes hf ..)

theorem runImm_goes {f : Focus} (hf : s.focus = some f) (w : IWord) (op : IntOp) : goes (runImm w s op) = true := by
  unfold runImm
  first | exact runWord_goes hf .. | (extract_lets; exact runWord_goes hf ..)

theorem runValue_goes {f : Focus} (hf : s.focus = some f) (i : WordInfo) (d : Opnd) (val : Convoy → Nat → W32 × FlagSet) : goes (runValue i d s val) = true := by
  unfold runValue
  first | exact runWord_goes hf .. | (extract_lets; exact runWord_goes hf ..)

theorem runFp_goes {f : Focus} (hf : s.focus = some f) (w : FWord) (legal : Bool) (lat : Nat) (val : Convoy → Nat → W32 × FlagSet) : goes (runFp w legal lat s val) = true := by
  unfold runFp
  first | exact runValue_goes hf .. | (extract_lets; exact runValue_goes hf ..)

theorem runMask_goes {f : Focus} (hf : s.focus = some f) (i : WordInfo) (d : Opnd) (val : Convoy → Mask → Nat → Bool × FlagSet) : goes (runMask i d s val) = true := by
  unfold runMask
  first | exact runWord_goes hf .. | (extract_lets; exact runWord_goes hf ..)

theorem runTransc_goes {f : Focus} (hf : s.focus = some f) (w : FWord) (fn : Nat → Nat × FlagSet) : goes (runTransc w s fn) = true := by
  unfold runTransc
  first | exact runFp_goes hf .. | (extract_lets; exact runFp_goes hf ..)

theorem runMoment_goes {f : Focus} (hf : s.focus = some f) (i : WordInfo) (d : Opnd) (val : Convoy → Nat → Moment × FlagSet) : goes (runMoment i d s val) = true := by
  unfold runMoment
  first | exact runWord_goes hf .. | (extract_lets; exact runWord_goes hf ..)

theorem runBarrier_goes {f : Focus} (hf : s.focus = some f) (i : WordInfo) (w : FWord) (body : State → Focus → Convoy → Mask → Nat → W64 → BitVec 16 → Res) : goes (runBarrier i w s body) = true := by
  unfold runBarrier
  first | exact runWord_goes hf .. | (extract_lets; exact runWord_goes hf ..)

theorem runArrival_goes {f : Focus} (hf : s.focus = some f) (i : WordInfo) (w : FWord) (after : State → Focus → Convoy → Mask → Nat → Bool → BitVec 16 → Res) : goes (runArrival i w s after) = true := by
  unfold runArrival
  first | exact runBarrier_goes hf .. | (extract_lets; exact runBarrier_goes hf ..)

theorem runReverse_goes {f : Focus} (hf : s.focus = some f) (i : WordInfo) (ins : Instr) (w : FWord) (size : Nat) (reads write : Bool) (body : State → Focus → Convoy → Mask → List Actor → BitVec 12 → Res) : goes (runReverse i ins w size reads write s body) = true := by
  unfold runReverse
  first | exact runWord_goes hf .. | (extract_lets; exact runWord_goes hf ..)

theorem runFork_goes {f : Focus} (hf : s.focus = some f) (i : WordInfo) (body : Focus → Convoy → Mask → Res) : goes (runFork i s body) = true := by
  unfold runFork
  first | exact runWord_goes hf .. | (extract_lets; exact runWord_goes hf ..)

theorem runCsrw_goes {f : Focus} (hf : s.focus = some f) (w : FWord) (legal : Bool) (body : Focus → Convoy → W64 → Res) : goes (runCsrw w legal s body) = true := by
  unfold runCsrw
  first | exact runWord_goes hf .. | (extract_lets; exact runWord_goes hf ..)

theorem runContext_goes {f : Focus} (hf : s.focus = some f) (w : FWord) (legal : Bool) (body : Focus → Convoy → Mask → Nat → W64 → Res) : goes (runContext w legal s body) = true := by
  unfold runContext
  first | exact runWord_goes hf .. | (extract_lets; exact runWord_goes hf ..)

theorem execNop_goes (hf : ∃ f, s.focus = some f) a0 : goes (execNop a0 s) = true := by
  obtain ⟨f, hf⟩ := hf
  unfold execNop
  first | exact runWord_goes hf .. | (extract_lets; exact runWord_goes hf ..)
theorem execBra_goes (hf : ∃ f, s.focus = some f) a0 : goes (execBra a0 s) = true := by
  obtain ⟨f, hf⟩ := hf
  unfold execBra
  first | exact runWord_goes hf .. | (extract_lets; exact runWord_goes hf ..)
theorem execJmpt_goes (hf : ∃ f, s.focus = some f) a0 : goes (execJmpt a0 s) = true := by
  obtain ⟨f, hf⟩ := hf
  unfold execJmpt
  first | exact runWord_goes hf .. | (extract_lets; exact runWord_goes hf ..)
theorem execCall_goes (hf : ∃ f, s.focus = some f) a0 : goes (execCall a0 s) = true := by
  obtain ⟨f, hf⟩ := hf
  unfold execCall
  first | exact runWord_goes hf .. | (extract_lets; exact runWord_goes hf ..)
theorem execCallt_goes (hf : ∃ f, s.focus = some f) a0 : goes (execCallt a0 s) = true := by
  obtain ⟨f, hf⟩ := hf
  unfold execCallt
  first | exact runWord_goes hf .. | (extract_lets; exact runWord_goes hf ..)
theorem execRet_goes (hf : ∃ f, s.focus = some f) a0 : goes (execRet a0 s) = true := by
  obtain ⟨f, hf⟩ := hf
  unfold execRet
  first | exact runWord_goes hf .. | (extract_lets; exact runWord_goes hf ..)
theorem execLpad_goes (hf : ∃ f, s.focus = some f) a0 : goes (execLpad a0 s) = true := by
  obtain ⟨f, hf⟩ := hf
  unfold execLpad
  first | exact runWord_goes hf .. | (extract_lets; exact runWord_goes hf ..)
theorem execLoop_goes (hf : ∃ f, s.focus = some f) a0 : goes (execLoop a0 s) = true := by
  obtain ⟨f, hf⟩ := hf
  unfold execLoop
  first | exact runWord_goes hf .. | (extract_lets; exact runWord_goes hf ..)
theorem execLoopbrk_goes (hf : ∃ f, s.focus = some f) a0 : goes (execLoopbrk a0 s) = true := by
  obtain ⟨f, hf⟩ := hf
  unfold execLoopbrk
  first | exact runWord_goes hf .. | (extract_lets; exact runWord_goes hf ..)
theorem execExit_goes (hf : ∃ f, s.focus = some f) a0 : goes (execExit a0 s) = true := by
  obtain ⟨f, hf⟩ := hf
  unfold execExit
  first | exact runWord_goes hf .. | (extract_lets; exact runWord_goes hf ..)
theorem execYield_goes (hf : ∃ f, s.focus = some f) a0 : goes (execYield a0 s) = true := by
  obtain ⟨f, hf⟩ := hf
  unfold execYield
  first | exact runWord_goes hf .. | (extract_lets; exact runWord_goes hf ..)
theorem execTrap_goes (hf : ∃ f, s.focus = some f) a0 : goes (execTrap a0 s) = true := by
  obtain ⟨f, hf⟩ := hf
  unfold execTrap
  first | exact runWord_goes hf .. | (extract_lets; exact runWord_goes hf ..)
theorem execBrk_goes (hf : ∃ f, s.focus = some f) a0 : goes (execBrk a0 s) = true := by
  obtain ⟨f, hf⟩ := hf
  unfold execBrk
  first | exact runWord_goes hf .. | (extract_lets; exact runWord_goes hf ..)
theorem execEret_goes (hf : ∃ f, s.focus = some f) a0 : goes (execEret a0 s) = true := by
  obtain ⟨f, hf⟩ := hf
  unfold execEret
  first | exact runWord_goes hf .. | (extract_lets; exact runWord_goes hf ..)
theorem execPark_goes (hf : ∃ f, s.focus = some f) a0 : goes (execPark a0 s) = true := by
  obtain ⟨f, hf⟩ := hf
  unfold execPark
  first | exact runWord_goes hf .. | (extract_lets; exact runWord_goes hf ..)
theorem execMov_goes (hf : ∃ f, s.focus = some f) a0 : goes (execMov a0 s) = true := by
  obtain ⟨f, hf⟩ := hf
  unfold execMov
  first | exact runWord_goes hf .. | (extract_lets; exact runWord_goes hf ..)
theorem execMat_goes (hf : ∃ f, s.focus = some f) a0 : goes (execMat a0 s) = true := by
  obtain ⟨f, hf⟩ := hf
  unfold execMat
  first | exact runWord_goes hf .. | (extract_lets; exact runWord_goes hf ..)
theorem execAff_goes (hf : ∃ f, s.focus = some f) a0 : goes (execAff a0 s) = true := by
  obtain ⟨f, hf⟩ := hf
  unfold execAff
  first | exact runWord_goes hf .. | (extract_lets; exact runWord_goes hf ..)
theorem execDem_goes (hf : ∃ f, s.focus = some f) a0 : goes (execDem a0 s) = true := by
  obtain ⟨f, hf⟩ := hf
  unfold execDem
  first | exact runWord_goes hf .. | (extract_lets; exact runWord_goes hf ..)
theorem execDema_goes (hf : ∃ f, s.focus = some f) a0 : goes (execDema a0 s) = true := by
  obtain ⟨f, hf⟩ := hf
  unfold execDema
  first | exact runWord_goes hf .. | (extract_lets; exact runWord_goes hf ..)
theorem execMovpc_goes (hf : ∃ f, s.focus = some f) a0 : goes (execMovpc a0 s) = true := by
  obtain ⟨f, hf⟩ := hf
  unfold execMovpc
  first | exact runWord_goes hf .. | (extract_lets; exact runWord_goes hf ..)
theorem execElect_goes (hf : ∃ f, s.focus = some f) a0 : goes (execElect a0 s) = true := by
  obtain ⟨f, hf⟩ := hf
  unfold execElect
  first | exact runWord_goes hf .. | (extract_lets; exact runWord_goes hf ..)
theorem execVote_goes (hf : ∃ f, s.focus = some f) a0 : goes (execVote a0 s) = true := by
  obtain ⟨f, hf⟩ := hf
  unfold execVote
  first | exact runWord_goes hf .. | (extract_lets; exact runWord_goes hf ..)
theorem execKset_goes (hf : ∃ f, s.focus = some f) a0 : goes (execKset a0 s) = true := by
  obtain ⟨f, hf⟩ := hf
  unfold execKset
  first | exact runWord_goes hf .. | (extract_lets; exact runWord_goes hf ..)
theorem execKop_goes (hf : ∃ f, s.focus = some f) a0 : goes (execKop a0 s) = true := by
  obtain ⟨f, hf⟩ := hf
  unfold execKop
  first | exact runWord_goes hf .. | (extract_lets; exact runWord_goes hf ..)
theorem execIadd_goes (hf : ∃ f, s.focus = some f) a0 : goes (execIadd a0 s) = true := by
  obtain ⟨f, hf⟩ := hf
  unfold execIadd
  first | exact runIntAff_goes hf .. | (extract_lets; exact runIntAff_goes hf ..)
theorem execIsub_goes (hf : ∃ f, s.focus = some f) a0 : goes (execIsub a0 s) = true := by
  obtain ⟨f, hf⟩ := hf
  unfold execIsub
  first | exact runIntAff_goes hf .. | (extract_lets; exact runIntAff_goes hf ..)
theorem execIand_goes (hf : ∃ f, s.focus = some f) a0 : goes (execIand a0 s) = true := by
  obtain ⟨f, hf⟩ := hf
  unfold execIand
  first | exact runInt_goes hf .. | (extract_lets; exact runInt_goes hf ..)
theorem execIor_goes (hf : ∃ f, s.focus = some f) a0 : goes (execIor a0 s) = true := by
  obtain ⟨f, hf⟩ := hf
  unfold execIor
  first | exact runInt_goes hf .. | (extract_lets; exact runInt_goes hf ..)
theorem execIxor_goes (hf : ∃ f, s.focus = some f) a0 : goes (execIxor a0 s) = true := by
  obtain ⟨f, hf⟩ := hf
  unfold execIxor
  first | exact runInt_goes hf .. | (extract_lets; exact runInt_goes hf ..)
theorem execImin_goes (hf : ∃ f, s.focus = some f) a0 : goes (execImin a0 s) = true := by
  obtain ⟨f, hf⟩ := hf
  unfold execImin
  first | exact runInt_goes hf .. | (extract_lets; exact runInt_goes hf ..)
theorem execImax_goes (hf : ∃ f, s.focus = some f) a0 : goes (execImax a0 s) = true := by
  obtain ⟨f, hf⟩ := hf
  unfold execImax
  first | exact runInt_goes hf .. | (extract_lets; exact runInt_goes hf ..)
theorem execImul_goes (hf : ∃ f, s.focus = some f) a0 : goes (execImul a0 s) = true := by
  obtain ⟨f, hf⟩ := hf
  unfold execImul
  first | exact runIntAff_goes hf .. | (extract_lets; exact runIntAff_goes hf ..)
theorem execImulh_goes (hf : ∃ f, s.focus = some f) a0 : goes (execImulh a0 s) = true := by
  obtain ⟨f, hf⟩ := hf
  unfold execImulh
  first | exact runInt_goes hf .. | (extract_lets; exact runInt_goes hf ..)
theorem execImad_goes (hf : ∃ f, s.focus = some f) a0 : goes (execImad a0 s) = true := by
  obtain ⟨f, hf⟩ := hf
  unfold execImad
  first | exact runWord_goes hf .. | (extract_lets; exact runWord_goes hf ..)
theorem execIshl_goes (hf : ∃ f, s.focus = some f) a0 : goes (execIshl a0 s) = true := by
  obtain ⟨f, hf⟩ := hf
  unfold execIshl
  first | exact runWord_goes hf .. | (extract_lets; exact runWord_goes hf ..)
theorem execIshr_goes (hf : ∃ f, s.focus = some f) a0 : goes (execIshr a0 s) = true := by
  obtain ⟨f, hf⟩ := hf
  unfold execIshr
  first | exact runInt_goes hf .. | (extract_lets; exact runInt_goes hf ..)
theorem execIsar_goes (hf : ∃ f, s.focus = some f) a0 : goes (execIsar a0 s) = true := by
  obtain ⟨f, hf⟩ := hf
  unfold execIsar
  first | exact runInt_goes hf .. | (extract_lets; exact runInt_goes hf ..)
theorem execIcmp_goes (hf : ∃ f, s.focus = some f) a0 : goes (execIcmp a0 s) = true := by
  obtain ⟨f, hf⟩ := hf
  unfold execIcmp
  first | exact runWord_goes hf .. | (extract_lets; exact runWord_goes hf ..)
theorem execSel_goes (hf : ∃ f, s.focus = some f) a0 : goes (execSel a0 s) = true := by
  obtain ⟨f, hf⟩ := hf
  unfold execSel
  first | exact runWord_goes hf .. | (extract_lets; exact runWord_goes hf ..)
theorem execPopc_goes (hf : ∃ f, s.focus = some f) a0 : goes (execPopc a0 s) = true := by
  obtain ⟨f, hf⟩ := hf
  unfold execPopc
  first | exact runCount_goes hf .. | (extract_lets; exact runCount_goes hf ..)
theorem execClz_goes (hf : ∃ f, s.focus = some f) a0 : goes (execClz a0 s) = true := by
  obtain ⟨f, hf⟩ := hf
  unfold execClz
  first | exact runCount_goes hf .. | (extract_lets; exact runCount_goes hf ..)
theorem execBrev_goes (hf : ∃ f, s.focus = some f) a0 : goes (execBrev a0 s) = true := by
  obtain ⟨f, hf⟩ := hf
  unfold execBrev
  first | exact runInt_goes hf .. | (extract_lets; exact runInt_goes hf ..)
theorem execBfe_goes (hf : ∃ f, s.focus = some f) a0 : goes (execBfe a0 s) = true := by
  obtain ⟨f, hf⟩ := hf
  unfold execBfe
  first | exact runInt_goes hf .. | (extract_lets; exact runInt_goes hf ..)
theorem execBfi_goes (hf : ∃ f, s.focus = some f) a0 : goes (execBfi a0 s) = true := by
  obtain ⟨f, hf⟩ := hf
  unfold execBfi
  first | exact runWord_goes hf .. | (extract_lets; exact runWord_goes hf ..)
theorem execLea_goes (hf : ∃ f, s.focus = some f) a0 : goes (execLea a0 s) = true := by
  obtain ⟨f, hf⟩ := hf
  unfold execLea
  first | exact runWord_goes hf .. | (extract_lets; exact runWord_goes hf ..)
theorem execIdot4_goes (hf : ∃ f, s.focus = some f) a0 : goes (execIdot4 a0 s) = true := by
  obtain ⟨f, hf⟩ := hf
  unfold execIdot4
  first | exact runWord_goes hf .. | (extract_lets; exact runWord_goes hf ..)
theorem execMovi_goes (hf : ∃ f, s.focus = some f) a0 : goes (execMovi a0 s) = true := by
  obtain ⟨f, hf⟩ := hf
  unfold execMovi
  first | exact runWord_goes hf .. | (extract_lets; exact runWord_goes hf ..)
theorem execIaddi_goes (hf : ∃ f, s.focus = some f) a0 : goes (execIaddi a0 s) = true := by
  obtain ⟨f, hf⟩ := hf
  unfold execIaddi
  first | exact runImm_goes hf .. | (extract_lets; exact runImm_goes hf ..)
theorem execIandi_goes (hf : ∃ f, s.focus = some f) a0 : goes (execIandi a0 s) = true := by
  obtain ⟨f, hf⟩ := hf
  unfold execIandi
  first | exact runImm_goes hf .. | (extract_lets; exact runImm_goes hf ..)
theorem execIori_goes (hf : ∃ f, s.focus = some f) a0 : goes (execIori a0 s) = true := by
  obtain ⟨f, hf⟩ := hf
  unfold execIori
  first | exact runImm_goes hf .. | (extract_lets; exact runImm_goes hf ..)
theorem execIxori_goes (hf : ∃ f, s.focus = some f) a0 : goes (execIxori a0 s) = true := by
  obtain ⟨f, hf⟩ := hf
  unfold execIxori
  first | exact runImm_goes hf .. | (extract_lets; exact runImm_goes hf ..)
theorem execIcmpi_goes (hf : ∃ f, s.focus = some f) a0 : goes (execIcmpi a0 s) = true := by
  obtain ⟨f, hf⟩ := hf
  unfold execIcmpi
  first | exact runWord_goes hf .. | (extract_lets; exact runWord_goes hf ..)
theorem execFmovi_goes (hf : ∃ f, s.focus = some f) a0 : goes (execFmovi a0 s) = true := by
  obtain ⟨f, hf⟩ := hf
  unfold execFmovi
  first | exact runWord_goes hf .. | (extract_lets; exact runWord_goes hf ..)
theorem execPairWord_goes (hf : ∃ f, s.focus = some f) a0 : goes (execPairWord a0 s) = true := by
  obtain ⟨f, hf⟩ := hf
  unfold execPairWord
  first | exact runWord_goes hf .. | (extract_lets; exact runWord_goes hf ..)
theorem execFadd_goes (hf : ∃ f, s.focus = some f) a0 : goes (execFadd a0 s) = true := by
  obtain ⟨f, hf⟩ := hf
  unfold execFadd
  first | exact runFp_goes hf .. | (extract_lets; exact runFp_goes hf ..)
theorem execFsub_goes (hf : ∃ f, s.focus = some f) a0 : goes (execFsub a0 s) = true := by
  obtain ⟨f, hf⟩ := hf
  unfold execFsub
  first | exact runFp_goes hf .. | (extract_lets; exact runFp_goes hf ..)
theorem execFmul_goes (hf : ∃ f, s.focus = some f) a0 : goes (execFmul a0 s) = true := by
  obtain ⟨f, hf⟩ := hf
  unfold execFmul
  first | exact runFp_goes hf .. | (extract_lets; exact runFp_goes hf ..)
theorem execFfma_goes (hf : ∃ f, s.focus = some f) a0 : goes (execFfma a0 s) = true := by
  obtain ⟨f, hf⟩ := hf
  unfold execFfma
  first | exact runFp_goes hf .. | (extract_lets; exact runFp_goes hf ..)
theorem execFmin_goes (hf : ∃ f, s.focus = some f) a0 : goes (execFmin a0 s) = true := by
  obtain ⟨f, hf⟩ := hf
  unfold execFmin
  first | exact runFp_goes hf .. | (extract_lets; exact runFp_goes hf ..)
theorem execFmax_goes (hf : ∃ f, s.focus = some f) a0 : goes (execFmax a0 s) = true := by
  obtain ⟨f, hf⟩ := hf
  unfold execFmax
  first | exact runFp_goes hf .. | (extract_lets; exact runFp_goes hf ..)
theorem execFcmp_goes (hf : ∃ f, s.focus = some f) a0 : goes (execFcmp a0 s) = true := by
  obtain ⟨f, hf⟩ := hf
  unfold execFcmp
  first | exact runMask_goes hf .. | (extract_lets; exact runMask_goes hf ..)
theorem execFrcp_goes (hf : ∃ f, s.focus = some f) a0 : goes (execFrcp a0 s) = true := by
  obtain ⟨f, hf⟩ := hf
  unfold execFrcp
  first | exact runTransc_goes hf .. | (extract_lets; exact runTransc_goes hf ..)
theorem execFrsq_goes (hf : ∃ f, s.focus = some f) a0 : goes (execFrsq a0 s) = true := by
  obtain ⟨f, hf⟩ := hf
  unfold execFrsq
  first | exact runTransc_goes hf .. | (extract_lets; exact runTransc_goes hf ..)
theorem execFsqrt_goes (hf : ∃ f, s.focus = some f) a0 : goes (execFsqrt a0 s) = true := by
  obtain ⟨f, hf⟩ := hf
  unfold execFsqrt
  first | exact runTransc_goes hf .. | (extract_lets; exact runTransc_goes hf ..)
theorem execFexp2_goes (hf : ∃ f, s.focus = some f) a0 : goes (execFexp2 a0 s) = true := by
  obtain ⟨f, hf⟩ := hf
  unfold execFexp2
  first | exact runTransc_goes hf .. | (extract_lets; exact runTransc_goes hf ..)
theorem execFlog2_goes (hf : ∃ f, s.focus = some f) a0 : goes (execFlog2 a0 s) = true := by
  obtain ⟨f, hf⟩ := hf
  unfold execFlog2
  first | exact runTransc_goes hf .. | (extract_lets; exact runTransc_goes hf ..)
theorem execFsin_goes (hf : ∃ f, s.focus = some f) a0 : goes (execFsin a0 s) = true := by
  obtain ⟨f, hf⟩ := hf
  unfold execFsin
  first | exact runTransc_goes hf .. | (extract_lets; exact runTransc_goes hf ..)
theorem execFcos_goes (hf : ∃ f, s.focus = some f) a0 : goes (execFcos a0 s) = true := by
  obtain ⟨f, hf⟩ := hf
  unfold execFcos
  first | exact runTransc_goes hf .. | (extract_lets; exact runTransc_goes hf ..)
theorem execFtanh_goes (hf : ∃ f, s.focus = some f) a0 : goes (execFtanh a0 s) = true := by
  obtain ⟨f, hf⟩ := hf
  unfold execFtanh
  first | exact runTransc_goes hf .. | (extract_lets; exact runTransc_goes hf ..)
theorem execFdiv_goes (hf : ∃ f, s.focus = some f) a0 : goes (execFdiv a0 s) = true := by
  obtain ⟨f, hf⟩ := hf
  unfold execFdiv
  first | exact runFp_goes hf .. | (extract_lets; exact runFp_goes hf ..)
theorem execFrnd_goes (hf : ∃ f, s.focus = some f) a0 : goes (execFrnd a0 s) = true := by
  obtain ⟨f, hf⟩ := hf
  unfold execFrnd
  first | exact runFp_goes hf .. | (extract_lets; exact runFp_goes hf ..)
theorem execF2i_goes (hf : ∃ f, s.focus = some f) a0 : goes (execF2i a0 s) = true := by
  obtain ⟨f, hf⟩ := hf
  unfold execF2i
  first | exact runWord_goes hf .. | (extract_lets; exact runWord_goes hf ..)
theorem execI2f_goes (hf : ∃ f, s.focus = some f) a0 : goes (execI2f a0 s) = true := by
  obtain ⟨f, hf⟩ := hf
  unfold execI2f
  first | exact runValue_goes hf .. | (extract_lets; exact runValue_goes hf ..)
theorem execFcvt_goes (hf : ∃ f, s.focus = some f) a0 : goes (execFcvt a0 s) = true := by
  obtain ⟨f, hf⟩ := hf
  unfold execFcvt
  first | exact runValue_goes hf .. | (extract_lets; exact runValue_goes hf ..)
theorem execHadd2_goes (hf : ∃ f, s.focus = some f) a0 : goes (execHadd2 a0 s) = true := by
  obtain ⟨f, hf⟩ := hf
  unfold execHadd2
  first | exact runFp_goes hf .. | (extract_lets; exact runFp_goes hf ..)
theorem execHmul2_goes (hf : ∃ f, s.focus = some f) a0 : goes (execHmul2 a0 s) = true := by
  obtain ⟨f, hf⟩ := hf
  unfold execHmul2
  first | exact runFp_goes hf .. | (extract_lets; exact runFp_goes hf ..)
theorem execHfma2_goes (hf : ∃ f, s.focus = some f) a0 : goes (execHfma2 a0 s) = true := by
  obtain ⟨f, hf⟩ := hf
  unfold execHfma2
  first | exact runFp_goes hf .. | (extract_lets; exact runFp_goes hf ..)
theorem execFclass_goes (hf : ∃ f, s.focus = some f) a0 : goes (execFclass a0 s) = true := by
  obtain ⟨f, hf⟩ := hf
  unfold execFclass
  exact runValue_goes hf ..
theorem execCvt8_goes (hf : ∃ f, s.focus = some f) a0 : goes (execCvt8 a0 s) = true := by
  obtain ⟨f, hf⟩ := hf
  unfold execCvt8
  first | exact runValue_goes hf .. | (extract_lets; exact runValue_goes hf ..)
theorem execCvt4_goes (hf : ∃ f, s.focus = some f) a0 : goes (execCvt4 a0 s) = true := by
  obtain ⟨f, hf⟩ := hf
  unfold execCvt4
  first | exact runWord_goes hf .. | (extract_lets; exact runWord_goes hf ..)
theorem execXpand_goes (hf : ∃ f, s.focus = some f) a0 : goes (execXpand a0 s) = true := by
  obtain ⟨f, hf⟩ := hf
  unfold execXpand
  first | exact runValue_goes hf .. | (extract_lets; exact runValue_goes hf ..)
theorem execUnpk8_goes (hf : ∃ f, s.focus = some f) a0 : goes (execUnpk8 a0 s) = true := by
  obtain ⟨f, hf⟩ := hf
  unfold execUnpk8
  first | exact runValue_goes hf .. | (extract_lets; exact runValue_goes hf ..)
theorem execMxdot_goes (hf : ∃ f, s.focus = some f) a0 : goes (execMxdot a0 s) = true := by
  obtain ⟨f, hf⟩ := hf
  unfold execMxdot
  first | exact runValue_goes hf .. | (extract_lets; exact runValue_goes hf ..)
theorem execScdec_goes (hf : ∃ f, s.focus = some f) a0 : goes (execScdec a0 s) = true := by
  obtain ⟨f, hf⟩ := hf
  unfold execScdec
  first | exact runWord_goes hf .. | (extract_lets; exact runWord_goes hf ..)
theorem execScenc_goes (hf : ∃ f, s.focus = some f) a0 : goes (execScenc a0 s) = true := by
  obtain ⟨f, hf⟩ := hf
  unfold execScenc
  first | exact runWord_goes hf .. | (extract_lets; exact runWord_goes hf ..)
theorem execSrnd_goes (hf : ∃ f, s.focus = some f) a0 : goes (execSrnd a0 s) = true := by
  obtain ⟨f, hf⟩ := hf
  unfold execSrnd
  first | exact runValue_goes hf .. | (extract_lets; exact runValue_goes hf ..)
theorem execShfl_goes (hf : ∃ f, s.focus = some f) a0 : goes (execShfl a0 s) = true := by
  obtain ⟨f, hf⟩ := hf
  unfold execShfl
  first | exact runWord_goes hf .. | (extract_lets; exact runWord_goes hf ..)
theorem execCmpx_goes (hf : ∃ f, s.focus = some f) a0 : goes (execCmpx a0 s) = true := by
  obtain ⟨f, hf⟩ := hf
  unfold execCmpx
  first | exact runWord_goes hf .. | (extract_lets; exact runWord_goes hf ..)
theorem execScan_goes (hf : ∃ f, s.focus = some f) a0 : goes (execScan a0 s) = true := by
  obtain ⟨f, hf⟩ := hf
  unfold execScan
  first | exact runWord_goes hf .. | (extract_lets; exact runWord_goes hf ..)
theorem execIred_goes (hf : ∃ f, s.focus = some f) a0 : goes (execIred a0 s) = true := by
  obtain ⟨f, hf⟩ := hf
  unfold execIred
  first | exact runWord_goes hf .. | (extract_lets; exact runWord_goes hf ..)
theorem execRedmaxi_goes (hf : ∃ f, s.focus = some f) a0 : goes (execRedmaxi a0 s) = true := by
  obtain ⟨f, hf⟩ := hf
  unfold execRedmaxi
  first | exact runWord_goes hf .. | (extract_lets; exact runWord_goes hf ..)
theorem execMatchLanes_goes (hf : ∃ f, s.focus = some f) a0 : goes (execMatchLanes a0 s) = true := by
  obtain ⟨f, hf⟩ := hf
  unfold execMatchLanes
  first | exact runWord_goes hf .. | (extract_lets; exact runWord_goes hf ..)
theorem execMinit_goes (hf : ∃ f, s.focus = some f) a0 : goes (execMinit a0 s) = true := by
  obtain ⟨f, hf⟩ := hf
  unfold execMinit
  first | exact runMoment_goes hf .. | (extract_lets; exact runMoment_goes hf ..)
theorem execMupd_goes (hf : ∃ f, s.focus = some f) a0 : goes (execMupd a0 s) = true := by
  obtain ⟨f, hf⟩ := hf
  unfold execMupd
  first | exact runMoment_goes hf .. | (extract_lets; exact runMoment_goes hf ..)
theorem execMmrg_goes (hf : ∃ f, s.focus = some f) a0 : goes (execMmrg a0 s) = true := by
  obtain ⟨f, hf⟩ := hf
  unfold execMmrg
  first | exact runMoment_goes hf .. | (extract_lets; exact runMoment_goes hf ..)
theorem execMred_goes (hf : ∃ f, s.focus = some f) a0 : goes (execMred a0 s) = true := by
  obtain ⟨f, hf⟩ := hf
  unfold execMred
  first | exact runWord_goes hf .. | (extract_lets; exact runWord_goes hf ..)
theorem execMdrain_goes (hf : ∃ f, s.focus = some f) a0 : goes (execMdrain a0 s) = true := by
  obtain ⟨f, hf⟩ := hf
  unfold execMdrain
  first | exact runValue_goes hf .. | (extract_lets; exact runValue_goes hf ..)
theorem execMnorm_goes (hf : ∃ f, s.focus = some f) a0 : goes (execMnorm a0 s) = true := by
  obtain ⟨f, hf⟩ := hf
  unfold execMnorm
  first | exact runValue_goes hf .. | (extract_lets; exact runValue_goes hf ..)
theorem execMld_goes (hf : ∃ f, s.focus = some f) a0 : goes (execMld a0 s) = true := by
  obtain ⟨f, hf⟩ := hf
  unfold execMld
  first | exact runWord_goes hf .. | (extract_lets; exact runWord_goes hf ..)
theorem execMst_goes (hf : ∃ f, s.focus = some f) a0 : goes (execMst a0 s) = true := by
  obtain ⟨f, hf⟩ := hf
  unfold execMst
  first | exact runWord_goes hf .. | (extract_lets; exact runWord_goes hf ..)
theorem execMdecay_goes (hf : ∃ f, s.focus = some f) a0 : goes (execMdecay a0 s) = true := by
  obtain ⟨f, hf⟩ := hf
  unfold execMdecay
  first | exact runMoment_goes hf .. | (extract_lets; exact runMoment_goes hf ..)
theorem execLd_goes (hf : ∃ f, s.focus = some f) a0 : goes (execLd a0 s) = true := by
  obtain ⟨f, hf⟩ := hf
  unfold execLd
  first | exact runWord_goes hf .. | (extract_lets; exact runWord_goes hf ..)
theorem execLdl_goes (hf : ∃ f, s.focus = some f) a0 : goes (execLdl a0 s) = true := by
  obtain ⟨f, hf⟩ := hf
  unfold execLdl
  first | exact runWord_goes hf .. | (extract_lets; exact runWord_goes hf ..)
theorem execSt_goes (hf : ∃ f, s.focus = some f) a0 : goes (execSt a0 s) = true := by
  obtain ⟨f, hf⟩ := hf
  unfold execSt
  first | exact runWord_goes hf .. | (extract_lets; exact runWord_goes hf ..)
theorem execStl_goes (hf : ∃ f, s.focus = some f) a0 : goes (execStl a0 s) = true := by
  obtain ⟨f, hf⟩ := hf
  unfold execStl
  first | exact runWord_goes hf .. | (extract_lets; exact runWord_goes hf ..)
theorem execAtom_goes (hf : ∃ f, s.focus = some f) a0 : goes (execAtom a0 s) = true := by
  obtain ⟨f, hf⟩ := hf
  unfold execAtom
  first | exact runWord_goes hf .. | (extract_lets; exact runWord_goes hf ..)
theorem execAtoml_goes (hf : ∃ f, s.focus = some f) a0 : goes (execAtoml a0 s) = true := by
  obtain ⟨f, hf⟩ := hf
  unfold execAtoml
  first | exact runWord_goes hf .. | (extract_lets; exact runWord_goes hf ..)
theorem execFence_goes (hf : ∃ f, s.focus = some f) a0 : goes (execFence a0 s) = true := by
  obtain ⟨f, hf⟩ := hf
  unfold execFence
  first | exact runWord_goes hf .. | (extract_lets; exact runWord_goes hf ..)
theorem execMwait_goes (hf : ∃ f, s.focus = some f) a0 : goes (execMwait a0 s) = true := by
  obtain ⟨f, hf⟩ := hf
  unfold execMwait
  first | exact runWord_goes hf .. | (extract_lets; exact runWord_goes hf ..)
theorem execWaitstamp_goes (hf : ∃ f, s.focus = some f) a0 : goes (execWaitstamp a0 s) = true := by
  obtain ⟨f, hf⟩ := hf
  unfold execWaitstamp
  first | exact runWord_goes hf .. | (extract_lets; exact runWord_goes hf ..)
theorem execPref_goes (hf : ∃ f, s.focus = some f) a0 : goes (execPref a0 s) = true := by
  obtain ⟨f, hf⟩ := hf
  unfold execPref
  first | exact runWord_goes hf .. | (extract_lets; exact runWord_goes hf ..)
theorem execBarinit_goes (hf : ∃ f, s.focus = some f) a0 : goes (execBarinit a0 s) = true := by
  obtain ⟨f, hf⟩ := hf
  unfold execBarinit
  first | exact runBarrier_goes hf .. | (extract_lets; exact runBarrier_goes hf ..)
theorem execBar_goes (hf : ∃ f, s.focus = some f) a0 : goes (execBar a0 s) = true := by
  obtain ⟨f, hf⟩ := hf
  unfold execBar
  first | exact runArrival_goes hf .. | (extract_lets; exact runArrival_goes hf ..)
theorem execBararv_goes (hf : ∃ f, s.focus = some f) a0 : goes (execBararv a0 s) = true := by
  obtain ⟨f, hf⟩ := hf
  unfold execBararv
  first | exact runArrival_goes hf .. | (extract_lets; exact runArrival_goes hf ..)
theorem execBarwt_goes (hf : ∃ f, s.focus = some f) a0 : goes (execBarwt a0 s) = true := by
  obtain ⟨f, hf⟩ := hf
  unfold execBarwt
  first | exact runBarrier_goes hf .. | (extract_lets; exact runBarrier_goes hf ..)
theorem execBarl_goes (hf : ∃ f, s.focus = some f) a0 : goes (execBarl a0 s) = true := by
  obtain ⟨f, hf⟩ := hf
  unfold execBarl
  first | exact runWord_goes hf .. | (extract_lets; exact runWord_goes hf ..)
theorem execCross_goes (hf : ∃ f, s.focus = some f) a0 : goes (execCross a0 s) = true := by
  obtain ⟨f, hf⟩ := hf
  unfold execCross
  first | exact runWord_goes hf .. | (extract_lets; exact runWord_goes hf ..)
theorem execWaitev_goes (hf : ∃ f, s.focus = some f) a0 : goes (execWaitev a0 s) = true := by
  obtain ⟨f, hf⟩ := hf
  unfold execWaitev
  first | exact runWord_goes hf .. | (extract_lets; exact runWord_goes hf ..)
theorem execSetev_goes (hf : ∃ f, s.focus = some f) a0 : goes (execSetev a0 s) = true := by
  obtain ⟨f, hf⟩ := hf
  unfold execSetev
  first | exact runWord_goes hf .. | (extract_lets; exact runWord_goes hf ..)
theorem execLaunch_goes (hf : ∃ f, s.focus = some f) a0 : goes (execLaunch a0 s) = true := by
  obtain ⟨f, hf⟩ := hf
  unfold execLaunch
  first | exact runWord_goes hf .. | (extract_lets; exact runWord_goes hf ..)
theorem execRsig_goes (hf : ∃ f, s.focus = some f) a0 : goes (execRsig a0 s) = true := by
  obtain ⟨f, hf⟩ := hf
  unfold execRsig
  first | exact runReverse_goes hf .. | (extract_lets; exact runReverse_goes hf ..)
theorem execRwait_goes (hf : ∃ f, s.focus = some f) a0 : goes (execRwait a0 s) = true := by
  obtain ⟨f, hf⟩ := hf
  unfold execRwait
  first | exact runReverse_goes hf .. | (extract_lets; exact runReverse_goes hf ..)
theorem execOrdrd_goes (hf : ∃ f, s.focus = some f) a0 : goes (execOrdrd a0 s) = true := by
  obtain ⟨f, hf⟩ := hf
  unfold execOrdrd
  first | exact runReverse_goes hf .. | (extract_lets; exact runReverse_goes hf ..)
theorem execOrdwr_goes (hf : ∃ f, s.focus = some f) a0 : goes (execOrdwr a0 s) = true := by
  obtain ⟨f, hf⟩ := hf
  unfold execOrdwr
  first | exact runReverse_goes hf .. | (extract_lets; exact runReverse_goes hf ..)
theorem execItq_goes (hf : ∃ f, s.focus = some f) a0 : goes (execItq a0 s) = true := by
  obtain ⟨f, hf⟩ := hf
  unfold execItq
  first | exact runWord_goes hf .. | (extract_lets; exact runWord_goes hf ..)
theorem execRand_goes (hf : ∃ f, s.focus = some f) a0 : goes (execRand a0 s) = true := by
  obtain ⟨f, hf⟩ := hf
  unfold execRand
  first | exact runWord_goes hf .. | (extract_lets; exact runWord_goes hf ..)
theorem execMile_goes (hf : ∃ f, s.focus = some f) a0 : goes (execMile a0 s) = true := by
  obtain ⟨f, hf⟩ := hf
  unfold execMile
  first | exact runWord_goes hf .. | (extract_lets; exact runWord_goes hf ..)
theorem execCopy_goes (hf : ∃ f, s.focus = some f) a0 : goes (execCopy a0 s) = true := by
  obtain ⟨f, hf⟩ := hf
  unfold execCopy
  first | exact runFork_goes hf .. | (extract_lets; exact runFork_goes hf ..)
theorem execCopyp_goes (hf : ∃ f, s.focus = some f) a0 : goes (execCopyp a0 s) = true := by
  obtain ⟨f, hf⟩ := hf
  unfold execCopyp
  first | exact runFork_goes hf .. | (extract_lets; exact runFork_goes hf ..)
theorem execCopym_goes (hf : ∃ f, s.focus = some f) a0 : goes (execCopym a0 s) = true := by
  obtain ⟨f, hf⟩ := hf
  unfold execCopym
  first | exact runFork_goes hf .. | (extract_lets; exact runFork_goes hf ..)
theorem execSlotfree_goes (hf : ∃ f, s.focus = some f) a0 : goes (execSlotfree a0 s) = true := by
  obtain ⟨f, hf⟩ := hf
  unfold execSlotfree
  first | exact runWord_goes hf .. | (extract_lets; exact runWord_goes hf ..)
theorem execBccr_goes (hf : ∃ f, s.focus = some f) a0 : goes (execBccr a0 s) = true := by
  obtain ⟨f, hf⟩ := hf
  unfold execBccr
  first | exact runWord_goes hf .. | (extract_lets; exact runWord_goes hf ..)
theorem execColl_goes (hf : ∃ f, s.focus = some f) a0 : goes (execColl a0 s) = true := by
  obtain ⟨f, hf⟩ := hf
  unfold execColl
  first | exact runFork_goes hf .. | (extract_lets; exact runFork_goes hf ..)
theorem execMma_goes (hf : ∃ f, s.focus = some f) a0 : goes (execMma a0 s) = true := by
  obtain ⟨f, hf⟩ := hf
  unfold execMma
  first | exact runFork_goes hf .. | (extract_lets; exact runFork_goes hf ..)
theorem execMmas_goes (hf : ∃ f, s.focus = some f) a0 : goes (execMmas a0 s) = true := by
  obtain ⟨f, hf⟩ := hf
  unfold execMmas
  first | exact runFork_goes hf .. | (extract_lets; exact runFork_goes hf ..)
theorem execAzero_goes (hf : ∃ f, s.focus = some f) a0 : goes (execAzero a0 s) = true := by
  obtain ⟨f, hf⟩ := hf
  unfold execAzero
  first | exact runFork_goes hf .. | (extract_lets; exact runFork_goes hf ..)
theorem execAccld_goes (hf : ∃ f, s.focus = some f) a0 : goes (execAccld a0 s) = true := by
  obtain ⟨f, hf⟩ := hf
  unfold execAccld
  first | exact runFork_goes hf .. | (extract_lets; exact runFork_goes hf ..)
theorem execAccst_goes (hf : ∃ f, s.focus = some f) a0 : goes (execAccst a0 s) = true := by
  obtain ⟨f, hf⟩ := hf
  unfold execAccst
  first | exact runFork_goes hf .. | (extract_lets; exact runFork_goes hf ..)
theorem execAccstat_goes (hf : ∃ f, s.focus = some f) a0 : goes (execAccstat a0 s) = true := by
  obtain ⟨f, hf⟩ := hf
  unfold execAccstat
  first | exact runFork_goes hf .. | (extract_lets; exact runFork_goes hf ..)
theorem execCsrr_goes (hf : ∃ f, s.focus = some f) a0 : goes (execCsrr a0 s) = true := by
  obtain ⟨f, hf⟩ := hf
  unfold execCsrr
  first | exact runWord_goes hf .. | (extract_lets; exact runWord_goes hf ..)
theorem execCsrw_goes (hf : ∃ f, s.focus = some f) a0 : goes (execCsrw a0 s) = true := by
  obtain ⟨f, hf⟩ := hf
  unfold execCsrw
  first | exact runCsrw_goes hf .. | (extract_lets; exact runCsrw_goes hf ..)
theorem execKillCsrWrite_goes (hf : ∃ f, s.focus = some f) a0 : goes (execKillCsrWrite a0 s) = true := by
  obtain ⟨f, hf⟩ := hf
  unfold execKillCsrWrite
  first | exact runCsrw_goes hf .. | (extract_lets; exact runCsrw_goes hf ..)
theorem execWdctlWrite_goes (hf : ∃ f, s.focus = some f) a0 : goes (execWdctlWrite a0 s) = true := by
  obtain ⟨f, hf⟩ := hf
  unfold execWdctlWrite
  first | exact runCsrw_goes hf .. | (extract_lets; exact runCsrw_goes hf ..)
theorem execPerfselWrite_goes (hf : ∃ f, s.focus = some f) a0 : goes (execPerfselWrite a0 s) = true := by
  obtain ⟨f, hf⟩ := hf
  unfold execPerfselWrite
  first | exact runCsrw_goes hf .. | (extract_lets; exact runCsrw_goes hf ..)
theorem execPerfr_goes (hf : ∃ f, s.focus = some f) a0 : goes (execPerfr a0 s) = true := by
  obtain ⟨f, hf⟩ := hf
  unfold execPerfr
  first | exact runWord_goes hf .. | (extract_lets; exact runWord_goes hf ..)
theorem execTlbinv_goes (hf : ∃ f, s.focus = some f) a0 : goes (execTlbinv a0 s) = true := by
  obtain ⟨f, hf⟩ := hf
  unfold execTlbinv
  first | exact runWord_goes hf .. | (extract_lets; exact runWord_goes hf ..)
theorem execCtxsv_goes (hf : ∃ f, s.focus = some f) a0 : goes (execCtxsv a0 s) = true := by
  obtain ⟨f, hf⟩ := hf
  unfold execCtxsv
  first | exact runContext_goes hf .. | (extract_lets; exact runContext_goes hf ..)
theorem execCtxld_goes (hf : ∃ f, s.focus = some f) a0 : goes (execCtxld a0 s) = true := by
  obtain ⟨f, hf⟩ := hf
  unfold execCtxld
  first | exact runContext_goes hf .. | (extract_lets; exact runContext_goes hf ..)
theorem execCacheop_goes (hf : ∃ f, s.focus = some f) a0 : goes (execCacheop a0 s) = true := by
  obtain ⟨f, hf⟩ := hf
  unfold execCacheop
  first | exact runWord_goes hf .. | (extract_lets; exact runWord_goes hf ..)
theorem exec_goes (i : Instr) (hf : i.isWord = true → ∃ f, s.focus = some f) : goes (exec i s) = true := by
  cases i with
  | nop a0 => exact execNop_goes (hf rfl) _
  | bra a0 => exact execBra_goes (hf rfl) _
  | jmpt a0 => exact execJmpt_goes (hf rfl) _
  | call a0 => exact execCall_goes (hf rfl) _
  | callt a0 => exact execCallt_goes (hf rfl) _
  | ret a0 => exact execRet_goes (hf rfl) _
  | lpad a0 => exact execLpad_goes (hf rfl) _
  | loop a0 => exact execLoop_goes (hf rfl) _
  | loopbrk a0 => exact execLoopbrk_goes (hf rfl) _
  | exit a0 => exact execExit_goes (hf rfl) _
  | yield a0 => exact execYield_goes (hf rfl) _
  | trap a0 => exact execTrap_goes (hf rfl) _
  | brk a0 => exact execBrk_goes (hf rfl) _
  | eret a0 => exact execEret_goes (hf rfl) _
  | park a0 => exact execPark_goes (hf rfl) _
  | mov a0 => exact execMov_goes (hf rfl) _
  | mat a0 => exact execMat_goes (hf rfl) _
  | aff a0 => exact execAff_goes (hf rfl) _
  | dem a0 => exact execDem_goes (hf rfl) _
  | dema a0 => exact execDema_goes (hf rfl) _
  | movpc a0 => exact execMovpc_goes (hf rfl) _
  | elect a0 => exact execElect_goes (hf rfl) _
  | vote a0 => exact execVote_goes (hf rfl) _
  | kset a0 => exact execKset_goes (hf rfl) _
  | kop a0 => exact execKop_goes (hf rfl) _
  | iadd a0 => exact execIadd_goes (hf rfl) _
  | isub a0 => exact execIsub_goes (hf rfl) _
  | iand a0 => exact execIand_goes (hf rfl) _
  | ior a0 => exact execIor_goes (hf rfl) _
  | ixor a0 => exact execIxor_goes (hf rfl) _
  | imin a0 => exact execImin_goes (hf rfl) _
  | imax a0 => exact execImax_goes (hf rfl) _
  | imul a0 => exact execImul_goes (hf rfl) _
  | imulh a0 => exact execImulh_goes (hf rfl) _
  | imad a0 => exact execImad_goes (hf rfl) _
  | ishl a0 => exact execIshl_goes (hf rfl) _
  | ishr a0 => exact execIshr_goes (hf rfl) _
  | isar a0 => exact execIsar_goes (hf rfl) _
  | icmp a0 => exact execIcmp_goes (hf rfl) _
  | sel a0 => exact execSel_goes (hf rfl) _
  | popc a0 => exact execPopc_goes (hf rfl) _
  | clz a0 => exact execClz_goes (hf rfl) _
  | brev a0 => exact execBrev_goes (hf rfl) _
  | bfe a0 => exact execBfe_goes (hf rfl) _
  | bfi a0 => exact execBfi_goes (hf rfl) _
  | lea a0 => exact execLea_goes (hf rfl) _
  | idot4 a0 => exact execIdot4_goes (hf rfl) _
  | movi a0 => exact execMovi_goes (hf rfl) _
  | iaddi a0 => exact execIaddi_goes (hf rfl) _
  | iandi a0 => exact execIandi_goes (hf rfl) _
  | iori a0 => exact execIori_goes (hf rfl) _
  | ixori a0 => exact execIxori_goes (hf rfl) _
  | icmpi a0 => exact execIcmpi_goes (hf rfl) _
  | fmovi a0 => exact execFmovi_goes (hf rfl) _
  | pairWord a0 => exact execPairWord_goes (hf rfl) _
  | fadd a0 => exact execFadd_goes (hf rfl) _
  | fsub a0 => exact execFsub_goes (hf rfl) _
  | fmul a0 => exact execFmul_goes (hf rfl) _
  | ffma a0 => exact execFfma_goes (hf rfl) _
  | fmin a0 => exact execFmin_goes (hf rfl) _
  | fmax a0 => exact execFmax_goes (hf rfl) _
  | fcmp a0 => exact execFcmp_goes (hf rfl) _
  | frcp a0 => exact execFrcp_goes (hf rfl) _
  | frsq a0 => exact execFrsq_goes (hf rfl) _
  | fsqrt a0 => exact execFsqrt_goes (hf rfl) _
  | fexp2 a0 => exact execFexp2_goes (hf rfl) _
  | flog2 a0 => exact execFlog2_goes (hf rfl) _
  | fsin a0 => exact execFsin_goes (hf rfl) _
  | fcos a0 => exact execFcos_goes (hf rfl) _
  | ftanh a0 => exact execFtanh_goes (hf rfl) _
  | fdiv a0 => exact execFdiv_goes (hf rfl) _
  | frnd a0 => exact execFrnd_goes (hf rfl) _
  | f2i a0 => exact execF2i_goes (hf rfl) _
  | i2f a0 => exact execI2f_goes (hf rfl) _
  | fcvt a0 => exact execFcvt_goes (hf rfl) _
  | hadd2 a0 => exact execHadd2_goes (hf rfl) _
  | hmul2 a0 => exact execHmul2_goes (hf rfl) _
  | hfma2 a0 => exact execHfma2_goes (hf rfl) _
  | fclass a0 => exact execFclass_goes (hf rfl) _
  | cvt8 a0 => exact execCvt8_goes (hf rfl) _
  | cvt4 a0 => exact execCvt4_goes (hf rfl) _
  | xpand a0 => exact execXpand_goes (hf rfl) _
  | unpk8 a0 => exact execUnpk8_goes (hf rfl) _
  | mxdot a0 => exact execMxdot_goes (hf rfl) _
  | scdec a0 => exact execScdec_goes (hf rfl) _
  | scenc a0 => exact execScenc_goes (hf rfl) _
  | srnd a0 => exact execSrnd_goes (hf rfl) _
  | shfl a0 => exact execShfl_goes (hf rfl) _
  | cmpx a0 => exact execCmpx_goes (hf rfl) _
  | scan a0 => exact execScan_goes (hf rfl) _
  | ired a0 => exact execIred_goes (hf rfl) _
  | redmaxi a0 => exact execRedmaxi_goes (hf rfl) _
  | matchLanes a0 => exact execMatchLanes_goes (hf rfl) _
  | minit a0 => exact execMinit_goes (hf rfl) _
  | mupd a0 => exact execMupd_goes (hf rfl) _
  | mmrg a0 => exact execMmrg_goes (hf rfl) _
  | mred a0 => exact execMred_goes (hf rfl) _
  | mdrain a0 => exact execMdrain_goes (hf rfl) _
  | mnorm a0 => exact execMnorm_goes (hf rfl) _
  | mld a0 => exact execMld_goes (hf rfl) _
  | mst a0 => exact execMst_goes (hf rfl) _
  | mdecay a0 => exact execMdecay_goes (hf rfl) _
  | ld a0 => exact execLd_goes (hf rfl) _
  | ldl a0 => exact execLdl_goes (hf rfl) _
  | st a0 => exact execSt_goes (hf rfl) _
  | stl a0 => exact execStl_goes (hf rfl) _
  | atom a0 => exact execAtom_goes (hf rfl) _
  | atoml a0 => exact execAtoml_goes (hf rfl) _
  | fence a0 => exact execFence_goes (hf rfl) _
  | mwait a0 => exact execMwait_goes (hf rfl) _
  | mwaitReread a0 => rfl
  | waitstamp a0 => exact execWaitstamp_goes (hf rfl) _
  | pref a0 => exact execPref_goes (hf rfl) _
  | barinit a0 => exact execBarinit_goes (hf rfl) _
  | bar a0 => exact execBar_goes (hf rfl) _
  | bararv a0 => exact execBararv_goes (hf rfl) _
  | barwt a0 => exact execBarwt_goes (hf rfl) _
  | barl a0 => exact execBarl_goes (hf rfl) _
  | cross a0 => exact execCross_goes (hf rfl) _
  | waitev a0 => exact execWaitev_goes (hf rfl) _
  | setev a0 => exact execSetev_goes (hf rfl) _
  | launch a0 => exact execLaunch_goes (hf rfl) _
  | launchQueueEntry a0 => rfl
  | rsig a0 => exact execRsig_goes (hf rfl) _
  | rwait a0 => exact execRwait_goes (hf rfl) _
  | ordrd a0 => exact execOrdrd_goes (hf rfl) _
  | ordwr a0 => exact execOrdwr_goes (hf rfl) _
  | itq a0 => exact execItq_goes (hf rfl) _
  | rand a0 => exact execRand_goes (hf rfl) _
  | mile a0 => exact execMile_goes (hf rfl) _
  | copy a0 => exact execCopy_goes (hf rfl) _
  | copyp a0 => exact execCopyp_goes (hf rfl) _
  | copym a0 => exact execCopym_goes (hf rfl) _
  | slotfree a0 => exact execSlotfree_goes (hf rfl) _
  | bccr a0 => exact execBccr_goes (hf rfl) _
  | coll a0 => exact execColl_goes (hf rfl) _
  | mma a0 => exact execMma_goes (hf rfl) _
  | mmas a0 => exact execMmas_goes (hf rfl) _
  | azero a0 => exact execAzero_goes (hf rfl) _
  | accld a0 => exact execAccld_goes (hf rfl) _
  | accst a0 => exact execAccst_goes (hf rfl) _
  | accstat a0 => exact execAccstat_goes (hf rfl) _
  | csrr a0 => exact execCsrr_goes (hf rfl) _
  | csrw a0 => exact execCsrw_goes (hf rfl) _
  | killCsrWrite a0 => exact execKillCsrWrite_goes (hf rfl) _
  | wdctlWrite a0 => exact execWdctlWrite_goes (hf rfl) _
  | perfselWrite a0 => exact execPerfselWrite_goes (hf rfl) _
  | perfr a0 => exact execPerfr_goes (hf rfl) _
  | tlbinv a0 => exact execTlbinv_goes (hf rfl) _
  | ctxsv a0 => exact execCtxsv_goes (hf rfl) _
  | ctxld a0 => exact execCtxld_goes (hf rfl) _
  | cacheop a0 => exact execCacheop_goes (hf rfl) _
  | fairnessTimerExpiry a0 a1 => rfl
  | livelock a0 a1 => rfl
  | writeAcknowledgement a0 => rfl
  | retry a0 => rfl
  | peerRequest a0 => rfl
  | copyEnd a0 => rfl
  | copyTranslationFault a0 => rfl
  | engineFaultRecord  => rfl
  | faultActionResume a0 => rfl
  | faultActionAbort a0 => rfl
  | matrixOperationEnd a0 => rfl
  | avenueChunkReceive a0 => rfl
  | reduceBlockDispatch a0 a1 => rfl
  | collectiveEnd a0 => rfl
  | portDown a0 => rfl
  | peerPathTimeout a0 => rfl
  | ringRecordFetch a0 => rfl
  | launchAdmission a0 => rfl
  | blockPlacement a0 => rfl
  | blockRelease a0 => rfl
  | launchCompletion a0 => rfl
  | serviceBlockDispatch a0 => rfl
  | migrationArm a0 a1 => rfl
  | migrationCopyDone a0 => rfl
  | migrationDisarm a0 a1 => rfl
  | tail a0 a1 => rfl
  | qctl a0 a1 => rfl
  | controlRegisterWrite a0 a1 a2 => rfl
  | memoryWindowRead a0 a1 => rfl
  | memoryWindowWrite a0 a1 => rfl
  | summary a0 => rfl
  | attest a0 => rfl
  | peerAttestResponse a0 => rfl
  | chkpt a0 => rfl
  | checkpointQuiesced  => rfl
  | checkpointStreamEnd  => rfl
  | restore a0 => rfl
  | restoreEnd  => rfl
  | evset a0 => rfl
  | evclr a0 => rfl
  | kill a0 => rfl
  | parkctlResume a0 => exact ite_goes rfl rfl
  | parkctlTerminate a0 => exact ite_goes rfl rfl
  | commset a0 => rfl
  | commclr a0 => rfl
  | svcset a0 => rfl
  | wlset a0 => rfl
  | domset a0 => rfl
  | pwrlim a0 => rfl
  | fwload a0 => rfl
  | preempt a0 => rfl
  | reinstate a0 => rfl
  | mbcmdUnassigned a0 a1 => exact ite_goes rfl rfl
  | powerGood  => rfl
  | firmwareMeasure  => rfl
  | stageB a0 => rfl
  | stageC a0 => rfl
  | stageD a0 => rfl
  | stageE a0 => rfl
  | stageDeadlineExpiry  => rfl
  | thermalThrottle  => rfl
  | thermalTrip  => rfl
  | linkDegrade  => rfl
  | homeAccessPerform a0 => rfl
  | readResponse a0 => rfl
  | peerAttestRequest a0 a1 => rfl
  | avenuePortUp a0 => rfl
  | hostLinkRestore  => rfl
  | thermalThrottleEnd  => rfl
  | powerCapEngage  => rfl
  | powerCapRelease  => rfl
  | powerLoss  => rfl

theorem natLe_get (n v i : Nat) (h : i < (natLe n v).length) : (natLe n v)[i] = BitVec.ofNat 8 (v / 256 ^ i) := by
  induction n generalizing v i with
  | zero => simp [natLe] at h
  | succ n ih =>
    cases i with
    | zero => simp [natLe]
    | succ i =>
      simp only [natLe, List.getElem_cons_succ]
      rw [ih]
      rw [Nat.div_div_eq_div_mul, Nat.pow_succ, Nat.mul_comm]

theorem byte_of (x : W64) (i : Nat) : BitVec.ofNat 8 (x.toNat / 256 ^ i) = x.extractLsb' (8 * i) 8 := by
  apply BitVec.eq_of_toNat_eq
  simp [BitVec.extractLsb'_toNat, Nat.shiftRight_eq_div_pow, Nat.pow_mul]

theorem word_byte (m : Memory) (a i : Nat) (hi : i < 8) : (memWord m a).extractLsb' (8 * i) 8 = memGet m (a + i) := by
  have h8 : ∀ b : Byte, BitVec.ofNat 8 b.toNat = b := fun b => by simp
  simp only [memWord, memNat, memRead, leNat, Nat.add_assoc, Nat.reduceAdd]
  apply BitVec.eq_of_toNat_eq
  simp only [BitVec.extractLsb'_toNat, BitVec.toNat_ofNat, Nat.shiftRight_eq_div_pow]
  have b0 := (memGet m a).isLt
  have b1 := (memGet m (a+1)).isLt
  have b2 := (memGet m (a+2)).isLt
  have b3 := (memGet m (a+3)).isLt
  have b4 := (memGet m (a+4)).isLt
  have b5 := (memGet m (a+5)).isLt
  have b6 := (memGet m (a+6)).isLt
  have b7 := (memGet m (a+7)).isLt
  have : i = 0 ∨ i = 1 ∨ i = 2 ∨ i = 3 ∨ i = 4 ∨ i = 5 ∨ i = 6 ∨ i = 7 := by omega
  rcases this with h | h | h | h | h | h | h | h <;> subst h <;> simp only [Nat.add_zero, Nat.reduceMul] <;> omega

/-- What a translation leaves alone. -/
structure OnlyMarks (s t : State) : Prop where
  focus : t.focus = s.focus
  convoys : t.convoys = s.convoys
  mem : s.sound = true → ∀ a, memGet t.mem a ||| 0xC0 = memGet s.mem a ||| 0xC0
  sound : s.sound = true → t.sound = true

theorem OnlyMarks.refl (s : State) : OnlyMarks s s := ⟨rfl, rfl, fun _ _ => rfl, id⟩
theorem OnlyMarks.trans {s t u : State} (h : OnlyMarks s t) (k : OnlyMarks t u) : OnlyMarks s u :=
  ⟨k.focus.trans h.focus, k.convoys.trans h.convoys, fun hs a => (k.mem (h.sound hs) a).trans (h.mem hs a), fun hs => k.sound (h.sound hs)⟩

theorem orLeaf_onlyMarks {at_ : Nat} {leaf bits : W64} (hb : bits = 1#64 <<< 46 ∨ bits = 1#64 <<< 47) {t : State} (ht : orLeaf s at_ leaf bits = some t) : OnlyMarks s t := by
  have hso := fun h => orLeaf_sound (s := s) h ht
  unfold orLeaf at ht
  extract_lets e at ht
  split at ht
  · cases ht
    refine ⟨rfl, rfl, fun hs a => ?_, hso⟩
    show memGet (memStore s.mem at_ 8 (e ||| bits).toNat) a ||| 0xC0 = _
    rw [memStore, memGet_memWrite _ _ _ (sound_mem hs)]
    split
    · rename_i hx
      have hl : (leBytes 8 (e ||| bits).toNat).length = 8 := rfl
      rw [hl] at hx
      simp only [leBytes]
      rw [natLe_get, byte_of]
      have hg : memGet s.mem a = e.extractLsb' (8 * (a - at_)) 8 := by
        simp only [e]; rw [word_byte _ _ _ (by omega)]; congr 1; omega
      rw [hg]
      generalize hi : a - at_ = i
      have : i < 8 := by omega
      have : ∀ i < 8, (∀ x : W64, (x ||| bits).extractLsb' (8 * i) 8 ||| 0xC0 = x.extractLsb' (8 * i) 8 ||| 0xC0) := by
        intro i hi x
        have : (bits.extractLsb' (8 * i) 8) ||| 0xC0 = 0xC0#8 := by
          rcases hb with rfl | rfl <;> revert i <;> decide
        rw [BitVec.extractLsb'_or, BitVec.or_assoc]
        exact congrArg _ this
      exact this i ‹_› e
    · rfl
  · cases ht

theorem insert_onlyMarks (core : Nat) (t : TlbEntry) : OnlyMarks s (tlbInsert s core t) := ⟨rfl, rfl, fun _ _ => rfl, id⟩
theorem drop_onlyMarks (core ctx va : Nat) : OnlyMarks s (tlbDrop s core ctx va) := ⟨rfl, rfl, fun _ _ => rfl, id⟩

theorem tlbFill_onlyMarks {core ctx va : Nat} {t : State × TlbEntry} (ht : tlbFill s core ctx va = .inr t) : OnlyMarks s t.1 := by
  unfold tlbFill at ht
  split at ht
  · extract_lets t0 s1 at ht
    cases ht
    have h1 : OnlyMarks s s1 := by
      simp only [s1]
      split
      · exact OnlyMarks.refl s
      · cases ho : orLeaf s _ _ _ with
        | none => exact OnlyMarks.refl s
        | some x => exact orLeaf_onlyMarks (.inl rfl) ho
    exact h1.trans (insert_onlyMarks ..)
  · cases ht

theorem tlbDirty_onlyMarks {core : Nat} {t : TlbEntry} {x : State × TlbEntry} (hx : tlbDirty s core t = some x) : OnlyMarks s x.1 := by
  unfold tlbDirty at hx
  split at hx
  · cases hx; exact OnlyMarks.refl s
  · cases ho : orLeaf s (8 * t.leafAt) t.leaf (1#64 <<< 47) with
    | none => rw [ho] at hx; cases hx
    | some y =>
      have hy := orLeaf_onlyMarks (.inr rfl) ho
      rw [ho] at hx; cases hx; exact hy.trans (insert_onlyMarks ..)

def Xlate.onlyMarks (s : State) : Xlate → Prop
  | .ok t _ _ => OnlyMarks s t
  | .bad t _ => OnlyMarks s t
  | .stall => True

theorem Xlate.onlyMarks_of {s s1 : State} (h : OnlyMarks s s1) : ∀ {x : Xlate}, x.onlyMarks s1 → x.onlyMarks s
  | .ok .., hx => h.trans hx
  | .bad .., hx => h.trans hx
  | .stall, _ => trivial

theorem xlateWith_onlyMarks (r : XlateReq) (va : Nat) : ∀ (n : Nat) (s : State) (t : TlbEntry), (xlateWith r va n s t).onlyMarks s
  | 0, s, _ => OnlyMarks.refl s
  | n + 1, s, t => by
    unfold xlateWith
    extract_lets pa s1
    split
    · exact OnlyMarks.refl s
    · split
      · exact OnlyMarks.refl s
      · split
        · exact OnlyMarks.refl s
        · split
          · exact OnlyMarks.refl s
          · split
            · exact OnlyMarks.refl s
            · split
              · rename_i s1 t1 hd
                exact tlbDirty_onlyMarks hd
              · have h1 : OnlyMarks s s1 := drop_onlyMarks ..
                split
                · rename_i s2 t2 hf
                  exact Xlate.onlyMarks_of (h1.trans (tlbFill_onlyMarks hf)) (xlateWith_onlyMarks r va n s2 t2)
                · trivial
                · exact h1

theorem xlate_onlyMarks (s : State) (r : XlateReq) (va : Nat) : (xlate s r va).onlyMarks s := by
  unfold xlate
  split
  · exact Xlate.onlyMarks_of (insert_onlyMarks ..) (xlateWith_onlyMarks r va 3 _ _)
  · split
    · rename_i hf
      exact Xlate.onlyMarks_of (tlbFill_onlyMarks hf) (xlateWith_onlyMarks r va 3 _ _)
    · trivial
    · exact OnlyMarks.refl s

theorem xlateHome_onlyMarks (s : State) (r : XlateReq) (va : Nat) : (xlateHome s r va).onlyMarks s := by
  unfold xlateHome
  have h1 := xlate_onlyMarks s r va
  split
  · rename_i s1 pa leaf hx
    rw [hx] at h1
    split
    · exact h1
    · have h2 := Xlate.onlyMarks_of (OnlyMarks.trans h1 (drop_onlyMarks r.core r.ctx va)) (xlate_onlyMarks (tlbDrop s1 r.core r.ctx va) r va)
      split
      · rename_i hy
        rw [hy] at h2
        split
        · trivial
        · exact h2
      · exact h2
  · exact h1

def Fetch.onlyMarks (s : State) : Fetch → Prop
  | .word t _ => OnlyMarks s t
  | .fault t _ => OnlyMarks s t
  | .stall => True

theorem fetchWord_onlyMarks (s : State) (ci : Nat) (addr : Pc) : (fetchWord s ci addr).onlyMarks s := by
  unfold fetchWord
  extract_lets c inLoop ctx key
  split
  · exact OnlyMarks.refl s
  · split
    · exact OnlyMarks.refl s
    · have hx := xlateHome_onlyMarks s { core := c.core, ctx := ctx, write := false, fetch := true, user := c.priv != 2 } addr.toNat
      split <;> rename_i he <;> rw [he] at hx
      · trivial
      · exact hx
      · split
        · trivial
        · split
          · exact hx
          · exact hx.trans ⟨rfl, rfl, fun _ _ => rfl, id⟩

theorem focusHead_some {core h : Nat} {t : State} {f : Focus} (hx : focusHead s core h = some (t, f)) : t.sound = s.sound ∧ t.focus = some f := by
  unfold focusHead at hx
  split at hx
  · rename_i p _
    cases hq : p.todo.head? with
    | none => rw [hq] at hx; cases hx
    | some q => rw [hq] at hx; cases hx; exact ⟨rfl, rfl⟩
  · cases hx

/-- Events among the moves are no words. -/
def Move.fine : Move → Bool
  | .event i => !i.isWord
  | _ => true

theorem pickFrom_mem (first : Move) : ∀ (n : Nat) (l : List Move), pickFrom first n l = first ∨ pickFrom first n l ∈ l
  | 0, [] => .inl rfl
  | _ + 1, [] => .inl rfl
  | 0, m :: _ => .inr (List.mem_cons_self ..)
  | n + 1, _ :: r => (pickFrom_mem first n r).imp id (List.mem_cons_of_mem _)

theorem pickMove_fine (n : Nat) (l : List Move) (h : ∀ m ∈ l, m.fine = true) : (pickMove n l).fine = true := by
  unfold pickMove
  split
  · rfl
  · rename_i m r
    rcases pickFrom_mem m n (m :: r) with h1 | h1
    · rw [h1]; exact h m (List.mem_cons_self ..)
    · exact h _ h1

theorem commandOf_fine (c q a) : (commandOf c q a).isWord = false := by
  unfold commandOf
  split <;> (first | rfl | (split <;> rfl))

theorem optional_fine {p : Prop} [Decidable p] {x : Move} (hx : x.fine = true) : ∀ m ∈ (if p then [x] else []), m.fine = true := by
  intro m hm
  split at hm
  · rw [List.mem_singleton] at hm; rw [hm]; exact hx
  · cases hm

theorem app_fine {a b : List Move} (ha : ∀ m ∈ a, m.fine = true) (hb : ∀ m ∈ b, m.fine = true) : ∀ m ∈ a ++ b, m.fine = true := by
  intro m hm
  exact (List.mem_append.1 hm).elim (ha m) (hb m)

theorem map_fine {α : Type} {l : List α} {f : α → Move} (hf : ∀ x, (f x).fine = true) : ∀ m ∈ l.map f, m.fine = true := by
  intro m hm
  obtain ⟨x, _, rfl⟩ := List.mem_map.1 hm
  exact hf x

theorem nil_fine : ∀ m ∈ ([] : List Move), m.fine = true := fun _ h => by cases h
theorem one_fine {x : Move} (hx : x.fine = true) : ∀ m ∈ [x], m.fine = true := by
  intro m hm; rw [List.mem_singleton] at hm; rw [hm]; exact hx

theorem flat_fine {α : Type} {l : List α} {f : α → List Move} (hf : ∀ x, ∀ m ∈ f x, m.fine = true) : ∀ m ∈ l.flatMap f, m.fine = true := by
  intro m hm
  obtain ⟨x, _, h⟩ := List.mem_flatMap.1 hm
  exact hf x m h

theorem slotMoves_fine (core h) : ∀ m ∈ slotMoves s core h, m.fine = true := by
  unfold slotMoves
  repeat' split
  all_goals first | exact nil_fine | exact one_fine rfl

theorem find_fine {p : List Move → Bool} : ∀ (ls : List (List Move)), (∀ l ∈ ls, ∀ m ∈ l, m.fine = true) → ∀ m ∈ (ls.find? p).getD [], m.fine = true := by
  intro ls h
  cases hf : ls.find? p with
  | none => exact nil_fine
  | some l => exact h l (List.mem_of_find?_eq_some hf)

theorem seqMoves_fine (core seq) : ∀ m ∈ seqMoves s core seq, m.fine = true := by
  refine find_fine _ fun l hl => ?_
  obtain ⟨h, _, rfl⟩ := List.mem_map.1 hl
  exact slotMoves_fine core h

theorem issueMoves_fine : ∀ m ∈ issueMoves s, m.fine = true := by
  simp only [issueMoves, coreMoves, List.mem_flatMap]
  rintro m ⟨c, _, q, _, hm⟩
  exact seqMoves_fine _ _ _ hm

theorem holdMoves_fine (ci) : ∀ m ∈ holdMoves s ci, m.fine = true := by
  unfold holdMoves
  extract_lets c
  split
  · simp
  · simp only [List.mem_flatMap]
    rintro m ⟨h, _, hm⟩
    revert hm
    repeat' split
    all_goals (simp only [List.mem_cons, List.not_mem_nil, or_false]; first | (rintro rfl; rfl) | (intro hm; exact absurd hm id))

theorem accessMoves_fine (a) : ∀ m ∈ accessMoves s a, m.fine = true := by
  unfold accessMoves
  intro m hm
  revert hm
  repeat' split
  all_goals (simp only [List.mem_cons, List.not_mem_nil, or_false]; first | (rintro rfl; first | rfl | (split <;> rfl)) | (intro hm; exact absurd hm id))

theorem copyMoves_fine (i) : ∀ m ∈ copyMoves s i, m.fine = true := by
  unfold copyMoves
  split
  · exact nil_fine
  · repeat' refine app_fine ?_ ?_
    all_goals first | exact optional_fine rfl | exact map_fine fun _ => rfl | (split <;> first | exact nil_fine | exact one_fine rfl)

theorem matMovesOf_fine (core) : ∀ m ∈ matMovesOf s core, m.fine = true := app_fine (optional_fine rfl) (optional_fine rfl)

theorem collMoves_fine (i) : ∀ m ∈ collMoves s i, m.fine = true := by
  unfold collMoves
  split
  · exact nil_fine
  · repeat' refine app_fine ?_ ?_
    all_goals first | exact optional_fine rfl | exact map_fine fun _ => rfl | (split <;> first | exact nil_fine | exact one_fine rfl)

theorem engineMoves_fine : ∀ m ∈ engineMoves s, m.fine = true := by
  unfold engineMoves
  split
  · exact nil_fine
  · exact app_fine (app_fine (app_fine (app_fine (flat_fine copyMoves_fine) (flat_fine matMovesOf_fine)) (flat_fine collMoves_fine))
      (map_fine fun _ => rfl)) (map_fine fun _ => rfl)

theorem hubMoves_fine : ∀ m ∈ hubMoves s, m.fine = true := by
  unfold hubMoves
  repeat' refine app_fine ?_ ?_
  all_goals first
    | exact optional_fine rfl
    | exact map_fine fun _ => rfl
    | (repeat' split) <;> first | exact nil_fine | exact one_fine rfl | exact one_fine (by simp [Move.fine, commandOf_fine])

theorem startMoves_fine : ∀ m ∈ startMoves s, m.fine = true := by
  unfold startMoves
  split
  · exact nil_fine
  · repeat' refine app_fine ?_ ?_
    all_goals exact optional_fine rfl

theorem forgetMoves_fine : ∀ m ∈ forgetMoves s, m.fine = true :=
  app_fine (app_fine (flat_fine fun _ => app_fine (app_fine (map_fine fun _ => rfl) (map_fine fun _ => rfl)) (map_fine fun _ => rfl)) (flat_fine fun _ => map_fine fun _ => rfl)) (map_fine fun _ => rfl)

theorem linkMoves_fine (k) : ∀ m ∈ linkMoves s k, m.fine = true := by
  unfold linkMoves
  repeat' split
  all_goals first | exact nil_fine | exact one_fine rfl

theorem outerMoves_fine : ∀ m ∈ outerMoves s, m.fine = true := by
  unfold outerMoves
  refine app_fine (app_fine (app_fine ?_ (flat_fine linkMoves_fine)) ?_) ?_
  all_goals (repeat' split) <;> first | exact nil_fine | exact one_fine rfl

theorem moves_fine : ∀ m ∈ moves s, m.fine = true :=
  app_fine (app_fine (app_fine (app_fine (app_fine (app_fine (app_fine (app_fine issueMoves_fine (flat_fine holdMoves_fine)) outerMoves_fine)
    (flat_fine accessMoves_fine)) engineMoves_fine) hubMoves_fine) startMoves_fine) forgetMoves_fine) (one_fine rfl)

end Sys2Proof.Machine
end

