-- ==== Sys2Proof/Laws/Traps.lean ====
section
/-! SUPPORT. Taking a trap: from a mode other than service, a word that raises a cause leaves the convoy as trap entry says (R314, R316, R317). -/

namespace Sys2Proof.Machine

/-- The convoy that trap entry leaves. -/
def trapped (s : State) (ci cause : Nat) (tpc : Pc) (mask : Mask) (addr : W64) (act : Mask) : Convoy :=
  let c := s.convoy ci
  let r := (s.launchOf c).rec_
  let nest := c.priv == 1
  let target := trapTarget r c.priv cause
  let vec : Pc := if target == 1 then BitVec.ofNat 48 r.utvec else (s.core c.core).tvec.setWidth 48
  Convoy.onLanes { c with
      held := if nest then c.trap else c.held
      hwatch := if nest then c.watch else c.hwatch
      watch := cause == causeLIVELOCK
      hrvValid := c.hrvValid || nest
      hrvHolds := if nest then c.rvHolds else c.hrvHolds
      rvHolds := c.holds
      holds := []
      trap := { cause := BitVec.ofNat 64 cause, pc := tpc.setWidth 64, addr := addr, mask := mask, act := act,
                status := packStatus (c.loops.filter fun v => !v.suspended).length false (target == 1) nest c.priv }
      loops := c.loops.map suspendLevel
      busy := []
      priv := target } c.live fun l x =>
    { x with hrv := if nest then x.rv else x.hrv, rv := if act.getLsbD l then tpc else x.pc, pc := vec }

theorem slotted_setConvoy {s t : State} (h : Slotted s t) (ci : Nat) (c : Convoy) : Slotted (s.setConvoy ci c) (t.setConvoy ci c) where
  rest := by
    have hr := h.rest
    generalize t.cores = k at hr
    subst hr
    rfl
  cores k := h.cores k

/-- Trap entry from a mode other than service. -/
theorem enterTrap_slotted (s : State) (ci cause : Nat) (tpc : Pc) (mask : Mask) (addr : W64) (act : Mask) (hp : (s.convoy ci).priv ≠ 2) :
    Slotted (s.setConvoy ci (trapped s ci cause tpc mask addr act)) (enterTrap s ci cause tpc mask addr act) := by
  unfold enterTrap
  extract_lets c r new s0 nest target vec open_ c1 c2 s1 s2
  rw [if_neg (by simpa using hp)]
  have h1 : Slotted (s.setConvoy ci (trapped s ci cause tpc mask addr act)) s1 := slotted_setConvoy (slotted_perfCount s c.core 0x09 1) ci c2
  have h2 : Slotted (s.setConvoy ci (trapped s ci cause tpc mask addr act)) s2 := by
    unfold s2
    split
    · exact h1.trans (slotted_endHandover _ _ _)
    · exact h1
  split
  · exact h2.trans (slotted_modSlot _ _ _ _)
  · exact h2

/-- What trap entry leaves, when the word's stall count is set and the slot goes on. -/
theorem trap_taken {s t : State} {f : Focus} (hr : f.convoy < s.convoys.length) (hw : (s.convoy f.convoy).lanes.length = (s.convoy f.convoy).width)
    (cause : Nat) (tpc : Pc) (mask : Mask) (addr : W64) (n : Nat)
    (ht : Slotted (s.setConvoy f.convoy { trapped s f.convoy cause tpc mask addr f.active with ready := n }) t) : TrapTaken s t f cause tpc mask addr := by
  have hcs : t.convoys = s.convoys.set f.convoy { trapped s f.convoy cause tpc mask addr f.active with ready := n } := ht.convoys
  have hc : t.convoy f.convoy = { trapped s f.convoy cause tpc mask addr f.active with ready := n } := by
    simp only [State.convoy, hcs, set_getD, hr, and_self, if_true]
  have ho : ∀ j, j ≠ f.convoy → t.convoy j = s.convoy j := by
    intro j hj
    simp only [State.convoy, hcs, set_getD, if_neg (show ¬ (f.convoy = j ∧ f.convoy < s.convoys.length) from fun h => hj h.1.symm)]
  have hcore : ∀ k, t.core k = { s.core k with perf := (t.core k).perf, slots := (t.core k).slots, current := (t.core k).current } := fun k => ht.cores k
  have hrest : t = { s with convoys := t.convoys, cores := t.cores } := by
    rw [ht.rest]; rfl
  have hlane : ∀ l, (t.convoy f.convoy).lane l = if l < (s.convoy f.convoy).lanes.length ∧ (s.convoy f.convoy).live.getLsbD l = true then
      { (s.convoy f.convoy).lane l with
        hrv := if ((s.convoy f.convoy).priv == 1) = true then ((s.convoy f.convoy).lane l).rv else ((s.convoy f.convoy).lane l).hrv
        rv := if f.active.getLsbD l = true then tpc else ((s.convoy f.convoy).lane l).pc
        pc := if (trapTarget (s.launchOf (s.convoy f.convoy)).rec_ (s.convoy f.convoy).priv cause == 1) = true
          then BitVec.ofNat 48 (s.launchOf (s.convoy f.convoy)).rec_.utvec else (s.core (s.convoy f.convoy).core).tvec.setWidth 48 }
      else (s.convoy f.convoy).lane l := by
    intro l
    rw [hc]
    exact onLanes_lane _ _ _ _
  refine ⟨?_, ?_, ?_, ?_, ?_, ?_, ?_, ?_, ?_, fun l hl hlive => ?_, fun hn => ⟨?_, ?_, ?_, fun l hl hlive => ?_⟩, fun p hpo => ?_⟩
  · rw [hc]; rfl
  · rw [hc]; rfl
  · rw [hc]; rfl
  · rw [hc]; rfl
  · rw [hc]; rfl
  · rw [hc]; rfl
  · rw [hc]; rfl
  · rw [hc]; rfl
  · rw [hc]; exact ⟨rfl, rfl⟩
  · rw [hlane l, if_pos ⟨hw ▸ hl, hlive⟩]
    simp
  · rw [hc]; simp [trapped, Convoy.onLanes, hn]
  · rw [hc]; simp [trapped, Convoy.onLanes, hn]
  · rw [hc]; simp [trapped, Convoy.onLanes, hn]
  · rw [hlane l, if_pos ⟨hw ▸ hl, hlive⟩]; simp [hn]
  · simp only [List.mem_cons, List.not_mem_nil, or_false, not_or] at hpo
    cases p with
    | reg r => cases r with
      | v n =>
        intro l
        simp only [Convoy.readV]
        rw [hlane]
        split <;> rfl
      | m n =>
        intro l
        simp only [Convoy.readM]
        rw [hlane]
        split <;> rfl
      | lc => exact absurd rfl hpo.2.2.2.2
      | _ => simp only [Same]; rw [hc]; first | done | rfl
    | draws => intro l; rw [hlane]; split <;> rfl
    | vectors => exact absurd rfl hpo.2.2.2.1
    | mode => exact absurd rfl hpo.1
    | trap => exact absurd rfl hpo.2.1
    | holds => exact absurd rfl hpo.2.2.1
    | others => exact ⟨by rw [hcs]; simp, ho⟩
    | memory => rw [hrest]; exact ⟨fun _ => rfl, rfl⟩
    | stores => intro b a; rw [hrest]; exact ⟨rfl, rfl⟩
    | engines => refine ⟨by rw [hrest], by rw [hrest], by rw [hrest], fun k => ?_⟩; rw [hcore k]; exact ⟨rfl, rfl⟩
    | coreRegs => intro k; rw [hcore k]; exact ⟨rfl, rfl, rfl, rfl, rfl⟩
    | caches => refine ⟨by rw [hrest], by rw [hrest], fun k => ?_⟩; rw [hcore k]; exact ⟨rfl, rfl, rfl, rfl⟩
    | tiles => intro k; rw [hcore k]
    | live => simp only [Same]; rw [hc]; rfl
    | conflicts => simp only [Same]; rw [hc]; rfl
    | scratch => simp only [Same]; rw [hc]; rfl
    | barl => simp only [Same]; rw [hc]; rfl
    | occ => simp only [Same]; rw [hc]; rfl
    | ord => simp only [Same]; rw [hc]; rfl
    | views => simp only [Same]; rw [hc]; exact ⟨rfl, rfl, rfl, rfl⟩
    | outer => simp only [Same]; rw [hrest]; exact ⟨rfl, rfl, rfl, rfl⟩
    | ends => simp only [Same]; rw [hc]; exact ⟨rfl, rfl, rfl, rfl⟩
    | blocks => simp only [Same]; rw [hrest]
    | launches => simp only [Same]; rw [hrest]
    | hub => simp only [Same]; rw [hrest]; exact ⟨rfl, rfl⟩
    | accesses => simp only [Same]; rw [hrest]

theorem setConvoy_modConvoy {s t : State} {ci : Nat} {c : Convoy} (hr : ci < s.convoys.length) (h : Slotted (s.setConvoy ci c) t) (g : Convoy → Convoy) :
    Slotted (s.setConvoy ci (g c)) (t.modConvoy ci g) where
  rest := by
    have h1 : t.convoy ci = c := by simp only [State.convoy, h.convoys, State.setConvoy_convoys, set_getD, hr, and_self, if_true]
    have h2 : t.modConvoy ci g = { t with convoys := s.convoys.set ci (g c) } := by
      simp only [State.modConvoy, State.setConvoy, h1, h.convoys, List.set_set]
    rw [h2, h.rest]
    rfl
  cores k := h.cores k

/-- A fault is taken where nothing of the convoy is awaited (R316). -/
theorem takeTrap_taken {s : State} {f : Focus} (hr : f.convoy < s.convoys.length) (hw : (s.convoy f.convoy).lanes.length = (s.convoy f.convoy).width)
    (hp : (s.convoy f.convoy).priv ≠ 2) (hpend : pendingRegs s f.convoy = []) (i : WordInfo) (cause : Nat) (mask : Mask) (addr : W64) :
    TrapTaken s (takeTrap s f i cause mask addr) f cause f.addr mask addr := by
  unfold takeTrap
  rw [if_neg (by simp [trapWaits, hpend])]
  exact trap_taken hr hw cause f.addr mask addr (nextReady s f i)
    ((setConvoy_modConvoy hr (enterTrap_slotted s f.convoy cause f.addr mask addr f.active hp)
      fun c => { c with ready := nextReady s f i }).trans (slotted_popTodo _ _ _ _ _ _))

/-- From a state in which it issues, a word whose body raises a cause traps. -/
theorem runWord_trap {s : State} {f : Focus} {i : WordInfo} {uses : List (Opnd × Nat)} {dests : List Opnd} {e : Mask}
    {body : Focus → Convoy → Mask → Res} {cause : Nat} {mask : Mask} {addr : W64} (h : Issues s f i.hdr uses dests e) (hl : i.legal = true)
    (hu : ∀ p ∈ i.reads ++ i.writes ++ scaleOpnds i, overBudget (s.convoy f.convoy).budget p.1 p.2 = false)
    (hd : ∀ p ∈ i.writes, isUniformDest p.1 = true → p.1 ∈ dests) (huni : i.uni = true → e = (s.convoy f.convoy).live) (hsoft : i.soft = none)
    (hp : (s.convoy f.convoy).priv ≠ 2) (hb : body f (s.convoy f.convoy) e = .trap s cause mask addr) :
    ∃ t, runWord i s body = .next t ∧ TrapTaken s t f cause f.addr mask addr := by
  refine ⟨takeTrap s f i cause mask addr, ?_, takeTrap_taken h.convoy h.lanes hp h.pending i cause mask addr⟩
  simp only [runWord, h.focus, gate_go h hl hu hd huni hsoft, hb]

end Sys2Proof.Machine
end

