-- ==== Sys2Proof/Tests/Slice0.lean ====
section
/-! SUPPORT. Tests: ill-formed terms, words written out, one step of some instructions on a small state, and for each statement a state and operands that meet its hypotheses. Expected results come from the spec's rules, worked by hand. -/

set_option maxRecDepth 100000

open Sys2Proof Sys2Proof.Machine

namespace Sys2Proof.Tests

/-! ### A small state: one core, one launch, one block of one convoy of 8 lanes with 16 V registers, at word 0x1000. -/

def quiet : Hdr := { stall := 0, y := false, gn := false, gk := 0 }

def no : Opnd := .sp 0x3F

def fw (d x y z : Opnd) (mod : BitVec 8 := 0) : FWord := { hdr := quiet, d := d, x := x, y := y, z := z, mod := mod }

def cw (opr : Opnd) (aux : BitVec 14 := 0) (off : BitVec 24 := 0) : CWord := { hdr := quiet, opr := opr, aux := aux, off := off }

def iw (d : Opnd) (imm : W32) (imod : BitVec 4 := 0) : IWord := { hdr := quiet, d := d, imod := imod, imm := imm }

def aConvoy : Convoy := newConvoy 0 0 0 8 16 0 0 0 0x1000 0

def aBlock : Block := { Block.blank with size := 4096, convoys := [0], state := .running }

def aLaunch : Launch := { Launch.blank with id := 1, queue := 0, rec_ := { LaunchRec.blank with blanes := 8, width := 8, budget8 := 2, program := 0x1000 }, nextBlock := 1 }

/-- A large page that maps the lowest 2 MiB to themselves, with every permission, A and D. -/
def aPage : W64 := 0xC0000000001F

def nopWord : W64 := 0xC0007FC000000000

/-- The key of a word of the user program of context 0 in the fetch buffers. -/
def user (a : Pc) : Nat := fetchKey 0 true a

def aCore : Core :=
  { Core.reset with tiles := [], slots := [{ Slot.closed with launch := some 0, positions := [some 0] }]
                    tlb := [{ ctx := 0, page := 0, large := true, leaf := aPage, leafAt := 0x6000 }]
                    ibuf := [(user 0x1008, nopWord), (user 0x1010, nopWord)] }

/-- The same page as a table in memory, for contexts 0 and 16: the root at 0x20000, its second level at 0x30000. -/
def aTable : Memory := [(0x20000, 0x01), (0x20002, 0x03), (0x30000, 0x1F), (0x30005, 0xC0)]

def aHub : Hub := { Hub.reset with ready := 0x1FF, roots := (Hub.reset.roots.set 0 0x20001).set 16 0x20001 }

def fo : Focus := { core := 0, slot := 0, convoy := 0, active := 0xFF, addr := 0x1000 }

/-- The small state with a convoy, executing the word at 0x1000. -/
def one (c : Convoy) : State :=
  { State.reset with convoys := [c], blocks := [aBlock], launches := [aLaunch], cores := [aCore], mem := aTable, hub := aHub, focus := some fo }

theorem active_low : ∀ l, 8 ≤ l → fo.active.getLsbD l = false := by
  intro l h
  show (BitVec.ofNat 64 255).getLsbD l = false
  rw [BitVec.getLsbD_ofNat, Nat.testBit_lt_two_pow (Nat.lt_of_lt_of_le (by decide : 255 < 2 ^ 8) (Nat.pow_le_pow_right (by decide) h)), Bool.and_false]

/-- What is to be decided of a state to be ready at the word. -/
def standsReady (s : State) : Bool :=
  s.focus == some fo && (s.convoy 0).width == 8 && decide (0 < s.convoys.length) && (s.convoy 0).core == 0 && (s.convoy 0).slot == 0 &&
  decide (0 < s.cores.length) && (s.convoy 0).lanes.length == 8 && s.sound && decide ((s.convoy 0).ready ≤ s.clock) &&
  pendingRegs s 0 == [] && (s.convoy 0).busy == [] && (s.convoy 0).errs == []

theorem ready_of {s : State} (h : standsReady s = true) : Ready s fo := by
  simp only [standsReady, Bool.and_eq_true, beq_iff_eq, decide_eq_true_eq] at h
  obtain ⟨⟨⟨⟨⟨⟨⟨⟨⟨⟨⟨h1, h2⟩, h3⟩, h4⟩, h5⟩, h6⟩, h7⟩, h8⟩, h9⟩, h10⟩, h11⟩, h12⟩ := h
  exact ⟨h1, fun l hl => active_low l (h2 ▸ hl), h3, ⟨h4.symm, h5.symm, h6⟩, h7.trans h2.symm, h8, h9, h10, h11, h12⟩

/-- What is to be decided of a word that issues for the lanes of e. -/
def issuesFor (e : Mask) (s : State) (h : Hdr) (uses : List (Opnd × Nat)) (dests : List Opnd) : Bool :=
  execSet h (s.convoy 0) fo.active == e && e != 0 && uses.all (fun p => !overBudget (s.convoy 0).budget p.1 p.2) &&
  (backEdge (s.convoy 0) fo.addr == none || fo.active == (s.convoy 0).live) && dests.all (fun d => !isUniformDest d || e == (s.convoy 0).live)

theorem issues_of {s : State} {h : Hdr} {uses : List (Opnd × Nat)} {dests : List Opnd} {e : Mask} (hr : standsReady s = true)
    (hi : issuesFor e s h uses dests = true) : Issues s fo h uses dests e := by
  simp only [issuesFor, Bool.and_eq_true, Bool.or_eq_true, beq_iff_eq, bne_iff_ne, List.all_eq_true, Bool.not_eq_true'] at hi
  obtain ⟨⟨⟨⟨h1, h2⟩, h3⟩, h4⟩, h5⟩ := hi
  refine { toReady := ready_of hr, set := h1, some := h2, fits := h3, edge := h4, whole := fun d hd hu => ?_ }
  rcases h5 d hd with h6 | h6
  · exact absurd hu (by rw [h6]; decide)
  · exact h6

/-- The hypotheses of a claim about a word, met by a word and a state. -/
def Meets {W : Type} (p : WordClaim W) (w : W) (s : State) (e : Mask) : Prop :=
  (p.word w).WellFormed ∧ Issues s fo (p.hdr w) (p.uses w) (p.dests w) e ∧ p.ok s fo e w

/-- The checks of a global word pass, and more holds of what they leave. -/
def reachesWith (s : State) (size : Nat) (reads write : Bool) (as : List (Nat × Nat)) (order : State → OrderRes) (more : State → List LaneAddr → Bool) : Bool :=
  match checkWord s (convoyReq s (s.convoy 0) write) size reads as with
  | .ok s1 lanes => (readOwners s1 (s1.convoy 0) lanes).isNone && (match order s1 with
      | .ok s2 _ => more s2 lanes
      | _ => false)
  | _ => false

theorem reached_of {s : State} {size : Nat} {reads write : Bool} {as : List (Nat × Nat)} {order : State → OrderRes} {more : State → List LaneAddr → Bool}
    (h : reachesWith s size reads write as order more = true) :
    ∃ s2 lanes info, Reached s fo size reads write as order s2 lanes info ∧ more s2 lanes = true := by
  unfold reachesWith at h
  split at h
  · rename_i s1 lanes h1
    rw [Bool.and_eq_true, Option.isNone_iff_eq_none] at h
    obtain ⟨h2, h3⟩ := h
    split at h3
    · rename_i s2 info h4
      exact ⟨s2, lanes, info, ⟨s1, h1, h2, h4⟩, h3⟩
    · exact absurd h3 (by decide)
  · exact absurd h (by decide)

theorem one_ready : standsReady (one aConvoy) = true := by decide


/-! ### Witnesses: for each statement, a state and operands that meet its hypotheses. -/

def withS (n : Nat) (v : W64) : Convoy := aConvoy.writeS n v

theorem witness_IntegerWordsComplete : let w := fw (.v 14) (.v 15) (.s 63) no
    (Instr.iadd w).WellFormed ∧ w.d.isAReg = false ∧ Issues (one aConvoy) fo w.hdr (intUses w) [w.d] 0xFF :=
  ⟨by decide, by decide, issues_of one_ready (by decide)⟩

def strided : Convoy := (aConvoy.writeA 1 { base := 5, stride := 0x7FFFFFFE }).writeA 2 { base := 7, stride := 1 }

theorem witness_AffineWords : let w := fw (.a 0) (.a 1) (.a 2) no
    let r := (readAffine (one strided) strided w.x).stride.toInt + (readAffine (one strided) strided w.y).stride.toInt
    (Instr.iadd w).WellFormed ∧ w.d.isAReg = true ∧ Issues (one strided) fo w.hdr (intUses w) [w.d] 0xFF ∧ w.bit 5 = false ∧ r = 2 ^ 31 - 1 :=
  ⟨by decide, by decide, issues_of (by decide) (by decide), by decide, by decide⟩

theorem witness_AffineWords_trap : let w := fw (.a 0) (.a 1) (.a 1) no
    let r := (readAffine (one strided) strided w.x).stride.toInt + (readAffine (one strided) strided w.y).stride.toInt
    (Instr.iadd w).WellFormed ∧ Issues (one strided) fo w.hdr (intUses w) [w.d] 0xFF ∧ (strided.priv < 2) ∧ w.bit 5 = false ∧ ¬ (-(2 ^ 31) ≤ r ∧ r < 2 ^ 31) :=
  ⟨by decide, issues_of (by decide) (by decide), by decide, by decide, by decide⟩

/-- MOV, and AFF with the lowest stride there is. -/
theorem witness_MovingWordsComplete : (∃ p ∈ movingClaims, ∃ w, Meets p w (one aConvoy) 0xFF) ∧
    ∃ p ∈ movingClaims, ∃ w, Meets p w (one (withS 2 0xFFFFFFFF80000000)) 0xFF :=
  ⟨⟨movingClaims[0], List.getElem_mem _, fw (.v 15) (.s 3) no no, by decide, issues_of one_ready (by decide), trivial⟩,
   ⟨movingClaims[2], List.getElem_mem _, fw (.a 31) (.s 1) (.s 2) no, by decide, issues_of (by decide) (by decide), .inr (by decide)⟩⟩

theorem witness_FloatWordsComplete : ∃ p ∈ floatClaims, ∃ w, Meets p w (one aConvoy) 0xFF :=
  ⟨floatClaims[0], List.getElem_mem _, fw (.v 15) (.v 14) (.s 3) no, by decide, issues_of one_ready (by decide), trivial⟩

/-- CVT8, and the narrowing CVT4 of zeros. -/
theorem witness_NarrowWordsComplete : (∃ p ∈ narrowClaims, ∃ w, Meets p w (one aConvoy) 0xFF) ∧
    ∃ w, w.bit 6 = false ∧ Meets narrowClaims[1] w (one aConvoy) 0xFF :=
  ⟨⟨narrowClaims[2], List.getElem_mem _, fw (.v 15) (.v 14) no no, by decide, issues_of one_ready (by decide), trivial⟩,
   ⟨fw (.v 1) (.v 2) (.v 3) (.v 4), by decide, by decide, issues_of one_ready (by decide), .inr (by decide)⟩⟩

theorem witness_LaneWordsComplete : ∃ p ∈ laneClaims, ∃ w, Meets p w (one aConvoy) 0xFF :=
  ⟨laneClaims[0], List.getElem_mem _, fw (.v 15) (.v 14) (.imm 1) no 0x60, by decide, issues_of one_ready (by decide), trivial⟩

theorem witness_MomentWordsComplete : ∃ p ∈ momentClaims, ∃ w, Meets p w (one aConvoy) 0xFF :=
  ⟨momentClaims[0], List.getElem_mem _, fw (.m 7) no no no, by decide, issues_of one_ready (by decide), trivial⟩

theorem witness_ImmediateWordsComplete : (∃ w, Meets movpcClaim w (one aConvoy) 0xFF) ∧ (∃ p ∈ immediateClaims, ∃ w, Meets p w (one aConvoy) 0xFF) ∧
    ∃ w, Meets pairClaim w (one aConvoy) 0xFF :=
  ⟨⟨{ hdr := quiet, d := .s 63, disp := 8, mod := 0 }, by decide, issues_of one_ready (by decide), trivial⟩,
   ⟨immediateClaims[0], List.getElem_mem _, iw (.v 15) 7, by decide, issues_of one_ready (by decide), trivial⟩,
   ⟨{ stall := 0, y := false, h1 := { pop := .iadd, d := 1, x := .v 13, hm := 0 }, h2 := { pop := .mov, d := 14, x := .v 15, hm := 0 } },
     by decide, issues_of one_ready (by decide), trivial⟩⟩

def level (last : Pc) : LoopLevel := { count := 2, counter := 0, first := 0x0FF8, last := last, owner := 0, suspended := false, words := [] }

/-- LPAD whose budget just fits; BRA, CALL with the last pair, LOOPBRK in an open level. -/
theorem witness_BranchWords : (∃ p ∈ controlClaims, ∃ w, Meets p w (one aConvoy) 0xFF) ∧
    (let w := cw no 0 0xFFFFFF; (Instr.bra w).WellFormed ∧ Issues (one aConvoy) fo w.hdr [] [] 0xFF) ∧
    (let w := cw (.v 14) 0 2; (Instr.call w).WellFormed ∧ Issues (one aConvoy) fo w.hdr [(w.opr, 2)] [] 0xFF) ∧
    (let w := cw no; let c := { aConvoy with loops := [level 0x2000] }
     (Instr.loopbrk w).WellFormed ∧ Issues (one c) fo w.hdr [] [] 0xFF ∧ 0xFF = c.live ∧ backEdge c fo.addr = none ∧
       c.loops = [] ++ level 0x2000 :: [] ∧ (level 0x2000).suspended = false) :=
  ⟨⟨controlClaims[2], List.getElem_mem _, cw no 2, by decide, issues_of one_ready (by decide), (Nat.le_refl 16 : 8 * 2 ≤ 16)⟩,
   ⟨by decide, issues_of one_ready (by decide)⟩, ⟨by decide, issues_of one_ready (by decide)⟩,
   ⟨by decide, issues_of (by decide) (by decide), by decide, by decide, rfl, rfl⟩⟩

def callWord : W64 := encodeC 3 (cw (.v 4))

def padWord : W64 := encodeC 6 (cw no 2 5)

/-- The small state with words in the fetch buffers. -/
def oneWith (ws : List (Nat × W64)) (c : Convoy) : State := { one c with cores := [{ aCore with ibuf := ws }] }

/-- Every lane's pair V2 returns behind a CALL. -/
def calledConvoy : Convoy := aConvoy.writeV 0xFF 2 fun _ => 0x1010

/-- A table at 0x2000: label 5, bound 1, one entry, which leads to 0x2050. -/
def tableMem : Memory := [(0x2000, 5), (0x2002, 1), (0x2010, 0x50)] ++ aTable

def tabled : State := { oneWith [(user 0x2050, padWord)] (withS 8 0x2000) with mem := tableMem }

def isTarget : TableLane → Bool
  | .target _ => true
  | _ => false

theorem target_of {ts : List (Nat × TableLane)} (h : (ts.all fun p => isTarget p.2) = true) : ∀ p ∈ ts, ∃ x, p.2 = .target x := by
  intro p hp
  have h1 := List.all_eq_true.mp h p hp
  cases h2 : p.2 with
  | target x => exact ⟨x, rfl⟩
  | _ => rw [h2] at h1; exact Bool.noConfusion h1

/-- RET behind a CALL in every lane; JMPT and CALLT through a table with one entry, the last that its bound allows. -/
theorem witness_ReturnAndTableWords :
    (let w := cw (.v 2); let s := oneWith [(user 0x1008, callWord)] calledConvoy
     (Instr.ret w).WellFormed ∧ Issues s fo w.hdr [(w.opr, 2)] [] 0xFF ∧
       ∀ l, l < 8 → returnsToCall s 0 (readW64 s (s.convoy 0) l w.opr) = some true) ∧
    (let w := cw (.s 1) (8 + 64 * 14)
     (∃ s1 s2 h at_ ts, readItem tabled fo 0xFF 0x2000 16 16 false = .ok s1 h at_ ∧ bytesNat h 2 2 = 1 ∧ (h.drop 4).any (· != 0) = false ∧
       tableLanes s1 fo 0x2000 (bytesNat h 0 2) 1 16 ((lanesOf 8 0xFF).map fun l => (l, readU tabled (tabled.convoy 0) w.opr)) = (s2, ts) ∧
       ∀ p ∈ ts, ∃ x, p.2 = .target x) ∧
     (Instr.jmpt (cw (.s 1) 8)).WellFormed ∧ Issues tabled fo w.hdr [(.s 1, 1), (.s 8, 1)] [] 0xFF ∧
     (Instr.callt w).WellFormed ∧ Issues tabled fo w.hdr [(.s 1, 1), (.s 8, 1), (.v 14, 2)] [] 0xFF) :=
  ⟨⟨by decide, issues_of (by decide) (by decide), by decide⟩,
   ⟨⟨_, _, _, _, _, rfl, by decide, by decide, rfl, target_of (by decide)⟩, by decide, issues_of (by decide) (by decide), by decide,
    issues_of (by decide) (by decide)⟩⟩

/-- LOOP with the shortest body, one NOP, and a last open level, also in a body that ends with that one or goes on past it, here over the end of the address space; the end of a body that starts again, and one whose count is reached. -/
theorem witness_LoopWords :
    ({ level 0x1000 with last := 0x1008 }.spans fo.addr = true ∧ { level 0x1000 with last := 0x1010 }.place fo.addr + 1 < { level 0x1000 with last := 0x1010 }.size ∧
      { level 0x1008 with first := 0xFFFFFFFFFFF8 }.spans fo.addr = true ∧ { level 0x1008 with first := 0xFFFFFFFFFFF8 }.place fo.addr + 1 < { level 0x1008 with first := 0xFFFFFFFFFFF8 }.size) ∧
    (let w := cw (.s 1) 0 1
     (Instr.loop w).WellFormed ∧ Issues (one aConvoy) fo w.hdr [(w.opr, 1)] [] 0xFF ∧ 0xFF = aConvoy.live ∧
       (aConvoy.loops.filter fun v => !v.suspended).length < 3 ∧ backEdge aConvoy fo.addr = none ∧
       ∃ s1 ws, fetchBody 0 1 0x1008 (one aConvoy) [] = .words s1 ws ∧ mayEndBody (ws.getLastD 0) = true) ∧
    (let c := { aConvoy with loops := [level 0x1000] }; let s := one c
     0 < s.convoys.length ∧ c.lanes.length = c.width ∧ backEdge c fo.addr = some (0, level 0x1000) ∧ (level 0x1000).counter.toNat + 1 < (level 0x1000).count.toNat) ∧
    backEdge { aConvoy with loops := [{ level 0x1000 with counter := 1 }] } fo.addr = some (0, { level 0x1000 with counter := 1 }) :=
  ⟨by decide, ⟨by decide, issues_of one_ready (by decide), by decide, by decide, by decide, _, _, rfl, by decide⟩, ⟨by decide, by decide, by decide, by decide⟩, by decide⟩

/-- The convoy with K1 the lowest four lanes. -/
def halved : Convoy := aConvoy.writeK 0xFF 1 0x0F

def guarded (h : Hdr) : Hdr := { h with gk := 1 }

/-- EXIT of half the lanes, and of all of them. -/
theorem witness_ExitWord :
    (let w := { cw no with hdr := guarded quiet }
     (Instr.exit w).WellFormed ∧ Issues (one halved) fo w.hdr [] [] 0x0F ∧ halved.barl = none ∧ backEdge halved fo.addr = none ∧ halved.live &&& ~~~ 0x0F#64 ≠ 0) ∧
    (let w := cw no; (Instr.exit w).WellFormed ∧ Issues (one aConvoy) fo w.hdr [] [] 0xFF ∧ aConvoy.live &&& ~~~ 0xFF#64 = 0 ∧
      aConvoy.block < (one aConvoy).blocks.length ∧ ((one aConvoy).blockOf aConvoy).state = .running ∧
      ∀ ci ∈ ((one aConvoy).blockOf aConvoy).convoys, ci = fo.convoy ∨ ((one aConvoy).convoy ci).ended = true) ∧
    (let w := fw (.k 0) (.k 7) (.k 7) no
     (Instr.kop w).WellFormed ∧ w.d = .k 0 ∧ Issues (one aConvoy) fo w.hdr [(w.x, 1), (w.y, 1), (w.d, 1)] [w.d] 0xFF) :=
  ⟨⟨by decide, issues_of (by decide) (by decide), by decide, by decide, by decide⟩,
   ⟨by decide, issues_of one_ready (by decide), by decide, by decide, by decide, by decide⟩, by decide, rfl, issues_of one_ready (by decide)⟩

theorem witness_SoftwareTraps : let w := cw no 0xFF
    Issues (one aConvoy) fo w.hdr [] [] 0xFF ∧ aConvoy.priv < 2 ∧ backEdge aConvoy fo.addr = none ∧
    (∃ l, l < aConvoy.width ∧ fo.active.getLsbD l = true) ∧ (Instr.trap w).WellFormed ∧ (Instr.brk w).WellFormed :=
  ⟨issues_of one_ready (by decide), by decide, by decide, ⟨7, by decide⟩, by decide, by decide⟩

/-- A convoy in the supervisor state after a nested LIVELOCK, with one suspended level to open again and one of the handler's own. -/
def inHandler : Convoy :=
  { aConvoy with priv := 2, watch := true, trap := { TrapRegs.zero with status := 0x49 }, loops := [{ level 0x2000 with suspended := true }, { level 0x3000 with owner := 2 }] }

theorem witness_ReturnFromTrap : let w := cw no
    (Instr.eret w).WellFormed ∧ Issues (one inHandler) fo w.hdr [] [] 0xFF ∧ inHandler.priv ≠ 0 ∧ inHandler.watch = true ∧ inHandler.trap.status.getLsbD 3 = true ∧
    (inHandler.loops.filter fun v => v.suspended || v.owner != inHandler.priv)[0]? = some { level 0x2000 with suspended := true } ∧ ({ inHandler with trap := TrapRegs.zero }).trap.status.getLsbD 3 = false :=
  ⟨by decide, issues_of (by decide) (by decide), by decide, by decide, by decide, by decide, by decide⟩

theorem witness_DoubleTrap : 0 < (one inHandler).convoys.length ∧ ((one inHandler).convoy 0).priv = 2 := by decide

theorem live_low : ∀ l, 8 ≤ l → aConvoy.live.getLsbD l = false := active_low

theorem witness_TrapThenReturn : 0 < (one aConvoy).convoys.length ∧ aConvoy.priv < 2 ∧ aConvoy.lanes.length = aConvoy.width ∧ (0x1000 : Pc).toNat % 8 = 0 ∧
    (∀ l, aConvoy.width ≤ l → aConvoy.live.getLsbD l = false) ∧
    ∃ a b, aConvoy.loops = a ++ b ∧ (∀ v ∈ a, v.suspended = true) ∧ (∀ v ∈ b, v.suspended = false) ∧ b.length < 4 :=
  ⟨by decide, by decide, by decide, by decide, live_low, [], [], by decide, by decide, by decide, by decide⟩

def supervisor : Convoy := { aConvoy with priv := 2 }

/-- CSRR of a CSR that the user program may read, PERFR of the last counter; CSRW in the supervisor state. -/
theorem witness_RegisterWords : (∃ w, Meets registerClaims[0] w (one aConvoy) 0xFF) ∧ (∃ w, Meets registerClaims[1] w (one aConvoy) 0xFF) ∧
    (let w := fw no (.s 1) no no 0x18
     (Instr.csrw w).WellFormed ∧ Issues (one supervisor) fo w.hdr [(w.x, 1)] [] 0xFF ∧ 0xFF = supervisor.live ∧ supervisor.priv = 2) :=
  ⟨⟨fw (.s 63) no no no 0x0F, by decide, issues_of one_ready (by decide), (by decide : csrReadable 0 0x0F = true)⟩,
   ⟨fw (.s 63) (.imm 7) no no, by decide, issues_of one_ready (by decide), trivial⟩,
   ⟨by decide, issues_of (by decide) (by decide), by decide, by decide⟩⟩

theorem witness_SupervisorWords :
    (let w := fw no (.imm 1) no no 0x20; (Instr.wdctlWrite w).WellFormed ∧ Issues (one supervisor) fo w.hdr [(w.x, 1)] [] 0xFF ∧ 0xFF = supervisor.live) ∧
    (let w := fw no (.imm 1) no no 0x37; (Instr.perfselWrite w).WellFormed ∧ Issues (one supervisor) fo w.hdr [(w.x, 1)] [] 0xFF ∧
      ((one supervisor).core 0).perfsel.length = 8) ∧
    (let w := fw no (.imm 1) no no 0x22; (Instr.killCsrWrite w).WellFormed ∧ Issues (one supervisor) fo w.hdr [(w.x, 1)] [] 0xFF ∧
      (readU (one supervisor) supervisor w.x).getLsbD 0 = true ∧ ((one supervisor).launchOf supervisor).completed = false ∧
      ((one supervisor).launchOf supervisor).terminated = none ∧ supervisor.launch < (one supervisor).launches.length) ∧
    (let w := fw no (.imm 0) no no 0x22; (Instr.killCsrWrite w).WellFormed ∧ Issues (one supervisor) fo w.hdr [(w.x, 1)] [] 0xFF ∧
      (readU (one supervisor) supervisor w.x).getLsbD 0 = false) ∧
    (let w := cw no; (Instr.park w).WellFormed ∧ Issues (one supervisor) fo w.hdr [] [] 0xFF ∧ supervisor.priv = 2) ∧
    (let w := fw no (.s 1) (.s 2) no; let c := { supervisor with s := (supervisor.s.set 1 0xFFFFFFFFFFFF).set 2 16 }
     (Instr.tlbinv w).WellFormed ∧ Issues (one c) fo w.hdr [(w.x, 1), (w.y, 1)] [] 0xFF ∧
       (readU (one c) c w.y).toNat ≤ 16 ∧ (readU (one c) c w.x).toNat < 2 ^ 48 ∧ invWaits (one c) (some 16) (some 0xFFFFFFFFFFFF) = false) ∧
    (let w := fw no no no no 2; (Instr.cacheop w).WellFormed ∧ Issues (one supervisor) fo w.hdr [] [] 0xFF) :=
  ⟨⟨by decide, issues_of (by decide) (by decide), by decide⟩, ⟨by decide, issues_of (by decide) (by decide), by decide⟩,
   ⟨by decide, issues_of (by decide) (by decide), by decide, by decide, by decide, by decide⟩, ⟨by decide, issues_of (by decide) (by decide), by decide⟩,
   ⟨by decide, issues_of (by decide) (by decide), by decide⟩, ⟨by decide, issues_of (by decide) (by decide), by decide, by decide, by decide⟩,
   ⟨by decide, issues_of (by decide) (by decide)⟩⟩

/-- In the user program: CSRW, CSRR of a trap register, PARK, ERET. -/
theorem witness_PrivilegeTraps : aConvoy.priv < 2 ∧
    (let w := fw no (.s 1) no no 0x18; Issues (one aConvoy) fo w.hdr [(w.x, 1), (w.y, 1)] [] 0xFF ∧ 0xFF = aConvoy.live ∧ (Instr.csrw w).WellFormed) ∧
    (let w := fw (.s 1) no no no 0x08; Issues (one aConvoy) fo w.hdr (plainUses 1 w) [w.d] 0xFF ∧ (Instr.csrr w).WellFormed ∧ csrReadable aConvoy.priv 0x08 = false) ∧
    (let w := cw no; Issues (one aConvoy) fo w.hdr [] [] 0xFF ∧ (Instr.park w).WellFormed ∧ (Instr.eret w).WellFormed ∧ aConvoy.priv = 0) :=
  ⟨by decide, ⟨issues_of one_ready (by decide), by decide, by decide⟩, ⟨issues_of one_ready (by decide), by decide, by decide⟩,
   issues_of one_ready (by decide), by decide, by decide, by decide⟩

/-- LD, ST and ATOM at the last word of the page, through S1. -/
def atEnd : Convoy := withS 1 0x1FFFFC

theorem witness_ChecksOfAddresses : (one atEnd).sound = true ∧ ∃ s1 lanes, checkWord (one atEnd) (convoyReq (one atEnd) atEnd true) 4 false [(0, 0x1FFFFC)] = .ok s1 lanes :=
  ⟨by decide, _, _, rfl⟩

theorem witness_LoadWord : let w := fw (.v 15) (.s 1) (.imm 0) no 2
    (Instr.ld w).WellFormed ∧ Issues (one atEnd) fo w.hdr [(w.x, 2), (w.y, 1), (w.z, 1), (w.d, regsOfSize (accessSize w))] [w.d] 0xFF ∧
    ∃ s2 lanes info, Reached (one atEnd) fo (accessSize w) true false (laneAddrs atEnd 0xFF w.x w.y) (tagOrder fo 2 (tagOf atEnd w.z) 0xFF w.x (laneAddrs atEnd 0xFF w.x w.y)) s2 lanes info ∧ true = true :=
  ⟨by decide, issues_of (by decide) (by decide), reached_of (by decide)⟩

theorem witness_StoreWord : let w := fw no (.s 1) (.imm 0) (.v 15) 2
    (Instr.st w).WellFormed ∧ Issues (one atEnd) fo w.hdr [(w.x, 2), (w.y, 1), (w.z, regsOfSize (accessSize w)), (w.d, 1)] [] 0xFF ∧
    ∃ s2 lanes info, Reached (one atEnd) fo (accessSize w) false true (laneAddrs atEnd 0xFF w.x w.y) (tagOrder fo 1 (tagOf atEnd w.d) 0xFF w.x (laneAddrs atEnd 0xFF w.x w.y)) s2 lanes info ∧
      (quotaCause s2 atEnd lanes).isNone = true :=
  ⟨by decide, issues_of (by decide) (by decide), reached_of (by decide)⟩

/-- The tag register of an atomic is S2; lanes that name one location by one address, and by two. -/
theorem witness_AtomicWord :
    (let one : List LaneAddr := [{ lane := 0, va := 8, pa := 4, leaf := 0 }, { lane := 7, va := 8, pa := 4, leaf := 0 }]
     groupLanes one one = [([0, 7], { lane := 0, va := 8, pa := 4, leaf := 0 })] ∧ ∀ a ∈ one, a.va = 8) ∧
    (let two : List LaneAddr := [{ lane := 0, va := 8, pa := 4, leaf := 0 }, { lane := 7, va := 16, pa := 4, leaf := 0 }]
     ∀ g ∈ groupLanes two two, ∃ a ∈ two, a.pa = g.2.pa ∧ a.va ≠ g.2.va) ∧
    let w := fw (.v 15) (.s 1) (.v 14) (.s 2) 0
    let as := laneAddrs atEnd 0xFF w.x (.sp 0x3F)
    (Instr.atom w).WellFormed ∧ Issues (one atEnd) fo w.hdr [(w.x, 2), (w.y, 1), (w.z, 1), (w.d, 1)] [w.d] 0xFF ∧ atomIsPair (atomOp w) (atomMmrg w) = false ∧
    ∃ s2 lanes info, Reached (one atEnd) fo 4 true true as (fun s1 => orderWord s1 0 { kind := 3, tag := (tagOf atEnd w.z).getD 0, opcode := 0, cls := 0 } 0xFF true as) s2 lanes info ∧
      (quotaCause s2 atEnd lanes).isNone = true :=
  ⟨⟨rfl, by decide⟩, by decide, by decide, issues_of (by decide) (by decide), by decide, reached_of (by decide)⟩

/-- The last bytes of the allocation: LDL and STL of four bytes, ATOML of a word. -/
theorem witness_LocalWords : let w := fw (.v 15) (.s 1) (.imm 0) no 2; let c := withS 1 4092; let s := one c
    (Instr.ldl w).WellFormed ∧ Issues s fo w.hdr [(w.x, 1), (w.y, 1), (w.d, 1)] [w.d] 0xFF ∧ localCause (lsOf s c) (s.blockOf c).size 4 true false (laneOffs c 0xFF w.x w.y) = none ∧
    (let w := fw no (.s 1) (.imm 0) (.v 15) 2
     (Instr.stl w).WellFormed ∧ Issues s fo w.hdr [(w.x, 1), (w.y, 1), (w.z, 1)] [] 0xFF ∧ localCause (lsOf s c) (s.blockOf c).size 4 false true (laneOffs c 0xFF w.x w.y) = none) ∧
    (let w := fw (.v 15) (.s 1) (.v 14) no 0
     (Instr.atoml w).WellFormed ∧ Issues s fo w.hdr [(w.x, 1), (w.y, 1), (w.d, 1)] [w.d] 0xFF ∧ localCause (lsOf s c) (s.blockOf c).size 4 true true (laneOffs c 0xFF w.x (.sp 0x3F)) = none) :=
  ⟨by decide, issues_of (by decide) (by decide), by decide, ⟨by decide, issues_of (by decide) (by decide), by decide⟩,
   by decide, issues_of (by decide) (by decide), by decide⟩

/-- MLD and MST of the last moment of the allocation, and of global memory. -/
theorem witness_MomentMemoryWords : let c := withS 1 4080; let s := one c
    (let w := fw (.m 7) (.s 1) (.imm 0) no 1; (Instr.mld w).WellFormed ∧ Issues s fo w.hdr [(w.x, 1), (w.y, 1), (w.d, 1)] [w.d] 0xFF ∧
      localCause (lsOf s c) (s.blockOf c).size 16 true false (laneOffs c 0xFF w.x w.y) = none) ∧
    (let w := fw no (.s 1) (.imm 0) (.m 7) 1; (Instr.mst w).WellFormed ∧ Issues s fo w.hdr [(w.x, 1), (w.y, 1), (w.z, 1)] [] 0xFF ∧
      localCause (lsOf s c) (s.blockOf c).size 16 false true (laneOffs c 0xFF w.x w.y) = none) ∧
    (let w := fw (.m 7) (.s 1) (.imm 0) no 0; let as := (lanesOf 8 0xFF).map fun l => (l, (baseOf c l w.x + dispOf c 16 w.y).toNat)
     (Instr.mld w).WellFormed ∧ Issues s fo w.hdr [(w.x, 2), (w.y, 1), (w.d, 1)] [w.d] 0xFF ∧
      ∃ s1 lanes info, Reached s fo 16 true false as (fun s1 => .ok s1 []) s1 lanes info ∧ true = true) ∧
    (let w := fw no (.s 1) (.imm 0) (.m 7) 0; let as := (lanesOf 8 0xFF).map fun l => (l, (baseOf c l w.x + dispOf c 16 w.y).toNat)
     (Instr.mst w).WellFormed ∧ Issues s fo w.hdr [(w.x, 2), (w.y, 1), (w.z, 1)] [] 0xFF ∧
      ∃ s1 lanes info, Reached s fo 16 false true as (fun s1 => .ok s1 []) s1 lanes info ∧ (quotaCause s1 c lanes).isNone = true) :=
  ⟨⟨by decide, issues_of (by decide) (by decide), by decide⟩, ⟨by decide, issues_of (by decide) (by decide), by decide⟩,
   ⟨by decide, issues_of (by decide) (by decide), reached_of (by decide)⟩, by decide, issues_of (by decide) (by decide), reached_of (by decide)⟩

/-- What is to be decided of a convoy without a hold of a kind. -/
theorem noHold_of {c : Convoy} {p : Hold → Bool} (h : (c.holds ++ c.rvHolds ++ c.hrvHolds).all (fun h => !p h) = true) : NoHold c p := by
  intro x hx
  simpa using List.all_eq_true.mp h x hx

/-- PREF into the L1, and FENCE at SYS with nothing in flight. -/
theorem witness_PrefetchAndFence :
    (let w := fw no (.s 1) (.imm 0) no; (Instr.pref w).WellFormed ∧ Issues (one atEnd) fo w.hdr [(w.x, 2), (w.y, 1)] [] 0xFF) ∧
    (let w := fw no no no no 0x50
     (Instr.fence w).WellFormed ∧ Issues (one aConvoy) fo w.hdr [] [] 0xFF ∧ scopeActs ((one aConvoy).launchOf aConvoy) w.scope.toNat = true ∧ (one aConvoy).accesses = []) :=
  ⟨⟨by decide, issues_of (by decide) (by decide)⟩, by decide, issues_of one_ready (by decide), by decide, rfl⟩

/-- A MWAIT.G that holds its lanes: it waits for the word at 0x20000 to be S2. -/
def waitWord : FWord := fw (.s 1) (.s 3) (.s 2) no 0x00

def held (c : Convoy) (k : HoldKind) : Convoy := { c with holds := [{ lanes := c.live, pc := 0x1000, kind := k, y := false }] }

/-- Words of local store, with the comparison that holds and the one that fails, and with the stamp reached, and one ahead by the most there is; a re-read of either sort. -/
theorem witness_WaitWords :
    (let w := fw (.s 1) (.s 3) (.imm 0) no 0x80; let c := withS 3 4088
     (Instr.mwait w).WellFormed ∧ Issues (one c) fo w.hdr [(w.x, 2), (w.y, 1), (w.z, 1), (w.d, 1)] [w.d] 0xFF ∧
       ∃ s1 bs at_, waitRead (one c) fo c 0xFF w.x true = .ok s1 bs at_ ∧ intCond (w.fld 0 4) (BitVec.ofNat 64 (leNat bs)) (readU (one c) c w.y) = true) ∧
    (let w := fw (.s 1) (.s 3) (.imm 1) no 0x00; let c := withS 3 0x1FFFF8
     (Instr.mwait w).WellFormed ∧ Issues (one c) fo w.hdr [(w.x, 2), (w.y, 1), (w.z, 1), (w.d, 1)] [w.d] 0xFF ∧
       ∃ s1 bs at_, waitRead (one c) fo c 0xFF w.x false = .ok s1 bs at_ ∧ sharedAt s1 c at_ = false ∧
         intCond (w.fld 0 4) (BitVec.ofNat 64 (leNat bs)) (readU (one c) c w.y) = false) ∧
    (let w := fw (.s 1) (.s 3) (.s 2) no 0x11; let c := (withS 3 4088).writeS 2 (1#64 + 2 ^ 55)
     (Instr.waitstamp w).WellFormed ∧ Issues (one c) fo w.hdr [(w.x, 2), (w.y, 1), (w.d, 1)] [w.d] 0xFF ∧
       ∃ s1 bs at_, waitRead (one c) fo c 0xFF w.x true = .ok s1 bs at_ ∧ leNat bs = 0 ∧
         (0 + 2 ^ 56 - (readU (one c) c w.y).toNat % 2 ^ 56) % 2 ^ 56 < 2 ^ 55) ∧
    (let w := fw (.s 1) (.s 3) (.s 2) no 0x11; let c := (withS 3 4088).writeS 2 (2 ^ 55)
     (Instr.waitstamp w).WellFormed ∧ Issues (one c) fo w.hdr [(w.x, 2), (w.y, 1), (w.d, 1)] [w.d] 0xFF ∧
       ∃ s1 bs at_, waitRead (one c) fo c 0xFF w.x true = .ok s1 bs at_ ∧ leNat bs = 0 ∧
         2 ^ 55 ≤ (0 + 2 ^ 56 - (readU (one c) c w.y).toNat % 2 ^ 56) % 2 ^ 56) ∧
    (∀ v ∈ [0x30001#64, 2#64], let c := held ((withS 3 0x20000).writeS 2 v) (.retry (.mwait waitWord)); let s := one c
     (Instr.mwait waitWord).WellFormed ∧ s.sound = true ∧ waitWord.bit 7 = false ∧ (∀ k ∈ c.holds, (mwaitWord k).isSome = true → k = c.holds.headD { lanes := 0, pc := 0, kind := .cross, y := false }) ∧
       ∃ s1 bs at_, waitRead s { core := 0, slot := 0, convoy := 0, active := 0xFF, addr := 0x1000 } c (execSet waitWord.hdr c 0xFF) waitWord.x false = .ok s1 bs at_ ∧
         mwaitTrue s c waitWord (BitVec.ofNat 64 (leNat bs)) = (v == 0x30001)) :=
  ⟨⟨by decide, issues_of (by decide) (by decide), _, _, _, rfl, by decide⟩, ⟨by decide, issues_of (by decide) (by decide), _, _, _, rfl, by decide, by decide⟩,
   ⟨by decide, issues_of (by decide) (by decide), _, _, _, rfl, by decide, by decide⟩, ⟨by decide, issues_of (by decide) (by decide), _, _, _, rfl, by decide, by decide⟩,
   by
    intro v hv
    simp only [List.mem_cons, List.not_mem_nil, or_false] at hv
    rcases hv with rfl | rfl
    · exact ⟨by decide, by decide, by decide, by decide, _, _, _, rfl, by decide⟩
    · exact ⟨by decide, by decide, by decide, by decide, _, _, _, rfl, by decide⟩⟩

/-- Two convoys in the block, the second with index 1, and a barrier object at 4088: the last place of the allocation. -/
def pairOf (c d : Convoy) (object : Memory) : State :=
  { one c with convoys := [c, { d with index := 1, pos := 1 }], blocks := [{ aBlock with convoys := [0, 1], ls := { LocalStore.empty with mem := object } }]
               cores := [{ aCore with slots := [{ Slot.closed with launch := some 0, positions := [some 0, some 1] }] }] }

/-- Members 0 and 1; generation 1; and who has arrived. -/
def object (arrived : Byte) : Memory := if arrived = 0 then [(4090, 1), (4094, 3)] else [(4090, 1), (4092, arrived), (4094, 3)]

/-- What the barrier words need of the object and the mask. -/
def objectOk (s : State) (m : BitVec 16) : Bool :=
  decide (4088 + 8 ≤ (s.block 0).size) && (m != 0) && (m &&& ~~~ blockMembers (s.block 0) == 0) && ((s.block 0).ls.errs == []) &&
  (objMember ((s.block 0).ls.word 4088) == m) && m.getLsbD (s.convoy 0).index

/-- BARINIT of an object without arrivals, and of one like it with one; an arrival that does not complete the members; one that does, while the other convoy holds; BARWT of the generation the object shows, and of another. -/
theorem witness_BarrierWords : let c := withS 1 4088
    (∀ a ∈ [0#8, 2#8], let w := fw no (.s 1) (.imm 3) no; let s := pairOf c aConvoy (object a)
      (Instr.barinit w).WellFormed ∧ (Instr.bar w).WellFormed ∧ Issues s fo w.hdr [(w.x, 1), (w.y, 1), (w.z, 1), (w.d, 1)] [w.d] 0xFF ∧ 0xFF = c.live ∧
        ((baseOf c 0 w.x).setWidth 32).toNat = 4088 ∧ objectOk s ((readU s c w.y).setWidth 16) = true ∧ (objArrived ((s.block 0).ls.word 4088) = a.setWidth 16)) ∧
    (let w := fw (.s 5) (.s 1) (.imm 3) no; let s := pairOf c aConvoy (object 0)
     (Instr.bararv w).WellFormed ∧ Issues s fo w.hdr [(w.x, 1), (w.y, 1), (w.z, 1), (w.d, 1)] [w.d] 0xFF ∧ c.index < 16 ∧ releaseMustWait s fo c 1 = false ∧
       (objArrived ((s.block 0).ls.word 4088)).getLsbD c.index = false ∧ NoHold c (fun h => h.kind == .bar 4088 1) ∧ (s.launchOf c).recording = false ∧
       objArrived ((s.block 0).ls.word 4088) ||| BitVec.ofNat 16 (2 ^ c.index) ≠ 3) ∧
    (let w := fw (.s 5) (.s 1) (.imm 3) no; let s := pairOf c (held aConvoy (.bar 4088 1)) (object 2)
     Issues s fo w.hdr [(w.x, 1), (w.y, 1), (w.z, 1), (w.d, 1)] [w.d] 0xFF ∧ releaseMustWait s fo c 1 = false ∧
       (objArrived ((s.block 0).ls.word 4088)).getLsbD c.index = false ∧ NoHold c (fun h => h.kind == .bar 4088 1) ∧ (s.launchOf c).recording = false ∧
       objArrived ((s.block 0).ls.word 4088) ||| BitVec.ofNat 16 (2 ^ c.index) = 3) ∧
    ∀ v ∈ [0#64, 1#64], let w := fw no (.s 1) (.imm 3) (.s 2); let c := c.writeS 2 v; let s := pairOf c aConvoy (object 0)
      (Instr.barwt w).WellFormed ∧ Issues s fo w.hdr [(w.x, 1), (w.y, 1), (w.z, 1), (w.d, 1)] [w.d] 0xFF ∧ objectOk s 3 = true ∧
        decide (objGen ((s.block 0).ls.word 4088) = (readU s c w.z).setWidth 16) = (v == 1) := by
  refine ⟨?_, ⟨by decide, issues_of (by decide) (by decide), by decide, by decide, by decide, noHold_of (by decide), by decide, by decide⟩,
    ⟨issues_of (by decide) (by decide), by decide, by decide, noHold_of (by decide), by decide, by decide⟩, ?_⟩
  · intro a ha
    simp only [List.mem_cons, List.not_mem_nil, or_false] at ha
    rcases ha with rfl | rfl <;> exact ⟨by decide, by decide, issues_of (by decide) (by decide), by decide, by decide, by decide, by decide⟩
  · intro v hv
    simp only [List.mem_cons, List.not_mem_nil, or_false] at hv
    rcases hv with rfl | rfl <;> exact ⟨by decide, issues_of (by decide) (by decide), by decide, by decide⟩

/-- A BARL of K1, the lowest four lanes: of the other lanes, of all four, and of two of them; the other two arrive at the second, and lane 2 alone does. -/
theorem witness_LaneBarrier : let w := fw no (.k 1) no no
    (Instr.barl w).WellFormed ∧
    (∀ g ∈ [0xF0#64, 0xFF, 0x03], let c := aConvoy.writeK 0xFF 1 0x0F; let c := c.writeK 0xFF 2 g; let w := { w with hdr := { quiet with gk := 2 } }
      Issues (one c) fo w.hdr [(w.x, 1)] [] g ∧ releaseMustWait (one c) fo c 1 = false ∧ backEdge c fo.addr = none ∧ c.barl = none ∧ NoHold c (fun h => h.kind == .barl)) ∧
    ∀ g ∈ [0x0C#64, 0x04], let c := aConvoy.writeK 0xFF 1 0x0F; let c := c.writeK 0xFF 2 g; let w := { w with hdr := { quiet with gk := 2 } }
      let c := { c with holds := [{ lanes := 0x03, pc := 0x1000, kind := .barl, y := false }], barl := some { addr := 0x1000, mask := 0x0F, arrived := 0x03 } }
      Issues (one c) fo w.hdr [(w.x, 1)] [] g ∧ backEdge c fo.addr = none ∧ readK c fo.active w.x &&& c.live = 0x0F &&& c.live ∧ g &&& 0x0F ≠ 0 ∧
        decide (0x0F &&& c.live &&& ~~~ (0x03 ||| g) = 0) = (g == 0x0C) ∧ (∀ h ∈ c.holds, h.kind = .barl → h.pc = fo.addr) ∧ c.rvHolds ++ c.hrvHolds = [] := by
  refine ⟨by decide, ?_, ?_⟩
  · intro g hg
    simp only [List.mem_cons, List.not_mem_nil, or_false] at hg
    rcases hg with rfl | rfl | rfl <;> exact ⟨issues_of (by decide) (by decide), by decide, by decide, by decide, noHold_of (by decide)⟩
  · intro g hg
    simp only [List.mem_cons, List.not_mem_nil, or_false] at hg
    rcases hg with rfl | rfl <;> exact ⟨issues_of (by decide) (by decide), by decide, by decide, by decide, by decide, by decide, by decide⟩

def resident (s : State) : State := { s with launches := [{ aLaunch with rec_ := { aLaunch.rec_ with flags := 0x10 } }] }

/-- CROSS while the other convoy runs, and when it holds for the crossing. -/
theorem witness_CrossWord : let w := fw no no no no
    (Instr.cross w).WellFormed ∧
    (∀ d ∈ [aConvoy, held aConvoy .cross], let s := resident (pairOf aConvoy d [])
      Issues s fo w.hdr [] [] 0xFF ∧ 0xFF = aConvoy.live ∧ (s.launchOf aConvoy).rec_.allResident = true ∧ releaseMustWait s fo aConvoy 3 = false ∧
        (s.launchOf aConvoy).recording = false ∧ (s.launchOf aConvoy).crossSlot = none ∧ (s.launchOf aConvoy).rec_.mode = 0 ∧
        NoHold aConvoy (fun h => h.kind == .cross) ∧ hasPending (s.launchOf aConvoy) = false ∧ backEdge aConvoy fo.addr = none) ∧
    NoHold ((pairOf aConvoy aConvoy []).convoy 1) (fun h => h.kind == .cross) ∧
    ¬ NoHold ((pairOf aConvoy (held aConvoy .cross) []).convoy 1) (fun h => h.kind == .cross) := by
  refine ⟨by decide, ?_, noHold_of (by decide), fun h => absurd (h _ (List.mem_cons_self ..)) (by decide)⟩
  intro d hd
  simp only [List.mem_cons, List.not_mem_nil, or_false] at hd
  rcases hd with rfl | rfl <;>
    exact ⟨issues_of (by decide) (by decide), by decide, by decide, by decide, by decide, by decide, by decide, noHold_of (by decide), by decide, by decide⟩

/-- The word of a buffered release at DEV. -/
def releasing : Sender := { core := 0, seq := 0, convoy := 0, number := 1, rel := true, acq := false, scope := 2 }

/-- A CANONICAL launch with both its convoys resident and one buffered store to a word of the page, a release. -/
def canonical (c d : Convoy) : State :=
  { pairOf c d [] with launches := [{ aLaunch with
      rec_ := { aLaunch.rec_ with flags := 0x10, mode := 1, grid := 1 }
      buffer := [{ block := 0, convoy := 0, lane := 7, order := 0, element := 0, va := 0x100000, pa := 0x100000, kind := .store [1, 2, 3, 4]
                   sender := releasing, waiting := 0 }] }] }

/-- The last CROSS while the other convoy runs; the last CROSS, or the EXIT, when it holds for the crossing; a crossing that is complete. -/
theorem witness_CommitOrder :
    (∀ d ∈ [aConvoy, held aConvoy .cross], let s := canonical aConvoy d; let l := s.launchOf aConvoy
      isCanonical l = true ∧ aConvoy.launch < s.launches.length ∧ l.recording = false ∧ l.crossSlot = none ∧ NoHold aConvoy (fun h => h.kind == .cross) ∧
        backEdge aConvoy fo.addr = none ∧ (Instr.cross (fw no no no no)).WellFormed ∧ Issues s fo quiet [] [] 0xFF ∧ l.rec_.allResident = true ∧ 0xFF = aConvoy.live ∧
        (s.convoy 1).ended = false ∧ (s.convoy 1).launch = aConvoy.launch ∧ s.convoys.length = 2 ∧ hasPending l = false ∧
        (∀ x ∈ l.buffer, homeBusy s x.pa = false ∧ paMapped s x.pa = true ∧ (∀ b ∈ [0, 15], s.memBad x.pa (atomSize b) = false) ∧ x.sender.rel = true) ∧ s.accesses = [] ∧
        (Instr.exit (cw no)).WellFormed ∧ aConvoy.live &&& ~~~ 0xFF#64 = 0 ∧ aConvoy.barl = none ∧ (s.blockOf aConvoy).kind = .ordinary ∧ (s.blockOf aConvoy).launch = aConvoy.launch) ∧
    NoHold ((canonical aConvoy aConvoy).convoy 1) (fun h => h.kind == .cross) ∧ ¬ NoHold ((canonical aConvoy (held aConvoy .cross)).convoy 1) (fun h => h.kind == .cross) ∧
    (let s := canonical (held aConvoy .cross) (held aConvoy .cross)
     0 < s.launches.length ∧ isCanonical (s.launch 0) = true ∧ crossComplete s 0 = true ∧ (s.launch 0).crossSlot = none ∧ ∀ x ∈ (s.launch 0).buffer, homeBusy s x.pa = false) := by
  refine ⟨?_, noHold_of (by decide), fun h => absurd (h _ (List.mem_cons_self ..)) (by decide), by decide⟩
  intro d hd
  simp only [List.mem_cons, List.not_mem_nil, or_false] at hd
  rcases hd with rfl | rfl <;>
    exact ⟨by decide, by decide, by decide, by decide, noHold_of (by decide), by decide, by decide, issues_of (by decide) (by decide), by decide, by decide, by decide,
      by decide, by decide, by decide, by decide, by decide, by decide, by decide, by decide, by decide, by decide⟩

def withEvents (es : List Nat) (s : State) : State := { s with hub := { s.hub with events := es } }

/-- A second convoy of 64 lanes that holds all 4,096 hardware entries. -/
def hoarder : Convoy := { newConvoy 0 0 1 64 16 0 0 1 0x1000 0 with holds := List.replicate 64 { lanes := BitVec.allOnes 64, pc := 0, kind := .waitev 0 0 none, y := false } }

/-- The convoy waits at the end of a loop body, in part by the hardware entries and in part by the list. -/
def twoParts : Convoy :=
  { aConvoy with loops := [level 0x1000], holds := [{ lanes := 0x0F, pc := 0x1000, kind := .waitev 0 0 none, y := false }, { lanes := 0xF0, pc := 0x1000, kind := .waitev 0 0 (some 3), y := false }] }

/-- WAITEV of the last event, set and not set, and without an entry left; SETEV of it, which clears or sets; a waiter of the list to release, whose word ends a loop body that other lanes wait at. -/
theorem witness_EventWords :
    (let w := fw no (.s 1) no no 0x30; let c := withS 1 0xFFFF; let s := withEvents [65535] (one c)
     (Instr.waitev w).WellFormed ∧ Issues s fo w.hdr [(w.x, 1)] [] 0xFF ∧ ((readU s c w.x).setWidth 16).toNat ∈ s.hub.events) ∧
    (let w := fw no (.s 1) no no 0x30; let c := withS 1 0xFFFF; let s := one c
     (Instr.waitev w).WellFormed ∧ Issues s fo w.hdr [(w.x, 1)] [] 0xFF ∧ 65535 ∉ s.hub.events ∧
       waitEntries s true + ((lanesOf 8 0xFF).length - (4096 - waitEntries s false)) ≤ s.hub.waitListSize) ∧
    (let w := fw no (.s 1) no no 0x30; let c := withS 1 0xFFFF; let s := { one c with convoys := [c, hoarder] }
     (Instr.waitev w).WellFormed ∧ Issues s fo w.hdr [(w.x, 1)] [] 0xFF ∧ 65535 ∉ s.hub.events ∧ c.priv < 2 ∧
       s.hub.waitListSize < waitEntries s true + ((lanesOf 8 0xFF).length - (4096 - waitEntries s false))) ∧
    (let w := fw no (.s 1) no no 0x01; (Instr.setev w).WellFormed ∧ Issues (one aConvoy) fo w.hdr [(w.x, 1)] [] 0xFF ∧ w.bit 0 = true) ∧
    (let w := fw no (.s 1) no no 0x30; (Instr.setev w).WellFormed ∧ Issues (one aConvoy) fo w.hdr [(w.x, 1)] [] 0xFF ∧ w.bit 0 = false ∧
      releaseMustWait (one aConvoy) fo aConvoy w.scope.toNat = false ∧ NoHold aConvoy (waitsFor 0)) ∧
    (let s := { one twoParts with hub := { aHub with scans := [(0, 3)] } }
     s.hub.scans = (0, 3) :: [] ∧ (∀ h ∈ (s.convoy 0).holds, h.kind ≠ .edge) ∧
       ∃ h ∈ (s.convoy 0).holds, spilledAt 3 h = true ∧ h.completes = true ∧ backEdge (s.convoy 0) h.pc ≠ none ∧ ∃ k ∈ (s.convoy 0).holds, k.pc = h.pc ∧ spilledAt 3 k = false) :=
  ⟨⟨by decide, issues_of (by decide) (by decide), by decide⟩, ⟨by decide, issues_of (by decide) (by decide), by decide, by decide⟩,
   ⟨by decide, issues_of (by decide) (by decide), by decide, by decide, by decide⟩,
   ⟨by decide, issues_of one_ready (by decide), by decide⟩, ⟨by decide, issues_of one_ready (by decide), by decide, by decide, noHold_of (by decide)⟩,
   by decide⟩

def withFifo (n : Nat) (s : State) : State :=
  { s with hub := { s.hub with queues := s.hub.queues.set 15 { Queue.reset with fifo := List.replicate n { id := 1, record := [], eligible := false } } } }

/-- An offer to the last queue. -/
def offering : HoldKind := .launch [] 15 63 4

/-- LAUNCH into the last queue, with one place left, and with none; and the held record that enters it in a later cycle, or finds the queue full, or its record of the cycle taken. -/
theorem witness_LaunchWord :
    (∀ n ∈ [63, 64], let w := fw (.s 5) (.s 1) (.s 2) no; let c := (withS 1 0x1FFF80).writeS 2 15; let s := withFifo n (one c)
      (Instr.launch w).WellFormed ∧ Issues s fo w.hdr [(w.x, 2), (w.y, 1), (w.d, 1)] [w.d] 0xFF ∧ 0xFF = c.live ∧ (readU s c w.y).toNat ≤ 15 ∧
        s.hub.queues.length = 16 ∧ readsClear s 0 = true ∧ w.bit 7 = false ∧ s.clock < 1 ∧ ((s.queue 15).fifo.length < 64 ↔ n = 63) ∧ (s.queue 15).entered ≠ some 1 ∧
        backEdge c fo.addr = none ∧ c.holds = [] ∧ s.convoys.length = 1 ∧ ∃ s1 bs at_, readItem s fo 0xFF (baseOf c 0 w.x).toNat 128 128 false = .ok s1 bs at_) ∧
    (let c := held aConvoy offering; let s := { withFifo 63 (one c) with clock := 4 }
     s.sound = true ∧ 0 < s.convoys.length ∧ c.holds = [{ lanes := c.live, pc := 0x1000, kind := offering, y := false }] ∧ 15 < s.hub.queues.length ∧ 4 ≤ s.clock ∧
       (s.queue 15).fifo.length < 64 ∧ (s.queue 15).entered ≠ some s.clock) ∧
    64 ≤ ((withFifo 64 (one (held aConvoy offering))).queue 15).fifo.length ∧
    (({ Queue.reset with entered := some 5 } : Queue).entered = some 5) := by
  refine ⟨?_, ⟨by decide, by decide, rfl, by decide, by decide, by decide, by decide⟩, by decide, rfl⟩
  intro n hn
  simp only [List.mem_cons, List.not_mem_nil, or_false] at hn
  rcases hn with rfl | rfl <;>
    exact ⟨by decide, issues_of (by decide) (by decide), by decide, by decide, by decide, by decide, by decide, by decide, by decide, by decide, by decide, by decide, by decide, _, _, _, rfl⟩

/-- A record of the convoy of block 0, with tag 5 and occurrence 1, at 0x1FFFF0. -/
def itinRec (kind seqpos : Nat) : ItinRec :=
  { addr := 0x1FFFF0, seqpos := seqpos, block := 0, convoy := 0, lane := 0xFF, tag := 5, occ := 1, kind := kind, cls := 2, opcode := 1, grain := 2, extra := 1 }

/-- A REVERSE launch, bound to an itinerary recorded in a mode at a grain. -/
def reversed (mode grain : Nat) (bound : List ItinRec) (signalled cursors : List (Nat × Nat)) (c : Convoy) : State :=
  { one c with launches := [{ aLaunch with rec_ := { aLaunch.rec_ with mode := 3 }, boundMode := mode, boundGrain := grain, bound := bound,
                                            signalled := signalled, cursors := cursors }] }

def tagged : Convoy := (withS 1 0x1FFFF0).writeS 2 5

/-- RSIG and RWAIT of the convoy: bound to a CANONICAL recording; and in a FINE itinerary, where the REL record is signalled, and where it is not. -/
theorem witness_ReverseWords : let w := fw no (.s 1) no (.s 2) 0x50
    (Instr.rsig w).WellFormed ∧ (Instr.rwait w).WellFormed ∧
    (let s := reversed 1 0 [] [] [] tagged
     Issues s fo w.hdr [(w.x, 2), (w.z, 1)] [] 0xFF ∧ ∃ s1 lanes, Reached s fo 0 false false (laneAddrs tagged 0xFF w.x (.sp 0x3F)) (fun s1 => .ok s1 []) s1 lanes [] ∧
       (s.launchOf tagged).rec_.mode = 3 ∧ releaseMustWait s1 fo tagged w.scope.toNat = false ∧ (s1.launchOf tagged).boundMode = 1) ∧
    ∀ n ∈ [0, 1], let s := reversed 0 2 [itinRec 1 1, itinRec 2 2] (if n = 0 then [] else [(relKey 0x1FFFF0 1, 1)]) [] tagged
     Issues s fo w.hdr [(w.x, 2), (w.z, 1)] [] 0xFF ∧ ∃ s1 lanes, Reached s fo 0 false false (laneAddrs tagged 0xFF w.x (.sp 0x3F)) (fun s1 => .ok s1 []) s1 lanes [] ∧
       releaseMustWait s1 fo tagged w.scope.toNat = false ∧ (s1.launchOf tagged).boundMode ≠ 1 ∧ (s1.launchOf tagged).boundGrain = 2 ∧
       (∀ a ∈ reverseActors w.x lanes, (revMatch (s1.launchOf tagged) (s1.blockOf tagged) tagged 2 5 a).isSome = true) ∧
       ∀ a ∈ reverseActors w.x lanes, (revMatch (s1.launchOf tagged) (s1.blockOf tagged) tagged 1 5 a).map (relSignalled (s1.launchOf tagged)) = some (n == 1) := by
  refine ⟨by decide, by decide, ⟨issues_of (by decide) (by decide), _, _, ⟨_, rfl, rfl, rfl⟩, by decide, by decide, by decide⟩, ?_⟩
  intro n hn
  simp only [List.mem_cons, List.not_mem_nil, or_false] at hn
  rcases hn with rfl | rfl <;>
    exact ⟨issues_of (by decide) (by decide), _, _, ⟨_, rfl, rfl, rfl⟩, by decide, by decide, by decide, by decide, by decide⟩

/-- ORDRD and ORDWR of a word and of a moment: bound to a CANONICAL recording; in a FINE itinerary; and, for ORDWR, in a BARRIER itinerary. -/
theorem witness_OrderedWords :
    (∀ m ∈ [1, 0], let w := fw (.v 15) (.s 1) no (.s 2) 0x50; let s := reversed m 2 [{ itinRec 3 4 with extra := 2 }] [] [(0x1FFFF0, 5)] tagged
      (Instr.ordrd w).WellFormed ∧ Issues s fo w.hdr [(w.x, 2), (w.z, 1), (w.d, 1)] [w.d] 0xFF ∧
        ∃ s1 lanes, Reached s fo 4 true false (laneAddrs tagged 0xFF w.x (.sp 0x3F)) (fun s1 => .ok s1 []) s1 lanes [] ∧
          ((s1.launchOf tagged).boundMode = m) ∧ ∀ a ∈ reverseActors w.x lanes, pendingMatch tagged a.1 = none ∧
            (ordMatch (s1.launchOf tagged) (s1.blockOf tagged) tagged false 5 a).map (fun p => p.1 + p.2 - 1) = some (cursorOf (s1.launchOf tagged) a.2.va)) ∧
    ∀ g ∈ [1, 2], let w := fw no (.s 1) (.m 7) (.s 2) 0x51; let s := reversed 0 g [itinRec 3 4] [] [] { tagged with ord := [{ lane := none, tag := 5, addr := 0x1FFFF0, position := 4, count := 1 }] }
      let c := s.convoy 0
      (Instr.ordwr w).WellFormed ∧ Issues s fo w.hdr [(w.x, 2), (w.y, 1), (w.z, 1)] [] 0xFF ∧
        ∃ s1 lanes, Reached s fo 16 false true (laneAddrs c 0xFF w.x (.sp 0x3F)) (fun s1 => .ok s1 []) s1 lanes [] ∧
          (s1.launchOf c).boundGrain = g ∧ ∀ a ∈ reverseActors w.x lanes, (pendingMatch c a.1).map OrdMatch.addr = some a.2.va ∧
            (revMatch (s1.launchOf c) (s1.blockOf c) c 3 5 a).map ItinRec.seqpos = (pendingMatch c a.1).map OrdMatch.position := by
  refine ⟨?_, ?_⟩
  · intro n hn
    simp only [List.mem_cons, List.not_mem_nil, or_false] at hn
    rcases hn with rfl | rfl <;> exact ⟨by decide, issues_of (by decide) (by decide), _, _, ⟨_, rfl, rfl, rfl⟩, by decide, by decide⟩
  · intro n hn
    simp only [List.mem_cons, List.not_mem_nil, or_false] at hn
    rcases hn with rfl | rfl <;> exact ⟨by decide, issues_of (by decide) (by decide), _, _, ⟨_, rfl, rfl, rfl⟩, by decide, by decide⟩

theorem memRead_same {m n : Memory} (a : Nat) : ∀ k, (∀ i, i < k → memGet m (a + i) = memGet n (a + i)) → memRead m a k = memRead n a k := by
  intro k h
  refine List.ext_getElem? fun i => ?_
  rw [memRead_getElem?, memRead_getElem?]
  split
  · rw [h i ‹_›]
  · rfl

/-- While the tables stand, the lowest 2 MiB of a context that has them are mapped to themselves. -/
theorem identity_mapped {u : State} {m : Memory} {ctx va : Nat} (hr : u.hub.roots.getD ctx 0 = 0x20001) (hg : u.hub.migrations = aHub.migrations) (he : u.memErrs = []) (hm : ∀ a, a < 0x40000 → memGet u.mem a = memGet m a)
    (h1 : memWord m 0x20000 = 0x30001) (h2 : memWord m 0x30000 = aPage) (hv : va < 2 ^ 21) : deviceXlate u ctx va true = .inr va := by
  have w1 : memWord u.mem 0x20000 = 0x30001 := by
    rw [memWord, memNat, memRead_same (n := m) 0x20000 8 fun i hi => hm _ (by omega)]; exact h1
  have w2 : memWord u.mem 0x30000 = aPage := by
    rw [memWord, memNat, memRead_same (n := m) 0x30000 8 fun i hi => hm _ (by omega)]; exact h2
  have i1 : walkIndex 1 va = 0 := by simp only [walkIndex]; simp; omega
  have i2 : walkIndex 2 va = 0 := by simp only [walkIndex]; simp; omega
  have arm : ∀ x, armedFrame u x = false := by
    intro x; unfold armedFrame; rw [hg]; rfl
  have w : walk u ctx va = .leaf aPage 0x30000 true := by
    unfold walk
    simp only [hr]
    rw [if_neg (by decide)]
    show walkFrom u va 3 1 0x20000 = _
    unfold walkFrom
    rw [i1]
    simp only [arm, State.memBad, he, w1]
    rw [if_neg (by decide), if_neg (by decide), if_neg (by decide), if_neg (by decide), if_neg (by decide)]
    show walkFrom u va 2 2 0x30000 = _
    unfold walkFrom
    rw [i2]
    simp only [arm, State.memBad, he, w2]
    rw [if_neg (by decide), if_neg (by decide), if_neg (by decide), if_neg (by decide), if_pos (by decide)]
    rfl
  have p : tlbPa { ctx := ctx, page := 0, large := true, leaf := aPage, leafAt := 0 } va = va := by
    simp only [tlbPa, if_true, show pteAddr aPage / 2 ^ 21 = 0 by decide]; omega
  have hp : paMapped u va = true := by
    have : paSelector va = 0 := by unfold paSelector; omega
    unfold paMapped; rw [this]; exact decide_eq_true (Nat.lt_trans hv (by decide))
  unfold deviceXlate
  rw [if_neg (by omega), w]
  simp only [p, hp]
  rfl

/-- A launch that records at grain FINE, with room for 8 records. -/
def recorder : State :=
  { one tagged with launches := [{ aLaunch with rec_ := { aLaunch.rec_ with grain := 2, itin := 0x40000, omap := 0 }, recording := true }], mem := aTable ++ [(0x40018, 8)] }

/-- The first 8 slots. -/
def recordSlots : List Nat := (List.range 8).map fun i => 0x40040 + 32 * i

theorem witness_QueryWords_record : let s := recorder; let l := s.launchOf tagged; let w := fw no (.s 2) (.v 1) no
    (Instr.mile w).WellFormed ∧ Issues s fo w.hdr [(w.x, 1), (w.y, 1)] [] 0xFF ∧ (∀ a ∈ actorsOf tagged 0xFF (!w.y.isV), occGet tagged a 5 + 1 < 2 ^ 32) ∧
    l.rec_.mode < 2 ∧ l.recording = true ∧ l.rec_.grain ≠ 0 ∧ tagged.launch < s.launches.length ∧
    reserveSlots s l (actorsOf tagged 0xFF (!w.y.isV)).length = .ok recordSlots ∧ recordSlots.Pairwise (fun p q => p + 32 ≤ q ∨ q + 32 ≤ p) ∧
    (∀ p ∈ recordSlots, paIsHost p = false) ∧
    ∀ (u : State) (i p a : Nat), u.hub = s.hub → (∀ x ∈ u.memErrs, x ∈ s.memErrs) → (∀ a, (∀ p ∈ recordSlots, ¬ (p ≤ a ∧ a < p + 32)) → memGet u.mem a = memGet s.mem a) →
      recordSlots[i]? = some p → recordSlots[i]? = some a → deviceXlate u l.queue a true = .inr p := by
  refine ⟨by decide, issues_of (by decide) (by decide), by decide, by decide, by decide, by decide, by decide, by decide, by decide, by decide, ?_⟩
  intro u i p a hh he hm hp ha
  obtain rfl : p = a := by rw [hp] at ha; exact Option.some.inj ha
  have hin := List.mem_of_getElem? hp
  have low : ∀ q ∈ recordSlots, 0x40000 ≤ q ∧ q < 2 ^ 21 := by decide
  exact identity_mapped (hh ▸ rfl) (hh ▸ rfl) (List.eq_nil_iff_forall_not_mem.mpr fun x hx => List.not_mem_nil (he x hx)) (fun a ha => hm a fun q hq h => by have := (low q hq).1; omega)
    (by decide) (by decide) (low p hin).2

/-- ITQ of a cursor; RAND; MILE in a REVERSE launch, with its record; BCCR. -/
theorem witness_QueryWords :
    (let w := fw (.s 5) (.s 1) no no 1; let s := reversed 0 2 [] [] [] tagged
     (Instr.itq w).WellFormed ∧ Issues s fo w.hdr [(w.x, 2), (w.z, 1), (w.d, 1)] [w.d] 0xFF ∧ (s.launchOf tagged).rec_.mode = 3) ∧
    (let w := fw (.v 15) no no no; (Instr.rand w).WellFormed ∧ Issues (one aConvoy) fo w.hdr [(w.d, 1)] [w.d] 0xFF) ∧
    (let w := fw no (.s 2) (.imm 1) no; let s := reversed 0 2 [itinRec 7 0] [] [] tagged
     (Instr.mile w).WellFormed ∧ Issues s fo w.hdr [(w.x, 1), (w.y, 1)] [] 0xFF ∧
       (∀ a ∈ actorsOf tagged 0xFF (!w.y.isV), (findRecord (s.launchOf tagged) 0 0 a 5 (revCount (s.launchOf tagged) (s.blockOf tagged) tagged a 5) 7).map ItinRec.extra =
         some (readW32 s tagged (a.getD 0) w.y).toNat) ∧ (s.launchOf tagged).recording = false) ∧
    (let w := fw (.s 63) no no no; (Instr.bccr w).WellFormed ∧ Issues (one aConvoy) fo w.hdr [(w.d, 1)] [w.d] 0xFF) :=
  ⟨⟨by decide, issues_of (by decide) (by decide), by decide⟩, ⟨by decide, issues_of one_ready (by decide)⟩, ⟨by decide, issues_of (by decide) (by decide), by decide, by decide⟩,
   by decide, issues_of one_ready (by decide)⟩

theorem right_of {α β : Type} {x : α ⊕ β} (h : x.isRight = true) : ∃ b, x = .inr b := by
  cases x with
  | inr b => exact ⟨b, rfl⟩
  | inl a => exact Bool.noConfusion h

/-- The stream at the end of the allocation: the nibbles 0 and 0. -/
theorem witness_ScaleWords :
    (let w := fw (.v 15) (.s 1) no no 0x0C; let c := withS 1 8190
     (Instr.scdec w).WellFormed ∧ Issues (one c) fo w.hdr [(w.x, 1), (w.d, 1)] [w.d, w.x] 0xFF ∧ pointerFits (readU (one c) c w.x) = true ∧
       ∃ r, decodeScales (lsOf (one c) c) ((one c).blockOf c).size (c.width / 4) 8190 0 = .inr r) ∧
    (let w := fw (.s 1) (.v 15) no no 0x0C; let c := withS 1 8189; let s := one c
     let nibs := scaleEncode 0 ((List.range 2).map fun j => scaleOf c w.x (4 * j) (w.fld 2 2))
     (Instr.scenc w).WellFormed ∧ Issues s fo w.hdr [(w.x, 1), (w.d, 1)] [w.d] 0xFF ∧ pointerFits (readU s c w.d) = true ∧
       armedObject (lsOf s c) (8189 / 2) ((8189 + nibs.length + 1) / 2 - 8189 / 2) = none ∧ (8189 / 2 ∉ (lsOf s c).errs) ∧ 8189 / 2 + ((8189 + nibs.length + 1) / 2 - 8189 / 2) ≤ (s.blockOf c).size) ∧
    (let w := fw (.v 1) (.v 2) (.v 3) (.v 4)
     (Instr.cvt4 w).WellFormed ∧ w.bit 6 = false ∧ Issues (one aConvoy) fo w.hdr (plainUses 1 w) [w.d] 0xFF ∧ w.d ≠ w.z) ∧
    (let l := { LocalStore.empty with mem := [(1, 0x80), (2, 0xFF)] }
     l.errs = [] ∧ (2 + (scaleEncode 254 [254, 255]).length + 1) / 2 ≤ 3 ∧
       ∀ i, i < (scaleEncode 254 [254, 255]).length → (memGet l.mem ((2 + i) / 2)).toNat / 16 ^ ((2 + i) % 2) % 16 = (scaleEncode 254 [254, 255]).getD i 0) :=
  ⟨⟨by decide, issues_of (by decide) (by decide), by decide, right_of (by decide)⟩,
   ⟨by decide, issues_of (by decide) (by decide), by decide, by decide, by decide, by decide⟩, ⟨by decide, by decide, issues_of one_ready (by decide), by decide⟩, by decide, by decide, by decide⟩

/-- S1 to S4 of a convoy. -/
def regs4 (a b c d : W64) : Convoy := (((aConvoy.writeS 1 a).writeS 2 b).writeS 3 c).writeS 4 d

/-- The state with bytes in the local store of its block. -/
def withStore (m : Memory) (size : Nat) (s : State) : State :=
  { s with blocks := [{ aBlock with size := size, ls := { LocalStore.empty with mem := m } }] }

/-- Two elements of 8 bytes, 8 apart on both sides. -/
def twoElements : Memory := [(0, 2), (2, 1), (4, 1), (6, 1), (8, 8), (0x18, 8), (0x28, 3)]

/-- 32 by 64 words of 4 bytes at a stride of zero. -/
def tileElements : Memory := [(0, 32), (2, 64), (4, 1), (6, 1), (0x28, 2)]

/-- A dense tile header of 5 planes with one slot, at an offset. -/
def tileAt (at_ k : Nat) : Memory := [(at_, 4), (at_ + 2, 64), (at_ + 4, BitVec.ofNat 8 k)]

/-- A sparse tile header with 24 and 48 positions. -/
def sparseAt (at_ k : Nat) : Memory := [(at_, 4), (at_ + 2, 64), (at_ + 4, BitVec.ofNat 8 k), (at_ + 6, 1), (at_ + 12, 24), (at_ + 13, 48)]

def busyCopy : CopyOp := { newCopy (one aConvoy) fo aConvoy (fw no no no no) (.copy 0) { e := [1, 1, 1, 1], s := [0, 0, 0, 0], t := [0, 0, 0, 0], z := 0, zfill := false } with dst := 0 }

def withCopies (n : Nat) (s : State) : State := { s with copies := List.replicate n busyCopy }

def withCredits (n : Nat) (s : State) : State := { s with cores := [{ aCore with free := [{ launch := 0, counts := List.replicate 16 n }] }] }

/-- COPY to the last bytes of the allocation with the last free place, and with none; COPYP to the last place of a tile; COPYM with a credit, and without. -/
theorem witness_CopyWords :
    (∀ n ∈ [127, 128], let w := fw (.s 4) (.s 1) (.s 2) (.s 3); let c := regs4 4080 0x1FFFF0 0 64; let s := withCopies n (withStore twoElements 4096 (one c))
      let o := newCopy s fo c w (.copy 0) (parseLayout (memRead (lsOf s c).mem 0 48))
      (Instr.copy w).WellFormed ∧ Issues s fo w.hdr [(w.d, 1), (w.x, 1), (w.y, 1), (w.z, 1)] [] 0xFF ∧ 0xFF = c.live ∧ readsClear s 0 = true ∧
        layoutReach 4096 0 = none ∧ localError (lsOf s c) 4096 8 0 48 = none ∧ badLayout (memRead (lsOf s c).mem 0 48) = false ∧ unevenLayout o.lay [0x1FFFF0, 4080] (o.lay.s ++ o.lay.t) = false ∧
        stampOf s c w.d = some 64 ∧ o.srcLocal = false ∧ o.dstLocal = true ∧ o.lay.count = 2 ∧ outside 4096 o.dst o.lay.size o.lay.count o.lay.dstOff (fun _ => false) = none ∧
        copiesFull s 0 = (n == 128)) ∧
    (let w := fw no (.s 1) (.s 2) (.s 3) 0; let c := regs4 2560 0x100000 0 0; let s := withStore (tileElements ++ tileAt 2560 1) 4096 (one c)
     let o := newCopy s fo c w (.copyp 0 false) (parseLayout (memRead (lsOf s c).mem 0 48))
     (Instr.copyp w).WellFormed ∧ Issues s fo w.hdr [(w.d, 1), (w.x, 1), (w.y, 1), (w.z, 1)] [] 0xFF ∧ layoutReach 4096 0 = none ∧ localError (lsOf s c) 4096 8 0 48 = none ∧
       localError (lsOf s c) 4096 256 2560 16 = none ∧ badTileCopy (tileHdr (memRead (lsOf s c).mem 2560 16)) 0 o.lay 3 = false ∧ badLayout (memRead (lsOf s c).mem 0 48) = false ∧
       unevenLayout o.lay [o.src] o.lay.s = false ∧ stampOf s c w.d = none ∧ w.bit 3 = false ∧ 2560 + (tileHdr (memRead (lsOf s c).mem 2560 16)).bytes = 4096 ∧ copiesFull s 0 = false) ∧
    (∀ n ∈ [1, 0], let w := fw (.s 4) (.s 1) (.s 2) (.s 3) 0; let c := regs4 4080 0x100000 0 1; let s := withCredits n (withStore twoElements 4096 (one c))
     let o := newCopy s fo c w (.copym 1 false) (parseLayout (memRead (lsOf s c).mem 0 48))
     (Instr.copym w).WellFormed ∧ Issues s fo w.hdr [(w.d, 1), (w.x, 1), (w.y, 1), (w.z, 1)] [] 0xFF ∧ layoutReach 4096 0 = none ∧ localError (lsOf s c) 4096 8 0 48 = none ∧
       o.lay.zfill = false ∧ badLayout (memRead (lsOf s c).mem 0 48) = false ∧ unevenLayout o.lay [o.src] (o.lay.s ++ o.lay.t) = false ∧ 4080 % o.lay.size = 0 ∧ w.bit 0 = false ∧
       ((readU s c w.d).setWidth 16 = 1#16) ∧ receiverCause s 0 4080 o.lay (streetCores 0 1) = none ∧ copiesFull s 0 = false ∧
       (slotCounts s 0 0).getD 0 0 = n ∧ (slotCounts s 0 0).length = 16) := by
  refine ⟨?_, ⟨by decide, issues_of (by decide) (by decide), by decide, by decide, by decide, by decide, by decide, by decide, by decide, by decide, by decide, by decide⟩, ?_⟩
  · intro n hn
    simp only [List.mem_cons, List.not_mem_nil, or_false] at hn
    rcases hn with rfl | rfl <;> exact ⟨by decide, issues_of (by decide) (by decide), by decide, by decide, by decide, by decide, by decide, by decide, by decide, by decide, by decide, by decide, by decide, by decide⟩
  · intro n hn
    simp only [List.mem_cons, List.not_mem_nil, or_false] at hn
    rcases hn with rfl | rfl <;> exact ⟨by decide, issues_of (by decide) (by decide), by decide, by decide, by decide, by decide, by decide, by decide, by decide, by decide, by decide, by decide, by decide⟩

def aComm : Comm := { n := 2, rank := 0, seed := 0, modules := [0, 1], taken := 0 }

def aColl (slot : Nat) : Coll :=
  { slot := slot, number := 0, core := 0, seq := 0, convoy := 0, launch := 0, ctx := 0, user := true, fork := 0, rel := false, src := 0x100000, dst := 0x100010, k := 1,
    op := 0, combine := 0, fmt := 0, root := 0, stamp := 0x1FFFF8, started := false, fetched := [], pieces := [], values := [], received := [], sent := [], seen := [], waiting := [], heard := [], gone := [],
    got := [], writes := [], flight := [], written := 0, failed := false, lost := false, ended := false }

/-- SLOTFREE to this core with 7 credits; COLL in the last communicator slot, with room for one more, and without. -/
theorem witness_SlotFreeAndCollective :
    (let w := fw no (.imm 1) no no; let s := withCredits 7 (one aConvoy)
     (Instr.slotfree w).WellFormed ∧ Issues s fo w.hdr [(w.x, 1)] [] 0xFF ∧ 0xFF = aConvoy.live ∧ ((readU s aConvoy w.x).setWidth 16).getLsbD 0 = true ∧
       (slotCounts s 0 0).length = 16) ∧
    (∀ n ∈ [15, 16], let w := fw no (.s 1) (.s 2) no; let c := regs4 0x1FFFE0 63 0 0
     let s := { one c with hub := { aHub with comms := List.replicate 63 none ++ [some aComm] }, colls := List.replicate n (aColl 63)
                           mem := aTable ++ [(0x1FFFF0, 1), (0x1FFFF8, 8)] }
     (Instr.coll w).WellFormed ∧ Issues s fo w.hdr [(w.d, 1), (w.x, 1), (w.y, 1), (w.z, 1)] [] 0xFF ∧ 0xFF = c.live ∧ readsClear s 0 = true ∧
       (∃ s1 b at_, readItem s fo 0xFF (baseOf c 0 w.x).toNat 32 32 false = .ok s1 b at_ ∧ badDescriptor b 63 2 = false) ∧ (readU s c w.y).toNat < 64 ∧
       s.hub.comms.length = 64 ∧ s.hub.comms.getD 63 none = some aComm ∧ collsFull s 63 = (n == 16)) := by
  refine ⟨⟨by decide, issues_of (by decide) (by decide), by decide, by decide, by decide⟩, ?_⟩
  intro n hn
  simp only [List.mem_cons, List.not_mem_nil, or_false] at hn
  rcases hn with rfl | rfl <;> exact ⟨by decide, issues_of (by decide) (by decide), by decide, by decide, ⟨_, _, _, rfl, by decide⟩, by decide, by decide, by decide, by decide⟩

def anOp : MatOp := { id := 0, kind := .azero, tile := 0, headerA := [], headerB := [], stamp := none, convoy := 0, block := 0, pair := false, cancelled := false, rows := [], wrote := [], failed := false }

/-- A block of 64 KiB, and a core with tiles and queued operations. -/
def withTiles (m : Memory) (queued : Nat) (s : State) : State :=
  { withStore m 65536 s with cores := [{ aCore with tiles := List.replicate 8 Tile.free, queue := List.replicate queued anOp }] }

/-- MMA, MMAS, AZERO, ACCLD, ACCST and ACCSTAT on tile 7, with the last free place of the queue, and with none. -/
theorem witness_MatrixWords : ∀ n ∈ [3, 4],
    let dense := withTiles (tileAt 0 6 ++ tileAt 0x8000 6) n (one (regs4 7 0 0x8000 64))
    let sparse := withTiles (tileAt 0 6 ++ sparseAt 0x8000 4) n (one (regs4 7 0 0x8000 64))
    let c := regs4 7 0 0x8000 64
    let w := fw (.s 4) (.s 1) (.s 2) (.s 3)
    let ends : State → Prop := fun s => Issues s fo w.hdr [(w.d, 1), (w.x, 1), (w.y, 1), (w.z, 1)] [] 0xFF ∧ matHeld s c 0 7 [0] = (n == 4) ∧ tileErr s [0] 7 = false ∧
      readsClear s 0 = true ∧ stampOf s c w.d = some 64 ∧ wordCores 0 (w.bit 7) = [0] ∧ localError (lsOf s c) 65536 256 0 16 = none ∧ localError (lsOf s c) 65536 256 0x8000 16 = none
    let fits : State → Bool → Prop := fun s sp =>
      let ha := tileHdr (memRead (lsOf s c).mem 0 16)
      let hb := tileHdr (memRead (lsOf s c).mem 0x8000 16)
      multiplyCause ha hb 0 0x8000 sp = none ∧ 0 + ha.bytes ≤ 65536 ∧ 0x8000 + hb.bytes ≤ 65536
    (Instr.mma w).WellFormed ∧ ends dense ∧ fits dense false ∧ (Instr.mmas w).WellFormed ∧ ends sparse ∧ fits sparse true ∧
    (let w := fw (.s 4) (.imm 7) no no
     (Instr.azero w).WellFormed ∧ Issues dense fo w.hdr [(w.d, 1), (w.x, 1), (w.y, 1), (w.z, 1)] [] 0xFF) ∧
    (let c := regs4 7 0xC000 0x8000 64; let w := fw (.s 4) (.imm 7) (.s 2) no; let s := withTiles [] n (one c)
     (Instr.accld w).WellFormed ∧ Issues s fo w.hdr [(w.d, 1), (w.x, 1), (w.y, 1), (w.z, 1)] [] 0xFF ∧ (readU s c w.y).toNat + 16384 = 65536) ∧
    (let c := regs4 7 0xE000 0x8000 64; let w := fw (.s 4) (.imm 7) (.s 2) (.imm 0) 4; let s := withTiles [] n (one c)
     (Instr.accst w).WellFormed ∧ Issues s fo w.hdr [(w.d, 1), (w.x, 1), (w.y, 1), (w.z, 1)] [] 0xFF ∧ (readU s c w.y).toNat + 4096 * (accstFmt (w.fld 2 2)).2 = 65536) ∧
    (let w := fw (.m 7) (.imm 7) (.s 2) no; let s := withTiles [] n (one (regs4 0 63 0 0))
     (Instr.accstat w).WellFormed ∧ Issues s fo w.hdr [(w.x, 1), (w.y, 1), (w.z, 1), (w.d, 1)] [w.d] 0xFF ∧ (readU s (s.convoy 0) w.y).toNat = 63) := by
  intro n hn
  simp only [List.mem_cons, List.not_mem_nil, or_false] at hn
  rcases hn with rfl | rfl <;>
    exact ⟨by decide, ⟨issues_of (by decide) (by decide), by decide, by decide, by decide, by decide, by decide, by decide, by decide⟩, ⟨by decide, by decide, by decide⟩, by decide,
      ⟨issues_of (by decide) (by decide), by decide, by decide, by decide, by decide, by decide, by decide, by decide⟩, ⟨by decide, by decide, by decide⟩,
      ⟨by decide, issues_of (by decide) (by decide)⟩, ⟨by decide, issues_of (by decide) (by decide), by decide⟩, ⟨by decide, issues_of (by decide) (by decide), by decide⟩,
      by decide, issues_of (by decide) (by decide), by decide⟩

/-- A convoy in the supervisor state, which names the other position of its slot in S2 and an area in S1; the other convoy belongs to a block of its own. -/
def switcher (area : W64) : Convoy := { regs4 area 1 0 0 with priv := 2, block := 1 }

def switching (d : Convoy) (area : W64) (m : Memory) : State :=
  { one (switcher area) with convoys := [switcher area, { d with pos := 1 }], mem := m
                             blocks := [{ aBlock with convoys := [1], size := 256, state := .saving }, { aBlock with size := 256 }]
                             cores := [{ aCore with tiles := List.replicate 8 Tile.free, slots := [{ Slot.closed with launch := some 0, positions := [some 0, some 1] }] }] }

/-- The head of a convoy's area for 8 lanes and 16 V registers, and of an area for a block of 256 bytes; every other field is zero. -/
def convoyArea : Memory := aTable ++ [(0x40000, 0x43), (0x40001, 0x4E), (0x40002, 0x54), (0x40003, 0x58), (0x40004, 1), (0x40006, 8), (0x4000C, 16)]

def blockAreaMem : Memory := aTable ++ [(0x40000, 0x42), (0x40001, 0x4C), (0x40002, 0x43), (0x40003, 0x4B), (0x40004, 1), (0x40009, 1)]

def stoppedConvoy : Convoy := { aConvoy with stopped := true }

/-- Bytes of an area are read, and more holds of the state after them and of them. -/
def areaReads (s : State) (va n : Nat) (more : State → List Byte → Bool) : Bool :=
  match areaLines s fo (s.convoy 0) 0xFF false va n with
  | .ok s1 lines => (match fetchArea s1 va n lines with
    | .inr bs => more (lines.foldl (fun u pa => raiseView u 0 (lanesOf (s.convoy 0).width 0xFF) pa 128 u.steps) s1) bs
    | .inl _ => false)
  | _ => false

theorem areaRead_of {s : State} {va n : Nat} {more : State → List Byte → Bool} (h : areaReads s va n more = true) :
    ∃ t bs, AreaRead s fo 0xFF va n t bs ∧ more t bs = true := by
  unfold areaReads at h
  split at h
  · split at h
    · exact ⟨_, _, ⟨_, _, ‹_›, ‹_›, rfl⟩, h⟩
    · exact Bool.noConfusion h
  · exact Bool.noConfusion h

/-- The lines of an area that is to be written are translated, and no two are one. -/
def linesFree (s : State) (c : Convoy) (va n : Nat) : Bool :=
  match areaLines s fo c 0xFF true va n with
  | .ok _ lines => decide lines.Nodup
  | _ => false

theorem lines_of {s : State} {c : Convoy} {va n : Nat} (h : linesFree s c va n = true) : ∃ s1 lines, areaLines s fo c 0xFF true va n = .ok s1 lines ∧ lines.Nodup := by
  unfold linesFree at h
  split at h
  · exact ⟨_, _, ‹_›, of_decide_eq_true h⟩
  · exact Bool.noConfusion h

/-- A convoy with a lane that waits at a BARL. -/
def barlWaiter : Convoy :=
  { aConvoy with barl := some { addr := 0x1000, mask := 0xFF, arrived := 1 }, holds := [{ lanes := 1, pc := 0x1000, kind := .barl, y := true }] }

theorem barlWaiter_storable : Storable barlWaiter :=
  { files := by decide, numbers := by decide, words := by decide, traps := by decide, levels := by decide, occ := by decide,
    masks := ⟨BitVec.and_self, fun m hm => by rw [List.eq_of_mem_replicate (n := 8) (a := 0) hm]; exact BitVec.zero_and⟩
    barl := fun b h => by cases h; decide, holds := .inr (.inr (.inl ⟨_, 1, true, by decide, rfl, rfl⟩)) }

/-- A stopped convoy, alone in its block, to save. -/
def saving : State := switching stoppedConvoy 0x40000 aTable

/-- A convoy with lanes that wait for others at the end of a loop body. -/
theorem edgeWaiter_storable : Storable { aConvoy with holds := [{ lanes := 0x0F, pc := 0x1000, kind := .edge, y := false }] } :=
  { files := by decide, numbers := by decide, words := by decide, traps := by decide, levels := by decide, occ := by decide,
    masks := ⟨BitVec.and_self, fun m hm => by rw [List.eq_of_mem_replicate (n := 8) (a := 0) hm]; exact BitVec.zero_and⟩
    barl := fun _ h => (nomatch h), holds := .inr (.inr (.inr ⟨0x0F, by decide, by decide, rfl⟩)) }

theorem saves_block : ∃ s1 lines, areaLines (noteBadTiles saving 0 0) fo (switcher 0x40000) 0xFF true 0x40000 (blockArea saving 0 0).length = .ok s1 lines ∧ lines.Nodup :=
  lines_of (by decide)

/-- A reserved convoy and an area to load into it. -/
def loading : State := switching { stoppedConvoy with lanes := [] } 0x40000 convoyArea

theorem loads_convoy : let d := loading.convoy 1
    ∃ s1 head, AreaRead loading fo 0xFF 0x40000 16 s1 head ∧ headBad d (areaWords head) = false ∧
      ∃ s2 pre, AreaRead s1 fo 0xFF 0x40000 (areaSize 8 16 (areaL (areaWords head)) 0) s2 pre ∧
        ∃ s3 bs, AreaRead s2 fo 0xFF 0x40000 (areaSize 8 16 (areaL (areaWords head)) (bytesNat pre (areaSize 8 16 (areaL (areaWords head)) 0 - 8) 4)) s3 bs ∧
          fieldsBad (areaWords bs) = false := by
  obtain ⟨s1, head, h1, m1⟩ := areaRead_of (s := loading) (va := 0x40000) (n := 16) (more := fun s1 head => !headBad (loading.convoy 1) (areaWords head) &&
    areaReads s1 0x40000 (areaSize 8 16 (areaL (areaWords head)) 0) fun s2 pre =>
      areaReads s2 0x40000 (areaSize 8 16 (areaL (areaWords head)) (bytesNat pre (areaSize 8 16 (areaL (areaWords head)) 0 - 8) 4)) fun _ bs => !fieldsBad (areaWords bs)) (by decide)
  simp only [Bool.and_eq_true, Bool.not_eq_true'] at m1
  obtain ⟨s2, pre, h2, m2⟩ := areaRead_of m1.2
  obtain ⟨s3, bs, h3, m3⟩ := areaRead_of m2
  exact ⟨s1, head, h1, m1.1, s2, pre, h2, s3, bs, h3, by simpa using m3⟩

/-- One free position beside the switcher, in a slot of its launch. -/
def stray : State :=
  { loading with convoys := [{ switcher 0x40000 with block := 0 }], blocks := [aBlock]
                 cores := [{ aCore with slots := [{ Slot.closed with launch := some 0, positions := [some 0, none] }] }] }

theorem loads_stray : ∃ s0 front, AreaRead stray fo 0xFF 0x40000 0x20 s0 front ∧ let d := strayConvoy s0 0 0 1
    ∃ s1 head, AreaRead s0 fo 0xFF 0x40000 16 s1 head ∧ headBad d (areaWords head) = false ∧
      ∃ s2 pre, AreaRead s1 fo 0xFF 0x40000 (areaSize d.width d.budget (areaL (areaWords head)) 0) s2 pre ∧
        ∃ s3 bs, AreaRead s2 fo 0xFF 0x40000 (areaSize d.width d.budget (areaL (areaWords head)) (bytesNat pre (areaSize d.width d.budget (areaL (areaWords head)) 0 - 8) 4)) s3 bs ∧
          fieldsBad (areaWords bs) = false := by
  obtain ⟨s0, front, h0, m0⟩ := areaRead_of (s := stray) (va := 0x40000) (n := 0x20) (more := fun s0 _ => areaReads s0 0x40000 16 fun s1 head =>
    !headBad (strayConvoy s0 0 0 1) (areaWords head) && areaReads s1 0x40000 (areaSize (strayConvoy s0 0 0 1).width (strayConvoy s0 0 0 1).budget (areaL (areaWords head)) 0) fun s2 pre =>
      areaReads s2 0x40000 (areaSize (strayConvoy s0 0 0 1).width (strayConvoy s0 0 0 1).budget (areaL (areaWords head))
        (bytesNat pre (areaSize (strayConvoy s0 0 0 1).width (strayConvoy s0 0 0 1).budget (areaL (areaWords head)) 0 - 8) 4)) fun _ bs => !fieldsBad (areaWords bs)) (by decide)
  obtain ⟨s1, head, h1, m1⟩ := areaRead_of m0
  simp only [Bool.and_eq_true, Bool.not_eq_true'] at m1
  obtain ⟨s2, pre, h2, m2⟩ := areaRead_of m1.2
  obtain ⟨s3, bs, h3, m3⟩ := areaRead_of m2
  exact ⟨s0, front, h0, s1, head, h1, m1.1, s2, pre, h2, s3, bs, h3, by simpa using m3⟩

theorem loads_block : let s := switching { stoppedConvoy with lanes := [] } 0x40000 blockAreaMem
    ∃ s1 head, AreaRead s fo 0xFF 0x40000 0x100 s1 head ∧ blockHeadBad (s.block 0) head = false ∧
      ∃ s2 bs, AreaRead s1 fo 0xFF 0x40000 (blockAreaSize (s.block 0) head) s2 bs ∧ areaTiles bs = [] := by
  intro s
  obtain ⟨s1, head, h1, m1⟩ := areaRead_of (s := s) (va := 0x40000) (n := 0x100) (more := fun s1 head => !blockHeadBad (s.block 0) head &&
    areaReads s1 0x40000 (blockAreaSize (s.block 0) head) fun _ bs => (areaTiles bs).isEmpty) (by decide)
  simp only [Bool.and_eq_true, Bool.not_eq_true'] at m1
  obtain ⟨s2, bs, h2, m2⟩ := areaRead_of m1.2
  exact ⟨s1, head, h1, m1.1, s2, bs, h2, List.isEmpty_iff.mp m2⟩

/-- CTXSV of a stopped convoy, also of one with a register in error, and of its block; CTXLD into a reserved convoy, of its block, and into a free position. -/
theorem witness_ContextWords :
    (let w := fw no (.s 1) (.s 2) no 0; let s := switching stoppedConvoy 0x1FF000 aTable
     (Instr.ctxsv w).WellFormed ∧ Issues s fo w.hdr [(w.x, 1), (w.y, 1)] [] 0xFF ∧ ((s.slotAt 0 0).positions.getD 1 none) = some 1 ∧ (s.convoy 1).stopped = true ∧
       (s.convoy 1).lanes ≠ [] ∧ s.accesses = [] ∧ (s.convoy 1).errs = [] ∧
       (let u := switching { stoppedConvoy with errs := [{ reg := .v 2, lane := some 7, bits := 2 }] } 0x1FF000 aTable
        Issues u fo w.hdr [(w.x, 1), (w.y, 1)] [] 0xFF ∧ ∃ x ∈ (u.convoy 1).errs, correctable (u.launchOf (u.convoy 1)).rec_.detection (u.convoy 1) x = false) ∧
       ∃ s1 lines, areaLines s fo (switcher 0x1FF000) 0xFF true 0x1FF000 (areaBytes s (s.convoy 1)).length = .ok s1 lines ∧ lines.Nodup) ∧
    (let w := fw no (.s 1) (.s 2) no 1; let s := saving
     (Instr.ctxsv w).WellFormed ∧ Issues s fo w.hdr [(w.x, 1), (w.y, 1)] [] 0xFF ∧ (∀ i ∈ (s.blockOf (s.convoy 1)).convoys, (s.convoy i).stopped = true ∧ (s.convoy i).lanes ≠ []) ∧
       blockQuiet s 0 = true ∧
       ∃ s1 lines, areaLines (noteBadTiles s 0 0) fo (switcher 0x40000) 0xFF true 0x40000 (blockArea s 0 0).length = .ok s1 lines ∧ lines.Nodup) ∧
    (let w := fw no (.s 1) (.s 2) no 0; let s := loading; let d := s.convoy 1
     (Instr.ctxld w).WellFormed ∧ Issues s fo w.hdr [(w.x, 1), (w.y, 1)] [] 0xFF ∧ d.lanes = [] ∧
       ∃ s1 head, AreaRead s fo 0xFF 0x40000 16 s1 head ∧ headBad d (areaWords head) = false ∧
         ∃ s2 pre, AreaRead s1 fo 0xFF 0x40000 (areaSize 8 16 (areaL (areaWords head)) 0) s2 pre ∧
           ∃ s3 bs, AreaRead s2 fo 0xFF 0x40000 (areaSize 8 16 (areaL (areaWords head)) (bytesNat pre (areaSize 8 16 (areaL (areaWords head)) 0 - 8) 4)) s3 bs ∧
             fieldsBad (areaWords bs) = false) ∧
    (let w := fw no (.s 1) (.s 2) no 1; let s := switching { stoppedConvoy with lanes := [] } 0x40000 blockAreaMem
     (Instr.ctxld w).WellFormed ∧ Issues s fo w.hdr [(w.x, 1), (w.y, 1)] [] 0xFF ∧ (s.core 0).tiles.length = 8 ∧
       ∃ s1 head, AreaRead s fo 0xFF 0x40000 0x100 s1 head ∧ blockHeadBad (s.block 0) head = false ∧
         ∃ s2 bs, AreaRead s1 fo 0xFF 0x40000 (blockAreaSize (s.block 0) head) s2 bs ∧ areaTiles bs = []) ∧
    (let w := fw no (.s 1) (.s 2) no 0
     (Instr.ctxld w).WellFormed ∧ Issues stray fo w.hdr [(w.x, 1), (w.y, 1)] [] 0xFF ∧ (stray.convoy 0).priv = 2 ∧ readU stray (stray.convoy 0) w.x = 0x40000 ∧ readU stray (stray.convoy 0) w.y = 1 ∧
       (stray.slotAt 0 0).launch = some 0 ∧ 0 < (stray.core 0).slots.length ∧ (stray.slotAt 0 0).positions = [some 0, none]) ∧
    Storable barlWaiter :=
  ⟨⟨by decide, issues_of (by decide) (by decide), by decide, by decide, by decide, by decide, by decide, ⟨issues_of (by decide) (by decide), by decide⟩, lines_of (by decide)⟩,
   ⟨by decide, issues_of (by decide) (by decide), by decide, by decide, saves_block⟩,
   ⟨by decide, issues_of (by decide) (by decide), by decide, loads_convoy⟩, ⟨by decide, issues_of (by decide) (by decide), by decide, loads_block⟩,
   ⟨by decide, issues_of (by decide) (by decide), by decide, by decide, by decide, by decide, by decide, by decide⟩, barlWaiter_storable⟩

/-- The state between two issues, with another slot of its launch. -/
def between (x : Slot) (progressOff : Bool) : State :=
  { one aConvoy with focus := none, cores := [{ aCore with slots := [{ x with launch := some 0, positions := [some 0] }], wdctl := 1 }]
                     launches := [{ aLaunch with rec_ := { aLaunch.rec_ with flags := if progressOff then 2 else 0 } }] }

/-- A fairness timer that has just run out; a watchdog that has. -/
theorem witness_TimerEvents :
    (let s := between { Slot.closed with timer := 2048, backward := true } false
     0 < s.cores.length ∧ 0 < (s.core 0).slots.length ∧ handoverDue s 0 0 = true ∧ ∃ q ∈ slotLanes s 0 0, ∃ l, l < (s.convoy q.1).width ∧ q.2.getLsbD l = true) ∧
    (let s := between { Slot.closed with watchdog := 2 ^ 20 - 1 } true
     0 < s.cores.length ∧ 0 < (s.core 0).slots.length ∧ livelockDue s 0 0 = true ∧ issueAddr s 0 0 = some 0x1000 ∧ ((activeSets s 0 0 0x1000).map Prod.fst).Nodup ∧
       activeSets s 0 0 0x1000 ≠ [] ∧ ∀ p ∈ activeSets s 0 0 0x1000, pendingRegs s p.1 = [] ∧ p.1 < s.convoys.length ∧ (s.convoy p.1).core = 0 ∧ (s.convoy p.1).slot = 0 ∧
         (s.convoy p.1).lanes.length = (s.convoy p.1).width ∧ (s.convoy p.1).priv < 2) :=
  ⟨⟨by decide, by decide, by decide, (0, 0xFF), by decide, 7, by decide⟩, by decide, by decide, by decide, by decide, by decide, by decide, by decide⟩

/-- An access of the convoy's lanes to a word at the end of the page. -/
def anAccess (kind : AccKind) (phase : AccPhase) : Access :=
  { id := 3, number := 1, core := 0, seq := 0, convoy := 0, launch := 0, lanes := [0, 7], va := 0x1FFFFC, pa := 0x1FFFFC, size := 4, kind := kind, acq := false, rel := false,
    scope := 0, sc := false, rc := false, home := false, itin := [], phase := phase, waiting := 0, mask := 0x81, retrying := false }

def withAccess (a : Access) : State := { one aConvoy with accesses := [a] }

/-- A load, a store, an atomic of two lanes and a fill that may be performed. -/
theorem witness_HomePerformance : ∀ k ∈ [AccKind.load (.v 15) 4 false, .store [1, 2, 3, 4], .atom 0 false [[1, 0, 0, 0], [2, 0, 0, 0]] none, .fill false],
    let a := anAccess k .sent
    let s := withAccess a
    s.sound = true ∧ findAccess s 3 = some a ∧ eligible s a = true ∧ a.itin = [] ∧ NoHold (s.convoy 0) (holdsAccess a true) ∧ usableCopy s a = none ∧
      (s.accesses.filter fun b => b.number == a.number && b.pa == a.pa && b.isRead && b.isWrite && b.unperformed) = if a.isRead && a.isWrite then [a] else [] := by
  intro k hk
  simp only [List.mem_cons, List.not_mem_nil, or_false] at hk
  rcases hk with rfl | rfl | rfl | rfl <;> exact ⟨by decide, by decide, by decide, by decide, noHold_of (by decide), by decide, by decide⟩

/-- The same to the first bytes of host memory. -/
def aHostAccess (kind : AccKind) (phase : AccPhase) : Access := { anAccess kind phase with pa := 2 ^ 45 }

/-- A load, a store and an atomic of two lanes to host memory; a write and a load that stand first in the posted-write queue. -/
theorem witness_HomePerformance_host :
    (∀ k ∈ [AccKind.load (.v 15) 4 false, .store [1, 2, 3, 4], .atom 0 false [[1, 0, 0, 0], [2, 0, 0, 0]] none], let a := aHostAccess k .sent; let s := withAccess a
      s.sound = true ∧ findAccess s 3 = some a ∧ eligible s a = true ∧ a.itin = [] ∧ paIsHost a.pa = true ∧ NoHold (s.convoy 0) (holdsAccess a true) ∧
        (s.accesses.filter fun b => b.number == a.number && b.pa == a.pa && b.isRead && b.isWrite && b.unperformed) = if a.isRead && a.isWrite then [a] else []) ∧
    ∀ x ∈ [Posted.write (2 ^ 45) [1] none, .visit 3], let a := aHostAccess (.load (.v 15) 4 false) .sent; let s := { withAccess a with hub := { aHub with posted := [x] } }
      s.sound = true ∧ s.hub.posted = x :: [] ∧ findAccess s 3 = some a ∧ NoHold (s.convoy 0) (holdsAccess a true) := by
  refine ⟨?_, ?_⟩
  · intro k hk
    simp only [List.mem_cons, List.not_mem_nil, or_false] at hk
    rcases hk with rfl | rfl | rfl <;> exact ⟨by decide, by decide, by decide, by decide, by decide, noHold_of (by decide), by decide⟩
  · intro x hx
    simp only [List.mem_cons, List.not_mem_nil, or_false] at hx
    rcases hx with rfl | rfl <;> exact ⟨by decide, by decide, by decide, noHold_of (by decide)⟩

/-- The small state with an access, while a frame at the end of the page is armed. -/
def armedFor (a : Access) : State :=
  { withAccess a with hub := { aHub with migrations := [{ Migration.reset with msrc := 0x1F0000, mctl := 1 }] } }

def armed : State := armedFor (anAccess (.store [0, 0, 0, 0]) .sent)

/-- The translation of an access to the armed frame, anew. -/
def again (s : State) (a : Access) : Xlate :=
  xlate (refuseAccess s a) (convoyReq (refuseAccess s a) ((refuseAccess s a).convoy a.convoy) a.isWrite) a.va

/-- It leads to a home that answers, and where what a read finds can be corrected; or it leads elsewhere. -/
def answered (a : Access) : Xlate → Bool
  | .ok s pa _ => !armedFrame s pa && !(a.isRead && s.memBad pa a.size)
  | _ => false

theorem answered_of {a : Access} {x : Xlate} (h : answered a x = true) :
    ∃ s pa leaf, x = .ok s pa leaf ∧ armedFrame s pa = false ∧ (a.isRead = true → s.memBad pa a.size = false) := by
  cases x with
  | ok s pa leaf =>
    simp only [answered, Bool.and_eq_true, Bool.not_eq_true'] at h
    exact ⟨s, pa, leaf, rfl, h.1, fun hr => by simpa [hr] using h.2⟩
  | _ => exact Bool.noConfusion h

theorem unanswered_of {a : Access} {x : Xlate} (h : answered a x = false) :
    ∀ s pa leaf, x = .ok s pa leaf → armedFrame s pa = true ∨ (a.isRead = true ∧ s.memBad pa a.size = true) := by
  rintro s pa leaf rfl
  cases hf : armedFrame s pa <;> cases hr : a.isRead <;> cases hb : s.memBad pa a.size <;> simp [answered, hf, hr, hb] at h ⊢

/-- A load and an atomic that were performed; a store, a load and an atomic at an armed frame whose page is mapped to another frame; a store whose page is still mapped there, or is not any more, or that follows one that is retrying; a load that would find there what cannot be corrected; a prefetch of it; a store to a peer out of reach for 2^24 cycles. -/
theorem witness_AccessAnswers :
    (let a := anAccess (.load (.v 15) 4 true) (.performed 0 [[1, 2, 3, 4]]); let s := withAccess a
     findAccess s 3 = some a ∧ s.sound = true ∧ a.convoy < s.convoys.length ∧ (s.convoy 0).lanes.length = (s.convoy 0).width ∧
       overBudget (s.convoy 0).budget (.v 15) (regsOfSize 4) = false ∧ a.unperformed = false) ∧
    (let a := anAccess (.atom 0 false [[1, 0, 0, 0], [2, 0, 0, 0]] (some (.v 15))) (.performed 0 [[1, 2, 3, 4], [2, 2, 3, 4]]); let s := withAccess a
     findAccess s 3 = some a ∧ a.size = 4 ∧ a.lanes.Nodup ∧ (∀ l ∈ a.lanes, l < 64) ∧ 15 < (s.convoy 0).budget) ∧
    (∀ k ∈ [AccKind.store [0, 0, 0, 0], .load (.v 15) 4 false, .atom 0 false [[1, 0, 0, 0], [2, 0, 0, 0]] none], ∀ r ∈ [true, false],
      let a := { anAccess k .sent with va := 0x1EFFFC, retrying := r }; let s := armedFor a
      findAccess s 3 = some a ∧ a.unperformed = true ∧ armedFrame s a.pa = true ∧ (a.isRead || a.isWrite) = true ∧
        (s.accesses.filter fun b => b.number == a.number && b.pa == a.pa && b.isRead && b.isWrite && b.unperformed) = (if a.isRead && a.isWrite then [a] else []) ∧
        (∃ s2 pa leaf, again s a = .ok s2 pa leaf ∧ armedFrame s2 pa = false ∧ (a.isRead = true → s2.memBad pa a.size = false)) ∧ (∀ b ∈ s.accesses, b = a) ∧
        a.mask &&& (s.convoy 0).live ≠ 0 ∧ (∀ h ∈ (s.convoy a.convoy).holds, h.kind ≠ .retried a.number)) ∧
    (let a := anAccess (.store [0, 0, 0, 0]) .sent
     (∀ s2 pa leaf, again armed a = .ok s2 pa leaf → armedFrame s2 pa = true ∨ (a.isRead = true ∧ s2.memBad pa a.size = true)) ∧
     (∀ s2 pa leaf, again { armed with hub := { armed.hub with roots := [] } } a = .ok s2 pa leaf → armedFrame s2 pa = true ∨ (a.isRead = true ∧ s2.memBad pa a.size = true)) ∧
     (let b := { anAccess (.load (.v 15) 4 false) .sent with va := 0x1EFFFC }; let s := { armedFor b with memErrs := [0xF7FF] }
      ∀ s2 pa leaf, again s b = .ok s2 pa leaf → armedFrame s2 pa = true ∨ (b.isRead = true ∧ s2.memBad pa b.size = true)) ∧
     (let b := { a with id := 2, retrying := true }; let s := { armed with accesses := [b, a] }; findAccess s 3 = some a ∧ b ≠ a ∧ mustFollow s a b = true)) ∧
    (let a := anAccess (.fill false) .sent; a.unperformed = true ∧ (a.isRead || a.isWrite) = false ∧ findAccess { armed with accesses := [a] } 3 = some a) ∧
    (let a := { anAccess (.store [0, 0, 0, 0]) .sent with pa := 2 ^ 44 + 2 ^ 38 }; let s := { withAccess a with clock := 2 ^ 24 }
     findAccess s 3 = some a ∧ a.retrying = false ∧ paMapped s a.pa = false ∧ a.waiting + 2 ^ 24 ≤ s.clock ∧ a.launch < s.launches.length ∧ (s.launch a.launch).completed = false ∧
       (s.launch a.launch).terminated = none) := by
  refine ⟨by decide, by decide, ?_, ⟨unanswered_of (by decide), unanswered_of (by decide), unanswered_of (by decide), by decide, by decide, by decide⟩, by decide, by decide⟩
  intro k hk r hr
  simp only [List.mem_cons, List.not_mem_nil, or_false] at hk hr
  rcases hk with rfl | rfl | rfl <;> rcases hr with rfl | rfl <;>
    exact ⟨by decide, by decide, by decide, by decide, by decide, answered_of (by decide), by decide, by decide, by decide⟩

/-- A peer's read of the last word of memory and of one past it; an atomic on an armed frame; a port that goes down while no access waits, also beside a buffered store, and under a collective that needs data of the other rank. -/
theorem witness_PeerAndPorts : (one aConvoy).sound = true ∧ (one aConvoy).hub.ready.getLsbD 8 = true ∧ ¬ (2 ^ 30 * 192 < (2 ^ 30 * 192 - 4) + 4) ∧
    2 ^ 30 * 192 < (2 ^ 30 * 192 - 3) + 4 ∧ armedFrame (one aConvoy) (2 ^ 30 * 192 - 4) = false ∧ (one aConvoy).memErrs = [] ∧ armed.sound = true ∧
    armedFrame armed 0x1F0000 = true ∧ armedFrame armed 0x1EFFFF = false ∧ (one aConvoy).accesses = [] ∧ flightsLost (one aConvoy) = false ∧
    flightsLost (canonical aConvoy aConvoy) = false ∧ (canonical aConvoy aConvoy).accesses = [] := by decide

/-- A copy of one element with one receiver, which has taken some; what it has read; and where it reads. -/
def aCopy (phase : CopyPhase) (progress : Nat) (fetched : List (Nat × List Byte)) (src dst : Nat) : CopyOp :=
  { busyCopy with phase := phase, src := src, dst := dst, fetched := fetched, receivers := [{ newReceiver 0 false (some 4088) with progress := progress }] }

def copying (o : CopyOp) (action : Byte) (fqctl : W64) (waits : List EngineFault) : State :=
  { one aConvoy with copies := [o], mem := if action = 0 then aTable else aTable ++ [(0x40018, 1), (0x40019, action)]
                     blocks := [{ aBlock with ls := { LocalStore.empty with mem := [(0x44, 1), (0x46, 3)], marks := [0x40] } }]
                     hub := { aHub with fqbase := 0x40000, fqctl := fqctl, fqWaiting := waits } }

def aFault (resumed : Bool) : EngineFault :=
  { addr := 0x400000, progress := 0, core := 0, kind := 0, cause := causePAGEFAULT, write := false, launch := 1, copy := if resumed then some 0 else none }

/-- A copy that starts, and one behind it; a write of its one element into plain bytes, and into an armed object; its end; a fault on a page without a translation, with the fault queue off and on; a report with RESUME, or ABORT; a report that waits. -/
theorem witness_CopyEvents :
    (let o := aCopy .waiting 0 [] 0x100000 0; let s := { copying o 0 0 [] with copies := [o, o] }
     s.sound = true ∧ s.copies[0]? = some o ∧ s.copies[1]? = some o ∧ o.paused = false ∧ o.rel = false) ∧
    (∀ dst ∈ [4080, 0x47], let o := aCopy .moving 0 [(0, [7])] 0x100000 dst; let s := copying o 0 0 []
     s.sound = true ∧ s.copies[0]? = some o ∧ o.kind = .copy 0 ∧ o.dstLocal = true ∧ (∃ r, o.receivers[0]? = some r ∧ mayWrite s o r = true ∧ r.block < s.blocks.length) ∧
       (o.element 0).length = 1 ∧ (armedObject (blockLs (s.block 0) false) dst 1).isNone = (dst == 4080)) ∧
    (let o := aCopy .moving 1 [] 0x100000 0; let s := copying o 0 0 []
     s.sound = true ∧ s.copies[0]? = some o ∧ o.paused = false ∧ o.stop = none ∧ o.flight = [] ∧ blockAway (s.block 0) = false ∧ o.lay.count ≤ 1 ∧ copyEnds s o ≠ [] ∧
       (o.receivers.map fun (r : Receiver) => (r.block, r.second)).Nodup ∧ ∀ r ∈ o.receivers, r.block < s.blocks.length ∧ r.joined = false ∧ r.ended = none) ∧
    (∀ q ∈ [0#64, 2 ^ 33 + 4], let o := aCopy .moving 0 [] 0x400000 0; let s := copying o 0 q []
     s.sound = true ∧ s.copies[0]? = some o ∧ copyEnds s o = [] ∧ fqEnabled s.hub = (q != 0) ∧ copyFault s 0 = some (causePAGEFAULT, 0x400000, false)) ∧
    (∀ action ∈ [1#8, 2#8], let o := aCopy (.reported 0x40000) 0 [] 0x400000 0; let s := copying o action (2 ^ 33 + 4) []
     s.sound = true ∧ o.paused = false ∧ homeBusy s 0x40000 = false ∧ memGet s.mem (0x40000 + 0x19) = action) ∧
    (∀ r ∈ [true, false], let o := aCopy (.faulted 0x400000 causePAGEFAULT false) 0 [] 0x400000 0; let s := copying o 0 (2 ^ 33 + 4) [aFault r]
     s.sound = true ∧ s.hub.fqWaiting = [aFault r] ∧ fqReady s = true) := by
  refine ⟨by decide, ?_, by decide, ?_, by decide, by decide⟩
  rotate_left
  · intro q hq
    simp only [List.mem_cons, List.not_mem_nil, or_false] at hq
    rcases hq with rfl | rfl <;> exact ⟨by decide, rfl, by decide, by decide, by decide⟩
  intro d hd
  simp only [List.mem_cons, List.not_mem_nil, or_false] at hd
  rcases hd with rfl | rfl <;> exact ⟨by decide, by decide, by decide, by decide, ⟨_, rfl, by decide, by decide⟩, by decide, by decide⟩

/-- An operation on tile 7 at the head of its array's queue. -/
def atHead (k : MatKind) (cancelled : Bool) (rows : List (Nat × Nat × List Byte)) : State :=
  { one aConvoy with cores := [{ aCore with tiles := List.replicate 8 Tile.free, queue := [{ anOp with
      kind := k, tile := 7, stamp := if k = .accst 0 0 0 0 then none else some 4088, cancelled := cancelled, rows := rows }] }] }

/-- The rows of local store that an operation needs, all read as zeros. -/
def allRows (k : MatKind) : List (Nat × Nat × List Byte) := (matInputs 0 { anOp with kind := k, tile := 7 }).map fun x => (x.1, x.2, List.replicate 1024 0)

/-- What the statement asks of the head of the queue. -/
def headOk (s : State) : Bool :=
  s.sound && (match matReady s 0 with
    | some o => decide (o.block < s.blocks.length) && !o.pair && (matCores 0 o).all (fun k => decide (k < s.cores.length) && decide (o.tile < (s.core k).tiles.length)) &&
        decide (o.convoy < s.convoys.length) && decide ((s.convoy o.convoy).lanes.length = (s.convoy o.convoy).width)
    | none => false)

/-- An operation of every kind that ends, cancelled or not; a load that still reads its rows; and a store that still writes its rows. -/
theorem witness_MatrixEnd :
    (∀ k ∈ [MatKind.azero, .accld 0, .mma 0 0x800, .mmas 0 0x800, .accstat 7 true 63], ∀ cancelled ∈ [true, false],
      headOk (atHead k cancelled (allRows k)) = true ∧ matMoves (atHead k cancelled (allRows k)) 0 = false) ∧
    headOk (atHead (.accst 0 0 0 0) true []) = true ∧ matMoves (atHead (.accst 0 0 0 0) true []) 0 = false ∧
    headOk (atHead (.accld 0) false []) = true ∧ matMoves (atHead (.accld 0) false []) 0 = true ∧
    headOk (atHead (.accst 0 0 0 0) false []) = true ∧ matMoves (atHead (.accst 0 0 0 0) false []) 0 = true := by
  refine ⟨?_, by decide, by decide, by decide, by decide, by decide, by decide⟩
  intro k hk b hb
  simp only [List.mem_cons, List.not_mem_nil, or_false] at hk hb
  rcases hk with rfl | rfl | rfl | rfl | rfl <;> rcases hb with rfl | rfl <;> exact ⟨by decide, by decide⟩

/-- A chunk of a collective of rank 0 of two: with its hop, or the final data (0) or a notice (254, 255), and its descriptor. -/
def aChunk (hop : Nat) (desc : Nat) : Chunk := { slot := 63, number := 0, src := 1, desc := desc, flow := 0, hop := hop, seq := 0, first := 0, bytes := [0, 0, 0x80, 0x3F] }

def joint (cs : List Coll) : State := { one aConvoy with colls := cs, hub := { aHub with comms := List.replicate 63 none ++ [some { aComm with taken := 1 }] } }

/-- The node of the one hop with both operands. -/
def waiting : Coll :=
  { aColl 63 with started := true, values := [{ aChunk 0 (aColl 63).desc with src := 0 }], received := [aChunk 1 (aColl 63).desc] }

/-- A collective with an element write to perform, and one that has failed. -/
def writing : Coll := { waiting with flight := [{ element := 0, va := 0x100010, pa := 0x100010, bytes := [1, 2, 3, 4], waiting := 0, retrying := false }] }

def lostOne : Coll := { waiting with failed := true }

/-- A reduce block at work. -/
def combining : State :=
  { joint [waiting] with hub := { (joint []).hub with reduces := [{ core := 0, coll := 0, node := 1, a := [0, 0, 0x80, 0x3F], b := [0, 0, 0x80, 0x3F] }] } }

/-- A node that waits for a lay-by; other reduce blocks at work, and service operations. -/
def noded (reduces : List Reduce) (services : List ServiceOp) : State :=
  { joint [waiting] with cores := [Core.reset], services := services, hub := { (joint []).hub with nodes := [(0, 1, 4)], reduces := reduces } }

/-- Every lay-by is taken. -/
theorem laybys_taken {s : State} (h : s.hub.reduces = (List.range 256).map fun k => { core := k, coll := 0, node := 9, a := [], b := [] }) :
    ∀ k, k < 256 → laybyFree s k = false := by
  intro k hk
  have : (s.hub.reduces.any fun r => r.core == k) = true := by
    rw [h, List.any_eq_true]
    exact ⟨_, List.mem_map.mpr ⟨k, List.mem_range.mpr hk, rfl⟩, beq_self_eq_true k⟩
  simp [laybyFree, this]

def putsAll (s : State) (c : Coll) : Bool := match collPut c c.flight s with
  | .ok _ => true
  | _ => false

theorem putsAll_of {s : State} {c : Coll} (h : putsAll s c = true) : ∃ t, collPut c c.flight s = .ok t := by
  unfold putsAll at h
  split at h
  · exact ⟨_, ‹_›⟩
  · exact Bool.noConfusion h

theorem not_putsAll_of {s : State} {c : Coll} (h : putsAll s c = false) : ∀ t, collPut c c.flight s ≠ .ok t := by
  intro t ht
  rw [putsAll, ht] at h
  exact Bool.noConfusion h

/-- The stamp of a collective may be counted. -/
def stampsNow (s : State) (c : Coll) : Bool := match engXlate s c.core c.ctx c.user true c.stamp with
  | .ok (s1, pa, _) => !homeBusy s1 pa && forkClear s1 c.convoy c.fork c.stamp pa 8
  | _ => false

theorem stampsNow_of {s : State} {c : Coll} (h : stampsNow s c = true) :
    ∃ s1 pa leaf, engXlate s c.core c.ctx c.user true c.stamp = .ok (s1, pa, leaf) ∧ homeBusy s1 pa = false ∧ forkClear s1 c.convoy c.fork c.stamp pa 8 = true := by
  unfold stampsNow at h
  split at h
  · simp only [Bool.and_eq_true, Bool.not_eq_true'] at h
    exact ⟨_, _, _, ‹_›, h⟩
  · exact Bool.noConfusion h

/-- A chunk before READY.AVE, one of a collective that is not issued, and one whose collective was issued before the communicator was set anew; every chunk of one that is started, behind an ended one of that number; a node that finds a lay-by, that waits behind a service block, and that finds none; the element writes of a chunk, and of one with a home that answers nothing; a stamp to count. -/
theorem witness_CollectiveEvents :
    ({ aHub with ready := 0xFF }.ready.getLsbD 8 = false ∧ aHub.ready.getLsbD 8 = true ∧ (∀ c ∈ (joint []).colls, ¬ (c.slot = 63 ∧ c.number = 0)) ∧
      (∀ c ∈ (joint [{ waiting with number := 1 }]).colls, c.slot = 63 ∧ c.number = 1) ∧ (joint []).hub.comms.getD 63 none = some { aComm with taken := 1 }) ∧ (aColl 63).started = false ∧
    (∀ x ∈ [(1, (aColl 63).desc), (0, (aColl 63).desc), (254, (aColl 63).desc), (255, (aColl 63).desc), (254, 0)], let ch := aChunk x.1 x.2; let s := joint [{ waiting with ended := true }, waiting]
     s.hub.ready.getLsbD 8 = true ∧ s.colls[1]? = some waiting ∧ s.colls.length = 2 ∧ s.hub.comms.getD ch.slot none = some { aComm with taken := 1 } ∧ ch.number < 1 ∧
       waiting.slot = ch.slot ∧ waiting.number = ch.number ∧ waiting.failed = false ∧ waiting.ended = false ∧ waiting.waiting = [] ∧
       ch.flow = assoc waiting.seen ch.src 0 ∧ decide (ch.desc = waiting.desc) = (x.2 == (aColl 63).desc) ∧ ch.hop = x.1) ∧
    (∀ x ∈ waiting.waiting ++ [{ aChunk 1 0 with flow := 1 }], x.flow ≠ assoc waiting.seen x.src 0) ∧
    (∀ v ∈ [[], [{ newService 0x40000 true 0 0 false with since := some 3 }]], let s := noded [] v
     s.hub.nodes = (0, 1, 4) :: [] ∧ nodeOperands s 0 1 = some ([0, 0, 0x80, 0x3F], [0, 0, 0x80, 0x3F]) ∧ laybyFree s 0 = true ∧ laybyFree s 1 = true ∧
       (∀ x ∈ s.services, x.core = 0 ∧ x.since = some 3) ∧ waiting.size * 1 = 4) ∧
    (let s := noded ((List.range 256).map fun k => { core := k, coll := 0, node := 9, a := [], b := [] }) []
     s.hub.nodes = (0, 1, 4) :: [] ∧ nodeOperands s 0 1 = some ([0, 0, 0x80, 0x3F], [0, 0, 0x80, 0x3F]) ∧ ∀ k, k < 256 → laybyFree s k = false) ∧
    (combining.hub.reduces[0]? = some { core := 0, coll := 0, node := 1, a := [0, 0, 0x80, 0x3F], b := [0, 0, 0x80, 0x3F] } ∧ combining.colls[0]? = some waiting ∧
      ∀ v ∈ waiting.values, ¬ (v.hop = 1 % 8 ∧ v.seq = 1 / 8)) ∧
    ((joint [writing]).sound = true ∧ (∃ f, writing.flight[0]? = some f ∧ paIsHost f.pa = false ∧ (writing.flight.filter fun x => x.element == f.element) = writing.flight) ∧
      (∃ t, collPut writing writing.flight (joint [writing]) = .ok t) ∧
      ∀ t, collPut writing writing.flight { joint [writing] with hub := { (joint []).hub with migrations := [{ Migration.reset with msrc := 0x100000, mctl := 1 }] } } ≠ .ok t) ∧
    ((joint [lostOne]).sound = true ∧ collStatus (joint [lostOne]) lostOne = some 3 ∧
      ∃ s1 pa leaf, engXlate (joint [lostOne]) lostOne.core lostOne.ctx lostOne.user true lostOne.stamp = .ok (s1, pa, leaf) ∧ homeBusy s1 pa = false ∧
        forkClear s1 lostOne.convoy lostOne.fork lostOne.stamp pa 8 = true) :=
  ⟨by decide, by decide, by decide, by decide, by decide, ⟨by decide, by decide, laybys_taken rfl⟩, by decide,
   ⟨by decide, ⟨_, rfl, by decide, by decide⟩, putsAll_of (by decide), not_putsAll_of (by decide)⟩, by decide, by decide, stampsNow_of (by decide)⟩

/-- A record for one block of one convoy of 8 lanes and 16 V registers; without a width it fits nothing. -/
def aRecord (width : Byte) : List Byte :=
  ((((((((List.replicate 128 0).set 1 0x10).set 8 1).set 0xC 8).set 0xE width).set 0xF 2).set 0x11 0x10).set 0x4A 0x10).set 0x50 8

def queued (x : Queue) : State := { one aConvoy with hub := { aHub with queues := List.replicate 15 Queue.reset ++ [x] } }

/-- A launch with one more block to place on the one core there is. -/
def pending : State :=
  { one aConvoy with launches := [{ aLaunch with rec_ := { parseRecord (aRecord 8) with grid := 2 } }], cores := [Core.reset], convoys := [], blocks := [] }

def finished (x : BlockState) : State :=
  { one { aConvoy with ended := true, live := 0 } with blocks := [{ aBlock with state := x }], launches := [{ aLaunch with rec_ := { aLaunch.rec_ with grid := 1 } }] }

def restoring : State :=
  { one stoppedConvoy with cores := [Core.reset], blocks := [{ aBlock with state := .restoring }], services := [{ newService 0x40000 true 0 0 false with since := some 0 }] }

/-- A ring with its last place used; heads that are admitted and rejected; a block to place, one to release, a launch to complete, a service block to start. -/
theorem witness_LaunchEvents :
    (let s := queued { Queue.reset with qctl := 0x104, head := 0xFFFFFFF8, tail := 8 }
     15 < s.hub.queues.length ∧ s.hub.ready.getLsbD 7 = true ∧ (s.queue 15).qctl.getLsbD 8 = true ∧ (s.queue 15).qctl.getLsbD 9 = false ∧ (s.queue 15).stale = false ∧
       (s.queue 15).fifo.length < 64 ∧ (s.queue 15).entered ≠ some s.clock ∧ nextOffer s 15 = none ∧ s.hub.posted = [] ∧
       ringSize (s.queue 15).qctl = some 16 ∧ ringAhead (s.queue 15) = 16) ∧
    (∀ w ∈ [0#8, 8#8], let s := queued { Queue.reset with fifo := [{ id := 9, record := aRecord w, eligible := true }] }
     let s := { s with hub := { s.hub with roots := s.hub.roots.set 15 0x20001 } }
     s.sound = true ∧ (s.queue 15).fifo = [{ id := 9, record := aRecord w, eligible := true }] ∧
       admissible s 15 { id := 9, record := aRecord w, eligible := true } = true ∧ (parseRecord (aRecord w)).status ≠ 0 ∧
       rejection s 15 (parseRecord (aRecord w)) = if w = 0 then some (1, causeLAYOUT) else none) ∧
    (let s := pending
     s.hub.freedAt ≠ some s.clock ∧ placingLaunch s (placingOrder s) = some 0 ∧ (s.launch 0).rec_.allResident = false ∧ chooseCore s 0 = some 0 ∧ (findRoom s 0 0).isSome = true) ∧
    (0 < (finished .ended).blocks.length ∧ releasable (finished .ended) 0 = true ∧ ((finished .ended).block 0).kind = .ordinary) ∧
    ((finished .freed).sound = true ∧ completable (finished .freed) 0 = true ∧ ((finished .freed).launch 0).recording = false ∧ ((finished .freed).launch 0).rec_.mode ≠ 1) ∧
    (restoring.services[0]? = some { newService 0x40000 true 0 0 false with since := some 0 } ∧ serviceReady restoring 0 = true ∧ 0 < restoring.cores.length ∧ 31 < (restoring.core 0).slots.length) :=
  ⟨by decide, by decide, by decide, by decide, by decide, by decide⟩

def hubbed (h : Hub) : State := { one aConvoy with hub := h }

/-- The windows with every size of a ring and difference; a slot that is not armed, one that is, and a copy of a frame that may end, with an error and without. -/
theorem witness_WindowEvents :
    (let s := hubbed { aHub with queues := List.replicate 16 { Queue.reset with qctl := 4 } }
     s.hub.ready.getLsbD 0 = true ∧ 15 < s.hub.queues.length ∧ (s.queue 15).qctl.toNat % 16 = 4 ∧
       ((16#64).toNat % 2 ^ 32 + 2 ^ 32 - (s.queue 15).head.toNat) % 2 ^ 32 ≤ 2 ^ 4 ∧ 2 ^ 4 < ((17#64).toNat % 2 ^ 32 + 2 ^ 32 - (s.queue 15).head.toNat) % 2 ^ 32 ∧
       s.hub.mbcmd = none ∧ (2 ^ 28 ≤ s.hub.blob.window) ∧ s.hub.migrations.length = 4) ∧
    (hubbed { aHub with mbcmd := some (1, 0) }).hub.mbcmd.isSome = true ∧
    ({ aHub with ready := 1 }).ready.getLsbD 6 = false ∧ Hub.reset.ready.getLsbD 0 = false ∧
    (hubbed { aHub with queues := List.replicate 15 Queue.reset ++ [{ Queue.reset with stale := true }] }).sound = true ∧
    (let s := hubbed { aHub with mwbase := 192 * 2 ^ 30 - 8 }
     s.hub.ready.getLsbD 6 = true ∧ 192 * 2 ^ 30 < s.hub.mwbase.toNat + 0 + 9 ∧ 0 + 8 ≤ s.hub.window ∧ s.hub.mwbase.toNat + 0 + 8 ≤ 192 * 2 ^ 30 ∧
       armedFrame s s.hub.mwbase.toNat = false ∧ armedFrame s (s.hub.mwbase.toNat + 7) = false ∧ s.sound = true) ∧
    ∀ e ∈ [[], [0x87FF]], let m := { Migration.reset with msrc := 0x100000, mdst := 0x200000, mctl := 1, frame := List.replicate 65536 0 }
      let s := { hubbed { aHub with migrations := [m, Migration.reset] } with memErrs := e }
      (s.migration 1).mctl.getLsbD 0 = false ∧ (s.migration 0).mctl.getLsbD 0 = true ∧ 1 < s.hub.migrations.length ∧ migrating s 0 = true ∧ s.sound = true ∧ m.frame.length = 65536 ∧
        m.msrc.toNat % 65536 = 0 ∧ m.mdst.toNat % 65536 = 0 ∧ m.msrc.toNat + 65536 ≤ 192 * 2 ^ 30 ∧ m.mdst.toNat + 65536 ≤ 192 * 2 ^ 30 ∧
        (s.memErrs.any fun x => decide (32 * x < m.msrc.toNat + 65536) && decide (m.msrc.toNat < 32 * x + 32)) = (e == [0x87FF]) := by
  refine ⟨by decide, by decide, by decide, by decide, by decide, by decide, ?_⟩
  intro e he
  simp only [List.mem_cons, List.not_mem_nil, or_false] at he
  rcases he with rfl | rfl <;>
    exact ⟨by decide, by decide, by decide, by decide, by decide, List.length_replicate, by decide, by decide, by decide, by decide, by decide⟩

/-- The mailbox with a command and its arguments. -/
def commanding (code : Byte) (args : List W64) : Hub := { aHub with mbcmd := some (code, 7), mbarg := args }

def isCommanded (s : State) (code : Byte) (need : Nat) : Bool := s.hub.mbcmd == some (code, 7) && s.hub.attesting == none && s.hub.ready.getLsbD need

theorem commanded_of {s : State} {code : Byte} {need : Nat} (h : isCommanded s code need = true) : Commanded s code 7 need := by
  simp only [isCommanded, Bool.and_eq_true, beq_iff_eq] at h
  exact ⟨h.1.1, h.1.2, h.2⟩

/-- Every command with its arguments at an end of their ranges. -/
theorem witness_HubCommands :
    (∀ p ∈ commandCodes, ({ commanding p.2.1 [] with ready := 0 }).mbcmd = some (p.2.1, 7)) ∧ (one aConvoy).sound = true ∧
    Commanded (hubbed (commanding 0x01 [2 ^ 44 - 4096])) 0x01 7 2 ∧ Commanded (hubbed (commanding 0x02 [2 ^ 44 - 32, 0xFF])) 0x02 7 3 ∧
    (let s := hubbed { commanding 0x02 [0, 63] with portMasks := List.replicate 64 0x8000, ports := List.replicate 16 true }
     Commanded s 0x02 7 3 ∧ s.hub.ready.getLsbD 8 = true ∧ peerReachable s.hub 63 = true) ∧
    (hubbed { aHub with attesting := some 7 }).hub.attesting = some 7 ∧
    (let s := { one { aConvoy with holds := [{ lanes := 0x80, pc := 0x1000, kind := .waitev 65535 3 (some 5), y := false }] } with hub := commanding 0x05 [65535] }
     Commanded s 0x05 7 7 ∧ 0 < s.convoys.length ∧ ∃ h ∈ (s.convoy 0).holds ++ (s.convoy 0).rvHolds ++ (s.convoy 0).hrvHolds, h.kind = .waitev 65535 3 (some 5)) ∧ Commanded (hubbed (commanding 0x06 [65535])) 0x06 7 7 ∧
    (∀ cs ∈ [[], [aColl 63]], let s := { hubbed (commanding 0x09 [63, 64, 63, 0, 2 ^ 44 - 64]) with colls := cs }
      Commanded s 0x09 7 7 ∧ 63 < s.hub.comms.length ∧ (∀ m ∈ (memRead s.mem (hostPa (2 ^ 44 - 64)) 64).take 64, m.toNat ≤ 63) ∧
        decide (∃ c ∈ s.colls, c.slot = 63 ∧ c.ended = false) = (cs != [])) ∧
    Commanded (hubbed (commanding 0x0A [63])) 0x0A 7 7 ∧ Commanded (hubbed (commanding 0x0B [2 ^ 48 - 8])) 0x0B 7 7 ∧
    (let s := hubbed (commanding 0x0C [192 * 2 ^ 30 - 16, 1]); Commanded s 0x0C 7 7 ∧ waitEntries s true = 0) ∧
    Commanded (hubbed (commanding 0x0D [63, 2 ^ 44 - 128])) 0x0D 7 5 ∧ aHub.ownModule = 0 ∧ ({ aHub with ready := 0x7F }).ready.getLsbD 7 = false ∧
    Commanded (hubbed (commanding 0x0E [1500])) 0x0E 7 1 ∧ Commanded (hubbed (commanding 0x0E [601])) 0x0E 7 1 ∧
    (let s := hubbed (commanding 0x0F [2 ^ 44 - 4, 4, 1, 1]); Commanded s 0x0F 7 3 ∧ s.hub.flash.length = 2) ∧
    Commanded (hubbed (commanding 0x12 [])) 0x12 7 0 ∧ Commanded (hubbed (commanding 0 [])) 0 7 0 :=
  ⟨by decide, by decide, commanded_of (by decide), commanded_of (by decide), ⟨commanded_of (by decide), by decide, by decide⟩, rfl, ⟨commanded_of (by decide), by decide, by decide⟩, commanded_of (by decide),
   by
    intro cs hc
    simp only [List.mem_cons, List.not_mem_nil, or_false] at hc
    rcases hc with rfl | rfl <;> exact ⟨commanded_of (by decide), by decide, by decide, by decide⟩,
   commanded_of (by decide), commanded_of (by decide), ⟨commanded_of (by decide), by decide⟩, commanded_of (by decide), rfl, by decide, commanded_of (by decide), commanded_of (by decide),
   ⟨commanded_of (by decide), by decide⟩, commanded_of (by decide), commanded_of (by decide)⟩

/-- The record of a service operation at 0x1F0000, with its last byte, is mapped to itself, whatever the hub writes into it. -/
theorem record_mapped {s : State} (hr : s.hub.roots.getD 16 0 = 0x20001) (hg : s.hub.migrations = aHub.migrations) (he : s.memErrs = [])
    (h1 : memWord s.mem 0x20000 = 0x30001) (h2 : memWord s.mem 0x30000 = aPage) (u : State) (k : Nat) (ur : u.hub.roots = s.hub.roots) (ug : u.hub.migrations = s.hub.migrations)
    (ue : ∀ x ∈ u.memErrs, x ∈ s.memErrs) (um : ∀ a, a < 0x1F0000 ∨ 0x1F0000 + 256 ≤ a → memGet u.mem a = memGet s.mem a) (hk : k < 256) :
    deviceXlate u 16 (0x1F0000 + k) true = .inr (0x1F0000 + k) :=
  identity_mapped (m := s.mem) (by rw [ur, hr]) (ug.trans hg) (List.eq_nil_iff_forall_not_mem.mpr fun x hx => List.not_mem_nil (he ▸ ue x hx)) (fun a ha => um a (.inl (by omega))) h1 h2 (by omega)

/-- A launch to kill, and none; a parked convoy, also a double-trapped one, to resume or terminate, and none; a block to stop, and one to bring back. -/
theorem witness_BlockCommands :
    (let s := hubbed (commanding 0x07 [1]); Commanded s 0x07 7 7 ∧ findLaunch s 1 = some 0) ∧
    (let s := hubbed (commanding 0x07 [0]); Commanded s 0x07 7 7 ∧ findLaunch s 0 = none) ∧
    (∀ a ∈ [1#64, 2#64], ∀ d ∈ [true, false], let s := { one { aConvoy with parked := true, doubled := d, priv := 2 } with hub := commanding 0x08 [0, a] }
      Commanded s 0x08 7 7 ∧ parkedAt s = some 0 ∧ (s.convoy 0).doubled = d ∧ (s.convoy 0).launch < s.launches.length ∧ (s.launch 0).completed = false ∧
        (s.launch 0).terminated = none) ∧
    (let s := hubbed (commanding 0x08 [0, 1]); Commanded s 0x08 7 7 ∧ parkedAt s = none) ∧ Commanded (hubbed (commanding 0x08 [0, 3])) 0x08 7 7 ∧
    (let s := hubbed (commanding 0x10 [1, 0, 0x1FFF00]); Commanded s 0x10 7 7 ∧ findBlock s 1 0 = some 0 ∧ (s.block 0).state = .running ∧ (s.block 0).follower = none ∧
      serviceOpen s 0 = false ∧ recordUsable s 0x1FFF00 = true ∧
      let r := hubbed (commanding 0x10 [1, 0, 0x1F0000]); recordUsable r 0x1F0000 = true ∧ paIsLocal 0x1F0000 = true ∧ (coreConvoysOf r 0 0).length = 1 ∧ r.hub.roots.getD 16 0 = 0x20001 ∧
        r.hub.migrations = aHub.migrations ∧ r.memErrs = [] ∧ memWord r.mem 0x20000 = 0x30001 ∧ memWord r.mem 0x30000 = aPage) ∧
    (let s := { one stoppedConvoy with hub := commanding 0x11 [0x40000, 0], blocks := [{ aBlock with state := .saved }], cores := [Core.reset], mem := aTable ++ [(0x40008, 1)]
                                       launches := [{ aLaunch with rec_ := parseRecord (aRecord 8) }] }
     Commanded s 0x11 7 7 ∧ recordUsable s 0x40000 = true ∧ findBlock s (recordField s 0x40008 8) (recordField s 0x40010 4) = some 0 ∧ (s.block 0).state = .saved ∧
       restoreEligible s (s.block 0) 0 = true ∧ (findRoom s 0 0).isSome = true ∧ (s.block 0).convoys.Nodup) :=
  ⟨⟨commanded_of (by decide), by decide⟩, ⟨commanded_of (by decide), by decide⟩,
   by
    intro a ha d hd
    simp only [List.mem_cons, List.not_mem_nil, or_false] at ha hd
    rcases ha with rfl | rfl <;> rcases hd with rfl | rfl <;> exact ⟨commanded_of (by decide), by decide, by decide, by decide, by decide, by decide⟩,
   ⟨commanded_of (by decide), by decide⟩, commanded_of (by decide),
   ⟨commanded_of (by decide), by decide, by decide, by decide, by decide, by decide, by decide⟩,
   commanded_of (by decide), by decide, by decide, by decide, by decide, by decide, by decide⟩

/-- A checkpoint (or a restore) of the module with its image at host address 0 that stands at a chunk, with memory m. -/
def streamed (m : Memory) (restore : Bool) (chunk : Nat) (errs : List Nat) : State :=
  { hubbed { aHub with ckstat := BitVec.ofNat 64 (chunk * 256 + 2), ckRestore := restore, ckHost := 0, ckLines := [(191 * 2 ^ 23, List.replicate 128 1)] } with mem := m, memErrs := errs }

/-- The digest of the last chunk of an image without a byte but in its header. -/
def lastDigest : List Byte := sha3_256 (memRead [] (2 ^ 45 + 8192 + 2 ^ 30 * 191) (2 ^ 30))

def headed (d : List Byte) : Memory := memWrite [] (2 ^ 45 + 0x40 + 32 * 191) d

theorem headed_wf (d : List Byte) : Memory.wf (headed d) = true := memWrite_wf d _ (by decide)

/-- The header's digest of the last chunk is what is put there, and the chunk's own digest is not touched by that. -/
theorem headed_digest (d : List Byte) (hd : d.length = 32) :
    memRead (headed d) (2 ^ 45 + 0x40 + 32 * 191) 32 = d ∧ sha3_256 (memRead (headed d) (2 ^ 45 + 8192 + 2 ^ 30 * 191) (2 ^ 30)) = lastDigest := by
  refine ⟨?_, congrArg sha3_256 (memRead_same _ _ fun i hi => memGet_memWrite_other (by decide) d _ _ (.inr ?_))⟩
  · have h := memRead_memWrite (m := []) (by decide) (2 ^ 45 + 0x40 + 32 * 191) d
    rwa [hd] at h
  · omega

theorem streamed_sound (d : List Byte) (chunk : Nat) : (streamed (headed d) true chunk []).sound = true := by
  have h : (streamed [] true chunk []).sound = true := rfl
  exact soundParts_write (m := []) h _ d

theorem sha3_256_length (bs : List Byte) : (sha3_256 bs).length = 32 := by
  simp [sha3_256, natLe, List.range_succ]

/-- The first bytes of the digest of the empty message, as FIPS 202's published examples have it. -/
theorem test_sha3_empty : (sha3_256 []).take 4 = [0xA7, 0xFF, 0xC6, 0xF8] := by decide

/-- Some digest of 32 bytes is the chunk's, and some is not. -/
theorem digests_there : (∃ d : List Byte, d.length = 32 ∧ d = lastDigest) ∧ ∃ d : List Byte, d.length = 32 ∧ d ≠ lastDigest := by
  have h : lastDigest.length = 32 := sha3_256_length _
  refine ⟨⟨lastDigest, h, rfl⟩, ?_⟩
  by_cases h0 : List.replicate 32 (0 : Byte) = lastDigest
  · refine ⟨List.replicate 32 1, rfl, fun h1 => ?_⟩
    exact absurd (h0.trans h1.symm) (by decide)
  · exact ⟨_, rfl, h0⟩

theorem early_there (s : State) (h1 : streaming s = true) (h2 : ckChunk s = 0) (h3 : s.memErrs = []) (h4 : s.hub.ckLines = []) : ∃ n, earlyLine s = some n := by
  refine ⟨Config.freeElement s.steps % (localSize / 128), ?_⟩
  simp [earlyLine, h1, h2, h3, h4, State.memBad]

/-- What a restore's last chunk meets: the digest in the header is the chunk's, or it is not. -/
theorem restores_last (d : List Byte) (hd : d.length = 32) : let s := streamed (headed d) true 191 []
    s.sound = true ∧ (memRead s.mem (2 ^ 45 + 0x40 + 32 * 191) 32 = sha3_256 (memRead s.mem (2 ^ 45 + 8192 + 2 ^ 30 * 191) (2 ^ 30)) ↔ d = lastDigest) := by
  intro s
  have hm : s.mem = headed d := rfl
  refine ⟨streamed_sound d 191, ?_⟩
  rw [hm, (headed_digest d hd).1, (headed_digest d hd).2]

def aHeader : Memory := [(2 ^ 45, 0x43), (2 ^ 45 + 1, 0x48), (2 ^ 45 + 2, 0x50), (2 ^ 45 + 3, 0x4B), (2 ^ 45 + 4, 1), (2 ^ 45 + 12, 0x30)]

/-- A checkpoint that may begin, with the image at the end of host memory; quiesced; its last chunk with a line read before, and with an error in its last sector; a line to be read before; its end. A restore likewise: its first chunk with and without a good header, its last chunk with the right digest and a wrong one (restores_last), its end. -/
theorem witness_CheckpointEvents :
    Commanded (hubbed (commanding 0x03 [2 ^ 44 - 8192 - 192 * 2 ^ 30])) 0x03 7 7 ∧ (2 ^ 44 - 8192 - 192 * 2 ^ 30) % 4096 = 0 ∧
    (∀ st ∈ [1#64, 2#64], Commanded (hubbed { commanding 0x03 [0] with ckstat := st }) 0x03 7 7 ∧ (st.toNat % 16 = 1 ∨ st.toNat % 16 = 2)) ∧
    (let s := { hubbed { aHub with ckstat := 1 } with launches := [{ aLaunch with completed := true }] }; s.sound = true ∧ (∀ l ∈ s.launches, l.completed = true) ∧ s.colls = []) ∧
    (∀ e ∈ [[192 * 2 ^ 25], [192 * 2 ^ 25 - 1]], let s := streamed [] false 191 e
      s.sound = true ∧ s.hub.ckstat.toNat % 16 = 2 ∧ s.hub.ckRestore = false ∧ s.hub.ckstat.toNat / 256 % 2 ^ 32 = 191 ∧
        decide (∃ x ∈ s.memErrs, 32 * x < 2 ^ 30 * 191 + 2 ^ 30 ∧ 2 ^ 30 * 191 < 32 * x + 32) = (e == [192 * 2 ^ 25 - 1]) ∧
        (s.hub.ckLines.map Prod.fst).Nodup ∧ (∀ p ∈ s.hub.ckLines, p.2.length = 128) ∧ 128 * (191 * 2 ^ 23) = 2 ^ 30 * 191) ∧
    (∃ n, earlyLine (hubbed { aHub with ckstat := 2 }) = some n) ∧
    (∀ r ∈ [true, false], let s := streamed [] r 192 []; s.sound = true ∧ s.hub.ckstat.toNat % 16 = 2 ∧ s.hub.ckRestore = r ∧ s.hub.ckstat.toNat / 256 % 2 ^ 32 = 192) ∧
    Commanded (hubbed (commanding 0x04 [2 ^ 44 - 8192 - 192 * 2 ^ 30])) 0x04 7 7 ∧ (∃ l ∈ (one aConvoy).launches, l.completed = false) ∧
    (∀ m ∈ [[], aHeader], let s := streamed m true 0 []
      s.sound = true ∧ s.hub.ckstat.toNat % 16 = 2 ∧ s.hub.ckstat.toNat / 256 % 2 ^ 32 = 0 ∧
        decide (bytesNat (memRead s.mem (hostPa 0) 16) 0 4 = 0x4B504843 ∧ bytesNat (memRead s.mem (hostPa 0) 16) 4 4 = 1 ∧
          bytesNat (memRead s.mem (hostPa 0) 16) 8 8 = 192 * 2 ^ 30) = (m == aHeader)) ∧
    armedRange (streamed [] true 191 []) (2 ^ 30 * 191) (2 ^ 30) = false ∧ hostPa (streamed [] true 191 []).hub.ckHost = 2 ^ 45 ∧ (∃ d : List Byte, d.length = 32 ∧ d = lastDigest) ∧ ∃ d : List Byte, d.length = 32 ∧ d ≠ lastDigest := by
  refine ⟨commanded_of (by decide), by decide, ?_, by decide, by decide, early_there _ (by decide) (by decide) rfl rfl, by decide, commanded_of (by decide), by decide, by decide, by decide, by decide, digests_there⟩
  · intro st h
    simp only [List.mem_cons, List.not_mem_nil, or_false] at h
    rcases h with rfl | rfl <;> exact ⟨commanded_of (by decide), by decide⟩

/-- A module whose start has done the stages of READY, with the firmware as given in its two slots. -/
def starting (ready : W64) (first second : Bool) (slot clock : Nat) : State :=
  { State.reset with clock := clock, hub := { Hub.reset with
      powered := true, ready := ready, goodAt := 0, bootSlot := slot, domsetAt := some 1, ports := List.replicate 15 false ++ [true]
      bootFlash := [{ FlashSlot.default with genuine := first }, { FlashSlot.default with genuine := second }] } }

/-- The supply comes; every stage in the last cycle before its deadline, and in the cycle of the deadline; firmware that verifies in the boot slot, in the other one, and in none; an image to load, where the firmware holds one; an error in the last byte of memory, and in a square. -/
theorem witness_StartAndPower :
    (∀ p ∈ [true, false], let s := { State.reset with hub := { Hub.reset with powered := p } }
     s.hub.ready.extractLsb' 24 8 = 0 ∧ s.hub.ready.getLsbD 0 = false ∧ missedStage s = none) ∧
    (∀ p ∈ [(0#64, 0, 1, 35000000), (0xF, 4, 1, 84000000), (0x1F, 5, 2, 210000000), (0x3F, 6, 3, 840000000), (0x7F, 7, 4, 1120000000), (0xFF, 8, 5, 350000001)],
      let s := starting p.1 true true 0 (p.2.2.2 - 1)
      s.hub.powered = true ∧ s.hub.ready.extractLsb' 24 8 = 0 ∧ missedStage s = none ∧ s.hub.ready.getLsbD p.2.1 = false ∧ (∀ b ∈ [0, 4, 5, 6, 7], b < p.2.1 → s.hub.ready.getLsbD b = true) ∧
        s.hub.domsetAt.isSome = true ∧ true ∈ s.hub.ports ∧ s.sound = true ∧ missedStage (starting p.1 true true 0 p.2.2.2) = some p.2.2.1) ∧
    (∀ a ∈ [0, 1], ∀ g ∈ [true, false], let s := starting 0xF g (!g) a 0
      (s.hub.bootFlash.getD s.hub.bootSlot FlashSlot.default).genuine = (g == (a == 0)) ∧ (s.hub.bootFlash.getD (1 - s.hub.bootSlot) FlashSlot.default).genuine = (g == (a == 1))) ∧
    (∀ n ∈ [0, 1], ((starting 0xF false false 0 0).hub.bootFlash.getD n FlashSlot.default).genuine = false) ∧
    (let s := starting 0x1F true true 0 0
     ∀ image rest, Config.imageMicrocode (s.hub.bootFlash.getD s.hub.bootSlot FlashSlot.default).firmware = image :: rest →
       (Config.imageMicrocode (s.hub.bootFlash.getD s.hub.bootSlot FlashSlot.default).firmware)[s.hub.loaded]? = some image) ∧
    paIsLocal (192 * 2 ^ 30 - 1) = true ∧ { State.reset with upsets := [.memory (192 * 2 ^ 30 - 1), .counted 3] }.upsets = [.memory (192 * 2 ^ 30 - 1), .counted 3] := by
  refine ⟨by decide, by decide, by decide, by decide, ?_, by decide, rfl⟩
  intro s image rest h
  rw [h]
  rfl

/-- The small state with one cell of V2 in error in the highest lane, by so many bits, in a launch with detection or without. -/
def struck (bits : Nat) (detects : Bool) : State :=
  { one { aConvoy with errs := [{ reg := .v 2, lane := some 7, bits := bits }] } with
      launches := [{ aLaunch with rec_ := { aLaunch.rec_ with flags := if detects then 1 else 0 } }] }

/-- The small state with V2 to be written one cycle from now, in a launch that checks stall counts or does not. -/
def early (checks : Bool) : State :=
  { one { aConvoy with busy := [{ reg := .v 2, cycle := 1, checked := true }] } with launches := [{ aLaunch with rec_ := { aLaunch.rec_ with flags := if checks then 4 else 0 } }] }

/-- The checks: a guard that excludes every lane; a field that must be NONE; a V register at the budget; a loop body that ends for half the live set; a uniform destination with half of it; an uncorrectable cell in the highest lane, of two bits and of one in a launch with detection; a register that a load will write; one that is written in the next cycle. -/
theorem witness_GateChecks :
    (let w := { fw (.v 1) (.v 2) (.v 3) no with hdr := { quiet with gk := 1 } }; standsReady (one aConvoy) = true ∧ execSet w.hdr aConvoy fo.active = 0) ∧
    (let w := fw (.v 1) (.v 2) (.v 3) (.v 4); ¬ (Instr.iadd w).WellFormed ∧ execSet w.hdr aConvoy fo.active ≠ 0 ∧ aConvoy.priv < 2) ∧
    (let w := fw (.v 1) (.v 16) (.v 3) no; (Instr.iadd w).WellFormed ∧ overBudget aConvoy.budget w.x 1 = true ∧ overBudget aConvoy.budget (.v 15) 1 = false) ∧
    (let c := { aConvoy with loops := [level 0x1000], live := 0xFFF, width := 16, lanes := aConvoy.lanes ++ aConvoy.lanes }; backEdge c fo.addr ≠ none ∧ fo.active ≠ c.live ∧
      (∃ l, c.live.getLsbD l = true ∧ fo.active.getLsbD l = false ∧ ∀ h ∈ c.holds, h.kind = .edge → h.lanes.getLsbD l = false)) ∧
    (let w := { fw (.s 1) (.s 2) (.s 3) no with hdr := guarded quiet }; (Instr.iadd w).WellFormed ∧ isUniformDest w.d = true ∧ execSet w.hdr halved fo.active = 0x0F ∧ 0x0F ≠ halved.live ∧
      standsReady (one halved) = true) ∧
    (∀ p ∈ [(2, false), (1, true)], let s := struck p.1 p.2; let c := s.convoy 0; s.focus = some fo ∧ s.sound = true ∧ c.ready ≤ s.clock ∧ pendingRegs s 0 = [] ∧ c.busy = [] ∧
      c.lanes.length = c.width ∧ c.errs = [{ reg := .v 2, lane := some 7, bits := p.1 }] ∧ (2 ≤ p.1 ∨ p.1 = 1 ∧ (s.launchOf c).rec_.detection = true) ∧ (0xFF#64).getLsbD 7 = true) ∧
    (let s := withAccess (anAccess (.load (.v 2) 4 false) .sent); s.focus = some fo ∧ (s.convoy 0).ready ≤ s.clock ∧ ∃ r ∈ pendingRegs s 0, r ∈ opndRegs (.v 2) 1) ∧
    (∀ b ∈ [true, false], let s := early b; let c := s.convoy 0; s.focus = some fo ∧ s.sound = true ∧ c.ready ≤ s.clock ∧ pendingRegs s 0 = [] ∧ c.lanes.length = c.width ∧
      c.busy = [{ reg := .v 2, cycle := 1, checked := true }] ∧ s.clock < 1 ∧ .v 2 ∈ opndRegs (.v 2) 1 ∧ (s.launchOf c).rec_.stallCheck = b) :=
  ⟨by decide, by decide, by decide, ⟨by decide, by decide, 8, by decide, by decide, by decide⟩, by decide, by decide, ⟨by decide, by decide, .v 2, by decide, by decide⟩, by decide⟩

theorem witness_DecodeEncode : (Instr.nop (cw no)).WellFormed ∧ (Instr.nop (cw no)).isWord = true := by decide

/-- The one convoy stands at the word w, at 0x1000, which it holds nothing for; or all its lanes hold it to be tested again. -/
def issuing (w : W64) (holds : List Hold) : State :=
  { one { aConvoy with holds := holds } with turn := 0, focus := none, cores := [{ aCore with ibuf := [(user 0x1000, w)] }] }

def heldNop : Hold := { lanes := 0xFF, pc := 0x1000, kind := .retry (.nop (cw no)), y := true }

/-- An issue of slot 0 whose one word is fetched, decodes as said, and leaves nothing of the issue behind. -/
def issuesOne (s : State) (decodes : Bool) : Bool :=
  s.sound && pickMove s.turn (moves s) == .issue 0 0 && ((beginIssue s 0 0).slotAt 0 0).pending.map (fun p => p.todo.length) == some 1 &&
  (match focusHead (cleanIssue (beginIssue s 0 0) 0 0) 0 0 with
   | some (s1, f) => (((s1.slotAt 0 0).pending.bind Pending.retest).isNone && match fetchWord s1 f.convoy f.addr with
      | .word s2 b => (match decodeWord b with
        | .ok i => decodes && (match exec i s2 with
          | .next t => (t.slotAt 0 0).pending.isNone
          | _ => false)
        | .error _ => !decodes)
      | _ => false)
   | none => false)

/-- A NOP, a word of no instruction, and a held word that is tested again. -/
theorem witness_StepRunsDecoded : issuesOne (issuing nopWord []) true = true ∧ issuesOne (issuing (nopWord + 1) []) false = true ∧
    (let s := issuing nopWord [heldNop]
     s.sound = true ∧ pickMove s.turn (moves s) = .retest 0 heldNop (.nop (cw no)) ∧
       (((beginRetest s 0 heldNop (.nop (cw no))).slotAt 0 0).pending.bind Pending.retest) = some (.nop (cw no))) := by decide

theorem witness_StepKeepsSound : (one aConvoy).sound = true := by decide

/-! ### Ill-formed words: one for each check of an entry, which the check refuses (R182). -/

def refused (l : List Instr) : Bool := l.all fun i => !Legal.instr i

theorem test_illformed_control : refused
    [.nop (cw (.s 1)), .nop (cw no 1), .nop (cw no 0 1), .bra (cw (.s 1)), .bra (cw no 1), .call (cw (.v 3)), .call (cw (.v 2) 1), .ret (cw (.s 2)), .ret (cw (.v 2) 1),
     .ret (cw (.v 2) 0 1), .jmpt (cw (.k 1)), .jmpt (cw (.v 1) 64), .jmpt (cw (.v 1) 0 1), .callt (cw (.m 1)), .callt (cw (.v 1) 64), .callt (cw (.v 1) 0 1), .lpad (cw no 0),
     .lpad (cw no 33), .lpad (cw (.s 1) 1), .lpad (cw no 1 0x10000), .lpad { cw no 1 with hdr := guarded quiet }, .lpad { cw no 1 with hdr := { quiet with gn := true } },
     .loop (cw (.v 1)), .loop (cw (.s 1) 1), .loopbrk (cw (.s 1)), .exit (cw no 1), .yield (cw no 0 1), .trap (cw (.s 1)), .trap (cw no 256), .brk (cw no 0 1), .eret (cw (.s 1)),
     .park (cw no 1)] = true := by decide

theorem test_illformed_moves : refused
    [.mov (fw (.v 1) (.v 2) no no 2), .mov (fw (.v 1) (.v 2) (.s 1) no), .mov (fw (.v 3) (.v 2) no no 1), .mov (fw (.s 1) (.v 2) no no), .mov (fw (.imm 1) (.s 2) no no),
     .mat (fw (.v 1) (.s 1) no no), .mat (fw (.v 3) (.a 1) no no 1), .aff (fw (.a 1) (.s 1) no no), .aff (fw (.s 1) (.s 1) (.s 2) no), .dem (fw (.v 1) (.v 2) no no),
     .dem (fw (.s 1) (.v 3) no no 2), .dema (fw (.a 1) (.s 1) no no), .dema (fw (.s 1) (.v 1) no no), .movpc { hdr := quiet, d := .v 3, disp := 0, mod := 0 },
     .movpc { hdr := quiet, d := .s 3, disp := 0, mod := 1 }, .elect (fw (.k 1) (.v 1) no no), .elect (fw (.v 1) (.k 1) no no), .vote (fw (.s 1) (.k 1) no no 3),
     .vote (fw (.s 1) (.s 2) no no), .kset (fw (.k 1) (.k 2) no no), .kset (fw (.s 1) (.s 2) no no), .kop (fw (.k 1) (.k 2) (.k 3) no 4), .kop (fw (.k 1) (.k 2) no no),
     .kop (fw (.k 1) (.k 2) (.k 3) no 5)] = true := by decide

theorem test_illformed_integer : refused
    [.iadd (fw (.v 1) (.v 2) (.v 3) (.v 4)), .iadd (fw (.v 1) (.v 2) (.v 3) no 1), .iadd (fw (.s 1) (.s 2) (.s 3) no 0x10), .iadd (fw (.v 1) (.v 2) (.v 3) no 0x20),
     .iadd (fw (.v 3) (.v 2) (.v 4) no 0x10), .iadd (fw (.v 2) (.v 3) (.v 4) no 0x10), .iadd (fw (.v 1) (.s 2) (.s 3) no), .iadd (fw (.s 1) (.v 2) (.s 3) no), .isub (fw (.a 1) (.s 2) (.s 3) no),
     .iand (fw (.a 1) (.a 2) (.s 3) no), .ior (fw (.k 1) (.k 2) (.k 3) no), .ixor (fw (.v 1) (.a 2) (.v 3) no), .imin (fw (.v 1) (.v 2) (.v 3) no 2), .imax (fw (.a 1) (.a 2) (.s 3) no),
     .imul (fw (.a 1) (.a 2) (.a 3) no), .imulh (fw (.v 1) (.s 2) (.s 3) no), .imad (fw (.v 1) (.s 2) (.s 3) (.s 4)), .imad (fw (.v 1) (.v 2) (.v 3) no), .ishl (fw (.a 1) (.s 2) (.a 3) no),
     .ishr (fw (.a 1) (.a 2) (.s 3) no), .isar (fw (.v 1) (.v 2) (.k 3) no), .icmp (fw (.k 1) (.v 2) (.v 3) no 10), .icmp (fw (.v 1) (.v 2) (.v 3) no), .icmp (fw (.k 1) (.s 2) (.s 3) no 0x10),
     .sel (fw (.v 1) (.v 2) (.v 3) (.v 4)), .sel (fw (.s 1) (.s 2) (.s 3) (.k 1)), .popc (fw (.s 1) (.v 2) no no), .clz (fw (.v 1) (.v 3) no no 0x10), .brev (fw (.v 3) (.v 2) no no 0x10),
     .bfe (fw (.v 1) (.v 2) (.v 3) no 2), .bfi (fw (.v 1) (.v 2) (.v 3) no), .lea (fw (.s 1) (.s 2) (.s 3) no 0x40), .lea (fw (.s 1) (.s 2) (.s 3) no 0x80), .lea (fw (.v 3) (.v 2) (.v 1) no),
     .lea (fw (.a 1) (.s 2) (.s 3) no), .idot4 (fw (.v 1) (.v 2) (.v 3) no), .idot4 (fw (.v 1) (.v 2) (.v 3) (.v 4) 4)] = true := by decide

theorem test_illformed_immediate_and_pair : refused
    [.movi (iw (.v 1) 0 2), .movi (iw (.s 1) 0 4), .movi (iw (.a 1) 0), .iaddi (iw (.k 1) 0), .iandi (iw (.v 1) 0 1), .iori (iw (.m 1) 0), .ixori (iw (.s 1) 0 8), .fmovi (iw (.g 1) 0),
     .icmpi (iw (.v 1) 0 10), .icmpi (iw (.v 1) 0x08000000), .icmpi (iw (.k 1) 0),
     .pairWord { stall := 0, y := false, h1 := { pop := .iadd, d := 1, x := .v 2, hm := 0 }, h2 := { pop := .mov, d := 1, x := .v 7, hm := 0 } },
     .pairWord { stall := 0, y := false, h1 := { pop := .iadd, d := 1, x := .v 2, hm := 0 }, h2 := { pop := .mov, d := 4, x := .v 6, hm := 0 } },
     .pairWord { stall := 0, y := false, h1 := { pop := .iadd, d := 1, x := .v 2, hm := 1 }, h2 := { pop := .mov, d := 4, x := .v 7, hm := 0 } },
     .pairWord { stall := 0, y := false, h1 := { pop := .fadd, d := 1, x := .v 2, hm := 4 }, h2 := { pop := .mov, d := 4, x := .v 7, hm := 0 } },
     .pairWord { stall := 0, y := false, h1 := { pop := .iadd, d := 1, x := .a 2, hm := 0 }, h2 := { pop := .mov, d := 4, x := .v 7, hm := 0 } },
     .pairWord { stall := 0, y := false, h1 := { pop := .empty, d := 0, x := no, hm := 0 }, h2 := { pop := .empty, d := 0, x := no, hm := 0 } },
     .pairWord { stall := 0, y := false, h1 := { pop := .empty, d := 1, x := no, hm := 0 }, h2 := { pop := .mov, d := 4, x := .v 7, hm := 0 } }] = true := by decide

theorem test_illformed_float : refused
    [.fadd (fw (.v 1) (.v 2) (.v 3) no 4), .fadd (fw (.v 1) (.s 2) (.s 3) no), .fsub (fw (.v 1) (.v 2) (.v 3) (.v 4)), .fmul (fw (.s 1) (.v 2) (.s 3) no), .ffma (fw (.v 1) (.v 2) (.v 3) no),
     .fmin (fw (.v 1) (.v 2) (.v 3) no 1), .fmax (fw (.v 1) (.v 2) (.v 3) (.s 1)), .fcmp (fw (.k 1) (.v 2) (.v 3) no 8), .fcmp (fw (.v 1) (.v 2) (.v 3) no), .frcp (fw (.v 1) (.s 2) no no),
     .frsq (fw (.v 1) (.v 2) no no 1), .fsqrt (fw (.v 1) (.v 2) (.v 3) no), .fexp2 (fw (.s 1) (.v 2) no no), .flog2 (fw (.k 1) (.v 2) no no), .fsin (fw (.v 1) (.v 2) no no 1),
     .fcos (fw (.v 1) (.s 2) no no), .ftanh (fw (.v 1) (.v 2) no (.s 1)), .fdiv (fw (.v 1) (.v 2) (.v 3) no 1), .frnd (fw (.v 1) (.v 2) no no 4), .f2i (fw (.v 3) (.v 2) no no 0x10),
     .f2i (fw (.v 1) (.v 2) no no 8), .i2f (fw (.v 1) (.v 3) no no 0x10), .fcvt (fw (.v 1) (.v 2) no no 0), .fcvt (fw (.v 1) (.v 2) no no 0x0C), .fcvt (fw (.v 1) (.v 2) no no 0x44),
     .fcvt (fw (.v 1) (.v 2) no no 0x90), .hadd2 (fw (.v 1) (.v 2) (.v 3) no 8), .hmul2 (fw (.v 1) (.v 2) (.v 3) (.v 4)), .hfma2 (fw (.v 1) (.v 2) (.v 3) no), .fclass (fw (.v 1) (.v 2) no no 1)] = true := by decide

theorem test_illformed_narrow_and_lanes : refused
    [.cvt8 (fw (.v 1) (.v 2) (.v 3) no 0x20), .cvt8 (fw (.v 1) (.v 2) (.v 3) no 8), .cvt8 (fw (.v 1) (.v 2) no no 9), .cvt8 (fw (.v 1) (.v 2) (.v 3) no 0x40), .cvt4 (fw (.v 1) (.v 2) (.v 3) (.s 4)),
     .cvt4 (fw (.v 1) (.v 2) (.imm 8) (.v 4) 0x40), .cvt4 (fw (.v 1) (.imm 0x3F) (.imm 7) (.v 4) 0x40), .cvt4 (fw (.v 1) (.v 2) (.imm 7) (.v 4) 0x50), .cvt4 (fw (.v 1) (.s 2) (.v 3) (.v 4)), .xpand (fw (.v 1) (.v 2) no no 3),
     .xpand (fw (.v 1) (.v 2) no no 4), .unpk8 (fw (.v 1) (.v 2) (.v 3) (.v 4)), .unpk8 (fw (.v 1) (.v 2) no (.s 4)), .mxdot (fw (.v 1) (.v 2) (.v 3) (.v 4) 0xC0),
     .mxdot (fw (.v 1) (.v 2) (.imm 0x3F) (.v 4) 0), .mxdot (fw (.v 1) (.v 2) (.v 3) (.s 4)), .mxdot (fw (.v 1) (.s 2) (.s 3) (.v 4)), .scdec (fw (.v 1) (.v 2) no no), .scdec (fw (.v 1) (.s 2) no no 1),
     .scenc (fw (.v 1) (.v 2) no no), .srnd (fw (.v 1) (.v 2) (.v 3) no 0x0C), .srnd (fw (.v 1) (.v 2) (.v 3) no 0x20), .shfl (fw (.v 1) (.v 2) (.s 3) no 0xE0), .shfl (fw (.v 1) (.s 2) (.s 3) no),
     .shfl (fw (.v 3) (.v 2) (.s 3) no 0x10), .cmpx (fw (.v 1) (.v 2) (.v 3) no), .cmpx (fw (.v 1) (.v 2) (.s 3) no 3), .scan (fw (.v 1) (.v 2) no no 0xE0), .scan (fw (.v 1) (.v 2) no no 0x10),
     .ired (fw (.s 1) (.v 2) no no 0), .ired (fw (.v 1) (.s 2) no no), .redmaxi (fw (.v 1) (.v 2) no no), .redmaxi (fw (.s 1) (.v 2) (.s 3) no), .redmaxi (fw (.s 1) (.v 2) no no 3),
     .matchLanes (fw (.k 1) (.v 2) no no 0), .matchLanes (fw (.v 2) (.v 2) no no 1), .matchLanes (fw (.k 1) (.v 2) no no 3)] = true := by decide

theorem test_illformed_moments : refused
    [.minit (fw (.v 1) no no no), .minit (fw (.g 1) (.v 1) no no), .mupd (fw (.m 1) (.g 1) (.s 1) no), .mupd (fw (.g 1) (.m 1) (.s 1) no), .mmrg (fw (.m 1) (.g 1) (.g 2) no),
     .mmrg (fw (.m 1) (.m 1) (.m 2) (.m 3)), .mred (fw (.m 1) (.m 2) no no), .mred (fw (.g 1) (.m 2) (.s 1) no), .mdrain (fw (.v 1) (.m 1) (.v 2) no 0), .mdrain (fw (.s 1) (.m 1) no no),
     .mdrain (fw (.v 1) (.m 1) no no 8), .mnorm (fw (.v 1) (.s 1) (.g 1) (.s 2)), .mnorm (fw (.s 1) (.s 1) (.m 1) (.s 2)), .mld (fw (.g 1) (.v 2) (.imm 0) no), .mld (fw (.m 1) (.v 3) (.imm 0) no),
     .mld (fw (.m 1) (.s 1) (.v 2) no 1), .mst (fw (.m 1) (.s 1) no (.m 2)), .mst (fw no (.s 1) no (.v 2)), .mdecay (fw (.m 1) (.g 1) (.s 1) no), .mdecay (fw (.m 1) (.m 1) (.v 1) no 1)] = true := by decide

theorem test_illformed_memory : refused
    [.ld (fw (.v 1) (.s 1) (.imm 0) no 5), .ld (fw (.v 1) (.s 1) (.imm 0) no 3), .ld (fw (.v 2) (.s 1) (.imm 0) no 4), .ld (fw (.v 1) (.s 1) (.imm 0) no 0x0A), .ld (fw (.s 1) (.s 1) (.imm 0) no 4),
     .ld (fw (.s 1) (.v 2) (.imm 0) no 2), .ld (fw (.v 1) (.v 3) (.imm 0) no 2), .ld (fw (.v 1) (.s 1) (.v 2) no 2), .ld (fw (.v 1) (.s 1) (.imm 0) (.s 2) 2), .ld (fw (.v 1) (.s 1) (.imm 0) no 0x82),
     .ld (fw (.v 1) (.s 1) (.imm 0) no 0x12), .ld (fw (.v 1) (.s 1) (.imm 0) no 0xE2), .st (fw no (.s 1) (.imm 0) (.imm 1) 3), .st (fw no (.s 1) (.imm 0) (.s 1) 4), .st (fw no (.s 1) (.imm 0) (.v 1) 0x0A),
     .st (fw (.s 2) (.s 1) (.imm 0) (.v 1) 2), .st (fw (.v 1) (.s 1) (.imm 0) (.v 1) 2), .ldl (fw (.v 1) (.s 1) (.imm 0) no 0x12), .ldl (fw (.v 1) (.imm 1) (.imm 0) no 2), .stl (fw (.s 1) (.s 1) (.imm 0) (.v 1) 2),
     .atom (fw (.v 1) (.s 1) (.v 2) no 0x80), .atom (fw (.s 1) (.s 1) (.v 2) no), .atom (fw (.v 1) (.s 1) (.v 3) no 9), .atom (fw (.v 1) (.s 1) (.imm 1) no 11), .atom (fw (.m 1) (.s 1) (.s 2) no 0x8F),
     .atom (fw (.v 1) (.s 1) (.v 2) no 0x60), .atom (fw (.v 1) (.s 1) (.v 2) (.v 2)), .atoml (fw (.v 1) (.s 1) (.v 2) no 0x10), .atoml (fw (.v 1) (.s 1) (.v 2) (.s 2)), .fence (fw no no no no 0),
     .fence (fw no no no no 0x60), .fence (fw no (.s 1) no no 0x10), .mwait (fw (.s 1) (.s 2) (.s 3) no 10), .mwait (fw (.s 1) (.s 2) (.v 3) no), .mwait (fw (.s 1) (.s 2) (.s 3) no 0x90), .mwait (fw no (.s 2) (.s 3) no),
     .waitstamp (fw (.s 1) (.s 2) (.s 3) no 0), .waitstamp (fw (.s 1) (.s 2) (.v 3) no 0x10), .waitstamp (fw (.s 1) (.s 2) (.s 3) (.s 4) 0x10), .pref (fw (.v 1) (.s 1) (.imm 0) no),
     .pref (fw no (.s 1) no no), .pref (fw no (.s 1) (.imm 0) no 2)] = true := by decide

theorem test_illformed_sync_and_order : refused
    [.barinit (fw no (.s 1) (.v 2) no), .bar (fw (.s 3) (.s 1) (.s 2) no), .bar (fw no (.s 1) (.s 2) no 1), .bararv (fw no (.s 1) (.s 2) no), .barwt (fw no (.s 1) (.s 2) no), .barl (fw no (.s 1) no no),
     .barl (fw no (.k 1) (.k 2) no), .cross (fw no (.s 1) no no), .cross (fw no no no no 1), .waitev (fw no (.s 1) no no 0x20), .waitev (fw no (.v 1) no no 0x30), .setev (fw no (.s 1) no no 0x31),
     .setev (fw no (.s 1) no no 0), .launch (fw no (.s 1) (.s 2) no), .launch (fw (.s 3) (.v 2) (.s 2) no), .launch (fw (.s 3) (.s 1) (.s 2) no 0x10), .rsig (fw no (.s 1) no no 0),
     .rsig (fw no (.s 1) no (.v 1) 0x10), .rwait (fw (.s 1) (.s 1) no no 0x10), .ordrd (fw (.v 1) (.s 1) no no 0x11), .ordrd (fw (.m 1) (.s 1) no no 0x10), .ordwr (fw no (.s 1) (.m 1) no 0x10),
     .ordwr (fw no (.s 1) (.v 1) no 0x11), .itq (fw (.s 1) no no no 0), .itq (fw (.v 1) (.s 1) no no 1), .itq (fw (.s 1) (.s 2) no no 2), .itq (fw (.s 1) no no no 3), .rand (fw (.s 1) no no no),
     .mile (fw no (.v 1) (.v 2) no), .mile (fw no (.s 1) (.k 2) no)] = true := by decide

theorem test_illformed_engines_and_supervisor : refused
    [.copy (fw no (.s 1) (.s 2) (.s 3) 4), .copy (fw (.v 1) (.s 1) (.s 2) (.s 3)), .copy (fw no (.s 1) (.imm 2) (.s 3)), .copyp (fw no (.s 1) (.s 2) (.s 3) 5), .copyp (fw no (.s 1) (.s 2) no),
     .copym (fw no (.s 1) (.s 2) (.s 3)), .copym (fw (.s 4) (.s 1) (.s 2) (.s 3) 2), .slotfree (fw no (.v 1) no no), .slotfree (fw (.s 1) (.s 1) no no), .bccr (fw (.v 1) no no no), .coll (fw no (.imm 1) (.s 2) no),
     .coll (fw no (.s 1) (.s 2) no 0x80), .mma (fw no (.v 1) (.s 2) (.s 3)), .mmas (fw no (.s 1) (.imm 2) (.s 3)), .mma (fw no (.s 1) (.s 2) (.s 3) 1), .azero (fw no (.s 1) (.s 2) no), .accld (fw no (.s 1) (.imm 2) no),
     .accst (fw no (.s 1) (.s 2) no), .accst (fw no (.s 1) (.s 2) (.s 3) 0x10), .accstat (fw (.v 1) (.s 1) (.s 2) no), .accstat (fw (.m 1) (.s 1) (.s 2) no 2), .csrr (fw (.s 1) no no no 3),
     .csrr (fw (.v 1) no no no 0), .csrw (fw no (.s 1) no no 0x0E), .csrw (fw no (.s 1) no no 0x22), .csrw (fw no (.s 1) no no 0x20), .csrw (fw no (.s 1) no no 0x30), .csrw (fw (.s 1) (.s 1) no no 0x18),
     .killCsrWrite (fw no (.s 1) no no 0x18), .wdctlWrite (fw no (.v 1) no no 0x20), .perfselWrite (fw no (.s 1) no no 0x38), .perfr (fw (.s 1) (.imm 8) no no), .perfr (fw (.v 1) (.imm 7) no no),
     .tlbinv (fw no (.s 1) (.s 2) no 1), .tlbinv (fw no no (.s 2) no 0), .tlbinv (fw no (.s 1) (.imm 2) no), .ctxsv (fw no (.s 1) no no), .ctxsv (fw no (.s 1) (.s 2) no 2), .ctxld (fw (.s 3) (.s 1) (.s 2) no),
     .cacheop (fw no no no no 3), .cacheop (fw no (.s 1) no no)] = true := by decide

/-! ### Words written out field by field from R174 to R191: CLS, STALL, Y, OP, GN, GK, D, X, Y, Z and MOD for format F. DecodeWords has words of formats C, P and I. -/

def fBits (op : BitVec 9) (d x y z : BitVec 9) (mod : BitVec 8) : W64 := (0b00#2 ++ 0b0000#4 ++ 0b0#1 ++ op ++ 0b0#1 ++ 0b000#3 ++ d ++ x ++ y ++ z ++ mod : BitVec 64)

theorem test_decode_mov : decodeWord (fBits 0b000000000 0b000000001 0b100000010 0b111111111 0b111111111 0b00000000) = .ok (.mov (fw (.v 1) (.s 2) no no)) := rfl
theorem test_decode_sel : decodeWord (fBits 0b000101110 0b000000001 0b000000010 0b110000101 0b101111011 0b00000000) = .ok (.sel (fw (.v 1) (.v 2) (.imm 5) (.k 3))) := rfl
theorem test_decode_clz : decodeWord (fBits 0b000110000 0b000000001 0b000000010 0b111111111 0b111111111 0b00010000) = .ok (.clz (fw (.v 1) (.v 2) no no 0x10)) := rfl
theorem test_decode_ffma : decodeWord (fBits 0b001000011 0b011111111 0b000000010 0b000000011 0b000000100 0b00000001) = .ok (.ffma (fw (.v 255) (.v 2) (.v 3) (.v 4) 1)) := rfl
theorem test_decode_f2i : decodeWord (fBits 0b001010001 0b000000010 0b000000011 0b111111111 0b111111111 0b00010100) = .ok (.f2i (fw (.v 2) (.v 3) no no 0x14)) := rfl
theorem test_decode_mxdot : decodeWord (fBits 0b001100100 0b000000001 0b000000010 0b000000011 0b000000100 0b01000000) = .ok (.mxdot (fw (.v 1) (.v 2) (.v 3) (.v 4) 0x40)) := rfl
theorem test_decode_shfl : decodeWord (fBits 0b001110000 0b000000001 0b000000010 0b110000001 0b111111111 0b01100000) = .ok (.shfl (fw (.v 1) (.v 2) (.imm 1) no 0x60)) := rfl
theorem test_decode_mred : decodeWord (fBits 0b010000011 0b101110001 0b101100010 0b111111111 0b111111111 0b00000000) = .ok (.mred (fw (.g 1) (.m 2) no no)) := rfl
theorem test_decode_atom : decodeWord (fBits 0b010100100 0b101100111 0b101000001 0b101110001 0b111111111 0b10001111) = .ok (.atom (fw (.m 7) (.a 1) (.g 1) no 0x8F)) := rfl
theorem test_decode_ordwr : decodeWord (fBits 0b011000011 0b111111111 0b100000001 0b000000010 0b100000011 0b01010000) = .ok (.ordwr (fw no (.s 1) (.v 2) (.s 3) 0x50)) := rfl
theorem test_decode_barl : decodeWord (fBits 0b011010100 0b111111111 0b111010000 0b111111111 0b111111111 0b00000000) = .ok (.barl (fw no (.sp 0x10) no no)) := rfl
theorem test_decode_copym : decodeWord (fBits 0b011100010 0b100000100 0b100000001 0b100000010 0b100000011 0b11010001) = .ok (.copym (fw (.s 4) (.s 1) (.s 2) (.s 3) 0xD1)) := rfl
theorem test_decode_accst : decodeWord (fBits 0b011110011 0b111111111 0b110000111 0b100000010 0b110111111 0b10000110) = .ok (.accst (fw no (.imm 7) (.s 2) (.imm 63) 0x86)) := rfl
theorem test_decode_perfr : decodeWord (fBits 0b100000110 0b100111111 0b110000111 0b111111111 0b111111111 0b00000000) = .ok (.perfr (fw (.s 63) (.imm 7) no no)) := rfl
theorem test_decode_perfsel_write : decodeWord (fBits 0b100000001 0b111111111 0b100000001 0b111111111 0b111111111 0x37) = .ok (.perfselWrite (fw no (.s 1) no no 0x37)) := rfl
theorem test_decode_reserved_operand : decodeWord (fBits 0b000000000 0b000000001 0b101101000 0b111111111 0b111111111 0b00000000) = .error .illegal := rfl

/-! ### One step of some words, with results worked by hand from the rules. -/

def after (i : Instr) (s : State) (p : State → Bool) : Bool :=
  match exec i s with
  | .next t => p t
  | _ => false

/-- V2 holds a, V4 holds b, in every lane. -/
def withV (a b : W32) : Convoy := (aConvoy.writeV 0xFF 2 fun _ => a).writeV 0xFF 4 fun _ => b

theorem test_iadd_wraps : after (.iadd (fw (.v 1) (.v 2) (.v 4) no)) (one (withV 0xFFFFFFFF 2)) (fun t => (t.convoy 0).readV 1 7 == 1) = true := by decide
theorem test_imulh_signed : after (.imulh (fw (.v 1) (.v 2) (.v 4) no)) (one (withV 0x80000000 2)) (fun t => (t.convoy 0).readV 1 0 == 0xFFFFFFFF) = true := by decide
theorem test_isar_keeps_sign : after (.isar (fw (.v 1) (.v 2) (.imm 31) no)) (one (withV 0x80000000 0)) (fun t => (t.convoy 0).readV 1 0 == 0xFFFFFFFF) = true := by decide
theorem test_fadd : after (.fadd (fw (.v 1) (.v 2) (.v 4) no)) (one (withV 0x3F800000 0x40000000)) (fun t => (t.convoy 0).readV 1 0 == 0x40400000 && (t.convoy 0).flags == 0) = true := by decide
theorem test_guard_excludes : after (.iadd { fw (.v 1) (.v 2) (.v 4) no with hdr := guarded quiet }) (one (halved.writeV 0xFF 2 fun _ => 7))
    (fun t => (t.convoy 0).readV 1 3 == 7 && (t.convoy 0).readV 1 4 == 0) = true := by decide
theorem test_exit_ends : after (.exit (cw no)) (one aConvoy) (fun t => (t.convoy 0).ended && (t.convoy 0).live == 0) = true := by decide
theorem test_trap : after (.trap (cw no 5)) (one aConvoy) (fun t => (t.convoy 0).trap.cause == 0x1B && (t.convoy 0).trap.pc == 0x1008 && (t.convoy 0).trap.addr == 5 && (t.convoy 0).priv == 2) = true := by decide
theorem test_bra_back : after (.bra (cw no 0 0xFFFFFF)) (one aConvoy) (fun t => ((t.convoy 0).lane 7).pc == 0xFF8) = true := by decide
theorem test_stl_highest_lane_last : after (.stl (fw no (.s 1) (.imm 0) (.v 2) 0)) (one ((withS 1 4095).writeV 0x80 2 fun _ => 9))
    (fun t => memGet (t.block 0).ls.mem 4095 == 9) = true := by decide
theorem test_atoml_adds_every_lane : after (.atoml (fw (.v 1) (.s 1) (.imm 1) no 0)) (one (withS 1 64))
    (fun t => memGet (t.block 0).ls.mem 64 == 8 && (t.convoy 0).readV 1 5 == 5) = true := by decide
theorem test_ld_misaligned_traps : after (.ld (fw (.v 1) (.s 1) (.imm 0) no 2)) (one (withS 1 0x1001)) (fun t => (t.convoy 0).priv == 2 && (t.convoy 0).trap.cause == 0x12) = true := by decide

end Sys2Proof.Tests
end

section
/-! PROOF. Every step goes on to a sound state: the word that a convoy meets, the issue over its convoys, each kind of move, and what closes the step. -/

namespace Sys2Proof.Machine

variable {s : State}

/-- The outcome is a next state, and that state meets the invariant. -/
def SoundNext (o : Host.Outcome State Fault Refusal) : Prop := ∃ t, o = .next t ∧ t.sound = true

theorem soundNext_next {t : State} (h : t.sound = true) : SoundNext (.next t) := ⟨t, rfl, h⟩

theorem soundNext_of_goes : ∀ {o : Host.Outcome State Fault Refusal}, goes o = true → soundOut o = true → SoundNext o
  | .next t, _, hs => ⟨t, rfl, hs⟩

/-! ### The word that a convoy meets -/

/-- With an issue in focus every instruction has a meaning that goes on. -/
theorem exec_soundNext_of_focus {f : Focus} (hf : s.focus = some f) (h : s.sound = true) (i : Instr) : SoundNext (exec i s) :=
  soundNext_of_goes (exec_goes i fun _ => ⟨f, hf⟩) (exec_sound h i)

/-- A row that is no instruction word needs no issue in focus. -/
theorem exec_soundNext_of_not_word {i : Instr} (hi : i.isWord = false) (h : s.sound = true) : SoundNext (exec i s) :=
  soundNext_of_goes (exec_goes i fun hw => absurd hw (by simp [hi])) (exec_sound h i)

theorem execIllegal_soundNext {f : Focus} (hf : s.focus = some f) (h : s.sound = true) (w : W64) : SoundNext (execIllegal w s) :=
  soundNext_of_goes (runWord_goes hf ..) (execIllegal_sound h w)

theorem execFetchFault_goes {f : Focus} (hf : s.focus = some f) (cause : Nat) : goes (execFetchFault cause s) = true := by
  unfold execFetchFault
  rw [hf]
  dsimp only
  split <;> rfl

theorem execFetchFault_soundNext {f : Focus} (hf : s.focus = some f) (h : s.sound = true) (cause : Nat) : SoundNext (execFetchFault cause s) :=
  soundNext_of_goes (execFetchFault_goes hf cause) (execFetchFault_sound h cause)

theorem stepWord_soundNext (h : s.sound = true) (core slot : Nat) : SoundNext (stepWord s core slot) := by
  unfold stepWord
  split
  case h_1 => exact soundNext_next h
  case h_2 s1 f hx =>
    obtain ⟨hsound, hf⟩ := focusHead_some hx
    have h1 : s1.sound = true := hsound.trans h
    split
    case h_1 => exact exec_soundNext_of_focus hf h1 _
    case h_2 =>
      have hfetch := fetchWord_onlyMarks s1 f.convoy f.addr
      split
      case h_1 => exact soundNext_next h1
      case h_2 s2 cause he =>
        rw [he] at hfetch
        exact execFetchFault_soundNext (hfetch.focus.trans hf) (hfetch.sound h1) cause
      case h_3 s2 w he =>
        rw [he] at hfetch
        have hf2 : s2.focus = some f := hfetch.focus.trans hf
        split
        case h_1 => exact exec_soundNext_of_focus hf2 (hfetch.sound h1) _
        case h_2 => exact execIllegal_soundNext hf2 (hfetch.sound h1) w

/-! ### An issue, for all its convoys -/

theorem runConvoys_soundNext (core slot : Nat) : ∀ (n : Nat) {s : State}, s.sound = true → SoundNext (runConvoys core slot n s)
  | 0, _, h => soundNext_next h
  | n + 1, s, h => by
    obtain ⟨t, ht, hs⟩ := stepWord_soundNext ((cleanIssue_sound core slot).trans h) core slot
    rw [runConvoys, ht]
    exact runConvoys_soundNext core slot n hs

/-- An issue that a convoy's word makes wait leaves the state before it, which is sound too. -/
theorem issueStep_soundNext {s1 : State} (h : s.sound = true) (h1 : s1.sound = true) (core slot : Nat) : SoundNext (issueStep s s1 core slot) := by
  unfold issueStep
  dsimp only
  split
  · exact runConvoys_soundNext core slot _ h1
  · exact soundNext_next h

/-! ### The moves -/

theorem isHostRow_not_word {i : Instr} (hi : isHostRow i = true) : i.isWord = false := by
  unfold isHostRow at hi
  split at hi
  case h_8 => exact absurd hi Bool.false_ne_true
  all_goals rfl

theorem isOuterRow_not_word {i : Instr} (hi : isOuterRow i = true) : i.isWord = false := by
  unfold isOuterRow at hi
  split at hi
  case h_20 => exact absurd hi Bool.false_ne_true
  all_goals rfl

theorem registerRead_sound (off size : Nat) : (registerRead s off size).sound = s.sound := by
  unfold registerRead
  exact ite_sound (emit_sound _) (ite_sound (emit_sound _) (emit_sound _))

theorem resizeWindow_sound (n : Nat) : (resizeWindow s n).sound = s.sound := by
  unfold resizeWindow
  exact ite_sound rfl (modHub_sound _)

theorem hostAccess_sound (h : s.sound = true) (x : HostAccess) : (hostAccess s x).sound = true := by
  cases x with
  | registerRead off size => exact (registerRead_sound off size).trans h
  | serialRead =>
    have hs : (hostAccess s .serialRead).sound = s.sound := ite_sound (emit_sound _) rfl
    exact hs.trans h
  | resize n => exact (resizeWindow_sound n).trans h
  | row i => exact h

theorem stepLink_soundNext (h : s.sound = true) (k : Nat) : SoundNext (stepLink s k) := by
  have hd : (dropLink s k).sound = true := h
  unfold stepLink
  split
  · split
    case isTrue hi => exact exec_soundNext_of_not_word (isHostRow_not_word hi) hd
    case isFalse => exact soundNext_next hd
  · exact soundNext_next (hostAccess_sound hd _)
  · exact soundNext_next h

/-- Every move that a state lists goes on: the events among them are no instruction words. -/
theorem stepMove_soundNext (h : s.sound = true) {m : Move} (hm : m.fine = true) : SoundNext (stepMove s m) := by
  unfold stepMove
  split
  case h_1 core slot => exact issueStep_soundNext h ((beginIssue_sound core slot).trans h) core slot
  case h_2 ci hold i => exact issueStep_soundNext h (beginRetest_sound h ci hold i) _ _
  case h_3 i => exact exec_soundNext_of_not_word (by simpa [Move.fine] using hm) h
  case h_4 i =>
    have hd : ({ s with inputs := s.inputs.drop 1 } : State).sound = true := h
    split
    case isTrue hi => exact exec_soundNext_of_not_word (isOuterRow_not_word hi) hd
    case isFalse => exact soundNext_next hd
  case h_5 k => exact stepLink_soundNext h k
  case h_6 => exact soundNext_next (quietMove_sound h _)

/-! ### What closes a step -/

theorem settleStep_sound (h : s.sound = true) : (settleStep s).sound = true :=
  settleCurrents_sound (startYields_sound h)

theorem closeStep_soundNext {o : Host.Outcome State Fault Refusal} (ho : SoundNext o) : SoundNext (closeStep o) := by
  obtain ⟨t, rfl, ht⟩ := ho
  exact soundNext_next (settleStep_sound ht)

/-- Settles O59: no listed event is an instruction word, so the picked move goes on to a sound state, and closing the step keeps the invariant. -/
theorem stepKeepsSound : Obligations.StepKeepsSound := by
  unfold Obligations.StepKeepsSound
  intro s h
  exact closeStep_soundNext (stepMove_soundNext h (pickMove_fine s.turn (moves s) moves_fine))

end Sys2Proof.Machine
end
